-- ==== Sys2Proof/Word.lean ====
section
/-! DEFINITION. The machine's word types (00_scope.md R6). -/

namespace Sys2Proof

/-- One byte of data memory (20_memory.md R60). -/
abbrev Byte := BitVec 8

/-- A register of the window, a data address, or the value of a `CMD` write (00_scope.md R6, D3, D4). -/
abbrev Word := BitVec 64

/-- The accumulator (00_scope.md R6, 10_state.md R37). -/
abbrev Wide := BitVec 128

end Sys2Proof
end

