-- ==== Sys2Proof/Syntax.lean ====
section
/-! DEFINITION. The commands: one constructor per row of spec/opcode_table.json (30_encoding.md R94).
`imm` is the only operand a command word carries (R93); every other operand is a register. -/

namespace Sys2Proof

/-- The 56 mnemonics. -/
inductive Instr where
  /-- `SYS.NOP`, 46_system.md R290 -/
  | sysNop
  /-- `SYS.CLRF`, 46_system.md R291 -/
  | sysClrf
  /-- `SYS.RESET`, 46_system.md R292 -/
  | sysReset
  /-- `FW.PUT imm`, 40_fixed_width_wsel.md R114 -/
  | fwPut (imm : BitVec 8)
  /-- `FW.GET imm`, 40_fixed_width_wsel.md R115 -/
  | fwGet (imm : BitVec 8)
  /-- `WSEL`, 40_fixed_width_wsel.md R117 -/
  | wsel
  /-- `TV.PUT`, 41_tagged_varint.md R134 -/
  | tvPut
  /-- `TV.GET`, 41_tagged_varint.md R135 -/
  | tvGet
  /-- `TV.LEN`, 41_tagged_varint.md R136 -/
  | tvLen
  /-- `GV.ENC`, 42_group_varint.md R151 -/
  | gvEnc
  /-- `GV.DEC`, 42_group_varint.md R152 -/
  | gvDec
  /-- `GV.GETF`, 42_group_varint.md R153 -/
  | gvGetf
  /-- `GV.SIZE`, 42_group_varint.md R154 -/
  | gvSize
  /-- `BP.ENC32`, 43_bp128.md R184 -/
  | bpEnc32
  /-- `BP.ENCD32`, 43_bp128.md R185 -/
  | bpEncd32
  /-- `BP.ENC64`, 43_bp128.md R186 -/
  | bpEnc64
  /-- `BP.ENCD64`, 43_bp128.md R187 -/
  | bpEncd64
  /-- `BP.DEC32`, 43_bp128.md R188 -/
  | bpDec32
  /-- `BP.DECD32`, 43_bp128.md R189 -/
  | bpDecd32
  /-- `BP.DEC64`, 43_bp128.md R190 -/
  | bpDec64
  /-- `BP.DECD64`, 43_bp128.md R191 -/
  | bpDecd64
  /-- `BP.SIZE32`, 43_bp128.md R192 -/
  | bpSize32
  /-- `BP.SIZED32`, 43_bp128.md R193 -/
  | bpSized32
  /-- `BP.SIZE64`, 43_bp128.md R194 -/
  | bpSize64
  /-- `BP.SIZED64`, 43_bp128.md R195 -/
  | bpSized64
  /-- `BP.MAXB32`, 43_bp128.md R196 -/
  | bpMaxb32
  /-- `BP.MAXBD32`, 43_bp128.md R197 -/
  | bpMaxbd32
  /-- `BP.MAXB64`, 43_bp128.md R198 -/
  | bpMaxb64
  /-- `BP.MAXBD64`, 43_bp128.md R199 -/
  | bpMaxbd64
  /-- `BP.BENEF32`, 43_bp128.md R200 -/
  | bpBenef32
  /-- `BP.BENEFD32`, 43_bp128.md R201 -/
  | bpBenefd32
  /-- `BP.BENEF64`, 43_bp128.md R202 -/
  | bpBenef64
  /-- `BP.BENEFD64`, 43_bp128.md R203 -/
  | bpBenefd64
  /-- `BP.SORTED32`, 43_bp128.md R204 -/
  | bpSorted32
  /-- `BP.SORTED64`, 43_bp128.md R205 -/
  | bpSorted64
  /-- `BW.WRITE imm`, 44_elias.md R228 -/
  | bwWrite (imm : BitVec 8)
  /-- `BR.READ imm`, 44_elias.md R229 -/
  | brRead (imm : BitVec 8)
  /-- `BR.MORE imm`, 44_elias.md R230 -/
  | brMore (imm : BitVec 8)
  /-- `EG.PUT`, 44_elias.md R231 -/
  | egPut
  /-- `EG.GET`, 44_elias.md R232 -/
  | egGet
  /-- `EG.BITS`, 44_elias.md R233 -/
  | egBits
  /-- `EG.ENC32`, 44_elias.md R234 -/
  | egEnc32
  /-- `EG.ENC64`, 44_elias.md R235 -/
  | egEnc64
  /-- `EG.DEC32`, 44_elias.md R236 -/
  | egDec32
  /-- `EG.DEC64`, 44_elias.md R237 -/
  | egDec64
  /-- `ED.PUT`, 44_elias.md R238 -/
  | edPut
  /-- `ED.GET`, 44_elias.md R239 -/
  | edGet
  /-- `ED.BITS`, 44_elias.md R240 -/
  | edBits
  /-- `ED.ENC32`, 44_elias.md R241 -/
  | edEnc32
  /-- `ED.ENC64`, 44_elias.md R242 -/
  | edEnc64
  /-- `ED.DEC32`, 44_elias.md R244 -/
  | edDec32
  /-- `ED.DEC64`, 44_elias.md R245 -/
  | edDec64
  /-- `ACC.CLR imm`, 45_acc128.md R272 -/
  | accClr (imm : BitVec 8)
  /-- `ACC.DIGIT imm`, 45_acc128.md R274 -/
  | accDigit (imm : BitVec 8)
  /-- `ACC.STR`, 45_acc128.md R275 -/
  | accStr
  /-- `ACC.CLASS`, 45_acc128.md R277 -/
  | accClass
deriving DecidableEq, Repr

end Sys2Proof
end

