-- ==== Sys2Proof/WellFormed.lean ====
section
/-! DEFINITION. The legal range of each immediate (30_encoding.md R93). -/

namespace Sys2Proof

/-- The least and the greatest legal `IMM` of the instruction (30_encoding.md R93); an instruction that
does not use the field admits 0 alone. -/
def Instr.immRange : Instr → Nat × Nat
  | .fwPut _ | .fwGet _ => (1, 8)
  | .bwWrite _ | .brRead _ => (0, 64)
  | .brMore _ => (0, 255)
  | .accClr _ => (0, 7)
  | .accDigit _ => (0, 9)
  | .sysNop | .sysClrf | .sysReset | .wsel | .tvPut | .tvGet | .tvLen
  | .gvEnc | .gvDec | .gvGetf | .gvSize
  | .bpEnc32 | .bpEncd32 | .bpEnc64 | .bpEncd64 | .bpDec32 | .bpDecd32 | .bpDec64 | .bpDecd64
  | .bpSize32 | .bpSized32 | .bpSize64 | .bpSized64 | .bpMaxb32 | .bpMaxbd32 | .bpMaxb64 | .bpMaxbd64
  | .bpBenef32 | .bpBenefd32 | .bpBenef64 | .bpBenefd64 | .bpSorted32 | .bpSorted64
  | .egPut | .egGet | .egBits | .egEnc32 | .egEnc64 | .egDec32 | .egDec64
  | .edPut | .edGet | .edBits | .edEnc32 | .edEnc64 | .edDec32 | .edDec64
  | .accStr | .accClass => (0, 0)

/-- The instruction's `IMM`; 0 where it does not use the field (30_encoding.md R91, R93). -/
def Instr.imm : Instr → BitVec 8
  | .fwPut imm | .fwGet imm | .bwWrite imm | .brRead imm | .brMore imm | .accClr imm | .accDigit imm => imm
  | .sysNop | .sysClrf | .sysReset | .wsel | .tvPut | .tvGet | .tvLen
  | .gvEnc | .gvDec | .gvGetf | .gvSize
  | .bpEnc32 | .bpEncd32 | .bpEnc64 | .bpEncd64 | .bpDec32 | .bpDecd32 | .bpDec64 | .bpDecd64
  | .bpSize32 | .bpSized32 | .bpSize64 | .bpSized64 | .bpMaxb32 | .bpMaxbd32 | .bpMaxb64 | .bpMaxbd64
  | .bpBenef32 | .bpBenefd32 | .bpBenef64 | .bpBenefd64 | .bpSorted32 | .bpSorted64
  | .egPut | .egGet | .egBits | .egEnc32 | .egEnc64 | .egDec32 | .egDec64
  | .edPut | .edGet | .edBits | .edEnc32 | .edEnc64 | .edDec32 | .edDec64
  | .accStr | .accClass => 0

/-- `IMM` lies in its legal range (30_encoding.md R93). -/
abbrev Instr.WellFormed (i : Instr) : Prop :=
  i.immRange.1 ≤ i.imm.toNat ∧ i.imm.toNat ≤ i.immRange.2

end Sys2Proof
end

