-- ==== Sys2Proof/Decode.lean ====
section
/-! DEFINITION. Decoding the 64-bit value written to `CMD`, and the encoder, both from
30_encoding.md (R90 to R95). -/

namespace Sys2Proof

/-- The field of `n` bits whose least significant bit is bit `lo` (`w[lo+n-1:lo]`, 00_scope.md R9). -/
def Word.field (w : Word) (lo n : Nat) : BitVec n := w.extractLsb' lo n

/-- `w` with the field of `n` bits at `lo` replaced by `v`, every other bit as it was. -/
def Word.withField (w : Word) (lo n : Nat) (v : BitVec n) : Word :=
  (w &&& ~~~(((BitVec.allOnes n).setWidth 64) <<< lo)) ||| ((v.setWidth 64) <<< lo)

/-- Why a value is no command word, in the order in which R92 looks. Each is `ILLEGAL_CMD`
(60_exceptions.md R301); which of them it is cannot be observed. -/
inductive Illegal where
  /-- bits 63:32 are not 0 -/
  | upperHalf
  /-- bits 15:10 or 31:24 are not 0 -/
  | reservedBits
  /-- `OPC` is not in the opcode map (R94, R95) -/
  | unknownOpcode (opc : BitVec 8)
  /-- a field that the opcode does not use is not 0 (R91) -/
  | unusedField
  /-- `IMM` is outside the opcode's legal range (R93) -/
  | immediateRange (i : Instr)
deriving DecidableEq, Repr

/-- One row of the opcode map (R94): the fields the opcode uses besides `OPC`, and the mnemonic that
`(ESZ, DLT)` selects, with its `IMM`. -/
structure OpcodeRow where
  /-- the opcode uses `ESZ` -/
  usesEsz : Bool
  /-- the opcode uses `DLT` -/
  usesDlt : Bool
  /-- the opcode uses `IMM` -/
  usesImm : Bool
  /-- the mnemonic of `ESZ`, `DLT`, `IMM` -/
  mnemonic : Bool → Bool → BitVec 8 → Instr

/-- A row that uses no field. -/
def OpcodeRow.plain (i : Instr) : OpcodeRow := ⟨false, false, false, fun _ _ _ => i⟩

/-- A row that uses `IMM`. -/
def OpcodeRow.withImm (i : BitVec 8 → Instr) : OpcodeRow := ⟨false, false, true, fun _ _ imm => i imm⟩

/-- A row that uses `ESZ`: the mnemonics of `ESZ = 0` and `ESZ = 1`. -/
def OpcodeRow.bySize (narrow wide : Instr) : OpcodeRow :=
  ⟨true, false, false, fun esz _ _ => if esz then wide else narrow⟩

/-- A row that uses `ESZ` and `DLT`: the mnemonics of `(0,0)`, `(0,1)`, `(1,0)`, `(1,1)`. -/
def OpcodeRow.bySizeAndDelta (narrow narrowDelta wide wideDelta : Instr) : OpcodeRow :=
  ⟨true, true, false, fun esz dlt _ =>
    if esz then (if dlt then wideDelta else wide) else (if dlt then narrowDelta else narrow)⟩

/-- The opcode map (30_encoding.md R94). -/
def opcodeRow (opc : BitVec 8) : Option OpcodeRow :=
  match opc.toNat with
  | 0x00 => some (.plain .sysNop)
  | 0x01 => some (.plain .sysClrf)
  | 0x02 => some (.plain .sysReset)
  | 0x10 => some (.withImm .fwPut)
  | 0x11 => some (.withImm .fwGet)
  | 0x12 => some (.plain .wsel)
  | 0x18 => some (.plain .tvPut)
  | 0x19 => some (.plain .tvGet)
  | 0x1A => some (.plain .tvLen)
  | 0x20 => some (.plain .gvEnc)
  | 0x21 => some (.plain .gvDec)
  | 0x22 => some (.plain .gvGetf)
  | 0x23 => some (.plain .gvSize)
  | 0x30 => some (.bySizeAndDelta .bpEnc32 .bpEncd32 .bpEnc64 .bpEncd64)
  | 0x31 => some (.bySizeAndDelta .bpDec32 .bpDecd32 .bpDec64 .bpDecd64)
  | 0x32 => some (.bySizeAndDelta .bpSize32 .bpSized32 .bpSize64 .bpSized64)
  | 0x33 => some (.bySizeAndDelta .bpMaxb32 .bpMaxbd32 .bpMaxb64 .bpMaxbd64)
  | 0x34 => some (.bySizeAndDelta .bpBenef32 .bpBenefd32 .bpBenef64 .bpBenefd64)
  | 0x35 => some (.bySize .bpSorted32 .bpSorted64)
  | 0x40 => some (.withImm .bwWrite)
  | 0x41 => some (.withImm .brRead)
  | 0x42 => some (.withImm .brMore)
  | 0x48 => some (.plain .egPut)
  | 0x49 => some (.plain .egGet)
  | 0x4A => some (.plain .egBits)
  | 0x4B => some (.bySize .egEnc32 .egEnc64)
  | 0x4C => some (.bySize .egDec32 .egDec64)
  | 0x50 => some (.plain .edPut)
  | 0x51 => some (.plain .edGet)
  | 0x52 => some (.plain .edBits)
  | 0x53 => some (.bySize .edEnc32 .edEnc64)
  | 0x54 => some (.bySize .edDec32 .edDec64)
  | 0x60 => some (.withImm .accClr)
  | 0x61 => some (.withImm .accDigit)
  | 0x62 => some (.plain .accStr)
  | 0x63 => some (.plain .accClass)
  | _ => none

/-- Decoding the value written to `CMD` (30_encoding.md R92): total, and a function of the value alone
(R96). -/
def decode (w : Word) : Except Illegal Instr :=
  if w.field 32 32 ≠ 0 then .error .upperHalf
  else if w.field 10 6 ≠ 0 ∨ w.field 24 8 ≠ 0 then .error .reservedBits
  else
    match opcodeRow (w.field 0 8) with
    | none => .error (.unknownOpcode (w.field 0 8))
    | some row =>
      let esz := w.getLsbD 8
      let dlt := w.getLsbD 9
      let imm := w.field 16 8
      if (esz && !row.usesEsz) || (dlt && !row.usesDlt) || (imm != 0 && !row.usesImm) then
        .error .unusedField
      else if (row.mnemonic esz dlt imm).WellFormed then .ok (row.mnemonic esz dlt imm)
      else .error (.immediateRange (row.mnemonic esz dlt imm))

/-- The instruction's `OPC`, `ESZ` and `DLT` (30_encoding.md R94). -/
def Instr.opcode : Instr → Nat × Bool × Bool
  | .sysNop => (0x00, false, false)
  | .sysClrf => (0x01, false, false)
  | .sysReset => (0x02, false, false)
  | .fwPut _ => (0x10, false, false)
  | .fwGet _ => (0x11, false, false)
  | .wsel => (0x12, false, false)
  | .tvPut => (0x18, false, false)
  | .tvGet => (0x19, false, false)
  | .tvLen => (0x1A, false, false)
  | .gvEnc => (0x20, false, false)
  | .gvDec => (0x21, false, false)
  | .gvGetf => (0x22, false, false)
  | .gvSize => (0x23, false, false)
  | .bpEnc32 => (0x30, false, false)
  | .bpEncd32 => (0x30, false, true)
  | .bpEnc64 => (0x30, true, false)
  | .bpEncd64 => (0x30, true, true)
  | .bpDec32 => (0x31, false, false)
  | .bpDecd32 => (0x31, false, true)
  | .bpDec64 => (0x31, true, false)
  | .bpDecd64 => (0x31, true, true)
  | .bpSize32 => (0x32, false, false)
  | .bpSized32 => (0x32, false, true)
  | .bpSize64 => (0x32, true, false)
  | .bpSized64 => (0x32, true, true)
  | .bpMaxb32 => (0x33, false, false)
  | .bpMaxbd32 => (0x33, false, true)
  | .bpMaxb64 => (0x33, true, false)
  | .bpMaxbd64 => (0x33, true, true)
  | .bpBenef32 => (0x34, false, false)
  | .bpBenefd32 => (0x34, false, true)
  | .bpBenef64 => (0x34, true, false)
  | .bpBenefd64 => (0x34, true, true)
  | .bpSorted32 => (0x35, false, false)
  | .bpSorted64 => (0x35, true, false)
  | .bwWrite _ => (0x40, false, false)
  | .brRead _ => (0x41, false, false)
  | .brMore _ => (0x42, false, false)
  | .egPut => (0x48, false, false)
  | .egGet => (0x49, false, false)
  | .egBits => (0x4A, false, false)
  | .egEnc32 => (0x4B, false, false)
  | .egEnc64 => (0x4B, true, false)
  | .egDec32 => (0x4C, false, false)
  | .egDec64 => (0x4C, true, false)
  | .edPut => (0x50, false, false)
  | .edGet => (0x51, false, false)
  | .edBits => (0x52, false, false)
  | .edEnc32 => (0x53, false, false)
  | .edEnc64 => (0x53, true, false)
  | .edDec32 => (0x54, false, false)
  | .edDec64 => (0x54, true, false)
  | .accClr _ => (0x60, false, false)
  | .accDigit _ => (0x61, false, false)
  | .accStr => (0x62, false, false)
  | .accClass => (0x63, false, false)

/-- The command word of an instruction, `OPC + 256·ESZ + 512·DLT + 65536·IMM` (30_encoding.md R94), as
the 64-bit value that starts it. -/
def encode (i : Instr) : Word :=
  BitVec.ofNat 64 (i.opcode.1 + 256 * i.opcode.2.1.toNat + 512 * i.opcode.2.2.toNat + 65536 * i.imm.toNat)

/-- The instruction that the decoder reads from a table row's bits: the low `nbits` bits of `w`, every
higher bit 0. A command is not fetched from memory, so no byte order enters (20_memory.md R61). -/
def decodeTableWord (nbits w : Nat) : Option Instr :=
  if w % 2 ^ nbits < 2 ^ 64 then (decode (BitVec.ofNat 64 (w % 2 ^ nbits))).toOption else none

end Sys2Proof
end

