-- ==== Sys2Proof/Config.lean ====
section
/-! DEFINITION. What the spec fixes once for the machine (00_scope.md R6), the type of the platform's
open parameters (00_scope.md R7), and the free values. -/

namespace Sys2Proof

/-- Values per BP128 block (00_scope.md R6). -/
def Config.blockLen : Nat := 128

/-- The largest group varint field count (00_scope.md R6). -/
def Config.groupMax : Nat := 64

/-- The `INVALID` width sentinel (40_fixed_width_wsel.md R113, D10). -/
def Config.invalidWidth : Nat := 0

/-- The number of data addresses, `2^64` (20_memory.md R60, R68). -/
def Config.addressLimit : Nat := 2 ^ 64

/-- The size of the register window in bytes (10_state.md R21). -/
def Config.windowBytes : Nat := 256

/-- The constant that `ID` reads as (10_state.md R38). -/
def Config.identity : Word := 0x0000000742503132

/-- What a byte of data memory reads as when no memory cell lists it. DESIGN CHOICE, unsafe: the spec
leaves the contents after power-up to the platform (93_implementation_defined.md S9; log 1). -/
def Config.unwrittenByte : Byte := 0

/-- The free bytes: the value of the `n`-th byte drawn. Nothing in Lean knows it. A write phase that
faults leaves its output extent to these (20_memory.md R82; log 3). -/
opaque Config.freeByte : Nat → Byte

/-- The addresses `first`, …, `first + size - 1`. -/
structure Region where
  /-- the lowest address -/
  first : Nat
  /-- how many addresses -/
  size : Nat
deriving DecidableEq, Repr

/-- The open parameters of the platform (00_scope.md R7). A predicate on 64-bit addresses is a finite
union of regions, so a list of regions is every such predicate (log 2). -/
structure Platform where
  /-- `MMIO_BASE`, where the register window stands -/
  mmioBase : Word
  /-- the addresses at which `Readable` holds -/
  readable : List Region
  /-- the addresses at which `Writable` holds -/
  writable : List Region
deriving DecidableEq, Repr

/-- Every address but the 256 of a window at `2^63`. -/
def Config.allButWindow : List Region :=
  [⟨0, 2 ^ 63⟩, ⟨2 ^ 63 + 256, 2 ^ 63 - 256⟩]

/-- The platform that `State.reset` stands on. DESIGN CHOICE, unsafe for a statement that rests on it:
the spec takes the three as arguments (00_scope.md R7; log 2); a statement about every state holds for
every platform. -/
def Config.resetPlatform : Platform :=
  { mmioBase := 0x8000000000000000, readable := Config.allButWindow, writable := Config.allButWindow }

end Sys2Proof
end

