-- ==== Sys2Proof/Machine/State.lean ====
section
/-! DEFINITION. The state of the machine as plain data (10_state.md R20, R21), the host's actions
(60_exceptions.md R333), the fault codes (60_exceptions.md R301), and the state after reset
(10_state.md R42). -/

namespace Sys2Proof.Machine

/-- The registers of the window that hold state (10_state.md R21). `CMD` and `ID` hold none (R20, R31,
R38); `ACC_LO` and `ACC_HI` are the halves of `acc` (R37). -/
structure Regs where
  /-- `STATUS` (R25) -/
  status : Word
  /-- `SRC`, byte address of the source buffer -/
  src : Word
  /-- `SRCLEN`, byte length of an encoded source stream -/
  srclen : Word
  /-- `DST`, byte address of the destination buffer -/
  dst : Word
  /-- `DSTCAP`, byte capacity of the destination buffer -/
  dstcap : Word
  /-- `CNT`, element count or cap -/
  cnt : Word
  /-- `ARG`, scalar argument -/
  arg : Word
  /-- `BITLEN`, bit count of an Elias source stream -/
  bitlen : Word
  /-- `RES`, primary result -/
  res : Word
  /-- `RES2`, secondary result -/
  res2 : Word
  /-- `META_COUNT` (R34) -/
  metaCount : Word
  /-- `META_BLOCKS` (R34) -/
  metaBlocks : Word
  /-- `META_BYTES` (R34) -/
  metaBytes : Word
  /-- `META_LAST` (R34) -/
  metaLast : Word
  /-- `META_MAXBW` (R34) -/
  metaMaxbw : Word
  /-- `META_BITS` (R34) -/
  metaBits : Word
  /-- `BW_BASE`, the bit writer's buffer (R35) -/
  bwBase : Word
  /-- `BW_CAP`, its capacity in bytes (R35) -/
  bwCap : Word
  /-- `BW_POS`, the bit writer's position (R35) -/
  bwPos : Word
  /-- `BR_BASE`, the bit reader's buffer (R36) -/
  brBase : Word
  /-- `BR_END`, the number of bits in its stream (R36) -/
  brEnd : Word
  /-- `BR_POS`, the bit reader's position (R36) -/
  brPos : Word
  /-- `ACC`, the accumulated magnitude (R37) -/
  acc : Wide
  /-- `ACC_NDIG`, digits presented since `ACC.CLR` (R37) -/
  accNdig : Word
  /-- `FADDR`, the fault information word (R32) -/
  faddr : Word
  /-- `FCMD`, the command that faulted (R33) -/
  fcmd : Word
deriving DecidableEq, Repr

/-- Every register at its Reset value (10_state.md R21, R42): all 0. -/
def Regs.reset : Regs :=
  { status := 0, src := 0, srclen := 0, dst := 0, dstcap := 0, cnt := 0, arg := 0, bitlen := 0,
    res := 0, res2 := 0, metaCount := 0, metaBlocks := 0, metaBytes := 0, metaLast := 0,
    metaMaxbw := 0, metaBits := 0, bwBase := 0, bwCap := 0, bwPos := 0, brBase := 0, brEnd := 0,
    brPos := 0, acc := 0, accNdig := 0, faddr := 0, fcmd := 0 }

/-- The data memory (20_memory.md R60): address and byte pairs, addresses strictly rising, no pair equal
to what an unlisted address reads as (`Memory.wf` in Machine/Ops.lean). -/
abbrev Memory := List Host.Cell

/-- What the host, or the platform for it, does between two commands (60_exceptions.md R333). A register
access names its byte offset from `MMIO_BASE`, since no rule depends on `MMIO_BASE` (00_scope.md R7). -/
inductive HostAction where
  /-- a read of `size` bytes at `MMIO_BASE + offset` -/
  | readReg (offset size : Nat)
  /-- a write of `size` bytes at `MMIO_BASE + offset` -/
  | writeReg (offset size : Nat) (value : Word)
  /-- hardware reset (70_reset_and_hazards.md R340) -/
  | reset
  /-- a read of one byte of the data memory -/
  | readMem (address : Word)
  /-- a write of one byte of the data memory -/
  | writeMem (address : Word) (value : Byte)
deriving DecidableEq, Repr

/-- The fault codes 1 to 11 (60_exceptions.md R301). -/
inductive FaultCode where
  /-- 1: the value written to `CMD` is no legal command word -/
  | illegalCmd
  /-- 2: the encoded source ends before the item being decoded -/
  | srcUnderrun
  /-- 3: the output does not fit the destination capacity -/
  | dstOverrun
  /-- 4: an extent would pass the top of the address space -/
  | addrWrap
  /-- 5: source and destination extents intersect -/
  | overlap
  /-- 6: a BP128 header holds a width above the variant's maximum -/
  | badWidth
  /-- 7: a BP128 partial count or block shape is wrong -/
  | badCount
  /-- 8: an input array of a delta command decreases -/
  | nonmonotone
  /-- 9: a delta decoder's running sum reaches `2^E` -/
  | deltaOverflow
  /-- 10: an Elias encoder is given 0 -/
  | zeroInput
  /-- 11: the data memory refuses a byte access -/
  | memFault
deriving DecidableEq, Repr

/-- Why the machine stops with a fault: never. The spec's faults are recorded in `STATUS` and the machine
goes on (60_exceptions.md R306, R308), and nothing is stuck (93_implementation_defined.md, end of 1.2). -/
inductive Fault where
deriving DecidableEq, Repr

/-- Why the model refuses a step. -/
inductive Refusal where
  /-- An instruction without a meaning. Raised by a refused arm of `exec`; there is none. Safe. -/
  | notModelled (mnemonic : String)
  /-- A host access to the window that is not one aligned 64-bit access inside the 256 bytes. Raised by
  the host port; "the model refuses it" (10_state.md R22). Safe: nothing is proved of what follows. -/
  | windowAccess (offset size : Nat)
  /-- An access of the block's own memory port to a byte of its register window that the platform's
  `Readable` or `Writable` admits. Raised by the memory port; "what an access there does is not specified
  and the model refuses it" (20_memory.md R73). Safe: nothing is proved of what follows. -/
  | ownWindow (address : Nat)
deriving DecidableEq, Repr

/-- The whole state. -/
structure State where
  /-- the block's registers -/
  regs : Regs
  /-- the data memory -/
  mem : Memory
  /-- the platform's open parameters, changed by nothing (00_scope.md R7; log 2) -/
  platform : Platform
  /-- the model's own: host actions not yet performed, the next one first (log 4) -/
  pending : List HostAction
  /-- the model's own: the values the host's reads returned, latest first (log 5) -/
  replies : List Word
  /-- the model's own: how many free bytes have been drawn (20_memory.md R82; log 3) -/
  draws : Nat
deriving DecidableEq, Repr

/-- The machine right after reset (10_state.md R42, 70_reset_and_hazards.md R340). -/
def State.reset : State :=
  { regs := Regs.reset, mem := [], platform := Config.resetPlatform, pending := [], replies := [],
    draws := 0 }

end Sys2Proof.Machine
end

