-- ==== Sys2Proof/Machine/Flags.lean ====
section
/-! DEFINITION. The fields of `STATUS` (10_state.md R25 to R30), each with its one reader and its one
writer. -/

namespace Sys2Proof.Machine

/-- `OVF`, bit 0 (10_state.md R25, R26). -/
def Regs.ovf (r : Regs) : Bool := r.status.getLsbD 0

/-- `NEG`, bit 1 (10_state.md R25, R27). -/
def Regs.neg (r : Regs) : Bool := r.status.getLsbD 1

/-- `MALF`, bit 2 (10_state.md R25, R29). -/
def Regs.malf (r : Regs) : Bool := r.status.getLsbD 2

/-- `MODE`, bits 5:4 (10_state.md R25, R28). -/
def Regs.mode (r : Regs) : BitVec 2 := r.status.field 4 2

/-- `FAULT`, bits 15:8 (10_state.md R25, R30). -/
def Regs.fault (r : Regs) : BitVec 8 := r.status.field 8 8

/-- Write `OVF`. -/
def Regs.withOvf (r : Regs) (b : Bool) : Regs := { r with status := r.status.withField 0 1 (BitVec.ofBool b) }

/-- Write `NEG`. -/
def Regs.withNeg (r : Regs) (b : Bool) : Regs := { r with status := r.status.withField 1 1 (BitVec.ofBool b) }

/-- Write `MALF`. -/
def Regs.withMalf (r : Regs) (b : Bool) : Regs := { r with status := r.status.withField 2 1 (BitVec.ofBool b) }

/-- Write `MODE`. -/
def Regs.withMode (r : Regs) (m : BitVec 2) : Regs := { r with status := r.status.withField 4 2 m }

/-- Write `FAULT`. -/
def Regs.withFault (r : Regs) (c : BitVec 8) : Regs := { r with status := r.status.withField 8 8 c }

/-- The value that `STATUS.FAULT` records for each cause (60_exceptions.md R301). -/
def FaultCode.number : FaultCode → BitVec 8
  | .illegalCmd => 1
  | .srcUnderrun => 2
  | .dstOverrun => 3
  | .addrWrap => 4
  | .overlap => 5
  | .badWidth => 6
  | .badCount => 7
  | .nonmonotone => 8
  | .deltaOverflow => 9
  | .zeroInput => 10
  | .memFault => 11

/-- The block is faulted (10_state.md R30, 60_exceptions.md R308). -/
def State.faulted (s : State) : Bool := s.regs.fault != 0

end Sys2Proof.Machine
end

