-- ==== Sys2Proof/Machine/Numbers.lean ====
section
/-! DEFINITION. The functions on numbers, bytes and bit strings that every unit uses
(00_scope.md R8 to R11, 20_memory.md R63, 44_elias.md R220). -/

namespace Sys2Proof.Machine

/-- Number of significant bits (00_scope.md R10). -/
def bitwidth (x : Nat) : Nat := if x = 0 then 0 else Nat.log2 x + 1

/-- `ceil(a / b)` (00_scope.md R8). -/
def ceilDiv (a b : Nat) : Nat := (a + b - 1) / b

/-- Leading zero bits of a byte (00_scope.md R10). -/
def clz8 (y : Byte) : Nat := 8 - bitwidth y.toNat

/-- Leading zero bits of a 64-bit value (00_scope.md R10). -/
def clz64 (x : Word) : Nat := 64 - bitwidth x.toNat

/-- The `w`-byte little-endian sequence of `v mod 2^(8w)` (00_scope.md R11). -/
def le (v : Nat) : Nat → List Byte
  | 0 => []
  | w + 1 => BitVec.ofNat 8 v :: le (v / 256) w

/-- The number a little-endian byte sequence spells (00_scope.md R11). -/
def unle : List Byte → Nat
  | [] => 0
  | b :: s => b.toNat + 256 * unle s

/-- A number as a 64-bit register value, where it is below `2^64` (46_system.md R293). -/
def word (n : Nat) : Word := BitVec.ofNat 64 n

/-- A number as a 64-bit register value, saturated at `2^64 - 1` (43_bp128.md R209,
60_exceptions.md R306, 46_system.md R293). -/
def saturated (n : Nat) : Word := word (min n (2 ^ 64 - 1))

/-- The low `n` bits of `v`, most significant first (44_elias.md R220). -/
def bits (v : Nat) : Nat → List Bool
  | 0 => []
  | n + 1 => v.testBit n :: bits v n

/-- The number a bit string spells, first bit most significant (44_elias.md R220). -/
def val (t : List Bool) : Nat := t.foldl (fun n b => 2 * n + b.toNat) 0

/-- The byte whose bits 7 down to 0 are the first eight of `t`, zeros where `t` is shorter
(20_memory.md R63). -/
def byteOfBits (t : List Bool) : Byte :=
  BitVec.ofNat 8 (val ((List.range 8).map fun k => t.getD k false))

/-- The bytes of a bit string, first bit in bit 7 of the first byte, zero padded to a byte
(20_memory.md R63, 44_elias.md R224, R246). -/
def bytesOfBits (t : List Bool) : List Byte :=
  (List.range (ceilDiv t.length 8)).map fun k => byteOfBits (t.drop (8 * k))

/-- The number `value_0 + value_1·2^b + value_2·2^(2b) + …` (20_memory.md R63, 43_bp128.md R168). -/
def packedNumber (b : Nat) : List Nat → Nat
  | [] => 0
  | x :: xs => x + 2 ^ b * packedNumber b xs

end Sys2Proof.Machine
end

