-- ==== Sys2Proof/Machine/Ops.lean ====
section
/-! DEFINITION. The shared operations: the data memory, the block's memory port, taking a fault and
returning from one, and the common form of a command (20_memory.md, 60_exceptions.md R305 to R309). -/

namespace Sys2Proof.Machine

/-! ### The data memory -/

/-- The byte at an address: the listed one, or what an unlisted address reads as. -/
def Memory.read : Memory → Nat → Byte
  | [], _ => Config.unwrittenByte
  | (k, b) :: rest, a => if k = a then b else Memory.read rest a

/-- Store one byte, keeping the canonical form: the value an unlisted address reads as is not listed. -/
def Memory.write : Memory → Nat → Byte → Memory
  | [], a, b => if b = Config.unwrittenByte then [] else [(a, b)]
  | (k, c) :: rest, a, b =>
    if a < k then (if b = Config.unwrittenByte then (k, c) :: rest else (a, b) :: (k, c) :: rest)
    else if a = k then (if b = Config.unwrittenByte then rest else (a, b) :: rest)
    else (k, c) :: Memory.write rest a b

/-- Store a byte sequence at rising addresses. -/
def Memory.writeBytes : Memory → Nat → List Byte → Memory
  | m, _, [] => m
  | m, a, b :: s => Memory.writeBytes (Memory.write m a b) (a + 1) s

/-- The canonical form: addresses strictly rising, no cell that says what an unlisted address reads as. -/
abbrev Memory.wf (m : Memory) : Prop :=
  m.Pairwise (fun x y => x.1 < y.1) ∧ ∀ c ∈ m, c.2 ≠ Config.unwrittenByte

/-! ### The platform and the memory port -/

/-- The region holds the address. -/
def Region.holds (r : Region) (a : Nat) : Bool := r.first ≤ a && a < r.first + r.size

/-- `Readable(a)` (00_scope.md R7). -/
def canRead (p : Platform) (a : Nat) : Bool := p.readable.any (Region.holds · a)

/-- `Writable(a)` (00_scope.md R7). -/
def canWrite (p : Platform) (a : Nat) : Bool := p.writable.any (Region.holds · a)

/-- The address lies in the block's own register window (10_state.md R21, 20_memory.md R73). DESIGN CHOICE,
unsafe: with `MMIO_BASE` above `2^64 - 256` the window ends at the top of the address space and does not wrap
to address 0; the spec does not say (log 14). -/
def inWindow (p : Platform) (a : Nat) : Bool :=
  p.mmioBase.toNat ≤ a && a < p.mmioBase.toNat + Config.windowBytes

/-- How a command ends before it has completed. -/
inductive Stop where
  /-- `raise Fault(code, info)` (60_exceptions.md R306) -/
  | raise (code : FaultCode) (info : Nat)
  /-- a `MEM_FAULT` of the write phase at `address`; the output extent becomes unspecified
  (20_memory.md R66, R82) -/
  | writeFault (address base len : Nat)
  /-- the model refuses (20_memory.md R73) -/
  | refuse (why : Refusal)
deriving DecidableEq, Repr

/-- A computation of a command: its result, or how it ends early. -/
abbrev Attempt (α : Type) := Except Stop α

/-- `if c: raise Fault(code, info)`. -/
def raiseIf (c : Bool) (code : FaultCode) (info : Nat) : Attempt Unit :=
  if c then .error (.raise code info) else .ok ()

/-- One byte read of the block's port (20_memory.md R64, R71, R73). -/
def portRead (s : State) (a : Nat) : Attempt Byte :=
  if !canRead s.platform a then .error (.raise .memFault a)
  else if inWindow s.platform a then .error (.refuse (.ownWindow a))
  else .ok (s.mem.read a)

/-- `MemReadBytes(a, n)` (20_memory.md R64). -/
def readBytes (s : State) : Nat → Nat → Attempt (List Byte)
  | _, 0 => .ok []
  | a, n + 1 => do
    let b ← portRead s a
    let rest ← readBytes s (a + 1) n
    return b :: rest

/-- `MemRead(a, n)` (20_memory.md R65). -/
def readNumber (s : State) (a n : Nat) : Attempt Nat := do
  let bytes ← readBytes s a n
  return unle bytes

/-- The port admits writes at `a`, …, `a + n - 1`, looked at in rising order; `base`, `len` are the whole
output extent (20_memory.md R66, R73, R82). -/
def portWritable (p : Platform) (base len : Nat) : Nat → Nat → Attempt Unit
  | _, 0 => .ok ()
  | a, n + 1 =>
    if !canWrite p a then .error (.writeFault a base len)
    else if inWindow p a then .error (.refuse (.ownWindow a))
    else portWritable p base len (a + 1) n

/-- `MemWriteBytes(a, out)`: the write phase of a command (20_memory.md R66, R80). -/
def writePhase (s : State) (a : Nat) (out : List Byte) : Attempt State := do
  portWritable s.platform a out.length a out.length
  return { s with mem := s.mem.writeBytes a out }

/-! ### Named updates of the registers -/

/-- `RES <- v`. -/
def State.withRes (s : State) (v : Word) : State := { s with regs := { s.regs with res := v } }

/-- `RES <- v; RES2 <- v2`. -/
def State.withResults (s : State) (v v2 : Word) : State :=
  { s with regs := { s.regs with res := v, res2 := v2 } }

/-- `STATUS.MALF <- b`. -/
def State.withMalf (s : State) (b : Bool) : State := { s with regs := s.regs.withMalf b }

/-- `BW_POS <- p`. -/
def State.withBwPos (s : State) (p : Word) : State := { s with regs := { s.regs with bwPos := p } }

/-- `BR_POS <- p`. -/
def State.withBrPos (s : State) (p : Word) : State := { s with regs := { s.regs with brPos := p } }

/-! ### Taking a fault, and the return from one -/

/-- Fault entry (60_exceptions.md R306): the whole effect of `raise Fault(code, info)` on the registers,
where `cmd` is the value that was written to `CMD`. Nothing is saved and control goes nowhere. -/
def State.takeFault (s : State) (code : FaultCode) (info : Nat) (cmd : Word) : State :=
  { s with regs := { s.regs.withFault code.number with
      faddr := saturated info, fcmd := cmd, res := 0, res2 := 0 } }

/-- Return from a fault (60_exceptions.md R309, 46_system.md R291): the fault record is cleared and
nothing is restored. -/
def State.clearFault (s : State) : State :=
  { s with regs := { s.regs.withFault 0 with faddr := 0, fcmd := 0 } }

/-- The output extent of a faulting write phase: free bytes, each drawn once (20_memory.md R82; log 3). -/
def State.loseExtent (s : State) (base len : Nat) : State :=
  { s with
    mem := s.mem.writeBytes base ((List.range len).map fun k => Config.freeByte (s.draws + k))
    draws := s.draws + len }

/-! ### The common form of a command -/

/-- A command's end: its new state, the fault it raised, or the model's refusal (60_exceptions.md R300,
R306; 20_memory.md R82). -/
def settle (s : State) (cmd : Word) : Attempt State → Host.Outcome State Fault Refusal
  | .ok t => .next t
  | .error (.raise code info) => .next (s.takeFault code info cmd)
  | .error (.writeFault a base len) => .next ((s.takeFault .memFault a cmd).loseExtent base len)
  | .error (.refuse why) => .refused why

/-- The common checks before a command's own pseudocode (60_exceptions.md R305 steps 1 and 2, R308): a
faulted block ignores it, and an immediate outside its range is `ILLEGAL_CMD`, since the word that was
written is then no command word (30_encoding.md R92; log 9). -/
def command (i : Instr) (s : State) (body : Attempt State) : Host.Outcome State Fault Refusal :=
  if s.faulted then .next s
  else if i.WellFormed then settle s (encode i) body
  else .next (s.takeFault .illegalCmd (encode i).toNat (encode i))

end Sys2Proof.Machine
end

