-- ==== Sys2Proof/Machine/Operands.lean ====
section
/-! DEFINITION. The operand forms of the commands: extents, element arrays, encoded sources, outputs and
bit positions (20_memory.md R62, R68, R69, R81; 44_elias.md R225). -/

namespace Sys2Proof.Machine

/-- `CheckRange(B, L)` (20_memory.md R68). -/
def checkRange (base len : Nat) : Attempt Unit :=
  raiseIf (Config.addressLimit < base + len) .addrWrap base

/-- The overlap check of a source and a destination extent (20_memory.md R69). -/
def checkOverlap (sb sl db dl : Nat) : Attempt Unit :=
  raiseIf (0 < sl && 0 < dl && sb < db + dl && db < sb + sl) .overlap db

/-- The extent checks of a command that reads `sl` bytes at `SRC` and writes the buffer
`(DST, DSTCAP)`: source range, destination range, overlap (60_exceptions.md R305 3b, 3c). -/
def checkExtents (s : State) (sl : Nat) : Attempt Unit := do
  checkRange s.regs.src.toNat sl
  checkRange s.regs.dst.toNat s.regs.dstcap.toNat
  checkOverlap s.regs.src.toNat sl s.regs.dst.toNat s.regs.dstcap.toNat

/-- The element size of `ESZ` in bytes (20_memory.md R62). -/
def elementBytes (wide : Bool) : Nat := if wide then 8 else 4

/-- The elements of an input array of `n` elements of `esz` bytes at `a`, in order (20_memory.md R62). -/
def readArray (s : State) (esz : Nat) : Nat → Nat → Attempt (List Nat)
  | _, 0 => .ok []
  | a, n + 1 => do
    let v ← readNumber s a esz
    let rest ← readArray s esz (a + esz) n
    return v :: rest

/-- The bytes of an array of `esz`-byte elements (20_memory.md R62). -/
def arrayBytes (esz : Nat) (vs : List Nat) : List Byte := vs.flatMap fun v => le v esz

/-- The end of a command with output: the capacity check, then the write phase at `DST`
(60_exceptions.md R305 3f, 3g). -/
def writeOutput (s : State) (out : List Byte) : Attempt State := do
  raiseIf (s.regs.dstcap.toNat < out.length) .dstOverrun out.length
  writePhase s s.regs.dst.toNat out

/-- The bit at position `p` of a stream whose buffer starts at `base`, first bit in bit 7
(20_memory.md R63, 44_elias.md R225). -/
def portBit (s : State) (base p : Nat) : Attempt Bool := do
  let b ← portRead s (base + p / 8)
  return b.getLsbD (7 - p % 8)

/-- The bits at positions `p`, …, `p + n - 1`, in order (44_elias.md R225). -/
def portBits (s : State) (base : Nat) : Nat → Nat → Attempt (List Bool)
  | _, 0 => .ok []
  | p, n + 1 => do
    let b ← portBit s base p
    let rest ← portBits s base (p + 1) n
    return b :: rest

end Sys2Proof.Machine
end

