-- ==== Sys2Proof/Machine/Accumulator.lean ====
section
/-! DEFINITION. The 128-bit accumulator and its commands (45_acc128.md). -/

namespace Sys2Proof.Machine

/-- The range the accumulator is checked against (10_state.md R28). -/
inductive AccMode where
  /-- `U64` -/
  | u64
  /-- `I64` -/
  | i64
  /-- `U128` -/
  | u128
  /-- `I128` -/
  | i128
deriving DecidableEq, Repr

/-- The mode of a `MODE` field (10_state.md R28). -/
def accMode (m : BitVec 2) : AccMode :=
  if m = 0 then .u64 else if m = 1 then .i64 else if m = 2 then .u128 else .i128

/-- `LIM(mode, neg)` (R271). -/
def accLimit : AccMode → Bool → Nat
  | .u64, _ => 2 ^ 64 - 1
  | .i64, false => 2 ^ 63 - 1
  | .i64, true => 2 ^ 63
  | .u128, _ => 2 ^ 128 - 1
  | .i128, false => 2 ^ 127 - 1
  | .i128, true => 2 ^ 127

/-- `LIM(STATUS.MODE, STATUS.NEG)` (R273). -/
def Regs.accLimit (r : Regs) : Nat := Machine.accLimit (accMode r.mode) r.neg

/-- The digit step `step(d)` (R273): the product and the sum are exact, and an overflow leaves `ACC` as
it was. -/
def accStep (s : State) (d : Nat) : State :=
  let counted := { s.regs with accNdig := s.regs.accNdig + 1 }
  let x := s.regs.acc.toNat * 10 + d
  if s.regs.ovf then { s with regs := counted }
  else if s.regs.accLimit < x then { s with regs := counted.withOvf true }
  else { s with regs := { counted with acc := BitVec.ofNat 128 x } }

/-- `classify(m, neg, ovf)` (R276): 0 refuse, 1 `i64`, 2 `u64`, 3 `i128`, 4 `u128`. -/
def classify (m : Nat) (neg ovf : Bool) : Nat :=
  if ovf then 0
  else if neg then
    if m ≤ 2 ^ 63 then 1 else if m ≤ 2 ^ 127 then 3 else 0
  else
    if m ≤ 2 ^ 63 - 1 then 1 else if m ≤ 2 ^ 64 - 1 then 2 else 4

/-- The run of ASCII digits at `a` with at most `n` bytes: the digits, and the byte that ended it or 256
(R275). -/
def digitRun (s : State) : Nat → Nat → Attempt (List Nat × Nat)
  | _, 0 => .ok ([], 256)
  | a, n + 1 => do
    let b ← portRead s a
    let c := b.toNat
    if c < 0x30 || 0x39 < c then return ([], c)
    let r ← digitRun s (a + 1) n
    return ((c - 0x30) :: r.1, r.2)

/-- `ACC.CLR imm` (R272): `IMM[1:0]` is the mode, `IMM[2]` the sign. -/
def execAccClr (imm : BitVec 8) (s : State) : Host.Outcome State Fault Refusal :=
  command (.accClr imm) s
    (.ok { s with regs :=
      { (((s.regs.withOvf false).withNeg (imm.getLsbD 2)).withMode (imm.extractLsb' 0 2)) with
        acc := 0, accNdig := 0 } })

/-- `ACC.DIGIT imm` (R274). -/
def execAccDigit (imm : BitVec 8) (s : State) : Host.Outcome State Fault Refusal :=
  command (.accDigit imm) s (.ok (accStep s imm.toNat))

/-- `ACC.STR` (R275): the steps take effect only if the command completes. -/
def execAccStr (s : State) : Host.Outcome State Fault Refusal :=
  command .accStr s do
    checkRange s.regs.src.toNat s.regs.cnt.toNat
    let r ← digitRun s s.regs.src.toNat s.regs.cnt.toNat
    return (r.1.foldl accStep s).withResults (word r.1.length) (word r.2)

/-- `ACC.CLASS` (R277). -/
def execAccClass (s : State) : Host.Outcome State Fault Refusal :=
  command .accClass s
    (.ok (s.withRes (word (classify s.regs.acc.toNat s.regs.neg s.regs.ovf))))

end Sys2Proof.Machine
end

