-- ==== Sys2Proof/Machine/FixedWidth.lean ====
section
/-! DEFINITION. The width functions, the width-selector table, and the fixed-width commands
(40_fixed_width_wsel.md). -/

namespace Sys2Proof.Machine

/-- The width tag `W(x)` (R111). -/
def byteWidth (x : Nat) : Nat := max 1 (ceilDiv (bitwidth x) 8)

/-- The group clamp `snap(w)` (R112). -/
def snap (w : Nat) : Nat := if w ≤ 1 then 1 else if w ≤ 2 then 2 else if w ≤ 4 then 4 else 8

/-- `S(x) = snap(W(x))` (R112). -/
def snappedWidth (x : Nat) : Nat := snap (byteWidth x)

/-- The 2-bit code of a snapped width (R112). -/
def widthCode (w : Nat) : Nat := if w ≤ 1 then 0 else if w ≤ 2 then 1 else if w ≤ 4 then 2 else 3

/-- The width a 2-bit code stands for, `2^c` (R112). -/
def widthOfCode (c : Nat) : Nat := 2 ^ c

/-- One row of the width-selector table (R118). -/
structure WidthRow where
  /-- the byte width `W` -/
  w : Nat
  /-- the snapped width `S` -/
  s : Nat
  /-- the code of the snapped width -/
  code : Nat
  /-- the tagged-varint length `T` -/
  t : Nat
  /-- the bit width `b` -/
  b : Nat
deriving DecidableEq, Repr

/-- Rows 0 to 15 of `WTABLE`, by `clz64` (R118). -/
def widthTable0 : List WidthRow :=
  [⟨8, 8, 3, 9, 64⟩, ⟨8, 8, 3, 9, 63⟩, ⟨8, 8, 3, 9, 62⟩, ⟨8, 8, 3, 9, 61⟩,
   ⟨8, 8, 3, 9, 60⟩, ⟨8, 8, 3, 9, 59⟩, ⟨8, 8, 3, 9, 58⟩, ⟨8, 8, 3, 9, 57⟩,
   ⟨7, 8, 3, 8, 56⟩, ⟨7, 8, 3, 8, 55⟩, ⟨7, 8, 3, 8, 54⟩, ⟨7, 8, 3, 8, 53⟩,
   ⟨7, 8, 3, 8, 52⟩, ⟨7, 8, 3, 8, 51⟩, ⟨7, 8, 3, 8, 50⟩, ⟨7, 8, 3, 7, 49⟩]

/-- Rows 16 to 31. -/
def widthTable16 : List WidthRow :=
  [⟨6, 8, 3, 7, 48⟩, ⟨6, 8, 3, 7, 47⟩, ⟨6, 8, 3, 7, 46⟩, ⟨6, 8, 3, 7, 45⟩,
   ⟨6, 8, 3, 7, 44⟩, ⟨6, 8, 3, 7, 43⟩, ⟨6, 8, 3, 6, 42⟩, ⟨6, 8, 3, 6, 41⟩,
   ⟨5, 8, 3, 6, 40⟩, ⟨5, 8, 3, 6, 39⟩, ⟨5, 8, 3, 6, 38⟩, ⟨5, 8, 3, 6, 37⟩,
   ⟨5, 8, 3, 6, 36⟩, ⟨5, 8, 3, 5, 35⟩, ⟨5, 8, 3, 5, 34⟩, ⟨5, 8, 3, 5, 33⟩]

/-- Rows 32 to 47. -/
def widthTable32 : List WidthRow :=
  [⟨4, 4, 2, 5, 32⟩, ⟨4, 4, 2, 5, 31⟩, ⟨4, 4, 2, 5, 30⟩, ⟨4, 4, 2, 5, 29⟩,
   ⟨4, 4, 2, 4, 28⟩, ⟨4, 4, 2, 4, 27⟩, ⟨4, 4, 2, 4, 26⟩, ⟨4, 4, 2, 4, 25⟩,
   ⟨3, 4, 2, 4, 24⟩, ⟨3, 4, 2, 4, 23⟩, ⟨3, 4, 2, 4, 22⟩, ⟨3, 4, 2, 3, 21⟩,
   ⟨3, 4, 2, 3, 20⟩, ⟨3, 4, 2, 3, 19⟩, ⟨3, 4, 2, 3, 18⟩, ⟨3, 4, 2, 3, 17⟩]

/-- Rows 48 to 64. -/
def widthTable48 : List WidthRow :=
  [⟨2, 2, 1, 3, 16⟩, ⟨2, 2, 1, 3, 15⟩, ⟨2, 2, 1, 2, 14⟩, ⟨2, 2, 1, 2, 13⟩,
   ⟨2, 2, 1, 2, 12⟩, ⟨2, 2, 1, 2, 11⟩, ⟨2, 2, 1, 2, 10⟩, ⟨2, 2, 1, 2, 9⟩,
   ⟨1, 1, 0, 2, 8⟩, ⟨1, 1, 0, 1, 7⟩, ⟨1, 1, 0, 1, 6⟩, ⟨1, 1, 0, 1, 5⟩,
   ⟨1, 1, 0, 1, 4⟩, ⟨1, 1, 0, 1, 3⟩, ⟨1, 1, 0, 1, 2⟩, ⟨1, 1, 0, 1, 1⟩,
   ⟨1, 1, 0, 1, 0⟩]

/-- `WTABLE`, the constant of 65 rows that `clz64(x)` indexes (R118, 10_state.md R39), as the spec prints
it. -/
def widthTable : List WidthRow := widthTable0 ++ widthTable16 ++ widthTable32 ++ widthTable48

/-- `WTABLE[clz64(x)]` (R117). -/
def widthRow (x : Word) : WidthRow := widthTable.getD (clz64 x) ⟨0, 0, 0, 0, 0⟩

/-- The packing of a row into `RES` (R117). -/
def WidthRow.packed (r : WidthRow) : Nat :=
  r.w + 16 * r.s + 256 * r.code + 4096 * r.t + 65536 * r.b

/-- `FW.PUT imm` (R114). -/
def execFwPut (imm : BitVec 8) (s : State) : Host.Outcome State Fault Refusal :=
  command (.fwPut imm) s do
    checkRange s.regs.dst.toNat s.regs.dstcap.toNat
    let t ← writeOutput s (le s.regs.arg.toNat imm.toNat)
    return t.withRes (word imm.toNat)

/-- `FW.GET imm` (R115). -/
def execFwGet (imm : BitVec 8) (s : State) : Host.Outcome State Fault Refusal :=
  command (.fwGet imm) s do
    checkRange s.regs.src.toNat s.regs.srclen.toNat
    raiseIf (s.regs.srclen.toNat < imm.toNat) .srcUnderrun imm.toNat
    let v ← readNumber s s.regs.src.toNat imm.toNat
    return s.withResults (word v) (word imm.toNat)

/-- `WSEL` (R117). -/
def execWsel (s : State) : Host.Outcome State Fault Refusal :=
  command .wsel s
    (.ok (s.withResults (word (widthRow s.regs.arg).packed) (word (clz64 s.regs.arg))))

end Sys2Proof.Machine
end

