-- ==== Sys2Proof/Machine/TaggedVarint.lean ====
section
/-! DEFINITION. The tagged varint and its commands (41_tagged_varint.md). -/

namespace Sys2Proof.Machine

/-- The length of the shortest tagged varint of a value (R130). -/
def tvLength (v : Nat) : Nat :=
  if bitwidth v ≤ 7 then 1 else if bitwidth v ≤ 56 then ceilDiv (bitwidth v) 7 else 9

/-- `tv_encode(v)` (R131). -/
def tvEncode (v : Nat) : List Byte :=
  if tvLength v = 9 then 0 :: le v 8
  else
    let z := tvLength v - 1
    let p := 7 - z
    BitVec.ofNat 8 (2 ^ p + v % 2 ^ p) :: le (v / 2 ^ p) z

/-- The length that a first byte announces (R130, R132). -/
def tvAnnounced (first : Byte) : Nat := clz8 first + 1

/-- The value of a tagged varint whose bytes are all there (R132). -/
def tvValue : List Byte → Nat
  | [] => 0
  | first :: rest =>
    let z := clz8 first
    if z = 8 then unle (rest.take 8)
    else first.toNat % 2 ^ (7 - z) + 2 ^ (7 - z) * unle (rest.take z)

/-- The tagged varint at offset `off` of an encoded source of `len` bytes at `base`: its value and its
length (R135; `tv_get(off)` of 43_bp128.md R208). -/
def tvGetAt (s : State) (base len off : Nat) : Attempt (Nat × Nat) := do
  raiseIf (len < off + 1) .srcUnderrun (off + 1)
  let first ← portRead s (base + off)
  raiseIf (len < off + tvAnnounced first) .srcUnderrun (off + tvAnnounced first)
  let bytes ← readBytes s (base + off) (tvAnnounced first)
  return (tvValue bytes, tvAnnounced first)

/-- `TV.PUT` (R134). -/
def execTvPut (s : State) : Host.Outcome State Fault Refusal :=
  command .tvPut s do
    checkRange s.regs.dst.toNat s.regs.dstcap.toNat
    let out := tvEncode s.regs.arg.toNat
    let t ← writeOutput s out
    return t.withRes (word out.length)

/-- `TV.GET` (R135). -/
def execTvGet (s : State) : Host.Outcome State Fault Refusal :=
  command .tvGet s do
    checkRange s.regs.src.toNat s.regs.srclen.toNat
    let r ← tvGetAt s s.regs.src.toNat s.regs.srclen.toNat 0
    return s.withResults (word r.1) (word r.2)

/-- `TV.LEN` (R136). -/
def execTvLen (s : State) : Host.Outcome State Fault Refusal :=
  command .tvLen s (.ok (s.withRes (word (tvLength s.regs.arg.toNat))))

end Sys2Proof.Machine
end

