-- ==== Sys2Proof/Machine/Bp128.lean ====
section
/-! DEFINITION. The BP128 codec, plain and delta, 32-bit and 64-bit, and its commands (43_bp128.md). -/

namespace Sys2Proof.Machine

/-- A variant `(E, delta)`: `wide` is `ESZ`, `delta` is `DLT` (R165). -/
structure Variant where
  /-- 64-bit elements -/
  wide : Bool
  /-- the blocks hold deltas -/
  delta : Bool
deriving DecidableEq, Repr

/-- The element size in bytes (R165). -/
def Variant.esz (v : Variant) : Nat := elementBytes v.wide

/-- The element width `E` in bits (R165). -/
def Variant.width (v : Variant) : Nat := 8 * v.esz

/-! ### Blocks and streams -/

/-- `blockwidth(x)` (R166): the bit width of the largest value, 0 if there is none. -/
def blockWidth (x : List Nat) : Nat := bitwidth (x.foldl max 0)

/-- `pack(x, b)` (R168). -/
def pack (x : List Nat) (b : Nat) : List Byte := le (packedNumber b x) (ceilDiv (x.length * b) 8)

/-- `unpack(s, m, b)` (R169). -/
def unpack (s : List Byte) (m b : Nat) : List Nat :=
  (List.range m).map fun i => unle s / 2 ^ (i * b) % 2 ^ b

/-- One block: full if it holds 128 values, partial otherwise (R167). -/
def encodeBlock (x : List Nat) : List Byte :=
  if x.length = Config.blockLen then BitVec.ofNat 8 (blockWidth x) :: pack x (blockWidth x)
  else BitVec.ofNat 8 (128 + blockWidth x) :: BitVec.ofNat 8 x.length :: pack x (blockWidth x)

/-- The split into full blocks and at most one partial trailing block (R170). -/
def splitBlocks (e : List Nat) : List (List Nat) :=
  (List.range (e.length / Config.blockLen)).map
      (fun j => (e.drop (Config.blockLen * j)).take Config.blockLen)
    ++ if e.length % Config.blockLen = 0 then []
       else [e.drop (e.length - e.length % Config.blockLen)]

/-- `encode_blocks(e)` (R170). -/
def encodeBlocks (e : List Nat) : List Byte := (splitBlocks e).flatMap encodeBlock

/-- `deltas(V)` (R172); used only where `V` does not decrease. -/
def deltas : List Nat → List Nat
  | x :: y :: rest => (y - x) :: deltas (y :: rest)
  | _ => []

/-- The values that go into the blocks: the values, or their deltas (R171 to R176). -/
def blockValues (v : Variant) (vs : List Nat) : List Nat := if v.delta then deltas vs else vs

/-- What stands before the blocks: the count of a 64-bit stream, the first value of a delta stream
(R171, R173, R174, R175). -/
def streamHead (v : Variant) (vs : List Nat) : List Byte :=
  (if v.wide then tvEncode vs.length else [])
    ++ if v.delta then (match vs with | [] => [] | x :: _ => tvEncode x) else []

/-- `stream(E, delta, V)` (R171, R173, R174, R175). -/
def bpStream (v : Variant) (vs : List Nat) : List Byte :=
  streamHead v vs ++ encodeBlocks (blockValues v vs)

/-- The least `i ≥ 1` with `V_i < V_{i-1}`, looked for from the second element, whose index is `i`
(R207). -/
def firstDecrease : Nat → List Nat → Option Nat
  | i, x :: y :: rest => if y < x then some i else firstDecrease (i + 1) (y :: rest)
  | _, _ => none

/-- The `NONMONOTONE` check of a delta command, none for a plain one (R193, R207). -/
def checkMonotone (v : Variant) (vs : List Nat) : Attempt Unit :=
  if v.delta then
    match firstDecrease 1 vs with
    | some i => .error (.raise .nonmonotone i)
    | none => .ok ()
  else .ok ()

/-! ### Encoders -/

/-- `META_LAST` for `k` values in blocks (R176). -/
def lastBlockSize (k : Nat) : Nat :=
  if k = 0 then 0 else if k % Config.blockLen = 0 then Config.blockLen else k % Config.blockLen

/-- The metadata record of an encoder (R176); `META_BITS` is left alone (10_state.md R34). -/
def State.withBpMeta (s : State) (v : Variant) (vs : List Nat) : State :=
  let e := blockValues v vs
  { s with regs := { s.regs with
      metaCount := word vs.length
      metaBlocks := word (ceilDiv e.length Config.blockLen)
      metaBytes := word (bpStream v vs).length
      metaLast := word (lastBlockSize e.length)
      metaMaxbw := word (((splitBlocks e).map blockWidth).foldl max 0) } }

/-- The common form of the four encoders (R207). -/
def bpEncode (i : Instr) (v : Variant) (s : State) : Host.Outcome State Fault Refusal :=
  command i s do
    checkExtents s (v.esz * s.regs.cnt.toNat)
    let vs ← readArray s v.esz s.regs.src.toNat s.regs.cnt.toNat
    checkMonotone v vs
    let t ← writeOutput s (bpStream v vs)
    return (t.withBpMeta v vs).withRes (word (bpStream v vs).length)

/-- `BP.ENC32` (R184). -/
def execBpEnc32 (s : State) : Host.Outcome State Fault Refusal := bpEncode .bpEnc32 ⟨false, false⟩ s

/-- `BP.ENCD32` (R185). -/
def execBpEncd32 (s : State) : Host.Outcome State Fault Refusal := bpEncode .bpEncd32 ⟨false, true⟩ s

/-- `BP.ENC64` (R186). -/
def execBpEnc64 (s : State) : Host.Outcome State Fault Refusal := bpEncode .bpEnc64 ⟨true, false⟩ s

/-- `BP.ENCD64` (R187). -/
def execBpEncd64 (s : State) : Host.Outcome State Fault Refusal := bpEncode .bpEncd64 ⟨true, true⟩ s

/-! ### Decoders -/

/-- A parsed block (R178). -/
structure ParsedBlock where
  /-- its values -/
  values : List Nat
  /-- bit 7 of the header: a partial block -/
  short : Bool
  /-- the offset just past it -/
  next : Nat
deriving DecidableEq, Repr

/-- The element count of the block whose header byte is `h` at offset `off` (R178). -/
def blockCount (s : State) (h off : Nat) : Attempt Nat :=
  if 128 ≤ h then do
    raiseIf (s.regs.srclen.toNat < off + 2) .srcUnderrun (off + 2)
    let m ← portRead s (s.regs.src.toNat + off + 1)
    raiseIf (m.toNat = 0 || 127 < m.toNat) .badCount (off + 1)
    return m.toNat
  else .ok Config.blockLen

/-- `parse_block(off)` (R178). -/
def parseBlock (s : State) (v : Variant) (off : Nat) : Attempt ParsedBlock := do
  raiseIf (s.regs.srclen.toNat < off + 1) .srcUnderrun (off + 1)
  let header ← portRead s (s.regs.src.toNat + off)
  let h := header.toNat
  let b := h % 128
  raiseIf (v.width < b) .badWidth off
  let m ← blockCount s h off
  let start := off + if 128 ≤ h then 2 else 1
  let pl := ceilDiv (m * b) 8
  raiseIf (s.regs.srclen.toNat < start + pl) .srcUnderrun (start + pl)
  let payload ← readBytes s (s.regs.src.toNat + start) pl
  return { values := unpack payload m b, short := decide (128 ≤ h), next := start + pl }

/-- The running sums of deltas after `prev`, the first at output index `k` (R181). -/
def prefixSums (width : Nat) : Nat → Nat → List Nat → Attempt (List Nat)
  | _, _, [] => .ok []
  | prev, k, d :: ds => do
    raiseIf (2 ^ width ≤ prev + d) .deltaOverflow k
    let rest ← prefixSums width (prev + d) (k + 1) ds
    return (prev + d) :: rest

/-- The values that the contents of one block stand for: themselves, or their sums onto the last value of a
delta stream's output, which always has a first one (R181). -/
def blockOutput (v : Variant) (out xs : List Nat) : Attempt (List Nat) :=
  if v.delta then prefixSums v.width (out.getLastD 0) out.length xs else .ok xs

/-- `produce` on the values of one block (R179). -/
def produce (v : Variant) (out xs : List Nat) : Attempt (List Nat) := do
  let ys ← blockOutput v out xs
  return out ++ ys

/-- `decode_blocks32(off, T)` (R179). Each block takes at least one byte, so `SRCLEN` rounds suffice;
the first argument counts them. Answers the output and the offset reached. -/
def decodeBlocks32 (s : State) (v : Variant) (cap : Nat) : Nat → Nat → List Nat → Attempt (List Nat × Nat)
  | 0, off, out => .ok (out, off)
  | n + 1, off, out =>
    if cap ≤ out.length || s.regs.srclen.toNat ≤ off then .ok (out, off)
    else do
      let blk ← parseBlock s v off
      let out' ← produce v out (blk.values.take (cap - out.length))
      if blk.short then return (out', blk.next)
      decodeBlocks32 s v cap n blk.next out'

/-- `decode_blocks64(off, T, R)` (R179), `owed` being `R`. Each block takes at least one byte, so
`SRCLEN + 1` rounds suffice: a round past them would find the source used up. -/
def decodeBlocks64 (s : State) (v : Variant) (cap : Nat) :
    Nat → Nat → Nat → List Nat → Attempt (List Nat × Nat)
  | 0, off, _, out =>
    if cap ≤ out.length then .ok (out, off) else .error (.raise .srcUnderrun (off + 1))
  | n + 1, off, owed, out =>
    if cap ≤ out.length then .ok (out, off)
    else do
      let blk ← parseBlock s v off
      raiseIf (blk.short && blk.values.length != owed) .badCount (off + 1)
      raiseIf (!blk.short && decide (owed < Config.blockLen)) .badCount off
      let out' ← produce v out (blk.values.take (cap - out.length))
      decodeBlocks64 s v cap n blk.next (owed - blk.values.length) out'

/-- The tagged varint at offset `off` of the source (`tv_get(off)`, R208). -/
def sourceVarint (s : State) (off : Nat) : Attempt (Nat × Nat) :=
  tvGetAt s s.regs.src.toNat s.regs.srclen.toNat off

/-- The first value of a delta stream must fit the element (R181, R189). -/
def checkFirst (v : Variant) (first : Nat) : Attempt Unit :=
  raiseIf (2 ^ v.width ≤ first) .deltaOverflow 0

/-- The decode of a 32-bit stream: the output and the bytes consumed (R188, R189). -/
def decodeStream32 (s : State) (v : Variant) : Attempt (List Nat × Nat) :=
  if v.delta then
    if s.regs.cnt.toNat = 0 || s.regs.srclen.toNat = 0 then .ok ([], 0)
    else do
      let first ← sourceVarint s 0
      checkFirst v first.1
      decodeBlocks32 s v s.regs.cnt.toNat s.regs.srclen.toNat first.2 [first.1]
  else decodeBlocks32 s v s.regs.cnt.toNat s.regs.srclen.toNat 0 []

/-- The decode of a 64-bit stream: the output and the bytes consumed (R190, R191). -/
def decodeStream64 (s : State) (v : Variant) : Attempt (List Nat × Nat) := do
  let count ← sourceVarint s 0
  let cap := min count.1 s.regs.cnt.toNat
  if v.delta then
    if count.1 = 0 || s.regs.cnt.toNat = 0 then return ([], count.2)
    let first ← sourceVarint s count.2
    checkFirst v first.1
    decodeBlocks64 s v cap (s.regs.srclen.toNat + 1) (count.2 + first.2) (count.1 - 1) [first.1]
  else decodeBlocks64 s v cap (s.regs.srclen.toNat + 1) count.2 count.1 []

/-- The decode of a variant's stream: the output and the bytes consumed (R188 to R191). -/
def decodeStream (s : State) (v : Variant) : Attempt (List Nat × Nat) :=
  if v.wide then decodeStream64 s v else decodeStream32 s v

/-- The common form of the four decoders (R208). -/
def bpDecode (i : Instr) (v : Variant) (s : State) : Host.Outcome State Fault Refusal :=
  command i s do
    checkExtents s s.regs.srclen.toNat
    let r ← decodeStream s v
    let t ← writeOutput s (arrayBytes v.esz r.1)
    return t.withResults (word r.1.length) (word r.2)

/-- `BP.DEC32` (R188). -/
def execBpDec32 (s : State) : Host.Outcome State Fault Refusal := bpDecode .bpDec32 ⟨false, false⟩ s

/-- `BP.DECD32` (R189). -/
def execBpDecd32 (s : State) : Host.Outcome State Fault Refusal := bpDecode .bpDecd32 ⟨false, true⟩ s

/-- `BP.DEC64` (R190). -/
def execBpDec64 (s : State) : Host.Outcome State Fault Refusal := bpDecode .bpDec64 ⟨true, false⟩ s

/-- `BP.DECD64` (R191). -/
def execBpDecd64 (s : State) : Host.Outcome State Fault Refusal := bpDecode .bpDecd64 ⟨true, true⟩ s

/-! ### Sizes and queries -/

/-- `bp_size(E, delta, V)` (R183). -/
def bpSize (v : Variant) (vs : List Nat) : Nat := (bpStream v vs).length

/-- The common form of the size and benefit queries: the array is read, checked, and `answer` of its
values goes to `RES` (R192 to R195, R200 to R203). -/
def bpQuery (i : Instr) (v : Variant) (s : State) (answer : List Nat → Word) :
    Host.Outcome State Fault Refusal :=
  command i s do
    checkRange s.regs.src.toNat (v.esz * s.regs.cnt.toNat)
    let vs ← readArray s v.esz s.regs.src.toNat s.regs.cnt.toNat
    checkMonotone v vs
    return s.withRes (answer vs)

/-- The answer of a size query (R192, R209). -/
def sizeAnswer (v : Variant) (vs : List Nat) : Word := saturated (bpSize v vs)

/-- The answer of a benefit query, compared before any saturation (R200). -/
def benefAnswer (v : Variant) (vs : List Nat) : Word := if bpSize v vs < v.esz * vs.length then 1 else 0

/-- `BP.SIZE32` (R192). -/
def execBpSize32 (s : State) : Host.Outcome State Fault Refusal :=
  bpQuery .bpSize32 ⟨false, false⟩ s (sizeAnswer ⟨false, false⟩)

/-- `BP.SIZED32` (R193). -/
def execBpSized32 (s : State) : Host.Outcome State Fault Refusal :=
  bpQuery .bpSized32 ⟨false, true⟩ s (sizeAnswer ⟨false, true⟩)

/-- `BP.SIZE64` (R194). -/
def execBpSize64 (s : State) : Host.Outcome State Fault Refusal :=
  bpQuery .bpSize64 ⟨true, false⟩ s (sizeAnswer ⟨true, false⟩)

/-- `BP.SIZED64` (R195). -/
def execBpSized64 (s : State) : Host.Outcome State Fault Refusal :=
  bpQuery .bpSized64 ⟨true, true⟩ s (sizeAnswer ⟨true, true⟩)

/-- `F(n, esz)` (R182). -/
def sourceBound (n esz : Nat) : Nat :=
  n / Config.blockLen * (1 + Config.blockLen * esz)
    + if 0 < n % Config.blockLen then 2 + n % Config.blockLen * esz else 0

/-- `P(E, delta)` (R182). -/
def prefixAllowance (v : Variant) : Nat :=
  if v.wide then (if v.delta then 18 else 9) else (if v.delta then 5 else 0)

/-- `maxbytes(E, delta, n)` (R182). -/
def maxBytes (v : Variant) (n : Nat) : Nat := sourceBound n v.esz + prefixAllowance v

/-- The common form of the four buffer bounds (R196 to R199, R209). -/
def bpMaxBytes (i : Instr) (v : Variant) (s : State) : Host.Outcome State Fault Refusal :=
  command i s
    (.ok (s.withResults (saturated (maxBytes v s.regs.cnt.toNat))
      (saturated (sourceBound s.regs.cnt.toNat v.esz))))

/-- `BP.MAXB32` (R196). -/
def execBpMaxb32 (s : State) : Host.Outcome State Fault Refusal := bpMaxBytes .bpMaxb32 ⟨false, false⟩ s

/-- `BP.MAXBD32` (R197). -/
def execBpMaxbd32 (s : State) : Host.Outcome State Fault Refusal := bpMaxBytes .bpMaxbd32 ⟨false, true⟩ s

/-- `BP.MAXB64` (R198). -/
def execBpMaxb64 (s : State) : Host.Outcome State Fault Refusal := bpMaxBytes .bpMaxb64 ⟨true, false⟩ s

/-- `BP.MAXBD64` (R199). -/
def execBpMaxbd64 (s : State) : Host.Outcome State Fault Refusal := bpMaxBytes .bpMaxbd64 ⟨true, true⟩ s

/-- `BP.BENEF32` (R200). -/
def execBpBenef32 (s : State) : Host.Outcome State Fault Refusal :=
  bpQuery .bpBenef32 ⟨false, false⟩ s (benefAnswer ⟨false, false⟩)

/-- `BP.BENEFD32` (R201). -/
def execBpBenefd32 (s : State) : Host.Outcome State Fault Refusal :=
  bpQuery .bpBenefd32 ⟨false, true⟩ s (benefAnswer ⟨false, true⟩)

/-- `BP.BENEF64` (R202). -/
def execBpBenef64 (s : State) : Host.Outcome State Fault Refusal :=
  bpQuery .bpBenef64 ⟨true, false⟩ s (benefAnswer ⟨true, false⟩)

/-- `BP.BENEFD64` (R203). -/
def execBpBenefd64 (s : State) : Host.Outcome State Fault Refusal :=
  bpQuery .bpBenefd64 ⟨true, true⟩ s (benefAnswer ⟨true, true⟩)

/-- The answer of `isSorted`: the values do not decrease (R204). -/
def sortedAnswer (vs : List Nat) : Word := if (firstDecrease 1 vs).isNone then 1 else 0

/-- `BP.SORTED32` (R204). -/
def execBpSorted32 (s : State) : Host.Outcome State Fault Refusal :=
  bpQuery .bpSorted32 ⟨false, false⟩ s sortedAnswer

/-- `BP.SORTED64` (R205). -/
def execBpSorted64 (s : State) : Host.Outcome State Fault Refusal :=
  bpQuery .bpSorted64 ⟨true, false⟩ s sortedAnswer

end Sys2Proof.Machine
end

