-- ==== Sys2Proof/Machine/Elias.lean ====
section
/-! DEFINITION. The bit writer, the bit reader, Elias Gamma and Elias Delta, and their commands
(44_elias.md). -/

namespace Sys2Proof.Machine

/-! ### The codes -/

/-- `gamma(n)`, `n ≥ 1` (R221). -/
def gammaCode (n : Nat) : List Bool :=
  List.replicate (bitwidth n - 1) false ++ bits n (bitwidth n)

/-- `delta(n)`, `n ≥ 1` (R222). -/
def deltaCode (n : Nat) : List Bool := gammaCode (bitwidth n) ++ bits n (bitwidth n - 1)

/-- `gammaBits(n)`, `n ≥ 1` (R223). -/
def gammaBits (n : Nat) : Nat := 2 * bitwidth n - 1

/-- `deltaBits(n)`, `n ≥ 1` (R223). -/
def deltaBits (n : Nat) : Nat := gammaBits (bitwidth n) + bitwidth n - 1

/-- Which of the two codes. -/
inductive Code where
  /-- Elias Gamma -/
  | gamma
  /-- Elias Delta -/
  | delta
deriving DecidableEq, Repr

/-- The code word of a value (R221, R222). -/
def Code.word : Code → Nat → List Bool
  | .gamma => gammaCode
  | .delta => deltaCode

/-- The length of the code word of a value (R223). -/
def Code.length : Code → Nat → Nat
  | .gamma => gammaBits
  | .delta => deltaBits

/-! ### The bit writer -/

/-- The first `r` bits of the byte at `a`, read only when `r` is not 0 (R224). -/
def writerHead (s : State) (a r : Nat) : Attempt (List Bool) :=
  if r = 0 then .ok []
  else do
    let b ← portRead s a
    return (bits b.toNat 8).take r

/-- `bw_append(t)` (R224). -/
def bwAppend (s : State) (t : List Bool) : Attempt State := do
  checkRange s.regs.bwBase.toNat s.regs.bwCap.toNat
  let p := s.regs.bwPos.toNat
  let need := ceilDiv (p + t.length) 8
  if t.length = 0 then return s
  raiseIf (s.regs.bwCap.toNat < need || 2 ^ 64 ≤ p + t.length) .dstOverrun need
  let start := s.regs.bwBase.toNat + p / 8
  let head ← writerHead s start (p % 8)
  let u ← writePhase s start (bytesOfBits (head ++ t))
  return u.withBwPos (Machine.word (p + t.length))

/-! ### The bit reader -/

/-- `CheckRange(BR_BASE, ceil(BR_END / 8))` (R229, R232, R239). -/
def checkReader (s : State) : Attempt Unit :=
  checkRange s.regs.brBase.toNat (ceilDiv s.regs.brEnd.toNat 8)

/-- `br_has(n)` (R225). -/
def brHas (s : State) (n : Nat) : Bool := s.regs.brPos.toNat + n ≤ s.regs.brEnd.toNat

/-- The zero run at `pos`: the number of zeros before the first 1, or none when the bits run out or
after `limit` zeros (the loop of R226). -/
def zeroRun (s : State) (base stop : Nat) : Nat → Nat → Attempt (Option Nat)
  | 0, _ => .ok none
  | limit + 1, pos =>
    if stop ≤ pos then .ok none
    else do
      let b ← portBit s base pos
      if b then return some 0
      let z ← zeroRun s base stop limit (pos + 1)
      return z.map (· + 1)

/-- `gamma_decode(pos, end, wmax)`: the value and the position past it, or none for `FAIL` (R226). -/
def gammaDecode (s : State) (base stop wmax pos : Nat) : Attempt (Option (Nat × Nat)) := do
  match ← zeroRun s base stop wmax pos with
  | none => return none
  | some z =>
    if stop < pos + 2 * z + 1 then return none
    let low ← portBits s base (pos + z + 1) z
    return some (2 ^ z + val low, pos + 2 * z + 1)

/-- `delta_decode(pos, end, wmax)` (R227). -/
def deltaDecode (s : State) (base stop wmax pos : Nat) : Attempt (Option (Nat × Nat)) := do
  match ← gammaDecode s base stop 64 pos with
  | none => return none
  | some (len, q) =>
    let n := len - 1
    if wmax ≤ n then return none
    if stop < q + n then return none
    let low ← portBits s base q n
    return some (2 ^ n + val low, q + n)

/-- The decode of one code word (R226, R227). -/
def Code.decode : Code → State → Nat → Nat → Nat → Nat → Attempt (Option (Nat × Nat))
  | .gamma => gammaDecode
  | .delta => deltaDecode

/-! ### Bit writer and bit reader commands -/

/-- `BW.WRITE imm` (R228). -/
def execBwWrite (imm : BitVec 8) (s : State) : Host.Outcome State Fault Refusal :=
  command (.bwWrite imm) s do
    let t ← bwAppend s (bits s.regs.arg.toNat imm.toNat)
    return t.withRes (Machine.word imm.toNat)

/-- `BR.READ imm` (R229). -/
def execBrRead (imm : BitVec 8) (s : State) : Host.Outcome State Fault Refusal :=
  command (.brRead imm) s do
    checkReader s
    if brHas s imm.toNat then
      let t ← portBits s s.regs.brBase.toNat s.regs.brPos.toNat imm.toNat
      return ((s.withRes (Machine.word (val t))).withBrPos
        (Machine.word (s.regs.brPos.toNat + imm.toNat))).withMalf false
    else return (s.withRes 0).withMalf true

/-- `BR.MORE imm` (R230). -/
def execBrMore (imm : BitVec 8) (s : State) : Host.Outcome State Fault Refusal :=
  command (.brMore imm) s (.ok (s.withRes (if brHas s imm.toNat then 1 else 0)))

/-! ### Single code words -/

/-- The common form of `EG.PUT` and `ED.PUT` (R231, R238). -/
def codePut (i : Instr) (c : Code) (s : State) : Host.Outcome State Fault Refusal :=
  command i s do
    raiseIf (s.regs.arg.toNat = 0) .zeroInput 0
    let t ← bwAppend s (c.word s.regs.arg.toNat)
    return t.withRes (Machine.word (c.length s.regs.arg.toNat))

/-- The common form of `EG.GET` and `ED.GET` (R232, R239). -/
def codeGet (i : Instr) (c : Code) (s : State) : Host.Outcome State Fault Refusal :=
  command i s do
    checkReader s
    match ← c.decode s s.regs.brBase.toNat s.regs.brEnd.toNat 64 s.regs.brPos.toNat with
    | none => return (s.withResults 0 0).withMalf true
    | some (v, q) =>
      return ((s.withResults (Machine.word v) (Machine.word (q - s.regs.brPos.toNat))).withBrPos
        (Machine.word q)).withMalf false

/-- The common form of `EG.BITS` and `ED.BITS` (R233, R240). -/
def codeBits (i : Instr) (c : Code) (s : State) : Host.Outcome State Fault Refusal :=
  command i s (.ok (s.withRes
    (if s.regs.arg.toNat = 0 then 0 else Machine.word (c.length s.regs.arg.toNat))))

/-! ### Arrays -/

/-- The least `i` with `V_i = 0`, `k` being the index of the first value (R246). -/
def firstZero : Nat → List Nat → Option Nat
  | _, [] => none
  | k, x :: xs => if x = 0 then some k else firstZero (k + 1) xs

/-- The `ZERO_INPUT` check of an array encoder (R246). -/
def checkNonzero (vs : List Nat) : Attempt Unit :=
  match firstZero 0 vs with
  | some k => .error (.raise .zeroInput k)
  | none => .ok ()

/-- The bit string of an array (R246). -/
def codeStream (c : Code) (vs : List Nat) : List Bool := vs.flatMap c.word

/-- The Elias record (R243): the other metadata registers keep their values. -/
def State.withEliasMeta (s : State) (count totalBits bytes : Nat) : State :=
  { s with regs := { s.regs with
      metaCount := Machine.word count
      metaBits := Machine.word totalBits
      metaBytes := Machine.word bytes } }

/-- The common form of the four array encoders (R246). -/
def codeEncode (i : Instr) (c : Code) (wide : Bool) (s : State) : Host.Outcome State Fault Refusal :=
  command i s do
    let esz := elementBytes wide
    checkExtents s (esz * s.regs.cnt.toNat)
    let vs ← readArray s esz s.regs.src.toNat s.regs.cnt.toNat
    checkNonzero vs
    let t := codeStream c vs
    let n := ceilDiv t.length 8
    raiseIf (s.regs.dstcap.toNat < n || 2 ^ 64 ≤ t.length) .dstOverrun n
    let u ← writePhase s s.regs.dst.toNat (bytesOfBits t)
    return (u.withEliasMeta vs.length t.length n).withRes (Machine.word n)

/-- The decode loop (R247) with at most the given number of values still to come: the values, the
position after the last good code word, and whether a code word failed. -/
def decodeCodes (s : State) (c : Code) (base stop wmax : Nat) : Nat → Nat → Attempt (List Nat × Nat × Bool)
  | 0, pos => .ok ([], pos, false)
  | n + 1, pos =>
    if stop ≤ pos then .ok ([], pos, false)
    else do
      match ← c.decode s base stop wmax pos with
      | none => return ([], pos, true)
      | some (v, q) =>
        let r ← decodeCodes s c base stop wmax n q
        return (v :: r.1, r.2)

/-- The common form of the four array decoders (R247). -/
def codeDecode (i : Instr) (c : Code) (wide : Bool) (s : State) : Host.Outcome State Fault Refusal :=
  command i s do
    let esz := elementBytes wide
    checkExtents s (ceilDiv s.regs.bitlen.toNat 8)
    let r ← decodeCodes s c s.regs.src.toNat s.regs.bitlen.toNat (8 * esz) s.regs.cnt.toNat 0
    let t ← writeOutput s (arrayBytes esz r.1)
    return (t.withResults (Machine.word r.1.length) (Machine.word r.2.1)).withMalf r.2.2

/-- `EG.PUT` (R231). -/
def execEgPut (s : State) : Host.Outcome State Fault Refusal := codePut .egPut .gamma s

/-- `EG.GET` (R232). -/
def execEgGet (s : State) : Host.Outcome State Fault Refusal := codeGet .egGet .gamma s

/-- `EG.BITS` (R233). -/
def execEgBits (s : State) : Host.Outcome State Fault Refusal := codeBits .egBits .gamma s

/-- `EG.ENC32` (R234). -/
def execEgEnc32 (s : State) : Host.Outcome State Fault Refusal := codeEncode .egEnc32 .gamma false s

/-- `EG.ENC64` (R235). -/
def execEgEnc64 (s : State) : Host.Outcome State Fault Refusal := codeEncode .egEnc64 .gamma true s

/-- `EG.DEC32` (R236). -/
def execEgDec32 (s : State) : Host.Outcome State Fault Refusal := codeDecode .egDec32 .gamma false s

/-- `EG.DEC64` (R237). -/
def execEgDec64 (s : State) : Host.Outcome State Fault Refusal := codeDecode .egDec64 .gamma true s

/-- `ED.PUT` (R238). -/
def execEdPut (s : State) : Host.Outcome State Fault Refusal := codePut .edPut .delta s

/-- `ED.GET` (R239). -/
def execEdGet (s : State) : Host.Outcome State Fault Refusal := codeGet .edGet .delta s

/-- `ED.BITS` (R240). -/
def execEdBits (s : State) : Host.Outcome State Fault Refusal := codeBits .edBits .delta s

/-- `ED.ENC32` (R241). -/
def execEdEnc32 (s : State) : Host.Outcome State Fault Refusal := codeEncode .edEnc32 .delta false s

/-- `ED.ENC64` (R242). -/
def execEdEnc64 (s : State) : Host.Outcome State Fault Refusal := codeEncode .edEnc64 .delta true s

/-- `ED.DEC32` (R244). -/
def execEdDec32 (s : State) : Host.Outcome State Fault Refusal := codeDecode .edDec32 .delta false s

/-- `ED.DEC64` (R245). -/
def execEdDec64 (s : State) : Host.Outcome State Fault Refusal := codeDecode .edDec64 .delta true s

end Sys2Proof.Machine
end

