-- ==== Sys2Proof/Machine/GroupVarint.lean ====
section
/-! DEFINITION. The group varint and its commands (42_group_varint.md). Elements are 8 bytes (D19). -/

namespace Sys2Proof.Machine

/-- The count is outside 1 to 64 (R150). -/
def gvBadCount (c : Nat) : Bool := c = 0 || Config.groupMax < c

/-- One bitmap byte: four 2-bit codes, the first in bits 1:0, zero codes where there is no field
(R146, R147). -/
def gvBitmapByte (codes : List Nat) : Byte :=
  BitVec.ofNat 8 (codes.getD 0 0 + 4 * codes.getD 1 0 + 16 * codes.getD 2 0 + 64 * codes.getD 3 0)

/-- The width bitmap of a group's values (R146, R147). -/
def gvBitmap (vs : List Nat) : List Byte :=
  (List.range (ceilDiv vs.length 4)).map fun j =>
    gvBitmapByte ((vs.drop (4 * j)).map fun v => widthCode (snappedWidth v))

/-- `gv_encode(v)` (R147). -/
def gvEncode (vs : List Nat) : List Byte :=
  BitVec.ofNat 8 vs.length :: (gvBitmap vs ++ vs.flatMap fun v => le v (snappedWidth v))

/-- `gv_size(v)` (R147). -/
def gvSize (vs : List Nat) : Nat := 1 + ceilDiv vs.length 4 + (vs.map snappedWidth).sum

/-- The widths of the `c` fields that a bitmap announces (R148). -/
def gvWidths (bitmap : List Byte) (c : Nat) : List Nat :=
  (List.range c).map fun i => widthOfCode ((bitmap.getD (i / 4) 0).toNat / 2 ^ (2 * (i % 4)) % 4)

/-- `gv_offset(s, i)` of a group with these field widths (R148). -/
def gvOffset (widths : List Nat) (i : Nat) : Nat :=
  1 + ceilDiv widths.length 4 + (widths.take i).sum

/-- The bitmap of a group of `c` fields in the source, after its length check (R152, R153). -/
def gvReadWidths (s : State) (c : Nat) : Attempt (List Nat) := do
  let nb := ceilDiv c 4
  raiseIf (s.regs.srclen.toNat < 1 + nb) .srcUnderrun (1 + nb)
  let bitmap ← readBytes s (s.regs.src.toNat + 1) nb
  return gvWidths bitmap c

/-- The field of width `w` at offset `off` of the source, after its length check (R152, R153). -/
def gvReadField (s : State) (off w : Nat) : Attempt Nat := do
  raiseIf (s.regs.srclen.toNat < off + w) .srcUnderrun (off + w)
  readNumber s (s.regs.src.toNat + off) w

/-- Fields of the given widths, one after the other from offset `off` (R152). -/
def gvReadFields (s : State) : Nat → List Nat → Attempt (List Nat)
  | _, [] => .ok []
  | off, w :: ws => do
    let v ← gvReadField s off w
    let rest ← gvReadFields s (off + w) ws
    return v :: rest

/-- `GV.ENC` (R151). -/
def execGvEnc (s : State) : Host.Outcome State Fault Refusal :=
  command .gvEnc s do
    let c := s.regs.cnt.toNat
    if gvBadCount c then return s.withRes 0
    checkExtents s (8 * c)
    let vs ← readArray s 8 s.regs.src.toNat c
    let t ← writeOutput s (gvEncode vs)
    return t.withRes (word (gvEncode vs).length)

/-- `GV.DEC` (R152). -/
def execGvDec (s : State) : Host.Outcome State Fault Refusal :=
  command .gvDec s do
    checkExtents s s.regs.srclen.toNat
    raiseIf (s.regs.srclen.toNat < 1) .srcUnderrun 1
    let first ← portRead s s.regs.src.toNat
    let c := first.toNat
    if gvBadCount c then return s.withResults 0 0
    let ws ← gvReadWidths s c
    let m := min c s.regs.cnt.toNat
    let out ← gvReadFields s (gvOffset ws 0) (ws.take m)
    let t ← writeOutput s (arrayBytes 8 out)
    return t.withResults (word m) (word (gvOffset ws c))

/-- `GV.GETF` (R153). -/
def execGvGetf (s : State) : Host.Outcome State Fault Refusal :=
  command .gvGetf s do
    checkRange s.regs.src.toNat s.regs.srclen.toNat
    raiseIf (s.regs.srclen.toNat < 1) .srcUnderrun 1
    let first ← portRead s s.regs.src.toNat
    let c := first.toNat
    let i := s.regs.arg.toNat
    if gvBadCount c || c ≤ i then return s.withResults (word Config.invalidWidth) 0
    let ws ← gvReadWidths s c
    let v ← gvReadField s (gvOffset ws i) (ws.getD i 0)
    return s.withResults (word (ws.getD i 0)) (word v)

/-- `GV.SIZE` (R154). -/
def execGvSize (s : State) : Host.Outcome State Fault Refusal :=
  command .gvSize s do
    let c := s.regs.cnt.toNat
    if gvBadCount c then return s.withRes 0
    checkRange s.regs.src.toNat (8 * c)
    let vs ← readArray s 8 s.regs.src.toNat c
    return s.withRes (word (gvSize vs))

end Sys2Proof.Machine
end

