-- ==== Sys2Proof/Machine/System.lean ====
section
/-! DEFINITION. The system commands (46_system.md) and the registers' reset. -/

namespace Sys2Proof.Machine

/-- Every register to its Reset value; the data memory and the platform are not touched
(10_state.md R42, 70_reset_and_hazards.md R340, R341; log 12). -/
def State.resetRegisters (s : State) : State := { s with regs := Regs.reset }

/-- `SYS.NOP` (R290). -/
def execSysNop (s : State) : Host.Outcome State Fault Refusal := command .sysNop s (.ok s)

/-- `SYS.CLRF` (R291): executed whether or not the block is faulted. -/
def execSysClrf (s : State) : Host.Outcome State Fault Refusal := .next s.clearFault

/-- `SYS.RESET` (R292): executed whether or not the block is faulted. -/
def execSysReset (s : State) : Host.Outcome State Fault Refusal := .next s.resetRegisters

end Sys2Proof.Machine
end

