-- ==== Sys2Proof/Machine/Dispatch.lean ====
section
/-! DEFINITION. One arm per command. -/

namespace Sys2Proof.Machine

def exec (i : Instr) (s : State) : Host.Outcome State Fault Refusal :=
  match i with
  | .sysNop => Sys2Proof.Machine.execSysNop s
  | .sysClrf => Sys2Proof.Machine.execSysClrf s
  | .sysReset => Sys2Proof.Machine.execSysReset s
  | .fwPut imm => Sys2Proof.Machine.execFwPut imm s
  | .fwGet imm => Sys2Proof.Machine.execFwGet imm s
  | .wsel => Sys2Proof.Machine.execWsel s
  | .tvPut => Sys2Proof.Machine.execTvPut s
  | .tvGet => Sys2Proof.Machine.execTvGet s
  | .tvLen => Sys2Proof.Machine.execTvLen s
  | .gvEnc => Sys2Proof.Machine.execGvEnc s
  | .gvDec => Sys2Proof.Machine.execGvDec s
  | .gvGetf => Sys2Proof.Machine.execGvGetf s
  | .gvSize => Sys2Proof.Machine.execGvSize s
  | .bpEnc32 => Sys2Proof.Machine.execBpEnc32 s
  | .bpEncd32 => Sys2Proof.Machine.execBpEncd32 s
  | .bpEnc64 => Sys2Proof.Machine.execBpEnc64 s
  | .bpEncd64 => Sys2Proof.Machine.execBpEncd64 s
  | .bpDec32 => Sys2Proof.Machine.execBpDec32 s
  | .bpDecd32 => Sys2Proof.Machine.execBpDecd32 s
  | .bpDec64 => Sys2Proof.Machine.execBpDec64 s
  | .bpDecd64 => Sys2Proof.Machine.execBpDecd64 s
  | .bpSize32 => Sys2Proof.Machine.execBpSize32 s
  | .bpSized32 => Sys2Proof.Machine.execBpSized32 s
  | .bpSize64 => Sys2Proof.Machine.execBpSize64 s
  | .bpSized64 => Sys2Proof.Machine.execBpSized64 s
  | .bpMaxb32 => Sys2Proof.Machine.execBpMaxb32 s
  | .bpMaxbd32 => Sys2Proof.Machine.execBpMaxbd32 s
  | .bpMaxb64 => Sys2Proof.Machine.execBpMaxb64 s
  | .bpMaxbd64 => Sys2Proof.Machine.execBpMaxbd64 s
  | .bpBenef32 => Sys2Proof.Machine.execBpBenef32 s
  | .bpBenefd32 => Sys2Proof.Machine.execBpBenefd32 s
  | .bpBenef64 => Sys2Proof.Machine.execBpBenef64 s
  | .bpBenefd64 => Sys2Proof.Machine.execBpBenefd64 s
  | .bpSorted32 => Sys2Proof.Machine.execBpSorted32 s
  | .bpSorted64 => Sys2Proof.Machine.execBpSorted64 s
  | .bwWrite imm => Sys2Proof.Machine.execBwWrite imm s
  | .brRead imm => Sys2Proof.Machine.execBrRead imm s
  | .brMore imm => Sys2Proof.Machine.execBrMore imm s
  | .egPut => Sys2Proof.Machine.execEgPut s
  | .egGet => Sys2Proof.Machine.execEgGet s
  | .egBits => Sys2Proof.Machine.execEgBits s
  | .egEnc32 => Sys2Proof.Machine.execEgEnc32 s
  | .egEnc64 => Sys2Proof.Machine.execEgEnc64 s
  | .egDec32 => Sys2Proof.Machine.execEgDec32 s
  | .egDec64 => Sys2Proof.Machine.execEgDec64 s
  | .edPut => Sys2Proof.Machine.execEdPut s
  | .edGet => Sys2Proof.Machine.execEdGet s
  | .edBits => Sys2Proof.Machine.execEdBits s
  | .edEnc32 => Sys2Proof.Machine.execEdEnc32 s
  | .edEnc64 => Sys2Proof.Machine.execEdEnc64 s
  | .edDec32 => Sys2Proof.Machine.execEdDec32 s
  | .edDec64 => Sys2Proof.Machine.execEdDec64 s
  | .accClr imm => Sys2Proof.Machine.execAccClr imm s
  | .accDigit imm => Sys2Proof.Machine.execAccDigit imm s
  | .accStr => Sys2Proof.Machine.execAccStr s
  | .accClass => Sys2Proof.Machine.execAccClass s

end Sys2Proof.Machine
end

