-- ==== Sys2Proof/Machine/Window.lean ====
section
/-! DEFINITION. The register window as the host sees it (10_state.md R21, R22). -/

namespace Sys2Proof.Machine

/-- The access is one naturally aligned 64-bit access inside the 256 bytes (R22). -/
def windowAligned (offset size : Nat) : Bool :=
  size = 8 && offset % 8 = 0 && offset < Config.windowBytes

/-- What a host read of the register at a byte offset returns (R21); `CMD` and the reserved offsets read 0
(R31, R21), `ID` its constant (R38). -/
def windowRead (r : Regs) (offset : Nat) : Word :=
  match offset with
  | 0x08 => r.status
  | 0x10 => r.src
  | 0x18 => r.srclen
  | 0x20 => r.dst
  | 0x28 => r.dstcap
  | 0x30 => r.cnt
  | 0x38 => r.arg
  | 0x40 => r.bitlen
  | 0x48 => r.res
  | 0x50 => r.res2
  | 0x58 => r.metaCount
  | 0x60 => r.metaBlocks
  | 0x68 => r.metaBytes
  | 0x70 => r.metaLast
  | 0x78 => r.metaMaxbw
  | 0x80 => r.metaBits
  | 0x88 => r.bwBase
  | 0x90 => r.bwCap
  | 0x98 => r.bwPos
  | 0xA0 => r.brBase
  | 0xA8 => r.brEnd
  | 0xB0 => r.brPos
  | 0xB8 => r.acc.extractLsb' 0 64
  | 0xC0 => r.acc.extractLsb' 64 64
  | 0xC8 => r.accNdig
  | 0xD0 => r.faddr
  | 0xD8 => r.fcmd
  | 0xE0 => Config.identity
  | _ => 0

/-- A host write of the register at a byte offset other than `CMD`'s: the read/write registers take the
value, every other offset changes nothing (R21, R22, D54). -/
def windowWrite (r : Regs) (offset : Nat) (v : Word) : Regs :=
  match offset with
  | 0x10 => { r with src := v }
  | 0x18 => { r with srclen := v }
  | 0x20 => { r with dst := v }
  | 0x28 => { r with dstcap := v }
  | 0x30 => { r with cnt := v }
  | 0x38 => { r with arg := v }
  | 0x40 => { r with bitlen := v }
  | 0x88 => { r with bwBase := v }
  | 0x90 => { r with bwCap := v }
  | 0x98 => { r with bwPos := v }
  | 0xA0 => { r with brBase := v }
  | 0xA8 => { r with brEnd := v }
  | 0xB0 => { r with brPos := v }
  | _ => r

end Sys2Proof.Machine
end

