-- ==== Sys2Proof/Machine/HostPort.lean ====
section
/-! DEFINITION. What each host action does (60_exceptions.md R333). -/

namespace Sys2Proof.Machine

/-- A write of the 64-bit value `w` to `CMD`: one command, carried out completely (10_state.md R31). An
illegal value faults (30_encoding.md R92, R95), or is ignored by a faulted block (60_exceptions.md R308);
a legal one runs, and its meaning ignores it in turn when the block is faulted. -/
def runCommandWord (w : Word) (s : State) : Host.Outcome State Fault Refusal :=
  match decode w with
  | .ok i => exec i s
  | .error _ => if s.faulted then .next s else .next (s.takeFault .illegalCmd w.toNat w)

/-- A host read returns a value (log 5). -/
def State.reply (s : State) (v : Word) : State := { s with replies := v :: s.replies }

/-- One host action (60_exceptions.md R333). A data-memory access at a window address is a byte access to
the window, which is refused (10_state.md R22; logs 6, 8). -/
def perform (a : HostAction) (s : State) : Host.Outcome State Fault Refusal :=
  match a with
  | .readReg offset size =>
    if windowAligned offset size then .next (s.reply (windowRead s.regs offset))
    else .refused (.windowAccess offset size)
  | .writeReg offset size v =>
    if windowAligned offset size then
      if offset = 0 then runCommandWord v s
      else .next { s with regs := windowWrite s.regs offset v }
    else .refused (.windowAccess offset size)
  | .reset => .next s.resetRegisters
  | .readMem a =>
    if inWindow s.platform a.toNat then
      .refused (.windowAccess (a.toNat - s.platform.mmioBase.toNat) 1)
    else .next (s.reply ((s.mem.read a.toNat).setWidth 64))
  | .writeMem a b =>
    if inWindow s.platform a.toNat then
      .refused (.windowAccess (a.toNat - s.platform.mmioBase.toNat) 1)
    else .next { s with mem := s.mem.write a.toNat b }

/-- The host action that hands the machine the command whose word is the low `nbits` bits of `w`. -/
def commandWrite (nbits w : Nat) : HostAction := .writeReg 0 8 (BitVec.ofNat 64 (w % 2 ^ nbits))

end Sys2Proof.Machine
end

