-- ==== Sys2Proof/Machine/Step.lean ====
section
/-! DEFINITION. One step: the host's next action, or nothing while the host does nothing. -/

namespace Sys2Proof.Machine

/-- The next pending host action is performed; with none pending the block is idle and nothing changes
(60_exceptions.md R304, R332, R333; log 4). -/
def step (s : State) : Host.Outcome State Fault Refusal :=
  match s.pending with
  | [] => .next s
  | a :: rest => perform a { s with pending := rest }

/-- The machine with a write of that command word to `CMD` as the host's next action (log 4). -/
def State.withFetchWord (s : State) (nbits w : Nat) : State :=
  { s with pending := commandWrite nbits w :: s.pending }

end Sys2Proof.Machine
end

