-- ==== Sys2Proof/Safety.lean ====
section
/-! DEFINITION. The terms that statements use: what memory holds, when an extent is usable, how a command
ends, and the invariants. Nothing here is part of the machine. -/

namespace Sys2Proof.Machine

/-! ### What memory holds -/

/-- The `n` bytes at `a` (20_memory.md R64). -/
def bytesAt (m : Memory) (a n : Nat) : List Byte := (List.range n).map fun k => m.read (a + k)

/-- The little-endian number of `n` bytes at `a` (20_memory.md R65). -/
def numberAt (m : Memory) (a n : Nat) : Nat := unle (bytesAt m a n)

/-- The array of `n` elements of `esz` bytes at `a` (20_memory.md R62). -/
def arrayAt (m : Memory) (a esz n : Nat) : List Nat := (List.range n).map fun i => numberAt m (a + i * esz) esz

/-- Bit `p` of the most-significant-bit-first stream at `base` (20_memory.md R63). -/
def bitAt (m : Memory) (base p : Nat) : Bool := (m.read (base + p / 8)).getLsbD (7 - p % 8)

/-- Bits `p`, …, `p + n - 1` of that stream (44_elias.md R220). -/
def bitsAt (m : Memory) (base p n : Nat) : List Bool := (List.range n).map fun k => bitAt m base (p + k)

/-- `le(v, w)[k] = (v div 2^(8k)) mod 256` (00_scope.md R11). -/
def fieldBytes (v w : Nat) : List Byte := (List.range w).map fun k => BitVec.ofNat 8 (v / 2 ^ (8 * k))

/-! ### Usable extents -/

/-- The block is not faulted and its memory is canonical. -/
abbrev Ready (s : State) : Prop := s.faulted = false ∧ s.mem.wf

/-- The extent ends at or below the top of the address space (20_memory.md R68). -/
abbrev InSpace (a n : Nat) : Prop := a + n ≤ 2 ^ 64

/-- The extents do not intersect (20_memory.md R69). -/
abbrev Apart (a n b m : Nat) : Prop := n = 0 ∨ m = 0 ∨ a + n ≤ b ∨ b + m ≤ a

/-- The block may read each of the `n` bytes at `a` (20_memory.md R64, R73). -/
abbrev Reads (s : State) (a n : Nat) : Prop :=
  ∀ k < n, canRead s.platform (a + k) = true ∧ inWindow s.platform (a + k) = false

/-- The block may write each of the `n` bytes at `a` (20_memory.md R66, R73). -/
abbrev Writes (s : State) (a n : Nat) : Prop :=
  ∀ k < n, canWrite s.platform (a + k) = true ∧ inWindow s.platform (a + k) = false

/-- The block may read each byte that holds one of the `n` bit positions from `p` on (44_elias.md R225). -/
abbrev ReadsBits (s : State) (base p n : Nat) : Prop :=
  ∀ k < n, canRead s.platform (base + (p + k) / 8) = true ∧ inWindow s.platform (base + (p + k) / 8) = false

/-- The address lies in the extent. -/
abbrev Within (x : Nat) (extent : Nat × Nat) : Prop := extent.1 ≤ x ∧ x < extent.1 + extent.2

/-- The source extent and the destination extent pass the extent checks (20_memory.md R68, R69). -/
abbrev ExtentsAdmitted (source dest : Nat × Nat) : Prop :=
  InSpace source.1 source.2 ∧ InSpace dest.1 dest.2 ∧ Apart source.1 source.2 dest.1 dest.2

/-- The values do not decrease (43_bp128.md R204). -/
abbrev NonDecreasing (vs : List Nat) : Prop := ∀ i < vs.length - 1, vs.getD i 0 ≤ vs.getD (i + 1) 0

/-! ### How a command ends -/

/-- From `s` to `t` the bytes at `a`, `a + 1`, … become `out` and every other byte is as it was. -/
def Stored (s t : State) (a : Nat) (out : List Byte) : Prop :=
  ∀ x, t.mem.read x = if a ≤ x ∧ x < a + out.length then out.getD (x - a) 0 else s.mem.read x

/-- Everything but the registers and the memory is as it was. -/
def SameElse (s t : State) : Prop :=
  t.platform = s.platform ∧ t.pending = s.pending ∧ t.replies = s.replies ∧ t.draws = s.draws

/-- The command answers a next state with these registers, whose memory differs only in `out` at `a`. -/
def Completes (i : Instr) (s : State) (r : Regs) (a : Nat) (out : List Byte) : Prop :=
  ∃ t, exec i s = .next t ∧ t.regs = r ∧ Stored s t a out ∧ SameElse s t

/-- The registers after `raise Fault(code, info)` by the command whose value was `cmd`
(60_exceptions.md R306). -/
def faultRegs (r : Regs) (code : FaultCode) (info : Nat) (cmd : Word) : Regs :=
  { r with
    status := r.status.withField 8 8 code.number
    faddr := BitVec.ofNat 64 (min info (2 ^ 64 - 1)), fcmd := cmd, res := 0, res2 := 0 }

/-- The command records that fault and changes nothing else (60_exceptions.md R306). -/
def Faults (i : Instr) (s : State) (code : FaultCode) (info : Nat) : Prop :=
  exec i s = .next { s with regs := faultRegs s.regs code info (encode i) }

/-- The command records a write-phase `MEM_FAULT` at `address`: the `n` bytes at `a` become free values,
every other byte is as it was (20_memory.md R66, R82). -/
def LosesOutput (i : Instr) (s : State) (address a n : Nat) : Prop :=
  ∃ t, exec i s = .next t ∧ t.regs = faultRegs s.regs .memFault address (encode i) ∧
    Stored s t a ((List.range n).map fun k => Config.freeByte (s.draws + k)) ∧
    t.platform = s.platform ∧ t.pending = s.pending ∧ t.replies = s.replies ∧ t.draws = s.draws + n

/-- The write phase of a command whose output is `out` at `a`: if the block may write all of it, the command
completes with these registers; if not, the first refused byte is the `MEM_FAULT` (20_memory.md R66, R82). -/
def StoresOutput (i : Instr) (s : State) (r : Regs) (a : Nat) (out : List Byte) : Prop :=
  (Writes s a out.length → Completes i s r a out) ∧
  ∀ k < out.length, Writes s a k → canWrite s.platform (a + k) = false → LosesOutput i s (a + k) a out.length

/-- The value of `STATUS` with `MALF` (bit 2) written (10_state.md R25). -/
def malfStatus (status : Word) (b : Bool) : Word := (status &&& ~~~4#64) ||| (if b then 4#64 else 0#64)

/-- Commands one after the other. -/
def execAll : List Instr → State → Host.Outcome State Fault Refusal
  | [], s => .next s
  | i :: rest, s =>
    match exec i s with
    | .next t => execAll rest t
    | .fault f => .fault f
    | .refused r => .refused r

/-! ### Extents (20_memory.md R81) -/

/-- The source extent of a command, `(0, 0)` for none. -/
def sourceExtent (i : Instr) (s : State) : Nat × Nat :=
  let array (esz : Nat) := (s.regs.src.toNat, esz * s.regs.cnt.toNat)
  let stream := (s.regs.src.toNat, s.regs.srclen.toNat)
  let bitStream := (s.regs.src.toNat, ceilDiv s.regs.bitlen.toNat 8)
  let reader := (s.regs.brBase.toNat, ceilDiv s.regs.brEnd.toNat 8)
  match i with
  | .fwGet _ | .tvGet | .gvGetf | .gvDec => stream
  | .gvEnc | .gvSize => array 8
  | .bpEnc32 | .bpEncd32 | .bpSize32 | .bpSized32 | .bpBenef32 | .bpBenefd32 | .bpSorted32 => array 4
  | .bpEnc64 | .bpEncd64 | .bpSize64 | .bpSized64 | .bpBenef64 | .bpBenefd64 | .bpSorted64 => array 8
  | .bpDec32 | .bpDecd32 | .bpDec64 | .bpDecd64 => stream
  | .egEnc32 | .edEnc32 => array 4
  | .egEnc64 | .edEnc64 => array 8
  | .egDec32 | .egDec64 | .edDec32 | .edDec64 => bitStream
  | .brRead _ | .egGet | .edGet => reader
  | .accStr => (s.regs.src.toNat, s.regs.cnt.toNat)
  | .sysNop | .sysClrf | .sysReset | .fwPut _ | .wsel | .tvPut | .tvLen
  | .bpMaxb32 | .bpMaxbd32 | .bpMaxb64 | .bpMaxbd64 | .bwWrite _ | .brMore _ | .egPut | .edPut
  | .egBits | .edBits | .accClr _ | .accDigit _ | .accClass => (0, 0)

/-- The destination extent of a command, `(0, 0)` for none. -/
def destExtent (i : Instr) (s : State) : Nat × Nat :=
  match i with
  | .fwPut _ | .tvPut | .gvEnc | .gvDec
  | .bpEnc32 | .bpEncd32 | .bpEnc64 | .bpEncd64 | .bpDec32 | .bpDecd32 | .bpDec64 | .bpDecd64
  | .egEnc32 | .egEnc64 | .egDec32 | .egDec64 | .edEnc32 | .edEnc64 | .edDec32 | .edDec64 =>
    (s.regs.dst.toNat, s.regs.dstcap.toNat)
  | .bwWrite _ | .egPut | .edPut => (s.regs.bwBase.toNat, s.regs.bwCap.toNat)
  | .sysNop | .sysClrf | .sysReset | .fwGet _ | .wsel | .tvGet | .tvLen | .gvGetf | .gvSize
  | .bpSize32 | .bpSized32 | .bpSize64 | .bpSized64 | .bpMaxb32 | .bpMaxbd32 | .bpMaxb64 | .bpMaxbd64
  | .bpBenef32 | .bpBenefd32 | .bpBenef64 | .bpBenefd64 | .bpSorted32 | .bpSorted64
  | .brRead _ | .brMore _ | .egGet | .edGet | .egBits | .edBits
  | .accClr _ | .accDigit _ | .accStr | .accClass => (0, 0)

/-- The check that a command makes before any extent lets it through: the count sentinel of group varint,
the zero check of `EG.PUT` and `ED.PUT` (60_exceptions.md R305 3a), and the immediate's range. -/
abbrev ReachesExtents (i : Instr) (s : State) : Prop :=
  i.WellFormed ∧ (i = .gvEnc ∨ i = .gvSize → 1 ≤ s.regs.cnt.toNat ∧ s.regs.cnt.toNat ≤ 64) ∧
    (i = .egPut ∨ i = .edPut → s.regs.arg.toNat ≠ 0)

/-! ### The opcode map (30_encoding.md R94) -/

/-- `OPC`, `ESZ`, `DLT` and the mnemonic, with its `IMM` where the opcode uses the field, as R94 prints
them. -/
def opcodeMap : List (Nat × Nat × Nat × (BitVec 8 → Instr)) :=
  [(0x00, 0, 0, fun _ => .sysNop), (0x01, 0, 0, fun _ => .sysClrf), (0x02, 0, 0, fun _ => .sysReset),
   (0x10, 0, 0, .fwPut), (0x11, 0, 0, .fwGet), (0x12, 0, 0, fun _ => .wsel),
   (0x18, 0, 0, fun _ => .tvPut), (0x19, 0, 0, fun _ => .tvGet), (0x1A, 0, 0, fun _ => .tvLen),
   (0x20, 0, 0, fun _ => .gvEnc), (0x21, 0, 0, fun _ => .gvDec), (0x22, 0, 0, fun _ => .gvGetf),
   (0x23, 0, 0, fun _ => .gvSize),
   (0x30, 0, 0, fun _ => .bpEnc32), (0x30, 0, 1, fun _ => .bpEncd32),
   (0x30, 1, 0, fun _ => .bpEnc64), (0x30, 1, 1, fun _ => .bpEncd64),
   (0x31, 0, 0, fun _ => .bpDec32), (0x31, 0, 1, fun _ => .bpDecd32),
   (0x31, 1, 0, fun _ => .bpDec64), (0x31, 1, 1, fun _ => .bpDecd64),
   (0x32, 0, 0, fun _ => .bpSize32), (0x32, 0, 1, fun _ => .bpSized32),
   (0x32, 1, 0, fun _ => .bpSize64), (0x32, 1, 1, fun _ => .bpSized64),
   (0x33, 0, 0, fun _ => .bpMaxb32), (0x33, 0, 1, fun _ => .bpMaxbd32),
   (0x33, 1, 0, fun _ => .bpMaxb64), (0x33, 1, 1, fun _ => .bpMaxbd64),
   (0x34, 0, 0, fun _ => .bpBenef32), (0x34, 0, 1, fun _ => .bpBenefd32),
   (0x34, 1, 0, fun _ => .bpBenef64), (0x34, 1, 1, fun _ => .bpBenefd64),
   (0x35, 0, 0, fun _ => .bpSorted32), (0x35, 1, 0, fun _ => .bpSorted64),
   (0x40, 0, 0, .bwWrite), (0x41, 0, 0, .brRead), (0x42, 0, 0, .brMore),
   (0x48, 0, 0, fun _ => .egPut), (0x49, 0, 0, fun _ => .egGet), (0x4A, 0, 0, fun _ => .egBits),
   (0x4B, 0, 0, fun _ => .egEnc32), (0x4B, 1, 0, fun _ => .egEnc64),
   (0x4C, 0, 0, fun _ => .egDec32), (0x4C, 1, 0, fun _ => .egDec64),
   (0x50, 0, 0, fun _ => .edPut), (0x51, 0, 0, fun _ => .edGet), (0x52, 0, 0, fun _ => .edBits),
   (0x53, 0, 0, fun _ => .edEnc32), (0x53, 1, 0, fun _ => .edEnc64),
   (0x54, 0, 0, fun _ => .edDec32), (0x54, 1, 0, fun _ => .edDec64),
   (0x60, 0, 0, .accClr), (0x61, 0, 0, .accDigit),
   (0x62, 0, 0, fun _ => .accStr), (0x63, 0, 0, fun _ => .accClass)]

/-! ### The register map (10_state.md R21) -/

/-- Offset and host-read value of each register, as R21 prints them. -/
def registerMap (r : Regs) : List (Nat × Word) :=
  [(0x00, 0), (0x08, r.status), (0x10, r.src), (0x18, r.srclen), (0x20, r.dst), (0x28, r.dstcap),
   (0x30, r.cnt), (0x38, r.arg), (0x40, r.bitlen), (0x48, r.res), (0x50, r.res2), (0x58, r.metaCount),
   (0x60, r.metaBlocks), (0x68, r.metaBytes), (0x70, r.metaLast), (0x78, r.metaMaxbw), (0x80, r.metaBits),
   (0x88, r.bwBase), (0x90, r.bwCap), (0x98, r.bwPos), (0xA0, r.brBase), (0xA8, r.brEnd), (0xB0, r.brPos),
   (0xB8, BitVec.ofNat 64 (r.acc.toNat % 2 ^ 64)), (0xC0, BitVec.ofNat 64 (r.acc.toNat / 2 ^ 64)),
   (0xC8, r.accNdig), (0xD0, r.faddr), (0xD8, r.fcmd), (0xE0, 0x0000000742503132),
   (0xE8, 0), (0xF0, 0), (0xF8, 0)]

/-- Offset of each register the host may write, and the registers after it wrote `v` there (R21). -/
def writableMap (r : Regs) (v : Word) : List (Nat × Regs) :=
  [(0x10, { r with src := v }), (0x18, { r with srclen := v }), (0x20, { r with dst := v }),
   (0x28, { r with dstcap := v }), (0x30, { r with cnt := v }), (0x38, { r with arg := v }),
   (0x40, { r with bitlen := v }), (0x88, { r with bwBase := v }), (0x90, { r with bwCap := v }),
   (0x98, { r with bwPos := v }), (0xA0, { r with brBase := v }), (0xA8, { r with brEnd := v }),
   (0xB0, { r with brPos := v })]

/-! ### Group varints in memory (42_group_varint.md R148) -/

/-- `w_k` of the group at `a`. -/
def groupWidth (m : Memory) (a k : Nat) : Nat :=
  2 ^ ((m.read (a + 1 + k / 4)).toNat / 2 ^ (2 * (k % 4)) % 4)

/-- `gv_offset(s, i)` of the group at `a`, whose count byte is `c`. -/
def groupOffset (m : Memory) (a c i : Nat) : Nat :=
  1 + ceilDiv c 4 + ((List.range i).map (groupWidth m a)).sum

/-! ### Encoded BP128 sources (43_bp128.md R178 to R181, R208)

What the bytes at `SRC` say, read off the memory alone. `BlocksSound` and its parts say that a decoder may
take them so; offsets count from `SRC`. -/

/-- The tagged varint that starts at offset `off`, in whatever spelling: its value and its length
(41_tagged_varint.md R130, R132, R133). -/
def varintAt (s : State) (off : Nat) : Nat × Nat :=
  let a := s.regs.src.toNat + off
  let first := (s.mem.read a).toNat
  let z := 8 - bitwidth first
  (if z = 8 then numberAt s.mem (a + 1) 8
   else first % 2 ^ (7 - z) + 2 ^ (7 - z) * numberAt s.mem (a + 1) z, z + 1)

/-- The varint at `off` ends inside the source and may be read. -/
abbrev VarintSound (s : State) (off : Nat) : Prop :=
  off + (varintAt s off).2 ≤ s.regs.srclen.toNat ∧ Reads s (s.regs.src.toNat + off) (varintAt s off).2

/-- A block as its header at some offset describes it (R167, R178). -/
structure SourceBlock where
  /-- bit 7 of the header: a partial block -/
  short : Bool
  /-- bits 6:0 of the header: the width of its values -/
  width : Nat
  /-- how many values it says it holds -/
  count : Nat
deriving DecidableEq, Repr

/-- The block whose header stands at `off`. -/
def blockAt (s : State) (off : Nat) : SourceBlock :=
  let h := (s.mem.read (s.regs.src.toNat + off)).toNat
  { short := decide (128 ≤ h)
    width := h % 128
    count := if 128 ≤ h then (s.mem.read (s.regs.src.toNat + off + 1)).toNat else 128 }

/-- Bytes of its header. -/
def SourceBlock.headerBytes (b : SourceBlock) : Nat := if b.short then 2 else 1

/-- Bytes of the whole block. -/
def SourceBlock.size (b : SourceBlock) : Nat := b.headerBytes + ceilDiv (b.count * b.width) 8

/-- The values of the block at `off`: the fields of its payload, least significant first; whatever bits are
left over are padding (R169, R180). -/
def blockValuesAt (s : State) (off : Nat) : List Nat :=
  let b := blockAt s off
  let payload := numberAt s.mem (s.regs.src.toNat + off + b.headerBytes) (ceilDiv (b.count * b.width) 8)
  (List.range b.count).map fun i => payload / 2 ^ (i * b.width) % 2 ^ b.width

/-- The header at `off` is a legal one of the variant, inside the source, and may be read. -/
abbrev HeaderSound (s : State) (v : Variant) (off : Nat) : Prop :=
  let b := blockAt s off
  b.width ≤ v.width ∧ (b.short = true → 1 ≤ b.count ∧ b.count ≤ 127) ∧
    off + b.headerBytes ≤ s.regs.srclen.toNat ∧ Reads s (s.regs.src.toNat + off) b.headerBytes

/-- The block at `off` has a sound header, and ends inside the source, and may be read whole. -/
abbrev BlockSound (s : State) (v : Variant) (off : Nat) : Prop :=
  HeaderSound s v off ∧ off + (blockAt s off).size ≤ s.regs.srclen.toNat ∧
    Reads s (s.regs.src.toNat + off) (blockAt s off).size

/-- The number of values asked for: `CNT`, in a 64-bit stream no more than it declares (R188 to R191). -/
def wantedValues (s : State) (v : Variant) : Nat :=
  if v.wide then min (varintAt s 0).1 s.regs.cnt.toNat else s.regs.cnt.toNat

/-- A delta decoder reads the first value, unless nothing is wanted or a 32-bit source is empty
(R189, R191). -/
def takesFirst (s : State) (v : Variant) : Bool :=
  v.delta && decide (0 < wantedValues s v) && (v.wide || decide (0 < s.regs.srclen.toNat))

/-- Bytes of the element count that a 64-bit stream starts with (R174). -/
def countBytes (s : State) (v : Variant) : Nat := if v.wide then (varintAt s 0).2 else 0

/-- What the output starts with: the first value of a delta stream (R173, R175). -/
def firstValues (s : State) (v : Variant) : List Nat :=
  if takesFirst s v then [(varintAt s (countBytes s v)).1] else []

/-- The offset of the first block. -/
def blocksStart (s : State) (v : Variant) : Nat :=
  countBytes s v + if takesFirst s v then (varintAt s (countBytes s v)).2 else 0

/-- The prefixes that the decoder reads are sound, and the first value fits the element (R181). -/
abbrev PrefixSound (s : State) (v : Variant) : Prop :=
  (v.wide = true → VarintSound s 0) ∧
    (takesFirst s v = true → VarintSound s (countBytes s v) ∧ ∀ x ∈ firstValues s v, x < 2 ^ v.width)

/-- The offset of block `k`, each starting where the one before it ends. -/
def blockOffset (s : State) (v : Variant) : Nat → Nat
  | 0 => blocksStart s v
  | k + 1 =>
    let off := blockOffset s v k
    off + (blockAt s off).size

/-- The values that the prefixes and the first `n` blocks stand for: in a delta variant the running sums
(R181). -/
def decodedValues (s : State) (v : Variant) (n : Nat) : List Nat :=
  let xs := (List.range n).flatMap fun k => blockValuesAt s (blockOffset s v k)
  firstValues s v ++
    if v.delta then (List.range xs.length).map fun k => (firstValues s v).headD 0 + (xs.take (k + 1)).sum
    else xs

/-- How many values are there before block `k`, every earlier block being full. -/
def valuesBefore (s : State) (v : Variant) (k : Nat) : Nat := (firstValues s v).length + 128 * k

/-- Block `k` of a 64-bit stream has the shape that the declared count leaves: a partial block holds all the
values still owed, a full one no more than those (R179). -/
abbrev ShapeOwed (s : State) (v : Variant) (k : Nat) (b : SourceBlock) : Prop :=
  if b.short then valuesBefore s v k + b.count = (varintAt s 0).1
  else valuesBefore s v k + 128 ≤ (varintAt s 0).1

/-- The decoder parses the first `n` blocks, and may: each is wanted and sound, only the last is partial,
and in a 64-bit stream each has its shape (R178, R179). -/
abbrev BlocksSound (s : State) (v : Variant) (n : Nat) : Prop :=
  PrefixSound s v ∧ ∀ k < n,
    BlockSound s v (blockOffset s v k) ∧ valuesBefore s v k < wantedValues s v ∧
      ((blockAt s (blockOffset s v k)).short = true → k + 1 = n) ∧
      (v.wide = true → ShapeOwed s v k (blockAt s (blockOffset s v k)))

/-- After `n` sound full blocks the decoder has delivered their values, wants more, and turns to the next
block (R179, R181). -/
abbrev TurnsToBlock (s : State) (v : Variant) (n : Nat) : Prop :=
  BlocksSound s v n ∧ (∀ k < n, (blockAt s (blockOffset s v k)).short = false) ∧
    (∀ y ∈ decodedValues s v n, y < 2 ^ v.width) ∧ valuesBefore s v n < wantedValues s v ∧
    (v.wide = true ∨ blockOffset s v n < s.regs.srclen.toNat)

/-- The decoder reads a tagged varint at `off`: the count of a 64-bit stream, the first value of a delta
stream (R189 to R191). -/
abbrev TurnsToVarint (s : State) (v : Variant) (off : Nat) : Prop :=
  (v.wide = true ∧ off = 0) ∨
    (takesFirst s v = true ∧ off = countBytes s v ∧ (v.wide = true → VarintSound s 0))

/-! ### Elias code words in memory (44_elias.md R226, R227) -/

/-- The `z` bits from position `pos` on are 0. -/
abbrev ZerosAt (m : Memory) (base pos z : Nat) : Prop := ∀ k < z, bitAt m base (pos + k) = false

/-- No Gamma code word below `2^wmax` stands at `pos` in a stream that ends at `stop`, as `n` bits show: they
are all 0 and reach the limit or the end, or the value after the zeros runs past the end (R226). -/
def GammaFails (m : Memory) (base pos stop wmax n : Nat) : Prop :=
  (n = min wmax (stop - pos) ∧ ZerosAt m base pos n) ∨
  ∃ z < wmax, n = z + 1 ∧ ZerosAt m base pos z ∧ bitAt m base (pos + z) = true ∧ pos + z < stop ∧
    stop < pos + 2 * z + 1

/-- The Gamma code word of `x` stands at `pos` before `stop`. -/
def GammaAt (m : Memory) (base pos stop x : Nat) : Prop :=
  1 ≤ x ∧ x < 2 ^ 64 ∧ pos + (gammaCode x).length ≤ stop ∧
    bitsAt m base pos (gammaCode x).length = gammaCode x

/-- No code word of the code below `2^wmax` stands at `pos`, as `n` bits show (R226, R227). -/
def CodeFails (c : Code) (m : Memory) (base pos stop wmax n : Nat) : Prop :=
  match c with
  | .gamma => GammaFails m base pos stop wmax n
  | .delta =>
    GammaFails m base pos stop 64 n ∨
    ∃ x, GammaAt m base pos stop x ∧ n = (gammaCode x).length ∧ (wmax ≤ x - 1 ∨ stop < pos + n + (x - 1))

/-- The decode of a Gamma code word at `pos` looks at the bit `k` places on: while the bits before it are 0,
or in a value that fits before the end (R226). -/
def GammaExamines (m : Memory) (base pos stop wmax k : Nat) : Prop :=
  (k < min wmax (stop - pos) ∧ ZerosAt m base pos k) ∨
  ∃ z < wmax, ZerosAt m base pos z ∧ bitAt m base (pos + z) = true ∧ z < k ∧ k ≤ 2 * z ∧ pos + 2 * z + 1 ≤ stop

/-- The decode of a code word at `pos` looks at the bit `k` places on (R226, R227). -/
def CodeExamines (c : Code) (m : Memory) (base pos stop wmax k : Nat) : Prop :=
  match c with
  | .gamma => GammaExamines m base pos stop wmax k
  | .delta =>
    GammaExamines m base pos stop 64 k ∨
    ∃ x, GammaAt m base pos stop x ∧ x - 1 < wmax ∧ pos + (gammaCode x).length + (x - 1) ≤ stop ∧
      (gammaCode x).length ≤ k ∧ k < (gammaCode x).length + (x - 1)

/-! ### Grouped commands -/

/-- The commands that read an array of elements, whole, before anything else can go wrong with its
contents (60_exceptions.md R305 3d, 3e). -/
def arrayReaders : List Instr :=
  [.gvEnc, .gvSize, .bpEnc32, .bpEncd32, .bpEnc64, .bpEncd64, .bpSize32, .bpSized32, .bpSize64, .bpSized64,
   .bpBenef32, .bpBenefd32, .bpBenef64, .bpBenefd64, .bpSorted32, .bpSorted64,
   .egEnc32, .egEnc64, .edEnc32, .edEnc64]

/-- The BP128 commands of the delta variants that read an array, with its element size
(60_exceptions.md R301, code 8). -/
def deltaReaders : List (Instr × Nat) :=
  [(.bpEncd32, 4), (.bpEncd64, 8), (.bpSized32, 4), (.bpSized64, 8), (.bpBenefd32, 4), (.bpBenefd64, 8)]

/-- Which result registers a completing command writes (30_encoding.md R97): `RES`, then `RES2`. -/
def writesResults : Instr → Bool × Bool
  | .sysNop | .sysClrf | .accClr _ | .accDigit _ => (false, false)
  | .fwPut _ | .tvPut | .tvLen | .gvEnc | .gvSize
  | .bpEnc32 | .bpEncd32 | .bpEnc64 | .bpEncd64 | .bpSize32 | .bpSized32 | .bpSize64 | .bpSized64
  | .bpBenef32 | .bpBenefd32 | .bpBenef64 | .bpBenefd64 | .bpSorted32 | .bpSorted64
  | .bwWrite _ | .brRead _ | .brMore _ | .egPut | .edPut | .egBits | .edBits
  | .egEnc32 | .egEnc64 | .edEnc32 | .edEnc64 | .accClass => (true, false)
  | .sysReset | .fwGet _ | .wsel | .tvGet | .gvDec | .gvGetf
  | .bpDec32 | .bpDecd32 | .bpDec64 | .bpDecd64 | .bpMaxb32 | .bpMaxbd32 | .bpMaxb64 | .bpMaxbd64
  | .egGet | .edGet | .egDec32 | .egDec64 | .edDec32 | .edDec64 | .accStr => (true, true)

/-- The BP128 encoders with their variants (43_bp128.md R184 to R187). -/
def bpEncoders : List (Instr × Variant) :=
  [(.bpEnc32, ⟨false, false⟩), (.bpEncd32, ⟨false, true⟩), (.bpEnc64, ⟨true, false⟩), (.bpEncd64, ⟨true, true⟩)]

/-- The BP128 decoders (R188 to R191). -/
def bpDecoders : List (Instr × Variant) :=
  [(.bpDec32, ⟨false, false⟩), (.bpDecd32, ⟨false, true⟩), (.bpDec64, ⟨true, false⟩), (.bpDecd64, ⟨true, true⟩)]

/-- The size queries (R192 to R195). -/
def bpSizers : List (Instr × Variant) :=
  [(.bpSize32, ⟨false, false⟩), (.bpSized32, ⟨false, true⟩), (.bpSize64, ⟨true, false⟩), (.bpSized64, ⟨true, true⟩)]

/-- The buffer bounds (R196 to R199). -/
def bpBounds : List (Instr × Variant) :=
  [(.bpMaxb32, ⟨false, false⟩), (.bpMaxbd32, ⟨false, true⟩), (.bpMaxb64, ⟨true, false⟩), (.bpMaxbd64, ⟨true, true⟩)]

/-- The benefit queries (R200 to R203). -/
def bpBenefs : List (Instr × Variant) :=
  [(.bpBenef32, ⟨false, false⟩), (.bpBenefd32, ⟨false, true⟩), (.bpBenef64, ⟨true, false⟩),
   (.bpBenefd64, ⟨true, true⟩)]

/-- The sortedness queries with their element sizes (R204, R205). -/
def bpSorters : List (Instr × Nat) := [(.bpSorted32, 4), (.bpSorted64, 8)]

/-- The Elias array encoders with code and `ESZ` (44_elias.md R234, R235, R241, R242). -/
def eliasEncoders : List (Instr × Code × Bool) :=
  [(.egEnc32, .gamma, false), (.egEnc64, .gamma, true), (.edEnc32, .delta, false), (.edEnc64, .delta, true)]

/-- The Elias array decoders (44_elias.md R236, R237, R244, R245). -/
def eliasDecoders : List (Instr × Code × Bool) :=
  [(.egDec32, .gamma, false), (.egDec64, .gamma, true), (.edDec32, .delta, false), (.edDec64, .delta, true)]

/-- The bit string that a bit-writer command appends; none where it appends nothing at all because its
operand is no legal one (44_elias.md R228, R231, R238). -/
def appendedBits (i : Instr) (s : State) : Option (List Bool) :=
  match i with
  | .bwWrite imm => if imm.toNat ≤ 64 then some (bits s.regs.arg.toNat imm.toNat) else none
  | .egPut => if s.regs.arg.toNat = 0 then none else some (gammaCode s.regs.arg.toNat)
  | .edPut => if s.regs.arg.toNat = 0 then none else some (deltaCode s.regs.arg.toNat)
  | _ => none

/-- Where a command's output starts: the byte at the write position for the bit writer, else the base of the
destination extent (20_memory.md R80, R82; 44_elias.md R224). -/
def outputBase (i : Instr) (s : State) : Nat :=
  match appendedBits i s with
  | none => (destExtent i s).1
  | some _ => s.regs.bwBase.toNat + s.regs.bwPos.toNat / 8

/-- The exact size of a stream by its parts: the prefixes, and `1 + 16·b` or `2 + ceil(m·b/8)` for each
block (43_bp128.md R183). -/
def sizeByParts (v : Variant) (vs : List Nat) : Nat :=
  (if v.wide then tvLength vs.length else 0)
    + (if v.delta && !vs.isEmpty then tvLength (vs.getD 0 0) else 0)
    + ((splitBlocks (blockValues v vs)).map fun x =>
        if x.length = 128 then 1 + 16 * blockWidth x else 2 + ceilDiv (x.length * blockWidth x) 8).sum

/-- The number a digit string spells in decimal (45_acc128.md R278). -/
def decimalValue (ds : List Nat) : Nat := ds.foldl (fun n d => 10 * n + d) 0

/-! ### Invariants -/

/-- `STATUS` reads 0 in every bit R25 does not name, and `FAULT` holds a code of R301. -/
abbrev StatusLegal (s : State) : Prop :=
  s.regs.status.field 3 1 = 0 ∧ s.regs.status.field 6 2 = 0 ∧ s.regs.status.field 16 48 = 0 ∧
    s.regs.fault.toNat ≤ 11

/-- The accumulator holds a magnitude within the limit of its mode and sign (45_acc128.md R278). -/
abbrev AccInRange (s : State) : Prop := s.regs.acc.toNat ≤ s.regs.accLimit

/-- Every listed cell has a 64-bit address (20_memory.md R60). -/
abbrev MemoryInSpace (s : State) : Prop := ∀ c ∈ s.mem, c.1 < 2 ^ 64

end Sys2Proof.Machine
end

