-- ==== Sys2Proof/Certificates/Slice0/Obligations.lean ====
section
/-! DEFINITION. The statements. Each says what a rule of spec/ says of the machine; `Safety.lean` has the
terms. A command's completion is stated under conditions on the state and the operands alone; its frame is
the record of registers it names, and the memory outside the bytes it names. -/

section
open Sys2Proof Sys2Proof.Machine

/-! ### Decoding and the write to `CMD` -/

/-- 30_encoding.md R94: the opcode map, every mnemonic by its printed `OPC`, `ESZ` and `DLT` with every legal
`IMM`; every instruction stands in it, and no `OPC` outside it decodes. Six words written out from the field
layout of R90 stand as samples. -/
def Obligations.OpcodeMapDecodes : Prop :=
  (∀ row ∈ opcodeMap, ∀ imm : BitVec 8, (row.2.2.2 imm).WellFormed →
    decode (BitVec.ofNat 64 (row.1 + 256 * row.2.1 + 512 * row.2.2.1 + 65536 * (row.2.2.2 imm).imm.toNat))
      = .ok (row.2.2.2 imm)) ∧
  (∀ i : Instr, ∃ row ∈ opcodeMap, i = row.2.2.2 i.imm) ∧
  (∀ w : Word, (∀ row ∈ opcodeMap, row.1 ≠ w.toNat % 256) → ∃ e, decode w = .error e) ∧
  decode 0b00000000_00000011_00000000_01000000 = .ok (.bwWrite 3) ∧
  decode 0b00000000_00000100_00000000_00010000 = .ok (.fwPut 4) ∧
  decode 0b00000000_00000000_00000011_00110000 = .ok .bpEncd64 ∧
  decode 0b00000000_00000000_00000001_01001100 = .ok .egDec64 ∧
  decode 0b00000000_00000111_00000000_01100000 = .ok (.accClr 7) ∧
  decode 0b00000000_00000000_00000000_00100010 = .ok .gvGetf

/-- 30_encoding.md R92, R94: decoding reads exactly the command words; no bit of the value written to `CMD`
is ignored, and each value is one mnemonic with its field values or none. -/
def Obligations.DecodeReadsExactlyTheCommandWords : Prop :=
  ∀ (w : Word) (i : Instr), decode w = .ok i ↔ i.WellFormed ∧ encode i = w

/-- 10_state.md R31, 60_exceptions.md R333: a host write to `CMD` of a word that decodes to `i` is one `exec`
of `i`, on the state without that action, and nothing besides. -/
def Obligations.StepRunsTheDecodedCommand : Prop :=
  ∀ (s : State) (rest : List HostAction) (w : Word) (i : Instr),
    s.pending = .writeReg 0 8 w :: rest → decode w = .ok i → step s = exec i { s with pending := rest }

/-- 30_encoding.md R95: a written value that is no mnemonic's word faults, and is no other instruction. -/
def Obligations.IllegalWordsFault : Prop :=
  ∀ (s : State) (rest : List HostAction) (w : Word),
    s.faulted = false → s.pending = .writeReg 0 8 w :: rest →
    (∀ i : Instr, i.WellFormed → encode i ≠ w) →
      step s = .next { s with pending := rest, regs := faultRegs s.regs .illegalCmd w.toNat w }

/-! ### System commands, reset, the faulted state -/

/-- 46_system.md R290. -/
def Obligations.NopChangesNothing : Prop := ∀ s : State, exec .sysNop s = .next s

/-- 46_system.md R291: `SYS.CLRF`, in every state, clears `FAULT`, `FADDR` and `FCMD` and nothing else. -/
def Obligations.ClearFaultClearsTheRecordAlone : Prop :=
  ∀ s : State, exec .sysClrf s = .next { s with regs :=
    { s.regs with status := s.regs.status &&& ~~~0xFF00#64, faddr := 0, fcmd := 0 } }

/-- 46_system.md R292, 70_reset_and_hazards.md R341: `SYS.RESET` and hardware reset put every register at
the value R21 prints for reset, in every state, and touch no memory. That the host actions (log 4), the
replies (log 5), the platform (log 2) and the free-byte counter (log 3) stay, but for the action performed, is
the model's own (log 12). -/
def Obligations.ResetGivesEveryRegisterItsValue : Prop :=
  (∀ s : State, exec .sysReset s = .next { s with regs := Regs.reset }) ∧
  (∀ (s : State) (rest : List HostAction), s.pending = .reset :: rest →
    step s = .next { s with pending := rest, regs := Regs.reset }) ∧
  (∀ p ∈ registerMap Regs.reset, p.2 = if p.1 = 0xE0 then 0x0000000742503132 else 0) ∧
  State.reset.regs = Regs.reset

/-- The state after reset meets the invariants that every step keeps, and the block is ready
(10_state.md R42). What it holds besides the registers is the model's choice (logs 1, 2, 4, 5). -/
def Obligations.ResetStateMeetsTheInvariants : Prop :=
  Ready State.reset ∧ MemoryInSpace State.reset ∧ StatusLegal State.reset ∧ AccInRange State.reset

/-- 60_exceptions.md R308: a faulted block executes `SYS.CLRF` and `SYS.RESET` and ignores every other
value, legal or illegal; host reads and writes of the other registers work as always. That a step takes the
action off the list (log 4) and that a read's value goes to `replies` (log 5) are the model's own. -/
def Obligations.FaultedBlockIgnoresCommands : Prop :=
  ∀ (s : State) (rest : List HostAction), s.faulted = true →
    (∀ w : Word, s.pending = .writeReg 0 8 w :: rest →
      step s =
        if w = 1 then .next { s with pending := rest, regs :=
          { s.regs with status := s.regs.status &&& ~~~0xFF00#64, faddr := 0, fcmd := 0 } }
        else if w = 2 then .next { s with pending := rest, regs := Regs.reset }
        else .next { s with pending := rest }) ∧
    (∀ p ∈ registerMap s.regs, s.pending = .readReg p.1 8 :: rest →
      step s = .next { s with pending := rest, replies := p.2 :: s.replies }) ∧
    (∀ v : Word, ∀ p ∈ writableMap s.regs v, s.pending = .writeReg p.1 8 v :: rest →
      step s = .next { s with pending := rest, regs := p.2 }) ∧
    (∀ (offset : Nat) (v : Word), offset % 8 = 0 → 0 < offset → offset < 256 →
      (∀ p ∈ writableMap s.regs v, p.1 ≠ offset) → s.pending = .writeReg offset 8 v :: rest →
      step s = .next { s with pending := rest })

/-! ### The register window and the host -/

/-- 10_state.md R21, R38: a host read of each offset returns the register the map names, and has no side
effect. That the value goes to `replies` is the model's way of showing it (log 5). -/
def Obligations.HostReadReturnsTheRegister : Prop :=
  ∀ (s : State) (rest : List HostAction), ∀ p ∈ registerMap s.regs, s.pending = .readReg p.1 8 :: rest →
    step s = .next { s with pending := rest, replies := p.2 :: s.replies }

/-- 10_state.md R22: a host write stores into the read/write register it names and nowhere else, changes
nothing at a read-only or reserved offset, and an access that is not one aligned 64-bit access inside the
256 bytes is refused (log 6). -/
def Obligations.HostWriteStoresOneRegister : Prop :=
  ∀ (s : State) (rest : List HostAction) (offset size : Nat) (v : Word),
    (∀ p ∈ writableMap s.regs v, s.pending = .writeReg p.1 8 v :: rest →
      step s = .next { s with pending := rest, regs := p.2 }) ∧
    (offset % 8 = 0 → 0 < offset → offset < 256 → (∀ p ∈ writableMap s.regs v, p.1 ≠ offset) →
      s.pending = .writeReg offset 8 v :: rest → step s = .next { s with pending := rest }) ∧
    (size ≠ 8 ∨ offset % 8 ≠ 0 ∨ 256 ≤ offset →
      (s.pending = .writeReg offset size v :: rest → step s = .refused (.windowAccess offset size)) ∧
      (s.pending = .readReg offset size :: rest → step s = .refused (.windowAccess offset size)))

/-- The host's accesses to the data memory between commands (60_exceptions.md R333): a write changes the one
byte, a read returns what the byte holds, the registers are untouched. That these accesses are one byte
wide, and a step each, is the model's choice (log 8). -/
def Obligations.HostMemoryIsOrdinary : Prop :=
  ∀ (s : State) (rest : List HostAction) (a : Word) (b : Byte),
    s.mem.wf → inWindow s.platform a.toNat = false →
    (s.pending = .writeMem a b :: rest →
      ∃ t, step s = .next t ∧ t.regs = s.regs ∧ Stored s t a.toNat [b] ∧
        t.platform = s.platform ∧ t.pending = rest ∧ t.replies = s.replies ∧ t.draws = s.draws) ∧
    (s.pending = .readMem a :: rest →
      step s = .next { s with
        pending := rest, replies := BitVec.ofNat 64 (s.mem.read a.toNat).toNat :: s.replies })

/-- A step performs the first pending host action and no other, and never changes the platform's parameters
(60_exceptions.md R333, 00_scope.md R7); with none pending nothing changes (R332). The list of actions is
the model's own (log 4). -/
def Obligations.StepPerformsOneAction : Prop :=
  (∀ s : State, s.pending = [] → step s = .next s) ∧
  ∀ s t : State, step s = .next t → t.platform = s.platform ∧ t.pending = s.pending.tail ∧
    (t.replies = s.replies ∨ ∃ v, t.replies = v :: s.replies)

/-! ### Promises of the whole machine -/

/-- 60_exceptions.md R306, R307, 20_memory.md R66, R82: a command that leaves the block faulted has changed the
fault record, `RES` and `RES2`, and nothing else of the registers; the data memory is as it was, but for a
`MEM_FAULT` of the write phase: that names the first refused byte of the command's output, which starts at
`outputBase` and lies inside the destination extent, and leaves the bytes of that output alone unspecified
(free values, log 3). How long the output is, each storing command's own statement says. An illegal word
records itself, with the registers alone changed. -/
def Obligations.FaultChangesOnlyTheRecord : Prop :=
  (∀ (s : State) (rest : List HostAction) (w : Word) (e : Illegal),
    s.faulted = false → s.pending = .writeReg 0 8 w :: rest → decode w = .error e →
      step s = .next { s with pending := rest, regs := faultRegs s.regs .illegalCmd w.toNat w }) ∧
  ∀ (i : Instr) (s t : State), Ready s → exec i s = .next t → t.faulted = true →
    ∃ code info, t.regs = faultRegs s.regs code info (encode i) ∧
      t.platform = s.platform ∧ t.pending = s.pending ∧ t.replies = s.replies ∧
      ((t.mem = s.mem ∧ t.draws = s.draws) ∨
        (code = .memFault ∧ ∃ size, let base := outputBase i s
          (∀ x, Within x (base, size) → Within x (destExtent i s)) ∧
          Within info (base, size) ∧ canWrite s.platform info = false ∧
          (∀ x, base ≤ x → x < info → canWrite s.platform x = true) ∧ LosesOutput i s info base size))

/-- 10_state.md R21 (column "Cmd writes"), R23, R25, R34, 30_encoding.md R97: which commands write which
register. `SYS.RESET` writes them all; a command that faults writes the fault record and the two results. -/
def Obligations.RegistersAreWrittenOnlyByTheirCommands : Prop :=
  ∀ (i : Instr) (s t : State), i ≠ .sysReset → exec i s = .next t →
    (t.regs.src = s.regs.src ∧ t.regs.srclen = s.regs.srclen ∧ t.regs.dst = s.regs.dst ∧
      t.regs.dstcap = s.regs.dstcap ∧ t.regs.cnt = s.regs.cnt ∧ t.regs.arg = s.regs.arg ∧
      t.regs.bitlen = s.regs.bitlen ∧ t.regs.bwBase = s.regs.bwBase ∧ t.regs.bwCap = s.regs.bwCap ∧
      t.regs.brBase = s.regs.brBase ∧ t.regs.brEnd = s.regs.brEnd) ∧
    ((∀ p ∈ bpEncoders, i ≠ p.1) → t.regs.metaBlocks = s.regs.metaBlocks ∧
      t.regs.metaLast = s.regs.metaLast ∧ t.regs.metaMaxbw = s.regs.metaMaxbw) ∧
    ((∀ p ∈ eliasEncoders, i ≠ p.1) → t.regs.metaBits = s.regs.metaBits) ∧
    ((∀ p ∈ bpEncoders, i ≠ p.1) → (∀ p ∈ eliasEncoders, i ≠ p.1) →
      t.regs.metaCount = s.regs.metaCount ∧ t.regs.metaBytes = s.regs.metaBytes) ∧
    ((∀ imm, i ≠ .bwWrite imm) → i ≠ .egPut → i ≠ .edPut → t.regs.bwPos = s.regs.bwPos) ∧
    ((∀ imm, i ≠ .brRead imm) → i ≠ .egGet → i ≠ .edGet → t.regs.brPos = s.regs.brPos) ∧
    ((∀ imm, i ≠ .accClr imm) → (∀ imm, i ≠ .accDigit imm) → i ≠ .accStr →
      t.regs.acc = s.regs.acc ∧ t.regs.accNdig = s.regs.accNdig ∧ t.regs.ovf = s.regs.ovf) ∧
    ((∀ imm, i ≠ .accClr imm) → t.regs.neg = s.regs.neg ∧ t.regs.mode = s.regs.mode ∧
      (s.regs.ovf = true → t.regs.ovf = true)) ∧
    ((∀ imm, i ≠ .brRead imm) → i ≠ .egGet → i ≠ .edGet → (∀ p ∈ eliasDecoders, i ≠ p.1) →
      t.regs.malf = s.regs.malf) ∧
    (i ≠ .sysClrf → t.faulted = s.faulted →
      t.regs.faddr = s.regs.faddr ∧ t.regs.fcmd = s.regs.fcmd ∧ t.regs.fault = s.regs.fault) ∧
    (i = .sysClrf ∨ t.faulted = s.faulted →
      ((writesResults i).1 = false → t.regs.res = s.regs.res) ∧
      ((writesResults i).2 = false → t.regs.res2 = s.regs.res2))

/-- 20_memory.md R66, R81: no command, whether it completes or faults, changes a byte outside its destination
extent. -/
def Obligations.StoresStayInTheDestinationExtent : Prop :=
  ∀ (i : Instr) (s t : State), exec i s = .next t →
    ∀ x, ¬ Within x (destExtent i s) → t.mem.read x = s.mem.read x

/-- 20_memory.md R81, R83, 60_exceptions.md R300: a command's outcome depends on the registers, the platform,
and no byte outside its source extent (the bit writer's: the one partly filled byte of R224). Two memories
that agree there give the same refusal, or the same registers and the same stores: every byte is the same
after both, or as it was in both. -/
def Obligations.OutcomeDependsOnlyOnTheSourceExtent : Prop :=
  ∀ (i : Instr) (s : State) (m : Memory), s.mem.wf → m.wf →
    (∀ x, Within x (sourceExtent i s) → s.mem.read x = m.read x) →
    (appendedBits i s ≠ none →
      s.mem.read (s.regs.bwBase.toNat + s.regs.bwPos.toNat / 8)
        = m.read (s.regs.bwBase.toNat + s.regs.bwPos.toNat / 8)) →
    match exec i s, exec i { s with mem := m } with
    | .next t, .next u =>
      t.regs = u.regs ∧ t.draws = u.draws ∧
        ∀ x, t.mem.read x = u.mem.read x ∨ (t.mem.read x = s.mem.read x ∧ u.mem.read x = m.read x)
    | .refused r, .refused q => r = q
    | _, _ => False

/-- Every step keeps the data memory in its canonical form and below `2^64` (20_memory.md R60; the form is
the model's). -/
def Obligations.StepKeepsMemoryCanonical : Prop :=
  ∀ s t : State, s.mem.wf → MemoryInSpace s → step s = .next t → t.mem.wf ∧ MemoryInSpace t

/-- Every step keeps the reserved bits of `STATUS` at 0 and `FAULT` at a code of 60_exceptions.md R301
(10_state.md R25). -/
def Obligations.StepKeepsStatusLegal : Prop :=
  ∀ s t : State, StatusLegal s → step s = .next t → StatusLegal t

/-- Every step keeps the accumulator within the limit of its mode and sign (45_acc128.md R271; R278, an
inference the spec marks as its own). -/
def Obligations.StepKeepsAccumulatorInRange : Prop :=
  ∀ s t : State, AccInRange s → step s = .next t → AccInRange t

/-- 20_memory.md R73, 60_exceptions.md R300, R333: a command is refused only for an access to the block's own
window that the platform admits, at an address of the command's extents; on a platform that admits none,
every command answers a next state (log 7). -/
def Obligations.CommandsAreRefusedOnlyAtTheOwnWindow : Prop :=
  (∀ (i : Instr) (s : State) (r : Refusal), exec i s = .refused r →
    ∃ a, r = .ownWindow a ∧ inWindow s.platform a = true ∧
      (canRead s.platform a = true ∨ canWrite s.platform a = true) ∧
      (Within a (sourceExtent i s) ∨ Within a (destExtent i s))) ∧
  ∀ (i : Instr) (s : State),
    (∀ a, inWindow s.platform a = true → canRead s.platform a = false ∧ canWrite s.platform a = false) →
    ∃ t, exec i s = .next t

/-- 20_memory.md R68, R69, 60_exceptions.md R305: before any access, a source extent past the top of the
address space is `ADDR_WRAP` with its base, then such a destination extent, then intersecting extents are
`OVERLAP` with the destination base. -/
def Obligations.ExtentFaultsComeFirst : Prop :=
  ∀ (i : Instr) (s : State), s.faulted = false → ReachesExtents i s →
    let source := sourceExtent i s
    let dest := destExtent i s
    (¬ InSpace source.1 source.2 → Faults i s .addrWrap source.1) ∧
    (InSpace source.1 source.2 → ¬ InSpace dest.1 dest.2 → Faults i s .addrWrap dest.1) ∧
    (InSpace source.1 source.2 → InSpace dest.1 dest.2 → ¬ Apart source.1 source.2 dest.1 dest.2 →
      Faults i s .overlap dest.1)

/-- 20_memory.md R64, 60_exceptions.md R305 3d: the first byte that a command needs and may not read is the
`MEM_FAULT`, and nothing before it in the stream is wrong. An array is read whole in rising address order,
whatever it holds; `ACC.STR` reads while it finds digits; a group command reads the count, the bitmap and the
wanted fields, a BP128 decoder the prefixes and the blocks it turns to, an Elias decoder the bits it examines
(44_elias.md R225), the bit writer its partly filled byte (R224). -/
def Obligations.FirstUnreadableByteFaults : Prop :=
  (∀ (i : Instr) (s : State) (k : Nat), s.faulted = false → ReachesExtents i s →
    ExtentsAdmitted (sourceExtent i s) (destExtent i s) → k < (sourceExtent i s).2 →
    Reads s (sourceExtent i s).1 k → canRead s.platform ((sourceExtent i s).1 + k) = false →
    (i ∈ arrayReaders ∨ (i = .accStr ∧ ∀ j < k,
      48 ≤ (s.mem.read (s.regs.src.toNat + j)).toNat ∧ (s.mem.read (s.regs.src.toNat + j)).toNat ≤ 57)) →
      Faults i s .memFault ((sourceExtent i s).1 + k)) ∧
  ∀ s : State, s.faulted = false →
    let a := s.regs.src.toNat
    let len := s.regs.srclen.toNat
    let dest := (s.regs.dst.toNat, s.regs.dstcap.toNat)
    (∀ i ∈ [Instr.gvDec, .gvGetf], ExtentsAdmitted (a, len) (destExtent i s) →
      let c := (s.mem.read a).toNat
      let wanted (k : Nat) : Prop := if i = .gvGetf then k = s.regs.arg.toNat else k < s.regs.cnt.toNat
      let fits (k : Nat) : Prop := groupOffset s.mem a c k + groupWidth s.mem a k ≤ len
      (1 ≤ len → canRead s.platform a = false → Faults i s .memFault a) ∧
      (1 ≤ c → c ≤ 64 → 1 + ceilDiv c 4 ≤ len → (i = .gvGetf → s.regs.arg.toNat < c) →
        (∀ k, 1 ≤ k → k < 1 + ceilDiv c 4 → Reads s a k → canRead s.platform (a + k) = false →
          Faults i s .memFault (a + k)) ∧
        (∀ k < c, ∀ j < groupWidth s.mem a k, wanted k → fits k → Reads s a (1 + ceilDiv c 4) →
          (i = .gvDec → ∀ l < k, fits l ∧ Reads s (a + groupOffset s.mem a c l) (groupWidth s.mem a l)) →
          Reads s (a + groupOffset s.mem a c k) j →
          canRead s.platform (a + groupOffset s.mem a c k + j) = false →
          Faults i s .memFault (a + groupOffset s.mem a c k + j)))) ∧
    (∀ p ∈ bpDecoders, ExtentsAdmitted (a, len) dest →
      (∀ off, TurnsToVarint s p.2 off → off + 1 ≤ len → canRead s.platform (a + off) = false →
        Faults p.1 s .memFault (a + off)) ∧
      (∀ off, TurnsToVarint s p.2 off → off + (varintAt s off).2 ≤ len → ∀ k, 1 ≤ k → k < (varintAt s off).2 →
        Reads s (a + off) k → canRead s.platform (a + off + k) = false → Faults p.1 s .memFault (a + off + k)) ∧
      (∀ n, TurnsToBlock s p.2 n →
        let off := blockOffset s p.2 n
        let b := blockAt s off
        (off + 1 ≤ len → canRead s.platform (a + off) = false → Faults p.1 s .memFault (a + off)) ∧
        (b.short = true → b.width ≤ p.2.width → off + 2 ≤ len → Reads s (a + off) 1 →
          canRead s.platform (a + off + 1) = false → Faults p.1 s .memFault (a + off + 1)) ∧
        (HeaderSound s p.2 off → off + b.size ≤ len → ∀ k, b.headerBytes ≤ k → k < b.size →
          Reads s (a + off) k → canRead s.platform (a + off + k) = false →
          Faults p.1 s .memFault (a + off + k)))) ∧
    (∀ p ∈ [(Instr.egGet, Code.gamma), (.edGet, .delta)], ∀ k,
      let base := s.regs.brBase.toNat
      let pos := s.regs.brPos.toNat
      let stop := s.regs.brEnd.toNat
      InSpace base (ceilDiv stop 8) → CodeExamines p.2 s.mem base pos stop 64 k → ReadsBits s base pos k →
      canRead s.platform (base + (pos + k) / 8) = false → Faults p.1 s .memFault (base + (pos + k) / 8)) ∧
    (∀ p ∈ eliasDecoders, ∀ (vs : List Nat) (k : Nat),
      let code := vs.flatMap p.2.1.word
      let stop := s.regs.bitlen.toNat
      let wmax := 8 * elementBytes p.2.2
      ExtentsAdmitted (a, ceilDiv stop 8) dest → (∀ x ∈ vs, 1 ≤ x ∧ x < 2 ^ wmax) →
      vs.length < s.regs.cnt.toNat → code.length < stop → bitsAt s.mem a 0 code.length = code →
      CodeExamines p.2.1 s.mem a code.length stop wmax k → ReadsBits s a 0 (code.length + k) →
      canRead s.platform (a + (code.length + k) / 8) = false →
      Faults p.1 s .memFault (a + (code.length + k) / 8)) ∧
    (∀ (i : Instr) (t : List Bool),
      let base := s.regs.bwBase.toNat
      let pos := s.regs.bwPos.toNat
      appendedBits i s = some t → t ≠ [] → InSpace base s.regs.bwCap.toNat →
      ceilDiv (pos + t.length) 8 ≤ s.regs.bwCap.toNat → pos + t.length < 2 ^ 64 → pos % 8 ≠ 0 →
      canRead s.platform (base + pos / 8) = false → Faults i s .memFault (base + pos / 8))

/-- 60_exceptions.md R301 code 3, R305 3f, 20_memory.md R80: an output that does not fit its destination is
`DST_OVERRUN` with the size it would have needed, and nothing is written. -/
def Obligations.OversizedOutputFaults : Prop :=
  ∀ s : State, s.faulted = false →
    (let vs := arrayAt s.mem s.regs.src.toNat 8 s.regs.cnt.toNat
     ReachesExtents .gvEnc s → ExtentsAdmitted (sourceExtent .gvEnc s) (destExtent .gvEnc s) →
      Reads s s.regs.src.toNat (8 * s.regs.cnt.toNat) → s.regs.dstcap.toNat < (gvEncode vs).length →
      Faults .gvEnc s .dstOverrun (gvEncode vs).length) ∧
    (∀ p ∈ bpEncoders,
      let vs := arrayAt s.mem s.regs.src.toNat p.2.esz s.regs.cnt.toNat
      ExtentsAdmitted (sourceExtent p.1 s) (destExtent p.1 s) →
      Reads s s.regs.src.toNat (p.2.esz * s.regs.cnt.toNat) → (p.2.delta = true → NonDecreasing vs) →
      s.regs.dstcap.toNat < (bpStream p.2 vs).length →
      Faults p.1 s .dstOverrun (bpStream p.2 vs).length) ∧
    (∀ p ∈ eliasEncoders,
      let vs := arrayAt s.mem s.regs.src.toNat (elementBytes p.2.2) s.regs.cnt.toNat
      let size := ceilDiv (codeStream p.2.1 vs).length 8
      ExtentsAdmitted (sourceExtent p.1 s) (destExtent p.1 s) →
      Reads s s.regs.src.toNat (elementBytes p.2.2 * s.regs.cnt.toNat) → (∀ v ∈ vs, v ≠ 0) →
      s.regs.dstcap.toNat < size → Faults p.1 s .dstOverrun size) ∧
    (∀ (i : Instr) (t : List Bool),
      let need := ceilDiv (s.regs.bwPos.toNat + t.length) 8
      appendedBits i s = some t → t ≠ [] → InSpace s.regs.bwBase.toNat s.regs.bwCap.toNat →
      s.regs.bwCap.toNat < need ∨ 2 ^ 64 ≤ s.regs.bwPos.toNat + t.length →
      Faults i s .dstOverrun need)

/-- 60_exceptions.md R301 codes 8 and 10, R305 3a and 3e, 43_bp128.md R207, 44_elias.md R231, R246: a
decreasing array given to a delta command is `NONMONOTONE` with the least index that decreases; a zero given
to an Elias encoder is `ZERO_INPUT` with its least index, before any extent is looked at for a single
value. -/
def Obligations.BadInputValuesFault : Prop :=
  ∀ s : State, s.faulted = false →
    (∀ p ∈ deltaReaders, ∀ j,
      let vs := arrayAt s.mem s.regs.src.toNat p.2 s.regs.cnt.toNat
      ExtentsAdmitted (sourceExtent p.1 s) (destExtent p.1 s) →
      Reads s s.regs.src.toNat (p.2 * s.regs.cnt.toNat) →
      1 ≤ j → j < vs.length → vs.getD j 0 < vs.getD (j - 1) 0 →
      (∀ k < j, 1 ≤ k → vs.getD (k - 1) 0 ≤ vs.getD k 0) → Faults p.1 s .nonmonotone j) ∧
    (∀ p ∈ eliasEncoders, ∀ j,
      let vs := arrayAt s.mem s.regs.src.toNat (elementBytes p.2.2) s.regs.cnt.toNat
      ExtentsAdmitted (sourceExtent p.1 s) (destExtent p.1 s) →
      Reads s s.regs.src.toNat (elementBytes p.2.2 * s.regs.cnt.toNat) →
      j < vs.length → vs.getD j 0 = 0 → (∀ k < j, vs.getD k 0 ≠ 0) → Faults p.1 s .zeroInput j) ∧
    (s.regs.arg = 0 → Faults .egPut s .zeroInput 0 ∧ Faults .edPut s .zeroInput 0)

/-- 60_exceptions.md R301 codes 2 and 3, R305 3d and 3f: what decoders report of buffers that are too short.
A group whose count byte, bitmap or wanted field lies past `SRCLEN`, and an empty 64-bit stream, are
`SRC_UNDERRUN` with the length that was needed; decoded values that exceed `DSTCAP` are `DST_OVERRUN` with the
bytes they take. -/
def Obligations.ShortBuffersFaultTheDecoders : Prop :=
  ∀ s : State, s.faulted = false →
    let a := s.regs.src.toNat
    let len := s.regs.srclen.toNat
    let cap := s.regs.dstcap.toNat
    let dest := (s.regs.dst.toNat, cap)
    (let c := (s.mem.read a).toNat
     let m := min c s.regs.cnt.toNat
     let past (k : Nat) := groupOffset s.mem a c k + groupWidth s.mem a k
     let fits (k : Nat) := past k ≤ len ∧ Reads s (a + groupOffset s.mem a c k) (groupWidth s.mem a k)
     InSpace a len →
      (len = 0 → Faults .gvGetf s .srcUnderrun 1 ∧
        (ExtentsAdmitted (a, len) dest → Faults .gvDec s .srcUnderrun 1)) ∧
      (1 ≤ len → Reads s a 1 → 1 ≤ c → c ≤ 64 → len < 1 + ceilDiv c 4 →
        (s.regs.arg.toNat < c → Faults .gvGetf s .srcUnderrun (1 + ceilDiv c 4)) ∧
        (ExtentsAdmitted (a, len) dest → Faults .gvDec s .srcUnderrun (1 + ceilDiv c 4))) ∧
      (1 ≤ c → c ≤ 64 → 1 + ceilDiv c 4 ≤ len → Reads s a (1 + ceilDiv c 4) →
        (s.regs.arg.toNat < c → len < past s.regs.arg.toNat →
          Faults .gvGetf s .srcUnderrun (past s.regs.arg.toNat)) ∧
        (∀ k < m, ExtentsAdmitted (a, len) dest → (∀ j < k, fits j) → len < past k →
          Faults .gvDec s .srcUnderrun (past k)) ∧
        (ExtentsAdmitted (a, len) dest → (∀ j < m, fits j) → cap < 8 * m →
          Faults .gvDec s .dstOverrun (8 * m)))) ∧
    (∀ p ∈ bpDecoders, p.2.wide = true → len = 0 → ExtentsAdmitted (a, len) dest →
      Faults p.1 s .srcUnderrun 1) ∧
    (∀ p ∈ bpDecoders, ∀ vs : List Nat,
      (∀ x ∈ vs, x < 2 ^ p.2.width) → (p.2.delta = true → NonDecreasing vs) →
      s.regs.cnt.toNat = vs.length → len = (bpStream p.2 vs).length → bytesAt s.mem a len = bpStream p.2 vs →
      ExtentsAdmitted (a, len) dest → Reads s a len → cap < p.2.esz * vs.length →
      Faults p.1 s .dstOverrun (p.2.esz * vs.length)) ∧
    (∀ p ∈ eliasDecoders, ∀ vs : List Nat,
      let esz := elementBytes p.2.2
      let code := vs.flatMap p.2.1.word
      (∀ x ∈ vs, 1 ≤ x ∧ x < 2 ^ (8 * esz)) → vs.length ≤ s.regs.cnt.toNat →
      s.regs.bitlen.toNat = code.length → bitsAt s.mem a 0 code.length = code →
      ExtentsAdmitted (a, ceilDiv code.length 8) dest → Reads s a (ceilDiv code.length 8) →
      cap < esz * vs.length → Faults p.1 s .dstOverrun (esz * vs.length))

/-! ### Fixed width and the width selector -/

/-- 40_fixed_width_wsel.md R114: `FW.PUT w` stores the low `w` bytes of `ARG` at `DST`, little-endian. -/
def Obligations.FwPutStoresTheField : Prop :=
  ∀ (imm : BitVec 8) (s : State), (Instr.fwPut imm).WellFormed → Ready s →
    let w := imm.toNat
    let a := s.regs.dst.toNat
    let cap := s.regs.dstcap.toNat
    (InSpace a cap → w ≤ cap → Writes s a w →
      Completes (.fwPut imm) s { s.regs with res := BitVec.ofNat 64 w } a (fieldBytes s.regs.arg.toNat w)) ∧
    (¬ InSpace a cap → Faults (.fwPut imm) s .addrWrap a) ∧
    (InSpace a cap → cap < w → Faults (.fwPut imm) s .dstOverrun w) ∧
    (∀ k < w, InSpace a cap → w ≤ cap → Writes s a k → canWrite s.platform (a + k) = false →
      LosesOutput (.fwPut imm) s (a + k) a w)

/-- 40_fixed_width_wsel.md R115: `FW.GET w` loads `w` bytes at `SRC`, little-endian and zero-extended. -/
def Obligations.FwGetLoadsTheField : Prop :=
  ∀ (imm : BitVec 8) (s : State), (Instr.fwGet imm).WellFormed → s.faulted = false →
    let w := imm.toNat
    let a := s.regs.src.toNat
    let len := s.regs.srclen.toNat
    (InSpace a len → w ≤ len → Reads s a w →
      exec (.fwGet imm) s = .next { s with regs :=
        { s.regs with res := BitVec.ofNat 64 (numberAt s.mem a w), res2 := BitVec.ofNat 64 w } } ∧
      numberAt s.mem a w < 2 ^ (8 * w)) ∧
    (¬ InSpace a len → Faults (.fwGet imm) s .addrWrap a) ∧
    (InSpace a len → len < w → Faults (.fwGet imm) s .srcUnderrun w) ∧
    (∀ k < w, InSpace a len → w ≤ len → Reads s a k → canRead s.platform (a + k) = false →
      Faults (.fwGet imm) s .memFault (a + k))

/-- 40_fixed_width_wsel.md R111, R112: `W(x)` is the least byte count that holds `x`, `S(x)` the least of
1, 2, 4, 8 that does, its code leads back to it, and both grow with `x`. -/
def Obligations.WidthsAreTheLeastThatHold : Prop :=
  ∀ x < 2 ^ 64,
    (1 ≤ byteWidth x ∧ byteWidth x ≤ 8 ∧ x < 2 ^ (8 * byteWidth x) ∧
      ∀ k, 1 ≤ k → x < 2 ^ (8 * k) → byteWidth x ≤ k) ∧
    (snappedWidth x ∈ [1, 2, 4, 8] ∧ x < 2 ^ (8 * snappedWidth x) ∧
      ∀ k ∈ [1, 2, 4, 8], x < 2 ^ (8 * k) → snappedWidth x ≤ k) ∧
    (widthCode (snappedWidth x) < 4 ∧ widthOfCode (widthCode (snappedWidth x)) = snappedWidth x) ∧
    ∀ y, x ≤ y → byteWidth x ≤ byteWidth y ∧ snappedWidth x ≤ snappedWidth y

/-- 40_fixed_width_wsel.md R117, R118: the row that `WSEL` looks up in the printed table holds the width, the
snapped width with its code, the varint length and the bit width of `ARG`. -/
def Obligations.WselReadsTheWidths : Prop :=
  ∀ s : State, s.faulted = false →
    let x := s.regs.arg.toNat
    exec .wsel s = .next { s with regs := { s.regs with
      res := BitVec.ofNat 64 (byteWidth x + 16 * snappedWidth x + 256 * widthCode (snappedWidth x)
        + 4096 * tvLength x + 65536 * bitwidth x)
      res2 := BitVec.ofNat 64 (64 - bitwidth x) } }

/-! ### Tagged varint -/

/-- 41_tagged_varint.md R134: `TV.PUT` stores the varint of `ARG` at `DST`. -/
def Obligations.TvPutStoresTheVarint : Prop :=
  ∀ s : State, Ready s →
    let out := tvEncode s.regs.arg.toNat
    let a := s.regs.dst.toNat
    let cap := s.regs.dstcap.toNat
    (InSpace a cap → out.length ≤ cap → Writes s a out.length →
      Completes .tvPut s { s.regs with res := BitVec.ofNat 64 out.length } a out) ∧
    (¬ InSpace a cap → Faults .tvPut s .addrWrap a) ∧
    (InSpace a cap → cap < out.length → Faults .tvPut s .dstOverrun out.length) ∧
    (∀ k < out.length, InSpace a cap → out.length ≤ cap → Writes s a k →
      canWrite s.platform (a + k) = false → LosesOutput .tvPut s (a + k) a out.length)

/-- 41_tagged_varint.md R135, R132: `TV.GET` reads the length off the leading zeros of the first byte and the
value off its low bits and the bytes after it, shortest spelling or not. -/
def Obligations.TvGetReadsAnyVarint : Prop :=
  ∀ s : State, s.faulted = false →
    let a := s.regs.src.toNat
    let len := s.regs.srclen.toNat
    let first := (s.mem.read a).toNat
    let z := 8 - bitwidth first
    (InSpace a len → z + 1 ≤ len → Reads s a (z + 1) →
      exec .tvGet s = .next { s with regs := { s.regs with
        res := BitVec.ofNat 64 (if z = 8 then numberAt s.mem (a + 1) 8
          else first % 2 ^ (7 - z) + 2 ^ (7 - z) * numberAt s.mem (a + 1) z)
        res2 := BitVec.ofNat 64 (z + 1) } }) ∧
    (¬ InSpace a len → Faults .tvGet s .addrWrap a) ∧
    (len = 0 → Faults .tvGet s .srcUnderrun 1) ∧
    (InSpace a len → 1 ≤ len → len < z + 1 → Reads s a 1 → Faults .tvGet s .srcUnderrun (z + 1)) ∧
    (InSpace a len → 1 ≤ len → canRead s.platform a = false → Faults .tvGet s .memFault a) ∧
    (∀ k, 1 ≤ k → k < z + 1 → InSpace a len → z + 1 ≤ len → Reads s a k →
      canRead s.platform (a + k) = false → Faults .tvGet s .memFault (a + k))

/-- 41_tagged_varint.md R136, R130: `TV.LEN` answers the length by the thresholds R130 lists. -/
def Obligations.TvLenFollowsTheThresholds : Prop :=
  ∀ s : State, s.faulted = false →
    let v := s.regs.arg.toNat
    exec .tvLen s = .next { s with regs := { s.regs with res :=
      if v < 2 ^ 7 then 1 else if v < 2 ^ 14 then 2 else if v < 2 ^ 21 then 3 else if v < 2 ^ 28 then 4
      else if v < 2 ^ 35 then 5 else if v < 2 ^ 42 then 6 else if v < 2 ^ 49 then 7
      else if v < 2 ^ 56 then 8 else 9 } }

/-- 41_tagged_varint.md R137, an inference the spec marks as its own ("[derived: from rule R130, rule R131
and rule R132]"): the length law, the round trip with any bytes after the varint, the order of
lengths, and `TV.GET` after `TV.PUT` at the same address. -/
def Obligations.TaggedVarintsRoundTrip : Prop :=
  (∀ v < 2 ^ 64, ∀ t : List Byte,
    (tvEncode v).length = tvLength v ∧ 1 ≤ tvLength v ∧ tvLength v ≤ 9 ∧
      tvValue (tvEncode v ++ t) = v ∧ tvAnnounced ((tvEncode v ++ t).getD 0 0) = tvLength v ∧
      ∀ w, v ≤ w → tvLength v ≤ tvLength w) ∧
  ∀ (s t : State) (n : Word), Ready s → exec .tvPut s = .next t → t.faulted = false →
    t.regs.res.toNat ≤ n.toNat → InSpace s.regs.dst.toNat n.toNat →
    Reads s s.regs.dst.toNat t.regs.res.toNat →
    let u := { t with regs := { t.regs with src := s.regs.dst, srclen := n } }
    exec .tvGet u = .next { u with regs := { u.regs with res := s.regs.arg, res2 := t.regs.res } }

/-! ### Group varint -/

/-- 42_group_varint.md R150: the count sentinels, normal completions that touch no memory. -/
def Obligations.GroupCountSentinels : Prop :=
  ∀ s : State, s.faulted = false →
    (s.regs.cnt = 0 ∨ 64 < s.regs.cnt.toNat →
      exec .gvEnc s = .next { s with regs := { s.regs with res := 0 } } ∧
      exec .gvSize s = .next { s with regs := { s.regs with res := 0 } }) ∧
    (let count := (s.mem.read s.regs.src.toNat).toNat
     InSpace s.regs.src.toNat s.regs.srclen.toNat → 1 ≤ s.regs.srclen.toNat → Reads s s.regs.src.toNat 1 →
      (count = 0 ∨ 64 < count →
        InSpace s.regs.dst.toNat s.regs.dstcap.toNat →
        Apart s.regs.src.toNat s.regs.srclen.toNat s.regs.dst.toNat s.regs.dstcap.toNat →
        exec .gvDec s = .next { s with regs := { s.regs with res := 0, res2 := 0 } }) ∧
      (count = 0 ∨ 64 < count ∨ count ≤ s.regs.arg.toNat →
        exec .gvGetf s = .next { s with regs := { s.regs with res := 0, res2 := 0 } }))

/-- 42_group_varint.md R151, R147, R154, R155, 20_memory.md R66, R82: `GV.ENC` stores the group of the array at
`SRC`, or faults at its first byte that may not be written; `GV.SIZE` answers the number of bytes it takes. -/
def Obligations.GvEncStoresTheGroup : Prop :=
  ∀ s : State, Ready s →
    let c := s.regs.cnt.toNat
    let vs := arrayAt s.mem s.regs.src.toNat 8 c
    let size := 1 + ceilDiv c 4 + (vs.map snappedWidth).sum
    1 ≤ c → c ≤ 64 → InSpace s.regs.src.toNat (8 * c) → Reads s s.regs.src.toNat (8 * c) →
    (gvEncode vs).length = size ∧
    exec .gvSize s = .next { s with regs := { s.regs with res := BitVec.ofNat 64 size } } ∧
    (InSpace s.regs.dst.toNat s.regs.dstcap.toNat →
      Apart s.regs.src.toNat (8 * c) s.regs.dst.toNat s.regs.dstcap.toNat → size ≤ s.regs.dstcap.toNat →
      StoresOutput .gvEnc s { s.regs with res := BitVec.ofNat 64 size } s.regs.dst.toNat (gvEncode vs))

/-- 42_group_varint.md R152, R148, 20_memory.md R66, R82: `GV.DEC` stores the first `min(count, CNT)` fields of
any group, read at the widths its bitmap gives, and answers the size of the whole group, or faults at the first
byte that may not be written. -/
def Obligations.GvDecReadsTheFields : Prop :=
  ∀ s : State, Ready s →
    let a := s.regs.src.toNat
    let len := s.regs.srclen.toNat
    let c := (s.mem.read a).toNat
    let m := min c s.regs.cnt.toNat
    let offset := groupOffset s.mem a c
    let width := groupWidth s.mem a
    1 ≤ c → c ≤ 64 → InSpace a len → InSpace s.regs.dst.toNat s.regs.dstcap.toNat →
    Apart a len s.regs.dst.toNat s.regs.dstcap.toNat →
    1 + ceilDiv c 4 ≤ len → Reads s a (1 + ceilDiv c 4) →
    (∀ k < m, offset k + width k ≤ len ∧ Reads s (a + offset k) (width k)) →
    8 * m ≤ s.regs.dstcap.toNat →
    StoresOutput .gvDec s
      { s.regs with res := BitVec.ofNat 64 m, res2 := BitVec.ofNat 64 (offset c) } s.regs.dst.toNat
      ((List.range m).flatMap fun k => fieldBytes (numberAt s.mem (a + offset k) (width k)) 8)

/-- 42_group_varint.md R153, R148: `GV.GETF` answers the width and the value of the field that `ARG`
names. -/
def Obligations.GvGetfReadsOneField : Prop :=
  ∀ s : State, s.faulted = false →
    let a := s.regs.src.toNat
    let len := s.regs.srclen.toNat
    let c := (s.mem.read a).toNat
    let i := s.regs.arg.toNat
    let offset := groupOffset s.mem a c i
    let width := groupWidth s.mem a i
    i < c → c ≤ 64 → InSpace a len → 1 + ceilDiv c 4 ≤ len → Reads s a (1 + ceilDiv c 4) →
    offset + width ≤ len → Reads s (a + offset) width →
    exec .gvGetf s = .next { s with regs := { s.regs with
      res := BitVec.ofNat 64 width, res2 := BitVec.ofNat 64 (numberAt s.mem (a + offset) width) } }

/-- 42_group_varint.md R155, an inference the spec marks as its own ("[derived: from rule R147 and rule
R148]"): decoding what `gv_encode` spells returns the values, and random access each of
them at its snapped width. -/
def Obligations.GroupsRoundTrip : Prop :=
  ∀ (s : State) (vs : List Nat), Ready s → 1 ≤ vs.length → vs.length ≤ 64 → (∀ v ∈ vs, v < 2 ^ 64) →
    let group := gvEncode vs
    let a := s.regs.src.toNat
    bytesAt s.mem a group.length = group → group.length ≤ s.regs.srclen.toNat →
    InSpace a s.regs.srclen.toNat → Reads s a group.length →
    (vs.length ≤ s.regs.cnt.toNat → InSpace s.regs.dst.toNat s.regs.dstcap.toNat →
      Apart a s.regs.srclen.toNat s.regs.dst.toNat s.regs.dstcap.toNat →
      8 * vs.length ≤ s.regs.dstcap.toNat → Writes s s.regs.dst.toNat (8 * vs.length) →
      Completes .gvDec s
        { s.regs with res := BitVec.ofNat 64 vs.length, res2 := BitVec.ofNat 64 group.length }
        s.regs.dst.toNat (vs.flatMap fun v => fieldBytes v 8)) ∧
    (s.regs.arg.toNat < vs.length →
      exec .gvGetf s = .next { s with regs := { s.regs with
        res := BitVec.ofNat 64 (snappedWidth (vs.getD s.regs.arg.toNat 0))
        res2 := BitVec.ofNat 64 (vs.getD s.regs.arg.toNat 0) } })

/-! ### BP128 -/

/-- 43_bp128.md R169, R168: unpacking reads back what packing spells, and looks at no padding bit. -/
def Obligations.UnpackInvertsPack : Prop :=
  ∀ (x : List Nat) (b : Nat), (∀ v ∈ x, v < 2 ^ b) →
    (pack x b).length = ceilDiv (x.length * b) 8 ∧ unpack (pack x b) x.length b = x ∧
    ∀ p : List Byte, unle p % 2 ^ (x.length * b) = unle (pack x b) → unpack p x.length b = x

/-- 43_bp128.md R207, R176: the four encoders store the stream of the array at `SRC` and write the five
BP128 metadata registers; `META_BITS` and `RES2` stay. A byte of the stream that may not be written is the
fault, and writes no metadata (20_memory.md R66, R82). -/
def Obligations.BpEncStoresTheStream : Prop :=
  ∀ p ∈ bpEncoders, ∀ s : State, Ready s →
    let v := p.2
    let n := s.regs.cnt.toNat
    let vs := arrayAt s.mem s.regs.src.toNat v.esz n
    let out := bpStream v vs
    let k := if v.delta then n - 1 else n
    ExtentsAdmitted (s.regs.src.toNat, v.esz * n) (s.regs.dst.toNat, s.regs.dstcap.toNat) →
    Reads s s.regs.src.toNat (v.esz * n) → (v.delta = true → NonDecreasing vs) →
    out.length ≤ s.regs.dstcap.toNat →
    StoresOutput p.1 s
      { s.regs with
        res := BitVec.ofNat 64 out.length
        metaCount := BitVec.ofNat 64 n
        metaBlocks := BitVec.ofNat 64 (ceilDiv k 128)
        metaBytes := BitVec.ofNat 64 out.length
        metaLast := BitVec.ofNat 64 (if k = 0 then 0 else if k % 128 = 0 then 128 else k % 128)
        metaMaxbw := BitVec.ofNat 64 (blockWidth (blockValues v vs)) }
      s.regs.dst.toNat out

/-- 43_bp128.md R208, R188 to R191, R178 to R181: the four decoders. Given a stream that the encoder spells,
with its byte length and its element count, they return its values (the round trip of R206, an inference the
spec marks as its own: "[derived: from rules R168 to R182]"). Of any source, whatever its block widths,
padding, varint spellings and trailing bytes (R180), they parse the blocks they touch whole, and stop when
they have the values wanted, or, in a 32-bit stream, at a partial block or where a block ends the source
(R179); the first values wanted go out, and `RES2` counts the bytes consumed. An output that exceeds `DSTCAP`
is `DST_OVERRUN`. -/
def Obligations.BpDecReturnsTheEncodedValues : Prop :=
  ∀ p ∈ bpDecoders, ∀ s : State, Ready s →
    let v := p.2
    let a := s.regs.src.toNat
    let len := s.regs.srclen.toNat
    let dest := s.regs.dst.toNat
    let cap := s.regs.dstcap.toNat
    ExtentsAdmitted (a, len) (dest, cap) →
    (∀ vs : List Nat, (∀ x ∈ vs, x < 2 ^ v.width) → (v.delta = true → NonDecreasing vs) →
      s.regs.cnt.toNat = vs.length → len = (bpStream v vs).length → bytesAt s.mem a len = bpStream v vs →
      Reads s a len → v.esz * vs.length ≤ cap →
      StoresOutput p.1 s { s.regs with res := BitVec.ofNat 64 vs.length, res2 := BitVec.ofNat 64 len }
        dest (vs.flatMap fun x => fieldBytes x v.esz)) ∧
    ∀ n : Nat, BlocksSound s v n →
      let got := decodedValues s v n
      let used := blockOffset s v n
      let out := got.take (wantedValues s v)
      (∀ y ∈ out, y < 2 ^ v.width) →
      wantedValues s v ≤ got.length ∨
        (v.wide = false ∧ ((∃ k < n, (blockAt s (blockOffset s v k)).short = true) ∨ used = len)) →
      (v.esz * out.length ≤ cap →
        StoresOutput p.1 s { s.regs with res := BitVec.ofNat 64 out.length, res2 := BitVec.ofNat 64 used }
          dest (out.flatMap fun x => fieldBytes x v.esz)) ∧
      (cap < v.esz * out.length → Faults p.1 s .dstOverrun (v.esz * out.length))

/-- 43_bp128.md R178, R179, R181, R208, 60_exceptions.md R301 codes 2, 6, 7, 9: what each of the four decoders
reports of a defect, in whichever block or prefix of the stream it meets it: a varint cut short, a first value
that reaches `2^E`; a header cut short, a header width above the element's, a partial count outside 1 to 127,
a payload cut short, a block whose shape contradicts the declared count; a running sum that reaches `2^E`,
with the index the value would have had. -/
def Obligations.DefectiveStreamsFault : Prop :=
  ∀ p ∈ bpDecoders, ∀ s : State, s.faulted = false →
    let v := p.2
    let a := s.regs.src.toNat
    let len := s.regs.srclen.toNat
    ExtentsAdmitted (a, len) (s.regs.dst.toNat, s.regs.dstcap.toNat) →
    (∀ off, TurnsToVarint s v off →
      (len < off + 1 → Faults p.1 s .srcUnderrun (off + 1)) ∧
      (off + 1 ≤ len → Reads s (a + off) 1 → len < off + (varintAt s off).2 →
        Faults p.1 s .srcUnderrun (off + (varintAt s off).2))) ∧
    (takesFirst s v = true → (v.wide = true → VarintSound s 0) → VarintSound s (countBytes s v) →
      2 ^ v.width ≤ (varintAt s (countBytes s v)).1 → Faults p.1 s .deltaOverflow 0) ∧
    (∀ n, TurnsToBlock s v n →
      let off := blockOffset s v n
      let b := blockAt s off
      let owed := (varintAt s 0).1 - valuesBefore s v n
      (len < off + 1 → Faults p.1 s .srcUnderrun (off + 1)) ∧
      (off + 1 ≤ len → Reads s (a + off) 1 → v.width < b.width → Faults p.1 s .badWidth off) ∧
      (off + 1 ≤ len → Reads s (a + off) 1 → b.width ≤ v.width → b.short = true → len < off + 2 →
        Faults p.1 s .srcUnderrun (off + 2)) ∧
      (off + 2 ≤ len → Reads s (a + off) 2 → b.width ≤ v.width → b.short = true →
        b.count = 0 ∨ 127 < b.count → Faults p.1 s .badCount (off + 1)) ∧
      (HeaderSound s v off → len < off + b.size → Faults p.1 s .srcUnderrun (off + b.size)) ∧
      (BlockSound s v off → v.wide = true →
        (b.short = true → b.count ≠ owed → Faults p.1 s .badCount (off + 1)) ∧
        (b.short = false → owed < 128 → Faults p.1 s .badCount off))) ∧
    (∀ n j, BlocksSound s v n → v.delta = true → j < wantedValues s v → j < (decodedValues s v n).length →
      2 ^ v.width ≤ (decodedValues s v n).getD j 0 →
      (∀ k < j, (decodedValues s v n).getD k 0 < 2 ^ v.width) → Faults p.1 s .deltaOverflow j)

/-- 43_bp128.md R192 to R195, R200 to R205, R183, R209: the queries over an array. The size is the sum of the
parts R183 lists and is the length of the stream; it saturates; the benefit query compares it with the raw
size; the sortedness query tells whether no value is below the one before it. -/
def Obligations.BpQueriesAnswer : Prop :=
  ∀ s : State, s.faulted = false →
    let n := s.regs.cnt.toNat
    let a := s.regs.src.toNat
    (∀ p ∈ bpSizers,
      let vs := arrayAt s.mem a p.2.esz n
      InSpace a (p.2.esz * n) → Reads s a (p.2.esz * n) → (p.2.delta = true → NonDecreasing vs) →
      (bpStream p.2 vs).length = sizeByParts p.2 vs ∧
      exec p.1 s = .next { s with regs :=
        { s.regs with res := BitVec.ofNat 64 (min (sizeByParts p.2 vs) (2 ^ 64 - 1)) } }) ∧
    (∀ p ∈ bpBenefs,
      let vs := arrayAt s.mem a p.2.esz n
      InSpace a (p.2.esz * n) → Reads s a (p.2.esz * n) → (p.2.delta = true → NonDecreasing vs) →
      exec p.1 s = .next { s with regs :=
        { s.regs with res := if sizeByParts p.2 vs < p.2.esz * n then 1 else 0 } }) ∧
    (∀ p ∈ bpSorters,
      let vs := arrayAt s.mem a p.2 n
      InSpace a (p.2 * n) → Reads s a (p.2 * n) →
      exec p.1 s = .next { s with regs := { s.regs with res := if NonDecreasing vs then 1 else 0 } })

/-- 43_bp128.md R196 to R199, R182, R209: the buffer bounds. `RES2` is the source's formula, `RES` adds the
allowance for the prefixes; both saturate. -/
def Obligations.BpMaxbReturnsTheBounds : Prop :=
  ∀ s : State, s.faulted = false →
    ∀ p ∈ [(Instr.bpMaxb32, 4, 0), (.bpMaxbd32, 4, 5), (.bpMaxb64, 8, 9), (.bpMaxbd64, 8, 18)],
      let n := s.regs.cnt.toNat
      let formula := n / 128 * (1 + 128 * p.2.1) + if 0 < n % 128 then 2 + n % 128 * p.2.1 else 0
      exec p.1 s = .next { s with regs := { s.regs with
        res := BitVec.ofNat 64 (min (formula + p.2.2) (2 ^ 64 - 1))
        res2 := BitVec.ofNat 64 (min formula (2 ^ 64 - 1)) } }

/-- 43_bp128.md R182, an inference the spec marks as its own ("[derived: `F` is monotone in `n`, …]"): no
stream is longer than the bound reported for its element count. -/
def Obligations.StreamsFitTheReportedBound : Prop :=
  ∀ (v : Variant) (vs : List Nat), (∀ x ∈ vs, x < 2 ^ v.width) → (v.delta = true → NonDecreasing vs) →
    (bpStream v vs).length ≤ maxBytes v vs.length

/-! ### Bit writer, bit reader, Elias codes -/

/-- 44_elias.md R223, R248, the latter an inference the spec marks as its own ("[derived: from rules R221 to
R227, R246 and R247]"): the lengths of the code words, and that no code word of a code is the beginning of
another. -/
def Obligations.CodesArePrefixFree : Prop :=
  (∀ n, 1 ≤ n → (gammaCode n).length = 2 * Nat.log2 n + 1 ∧
    (deltaCode n).length = 2 * Nat.log2 (Nat.log2 n + 1) + 1 + Nat.log2 n) ∧
  ∀ (c : Code) (m n : Nat), 1 ≤ m → 1 ≤ n → c.word m <+: c.word n → m = n

/-- 44_elias.md R224, R228, R231, R238, 20_memory.md R82: an append keeps every bit before the position, puts
the new bits at it, fills the last touched byte with zeros, changes no other byte, and moves the position past
the new bits. A touched byte that may not be written is the fault, with the touched bytes unspecified. -/
def Obligations.BitWriterAppends : Prop :=
  ∀ (i : Instr) (s : State) (t : List Bool), Ready s → appendedBits i s = some t →
    let base := s.regs.bwBase.toNat
    let p := s.regs.bwPos.toNat
    let k := t.length
    let need := ceilDiv (p + k) 8
    InSpace base s.regs.bwCap.toNat →
    (t ≠ [] → need ≤ s.regs.bwCap.toNat ∧ p + k < 2 ^ 64 ∧ (p % 8 ≠ 0 → Reads s (base + p / 8) 1)) →
    ((t ≠ [] → Writes s (base + p / 8) (need - p / 8)) →
      ∃ u, exec i s = .next u ∧ SameElse s u ∧
        u.regs = { s.regs with res := BitVec.ofNat 64 k, bwPos := BitVec.ofNat 64 (p + k) } ∧
        (t = [] → u.mem = s.mem) ∧
        bitsAt u.mem base p k = t ∧
        (∀ j < p, bitAt u.mem base j = bitAt s.mem base j) ∧
        (t ≠ [] → ∀ j, p + k ≤ j → j < 8 * need → bitAt u.mem base j = false) ∧
        ∀ x, ¬ (base + p / 8 ≤ x ∧ x < base + need) → u.mem.read x = s.mem.read x) ∧
    (∀ j < need - p / 8, t ≠ [] → Writes s (base + p / 8) j → canWrite s.platform (base + p / 8 + j) = false →
      LosesOutput i s (base + p / 8 + j) (base + p / 8) (need - p / 8))

/-- 44_elias.md R229, R225: `BR.READ n` answers the next `n` bits and moves past them, or fails without
moving when fewer remain. -/
def Obligations.BrReadReturnsTheBits : Prop :=
  ∀ (imm : BitVec 8) (s : State), (Instr.brRead imm).WellFormed → s.faulted = false →
    let base := s.regs.brBase.toNat
    let p := s.regs.brPos.toNat
    let n := imm.toNat
    (¬ InSpace base (ceilDiv s.regs.brEnd.toNat 8) → Faults (.brRead imm) s .addrWrap base) ∧
    (InSpace base (ceilDiv s.regs.brEnd.toNat 8) → p + n ≤ s.regs.brEnd.toNat → ReadsBits s base p n →
      exec (.brRead imm) s = .next { s with regs := { s.regs with
        res := BitVec.ofNat 64 (val (bitsAt s.mem base p n))
        brPos := BitVec.ofNat 64 (p + n)
        status := malfStatus s.regs.status false } }) ∧
    (InSpace base (ceilDiv s.regs.brEnd.toNat 8) → s.regs.brEnd.toNat < p + n →
      exec (.brRead imm) s = .next { s with regs := { s.regs with
        res := 0, status := malfStatus s.regs.status true } }) ∧
    (∀ k < n, InSpace base (ceilDiv s.regs.brEnd.toNat 8) → p + n ≤ s.regs.brEnd.toNat →
      ReadsBits s base p k → canRead s.platform (base + (p + k) / 8) = false →
      Faults (.brRead imm) s .memFault (base + (p + k) / 8))

/-- 44_elias.md R230: `BR.MORE n` tells whether `n` more bits remain. -/
def Obligations.BrMoreComparesThePosition : Prop :=
  ∀ (imm : BitVec 8) (s : State), s.faulted = false →
    exec (.brMore imm) s = .next { s with regs := { s.regs with
      res := if s.regs.brPos.toNat + imm.toNat ≤ s.regs.brEnd.toNat then 1 else 0 } }

/-- 44_elias.md R232, R239, R226, R227: `EG.GET` and `ED.GET` decode the code word that stands at the
position, whatever value below `2^64` it spells. -/
def Obligations.CodeGetDecodesTheCodeWord : Prop :=
  ∀ p ∈ [(Instr.egGet, Code.gamma), (.edGet, .delta)], ∀ (s : State) (n : Nat), s.faulted = false →
    let code := p.2.word n
    let base := s.regs.brBase.toNat
    let pos := s.regs.brPos.toNat
    1 ≤ n → n < 2 ^ 64 → InSpace base (ceilDiv s.regs.brEnd.toNat 8) →
    pos + code.length ≤ s.regs.brEnd.toNat → bitsAt s.mem base pos code.length = code →
    ReadsBits s base pos code.length →
    exec p.1 s = .next { s with regs := { s.regs with
      res := BitVec.ofNat 64 n
      res2 := BitVec.ofNat 64 code.length
      brPos := BitVec.ofNat 64 (pos + code.length)
      status := malfStatus s.regs.status false } }

/-- 44_elias.md R226, R227, R232, R239: the ways a code word fails, each with results 0, `MALF` and the
position unmoved: the bits end in the zero run, 64 zeros, the bits end in the value, a Delta length part
above 64, the bits end in a Delta value. -/
def Obligations.CodeGetFailsWithoutMoving : Prop :=
  ∀ s : State, s.faulted = false →
    let base := s.regs.brBase.toNat
    let pos := s.regs.brPos.toNat
    let stop := s.regs.brEnd.toNat
    let failed := { s with regs := { s.regs with
      res := 0, res2 := 0, status := malfStatus s.regs.status true } }
    InSpace base (ceilDiv stop 8) →
    ((∀ k < min 64 (stop - pos), bitAt s.mem base (pos + k) = false) →
      ReadsBits s base pos (min 64 (stop - pos)) →
      exec .egGet s = .next failed ∧ exec .edGet s = .next failed) ∧
    (∀ z < 64, (∀ k < z, bitAt s.mem base (pos + k) = false) → bitAt s.mem base (pos + z) = true →
      pos + z < stop → stop < pos + 2 * z + 1 → ReadsBits s base pos (z + 1) →
      exec .egGet s = .next failed ∧ exec .edGet s = .next failed) ∧
    (∀ n, 65 ≤ n → n < 2 ^ 64 → pos + (gammaCode n).length ≤ stop →
      bitsAt s.mem base pos (gammaCode n).length = gammaCode n →
      ReadsBits s base pos (gammaCode n).length → exec .edGet s = .next failed) ∧
    (∀ n, 1 ≤ n → n ≤ 64 → pos + (gammaCode n).length ≤ stop →
      stop < pos + (gammaCode n).length + (n - 1) →
      bitsAt s.mem base pos (gammaCode n).length = gammaCode n →
      ReadsBits s base pos (gammaCode n).length → exec .edGet s = .next failed)

/-- 44_elias.md R233, R240, R223: `EG.BITS` and `ED.BITS` answer the length of the code word of `ARG`, and 0
for 0. -/
def Obligations.CodeBitsAnswersTheLength : Prop :=
  ∀ s : State, s.faulted = false →
    exec .egBits s = .next { s with regs := { s.regs with
      res := if s.regs.arg = 0 then 0 else BitVec.ofNat 64 (gammaCode s.regs.arg.toNat).length } } ∧
    exec .edBits s = .next { s with regs := { s.regs with
      res := if s.regs.arg = 0 then 0 else BitVec.ofNat 64 (deltaCode s.regs.arg.toNat).length } }

/-- 44_elias.md R246, R243, 20_memory.md R82: the array encoders store the code words of the array one after
the other from bit 0 of `DST`, zero-padded to a byte, and write the Elias record alone. A byte of theirs that
may not be written is the fault, with these bytes unspecified. -/
def Obligations.EliasEncStoresTheCodeWords : Prop :=
  ∀ p ∈ eliasEncoders, ∀ s : State, Ready s →
    let esz := elementBytes p.2.2
    let n := s.regs.cnt.toNat
    let vs := arrayAt s.mem s.regs.src.toNat esz n
    let code := vs.flatMap p.2.1.word
    let size := ceilDiv code.length 8
    let a := s.regs.dst.toNat
    ExtentsAdmitted (s.regs.src.toNat, esz * n) (a, s.regs.dstcap.toNat) →
    Reads s s.regs.src.toNat (esz * n) → (∀ x ∈ vs, x ≠ 0) → code.length < 2 ^ 64 →
    size ≤ s.regs.dstcap.toNat →
    (Writes s a size →
      ∃ t, exec p.1 s = .next t ∧ SameElse s t ∧
        t.regs = { s.regs with
          res := BitVec.ofNat 64 size
          metaCount := BitVec.ofNat 64 n
          metaBits := BitVec.ofNat 64 code.length
          metaBytes := BitVec.ofNat 64 size } ∧
        bitsAt t.mem a 0 code.length = code ∧
        (∀ j, code.length ≤ j → j < 8 * size → bitAt t.mem a j = false) ∧
        ∀ x, ¬ (a ≤ x ∧ x < a + size) → t.mem.read x = s.mem.read x) ∧
    (∀ k < size, Writes s a k → canWrite s.platform (a + k) = false → LosesOutput p.1 s (a + k) a size)

/-- 44_elias.md R247, R226, R227, and the round trip of R248, an inference the spec marks as its own: the array
decoders return the values whose code words the stream holds, up to the number asked for or to the end of the
stream. Where more are asked for and no code word of an element stands (the bits run out, or the value is too
wide), they deliver the values so far, set `MALF` and stop there. -/
def Obligations.EliasDecReturnsTheEncodedValues : Prop :=
  ∀ p ∈ eliasDecoders, ∀ (s : State) (vs : List Nat) (malf : Bool) (seen : Nat), Ready s →
    let esz := elementBytes p.2.2
    let code := vs.flatMap p.2.1.word
    let a := s.regs.src.toNat
    let cnt := s.regs.cnt.toNat
    let stop := s.regs.bitlen.toNat
    (∀ x ∈ vs, 1 ≤ x ∧ x < 2 ^ (8 * esz)) → vs.length ≤ cnt →
    code.length ≤ stop → bitsAt s.mem a 0 code.length = code →
    (if malf then vs.length < cnt ∧ code.length < stop ∧ CodeFails p.2.1 s.mem a code.length stop (8 * esz) seen
      else (vs.length = cnt ∨ code.length = stop) ∧ seen = 0) →
    ExtentsAdmitted (a, ceilDiv stop 8) (s.regs.dst.toNat, s.regs.dstcap.toNat) →
    ReadsBits s a 0 (code.length + seen) →
    (esz * vs.length ≤ s.regs.dstcap.toNat →
      StoresOutput p.1 s
        { s.regs with
          res := BitVec.ofNat 64 vs.length
          res2 := BitVec.ofNat 64 code.length
          status := malfStatus s.regs.status malf }
        s.regs.dst.toNat (vs.flatMap fun x => fieldBytes x esz)) ∧
    (s.regs.dstcap.toNat < esz * vs.length → Faults p.1 s .dstOverrun (esz * vs.length))

/-! ### The accumulator -/

/-- 45_acc128.md R272: `ACC.CLR` clears the magnitude, the digit count and `OVF`, and writes `NEG` and
`MODE`. -/
def Obligations.AccClrStartsANumber : Prop :=
  ∀ (imm : BitVec 8) (s : State), (Instr.accClr imm).WellFormed → s.faulted = false →
    exec (.accClr imm) s = .next { s with regs := { s.regs with
      acc := 0
      accNdig := 0
      status := (s.regs.status &&& ~~~0x33#64)
        ||| BitVec.ofNat 64 (2 * (imm.toNat / 4) + 16 * (imm.toNat % 4)) } }

/-- 45_acc128.md R271, R273, R274: one digit step. The limit is that of the mode in bits 5:4 of `STATUS` and
the sign in bit 1; a step past it sets `OVF`, bit 0, and leaves the magnitude. -/
def Obligations.AccDigitStepsExactly : Prop :=
  ∀ (imm : BitVec 8) (s : State), (Instr.accDigit imm).WellFormed → s.faulted = false →
    let neg := s.regs.status.toNat / 2 % 2
    let limit := match s.regs.status.toNat / 16 % 4 with
      | 0 => 2 ^ 64 - 1
      | 1 => 2 ^ 63 - 1 + neg
      | 2 => 2 ^ 128 - 1
      | _ => 2 ^ 127 - 1 + neg
    let x := 10 * s.regs.acc.toNat + imm.toNat
    let counted := { s.regs with accNdig := BitVec.ofNat 64 ((s.regs.accNdig.toNat + 1) % 2 ^ 64) }
    exec (.accDigit imm) s = .next { s with regs :=
      if s.regs.status.toNat % 2 = 1 then counted
      else if limit < x then { counted with status := s.regs.status ||| 1#64 }
      else { counted with acc := BitVec.ofNat 128 x } }

/-- 45_acc128.md R275: `ACC.STR` is one `ACC.DIGIT` for each digit byte of the run at `SRC`, in order; it
answers how many there were and the byte that ended the run, or 256. A byte it must read and may not is the
fault, and takes back the digits before it. -/
def Obligations.AccStrRunsTheDigits : Prop :=
  ∀ (s : State) (k : Nat), s.faulted = false →
    let a := s.regs.src.toNat
    let n := s.regs.cnt.toNat
    let isDigit (j : Nat) : Prop := 0x30 ≤ (s.mem.read (a + j)).toNat ∧ (s.mem.read (a + j)).toNat ≤ 0x39
    (¬ InSpace a n → Faults .accStr s .addrWrap a) ∧
    (k < n → InSpace a n → Reads s a k → (∀ j < k, isDigit j) → canRead s.platform (a + k) = false →
      Faults .accStr s .memFault (a + k)) ∧
    (k ≤ n → InSpace a n → Reads s a (min (k + 1) n) → (∀ j < k, isDigit j) → (k < n → ¬ isDigit k) →
      ∃ u, execAll ((bytesAt s.mem a k).map fun b => .accDigit (b - 0x30)) s = .next u ∧
        exec .accStr s = .next { u with regs := { u.regs with
          res := BitVec.ofNat 64 k
          res2 := if k < n then BitVec.ofNat 64 (s.mem.read (a + k)).toNat else 256 } })

/-- 45_acc128.md R277, R276: the smallest of `i64`, `u64`, `i128`, `u128` that holds the accumulated number;
0 where the number has overflowed or lies below the least `i128`. -/
def Obligations.AccClassPicksTheSmallestType : Prop :=
  ∀ s : State, s.faulted = false →
    let number : Int := if s.regs.neg then -(s.regs.acc.toNat : Int) else s.regs.acc.toNat
    exec .accClass s = .next { s with regs := { s.regs with res :=
      if s.regs.ovf then 0
      else if -2 ^ 63 ≤ number ∧ number ≤ 2 ^ 63 - 1 then 1
      else if 0 ≤ number ∧ number ≤ 2 ^ 64 - 1 then 2
      else if 0 ≤ number then 4
      else if -2 ^ 127 ≤ number then 3
      else 0 } }

/-- 45_acc128.md R278, an inference the spec marks as its own ("[derived: from rule R271 and rule R273]"): a
digit string after `ACC.CLR` accumulates the number it spells if that number is
within the limit of the mode and sign; otherwise `OVF` is set and the magnitude is that of the longest prefix
within the limit. -/
def Obligations.DigitsAccumulateTheNumber : Prop :=
  ∀ (s : State) (imm : BitVec 8) (digits : List (BitVec 8)), s.faulted = false →
    (Instr.accClr imm).WellFormed → (∀ d ∈ digits, (Instr.accDigit d).WellFormed) →
    let limit := accLimit (accMode (imm.extractLsb' 0 2)) (imm.getLsbD 2)
    let value (j : Nat) := decimalValue ((digits.take j).map BitVec.toNat)
    ∃ t, execAll (.accClr imm :: digits.map .accDigit) s = .next t ∧
      t.regs.accNdig = BitVec.ofNat 64 digits.length ∧ t.regs.acc.toNat ≤ limit ∧
      (value digits.length ≤ limit → t.regs.acc.toNat = value digits.length ∧ t.regs.ovf = false) ∧
      (limit < value digits.length → t.regs.ovf = true ∧
        ∃ j ≤ digits.length, t.regs.acc.toNat = value j ∧ value j ≤ limit ∧
          ∀ k ≤ digits.length, value k ≤ limit → k ≤ j)

end
end

