-- ==== Sys2Proof/Laws/Numbers.lean ====
section
/-! SUPPORT. The laws of the functions on numbers, bytes and bit strings. -/

namespace Sys2Proof.Machine

/-! ### Widths -/

/-- `bitwidth(x)` is the least width that holds `x` (00_scope.md R10). -/
theorem bitwidth_le_iff (x k : Nat) : bitwidth x ≤ k ↔ x < 2 ^ k := by
  unfold bitwidth
  split
  · rename_i h; subst h; simp
  · rename_i h
    rw [Nat.succ_le_iff, Nat.log2_lt h]

theorem lt_two_pow_bitwidth (x : Nat) : x < 2 ^ bitwidth x := (bitwidth_le_iff x _).mp (le_refl _)

theorem bitwidth_mono {x y : Nat} (h : x ≤ y) : bitwidth x ≤ bitwidth y :=
  (bitwidth_le_iff x _).mpr (lt_of_le_of_lt h (lt_two_pow_bitwidth y))

@[simp] theorem bitwidth_zero : bitwidth 0 = 0 := rfl

theorem bitwidth_pos {x : Nat} (h : x ≠ 0) : 0 < bitwidth x := by
  unfold bitwidth; rw [if_neg h]; omega

theorem bitwidth_eq_log2 {x : Nat} (h : x ≠ 0) : bitwidth x = Nat.log2 x + 1 := by
  unfold bitwidth; rw [if_neg h]

/-- The top bit of a value that is not 0. -/
theorem two_pow_bitwidth_le {x : Nat} (h : x ≠ 0) : 2 ^ (bitwidth x - 1) ≤ x := by
  have := bitwidth_pos h
  by_contra hlt
  have h1 := (bitwidth_le_iff x (bitwidth x - 1)).mpr (by omega)
  omega

/-- A value with its top bit at `k` is `k + 1` bits wide. -/
theorem bitwidth_eq_of_range {x k : Nat} (h1 : 2 ^ k ≤ x) (h2 : x < 2 ^ (k + 1)) :
    bitwidth x = k + 1 := by
  have h3 := (bitwidth_le_iff x (k + 1)).mpr h2
  have h4 : ¬ bitwidth x ≤ k := fun h => by
    have := (bitwidth_le_iff x k).mp h; omega
  omega

theorem bitwidth_byte (b : Byte) : bitwidth b.toNat ≤ 8 := (bitwidth_le_iff _ _).mpr b.isLt

theorem bitwidth_word (w : Word) : bitwidth w.toNat ≤ 64 := (bitwidth_le_iff _ _).mpr w.isLt

theorem ceilDiv_le_iff (a b c : Nat) (hb : 0 < b) : ceilDiv a b ≤ c ↔ a ≤ c * b := by
  unfold ceilDiv
  constructor
  · intro h
    have h1 := Nat.div_add_mod (a + b - 1) b
    have h2 := Nat.mod_lt (a + b - 1) hb
    have h3 : b * ((a + b - 1) / b) ≤ b * c := Nat.mul_le_mul_left _ h
    rw [Nat.mul_comm c b]
    omega
  · intro h
    have h1 : (a + b - 1) / b < c + 1 := by
      rw [Nat.div_lt_iff_lt_mul hb, Nat.add_mul]
      omega
    omega

theorem lt_ceilDiv_iff (a b c : Nat) (hb : 0 < b) : c < ceilDiv a b ↔ c * b < a := by
  have := ceilDiv_le_iff a b c hb
  omega

theorem ceilDiv_eight (a : Nat) : ceilDiv a 8 = (a + 7) / 8 := by unfold ceilDiv; omega

/-! ### Little-endian sequences -/

@[simp] theorem le_length (v w : Nat) : (le v w).length = w := by
  induction w generalizing v with
  | zero => rfl
  | succ w ih => simp [le, ih]

theorem le_eq_fieldBytes (v w : Nat) : le v w = fieldBytes v w := by
  induction w generalizing v with
  | zero => rfl
  | succ w ih =>
    rw [le, ih, fieldBytes, fieldBytes, List.range_succ_eq_map, List.map_cons, List.map_map]
    congr 1
    · simp
    · apply List.map_congr_left
      intro k _
      simp only [Function.comp, Nat.div_div_eq_div_mul]
      congr 2
      rw [Nat.succ_eq_add_one, Nat.mul_add, Nat.pow_add]
      norm_num [Nat.mul_comm]

/-- A number is read back from its little-endian bytes, cut to their width (00_scope.md R11). -/
theorem unle_le (v w : Nat) : unle (le v w) = v % 2 ^ (8 * w) := by
  induction w generalizing v with
  | zero => simp [le, unle, Nat.mod_one]
  | succ w ih =>
    rw [le, unle, ih, Nat.mul_add, Nat.pow_add]
    have h : 2 ^ (8 * w) * 2 ^ (8 * 1) = 256 * 2 ^ (8 * w) := by norm_num [Nat.mul_comm]
    rw [h, Nat.mod_mul]
    simp

theorem unle_lt (s : List Byte) : unle s < 2 ^ (8 * s.length) := by
  induction s with
  | nil => simp [unle]
  | cons b s ih =>
    rw [unle, List.length_cons, Nat.mul_add, Nat.pow_add]
    have := b.isLt
    norm_num at this ⊢
    omega

theorem unle_append (s t : List Byte) : unle (s ++ t) = unle s + 2 ^ (8 * s.length) * unle t := by
  induction s with
  | nil => simp [unle]
  | cons b s ih =>
    rw [List.cons_append, unle, unle, ih, List.length_cons, Nat.mul_add 8, Nat.pow_add]
    ring

/-! ### Bit strings -/

@[simp] theorem bits_length (v n : Nat) : (bits v n).length = n := by
  induction n with
  | zero => rfl
  | succ n ih => simp [bits, ih]

theorem bits_getElem (v n k : Nat) (h : k < (bits v n).length) : (bits v n)[k] = v.testBit (n - 1 - k) := by
  induction n generalizing k with
  | zero => simp [bits] at h
  | succ n ih =>
    rcases k with _ | k
    · simp [bits]
    · simp only [bits, List.getElem_cons_succ]
      rw [ih]
      congr 1
      omega

theorem val_from (t : List Bool) (n : Nat) :
    t.foldl (fun n b => 2 * n + b.toNat) n = 2 ^ t.length * n + val t := by
  induction t generalizing n with
  | nil => simp [val]
  | cons b t ih =>
    have h : val (b :: t) = 2 ^ t.length * b.toNat + val t := by
      show t.foldl (fun n b => 2 * n + b.toNat) (2 * 0 + b.toNat) = _
      rw [ih, Nat.mul_zero, Nat.zero_add]
    rw [List.foldl_cons, ih, h, List.length_cons, Nat.pow_succ]
    ring

theorem val_append (s t : List Bool) : val (s ++ t) = 2 ^ t.length * val s + val t := by
  show (s ++ t).foldl (fun n b => 2 * n + b.toNat) 0 = _
  rw [List.foldl_append, val_from]
  rfl

theorem val_cons (b : Bool) (t : List Bool) : val (b :: t) = 2 ^ t.length * b.toNat + val t := by
  rw [← List.singleton_append, val_append]
  simp [val]

theorem val_lt (t : List Bool) : val t < 2 ^ t.length := by
  induction t with
  | nil => simp [val]
  | cons b t ih =>
    rw [val_cons, List.length_cons, Nat.pow_succ]
    have := Bool.toNat_lt b
    have h2 : 2 ^ t.length * b.toNat ≤ 2 ^ t.length * 1 := Nat.mul_le_mul_left _ (by omega)
    omega

/-- The bit string of a value spells its low bits (44_elias.md R220). -/
theorem val_bits (v n : Nat) : val (bits v n) = v % 2 ^ n := by
  induction n with
  | zero => simp [bits, val, Nat.mod_one]
  | succ n ih =>
    rw [bits, val_cons, ih, bits_length, Nat.toNat_testBit, Nat.pow_succ, Nat.mod_mul, Nat.add_comm]

theorem bits_val (t : List Bool) (n : Nat) (h : t.length = n) : bits (val t) n = t := by
  subst h
  induction t with
  | nil => rfl
  | cons b t ih =>
    rw [List.length_cons, bits]
    have hlt := val_lt t
    have hb : (val (b :: t)).testBit t.length = b := by
      rw [val_cons, Nat.testBit_two_pow_mul_add _ hlt]
      cases b <;> simp
    have hr : bits (val (b :: t)) t.length = bits (val t) t.length := by
      apply List.ext_getElem (by simp)
      intro k h1 h2
      rw [bits_getElem, bits_getElem, val_cons, Nat.testBit_two_pow_mul_add _ hlt, if_pos]
      simp at h1; omega
    rw [hb, hr, ih]

end Sys2Proof.Machine
end

