-- ==== Sys2Proof/Laws/State.lean ====
section
/-! SUPPORT. One lemma per field per named update, each true by `rfl`. -/

namespace Sys2Proof.Machine


/-! ### `Regs.withOvf` -/

@[simp] theorem Regs.withOvf_src (r : Regs) (b : Bool) : (r.withOvf b).src = r.src := rfl
@[simp] theorem Regs.withOvf_srclen (r : Regs) (b : Bool) : (r.withOvf b).srclen = r.srclen := rfl
@[simp] theorem Regs.withOvf_dst (r : Regs) (b : Bool) : (r.withOvf b).dst = r.dst := rfl
@[simp] theorem Regs.withOvf_dstcap (r : Regs) (b : Bool) : (r.withOvf b).dstcap = r.dstcap := rfl
@[simp] theorem Regs.withOvf_cnt (r : Regs) (b : Bool) : (r.withOvf b).cnt = r.cnt := rfl
@[simp] theorem Regs.withOvf_arg (r : Regs) (b : Bool) : (r.withOvf b).arg = r.arg := rfl
@[simp] theorem Regs.withOvf_bitlen (r : Regs) (b : Bool) : (r.withOvf b).bitlen = r.bitlen := rfl
@[simp] theorem Regs.withOvf_res (r : Regs) (b : Bool) : (r.withOvf b).res = r.res := rfl
@[simp] theorem Regs.withOvf_res2 (r : Regs) (b : Bool) : (r.withOvf b).res2 = r.res2 := rfl
@[simp] theorem Regs.withOvf_metaCount (r : Regs) (b : Bool) : (r.withOvf b).metaCount = r.metaCount := rfl
@[simp] theorem Regs.withOvf_metaBlocks (r : Regs) (b : Bool) : (r.withOvf b).metaBlocks = r.metaBlocks := rfl
@[simp] theorem Regs.withOvf_metaBytes (r : Regs) (b : Bool) : (r.withOvf b).metaBytes = r.metaBytes := rfl
@[simp] theorem Regs.withOvf_metaLast (r : Regs) (b : Bool) : (r.withOvf b).metaLast = r.metaLast := rfl
@[simp] theorem Regs.withOvf_metaMaxbw (r : Regs) (b : Bool) : (r.withOvf b).metaMaxbw = r.metaMaxbw := rfl
@[simp] theorem Regs.withOvf_metaBits (r : Regs) (b : Bool) : (r.withOvf b).metaBits = r.metaBits := rfl
@[simp] theorem Regs.withOvf_bwBase (r : Regs) (b : Bool) : (r.withOvf b).bwBase = r.bwBase := rfl
@[simp] theorem Regs.withOvf_bwCap (r : Regs) (b : Bool) : (r.withOvf b).bwCap = r.bwCap := rfl
@[simp] theorem Regs.withOvf_bwPos (r : Regs) (b : Bool) : (r.withOvf b).bwPos = r.bwPos := rfl
@[simp] theorem Regs.withOvf_brBase (r : Regs) (b : Bool) : (r.withOvf b).brBase = r.brBase := rfl
@[simp] theorem Regs.withOvf_brEnd (r : Regs) (b : Bool) : (r.withOvf b).brEnd = r.brEnd := rfl
@[simp] theorem Regs.withOvf_brPos (r : Regs) (b : Bool) : (r.withOvf b).brPos = r.brPos := rfl
@[simp] theorem Regs.withOvf_acc (r : Regs) (b : Bool) : (r.withOvf b).acc = r.acc := rfl
@[simp] theorem Regs.withOvf_accNdig (r : Regs) (b : Bool) : (r.withOvf b).accNdig = r.accNdig := rfl
@[simp] theorem Regs.withOvf_faddr (r : Regs) (b : Bool) : (r.withOvf b).faddr = r.faddr := rfl
@[simp] theorem Regs.withOvf_fcmd (r : Regs) (b : Bool) : (r.withOvf b).fcmd = r.fcmd := rfl

/-! ### `Regs.withNeg` -/

@[simp] theorem Regs.withNeg_src (r : Regs) (b : Bool) : (r.withNeg b).src = r.src := rfl
@[simp] theorem Regs.withNeg_srclen (r : Regs) (b : Bool) : (r.withNeg b).srclen = r.srclen := rfl
@[simp] theorem Regs.withNeg_dst (r : Regs) (b : Bool) : (r.withNeg b).dst = r.dst := rfl
@[simp] theorem Regs.withNeg_dstcap (r : Regs) (b : Bool) : (r.withNeg b).dstcap = r.dstcap := rfl
@[simp] theorem Regs.withNeg_cnt (r : Regs) (b : Bool) : (r.withNeg b).cnt = r.cnt := rfl
@[simp] theorem Regs.withNeg_arg (r : Regs) (b : Bool) : (r.withNeg b).arg = r.arg := rfl
@[simp] theorem Regs.withNeg_bitlen (r : Regs) (b : Bool) : (r.withNeg b).bitlen = r.bitlen := rfl
@[simp] theorem Regs.withNeg_res (r : Regs) (b : Bool) : (r.withNeg b).res = r.res := rfl
@[simp] theorem Regs.withNeg_res2 (r : Regs) (b : Bool) : (r.withNeg b).res2 = r.res2 := rfl
@[simp] theorem Regs.withNeg_metaCount (r : Regs) (b : Bool) : (r.withNeg b).metaCount = r.metaCount := rfl
@[simp] theorem Regs.withNeg_metaBlocks (r : Regs) (b : Bool) : (r.withNeg b).metaBlocks = r.metaBlocks := rfl
@[simp] theorem Regs.withNeg_metaBytes (r : Regs) (b : Bool) : (r.withNeg b).metaBytes = r.metaBytes := rfl
@[simp] theorem Regs.withNeg_metaLast (r : Regs) (b : Bool) : (r.withNeg b).metaLast = r.metaLast := rfl
@[simp] theorem Regs.withNeg_metaMaxbw (r : Regs) (b : Bool) : (r.withNeg b).metaMaxbw = r.metaMaxbw := rfl
@[simp] theorem Regs.withNeg_metaBits (r : Regs) (b : Bool) : (r.withNeg b).metaBits = r.metaBits := rfl
@[simp] theorem Regs.withNeg_bwBase (r : Regs) (b : Bool) : (r.withNeg b).bwBase = r.bwBase := rfl
@[simp] theorem Regs.withNeg_bwCap (r : Regs) (b : Bool) : (r.withNeg b).bwCap = r.bwCap := rfl
@[simp] theorem Regs.withNeg_bwPos (r : Regs) (b : Bool) : (r.withNeg b).bwPos = r.bwPos := rfl
@[simp] theorem Regs.withNeg_brBase (r : Regs) (b : Bool) : (r.withNeg b).brBase = r.brBase := rfl
@[simp] theorem Regs.withNeg_brEnd (r : Regs) (b : Bool) : (r.withNeg b).brEnd = r.brEnd := rfl
@[simp] theorem Regs.withNeg_brPos (r : Regs) (b : Bool) : (r.withNeg b).brPos = r.brPos := rfl
@[simp] theorem Regs.withNeg_acc (r : Regs) (b : Bool) : (r.withNeg b).acc = r.acc := rfl
@[simp] theorem Regs.withNeg_accNdig (r : Regs) (b : Bool) : (r.withNeg b).accNdig = r.accNdig := rfl
@[simp] theorem Regs.withNeg_faddr (r : Regs) (b : Bool) : (r.withNeg b).faddr = r.faddr := rfl
@[simp] theorem Regs.withNeg_fcmd (r : Regs) (b : Bool) : (r.withNeg b).fcmd = r.fcmd := rfl

/-! ### `Regs.withMalf` -/

@[simp] theorem Regs.withMalf_src (r : Regs) (b : Bool) : (r.withMalf b).src = r.src := rfl
@[simp] theorem Regs.withMalf_srclen (r : Regs) (b : Bool) : (r.withMalf b).srclen = r.srclen := rfl
@[simp] theorem Regs.withMalf_dst (r : Regs) (b : Bool) : (r.withMalf b).dst = r.dst := rfl
@[simp] theorem Regs.withMalf_dstcap (r : Regs) (b : Bool) : (r.withMalf b).dstcap = r.dstcap := rfl
@[simp] theorem Regs.withMalf_cnt (r : Regs) (b : Bool) : (r.withMalf b).cnt = r.cnt := rfl
@[simp] theorem Regs.withMalf_arg (r : Regs) (b : Bool) : (r.withMalf b).arg = r.arg := rfl
@[simp] theorem Regs.withMalf_bitlen (r : Regs) (b : Bool) : (r.withMalf b).bitlen = r.bitlen := rfl
@[simp] theorem Regs.withMalf_res (r : Regs) (b : Bool) : (r.withMalf b).res = r.res := rfl
@[simp] theorem Regs.withMalf_res2 (r : Regs) (b : Bool) : (r.withMalf b).res2 = r.res2 := rfl
@[simp] theorem Regs.withMalf_metaCount (r : Regs) (b : Bool) : (r.withMalf b).metaCount = r.metaCount := rfl
@[simp] theorem Regs.withMalf_metaBlocks (r : Regs) (b : Bool) : (r.withMalf b).metaBlocks = r.metaBlocks := rfl
@[simp] theorem Regs.withMalf_metaBytes (r : Regs) (b : Bool) : (r.withMalf b).metaBytes = r.metaBytes := rfl
@[simp] theorem Regs.withMalf_metaLast (r : Regs) (b : Bool) : (r.withMalf b).metaLast = r.metaLast := rfl
@[simp] theorem Regs.withMalf_metaMaxbw (r : Regs) (b : Bool) : (r.withMalf b).metaMaxbw = r.metaMaxbw := rfl
@[simp] theorem Regs.withMalf_metaBits (r : Regs) (b : Bool) : (r.withMalf b).metaBits = r.metaBits := rfl
@[simp] theorem Regs.withMalf_bwBase (r : Regs) (b : Bool) : (r.withMalf b).bwBase = r.bwBase := rfl
@[simp] theorem Regs.withMalf_bwCap (r : Regs) (b : Bool) : (r.withMalf b).bwCap = r.bwCap := rfl
@[simp] theorem Regs.withMalf_bwPos (r : Regs) (b : Bool) : (r.withMalf b).bwPos = r.bwPos := rfl
@[simp] theorem Regs.withMalf_brBase (r : Regs) (b : Bool) : (r.withMalf b).brBase = r.brBase := rfl
@[simp] theorem Regs.withMalf_brEnd (r : Regs) (b : Bool) : (r.withMalf b).brEnd = r.brEnd := rfl
@[simp] theorem Regs.withMalf_brPos (r : Regs) (b : Bool) : (r.withMalf b).brPos = r.brPos := rfl
@[simp] theorem Regs.withMalf_acc (r : Regs) (b : Bool) : (r.withMalf b).acc = r.acc := rfl
@[simp] theorem Regs.withMalf_accNdig (r : Regs) (b : Bool) : (r.withMalf b).accNdig = r.accNdig := rfl
@[simp] theorem Regs.withMalf_faddr (r : Regs) (b : Bool) : (r.withMalf b).faddr = r.faddr := rfl
@[simp] theorem Regs.withMalf_fcmd (r : Regs) (b : Bool) : (r.withMalf b).fcmd = r.fcmd := rfl

/-! ### `Regs.withMode` -/

@[simp] theorem Regs.withMode_src (r : Regs) (b : BitVec 2) : (r.withMode b).src = r.src := rfl
@[simp] theorem Regs.withMode_srclen (r : Regs) (b : BitVec 2) : (r.withMode b).srclen = r.srclen := rfl
@[simp] theorem Regs.withMode_dst (r : Regs) (b : BitVec 2) : (r.withMode b).dst = r.dst := rfl
@[simp] theorem Regs.withMode_dstcap (r : Regs) (b : BitVec 2) : (r.withMode b).dstcap = r.dstcap := rfl
@[simp] theorem Regs.withMode_cnt (r : Regs) (b : BitVec 2) : (r.withMode b).cnt = r.cnt := rfl
@[simp] theorem Regs.withMode_arg (r : Regs) (b : BitVec 2) : (r.withMode b).arg = r.arg := rfl
@[simp] theorem Regs.withMode_bitlen (r : Regs) (b : BitVec 2) : (r.withMode b).bitlen = r.bitlen := rfl
@[simp] theorem Regs.withMode_res (r : Regs) (b : BitVec 2) : (r.withMode b).res = r.res := rfl
@[simp] theorem Regs.withMode_res2 (r : Regs) (b : BitVec 2) : (r.withMode b).res2 = r.res2 := rfl
@[simp] theorem Regs.withMode_metaCount (r : Regs) (b : BitVec 2) : (r.withMode b).metaCount = r.metaCount := rfl
@[simp] theorem Regs.withMode_metaBlocks (r : Regs) (b : BitVec 2) : (r.withMode b).metaBlocks = r.metaBlocks := rfl
@[simp] theorem Regs.withMode_metaBytes (r : Regs) (b : BitVec 2) : (r.withMode b).metaBytes = r.metaBytes := rfl
@[simp] theorem Regs.withMode_metaLast (r : Regs) (b : BitVec 2) : (r.withMode b).metaLast = r.metaLast := rfl
@[simp] theorem Regs.withMode_metaMaxbw (r : Regs) (b : BitVec 2) : (r.withMode b).metaMaxbw = r.metaMaxbw := rfl
@[simp] theorem Regs.withMode_metaBits (r : Regs) (b : BitVec 2) : (r.withMode b).metaBits = r.metaBits := rfl
@[simp] theorem Regs.withMode_bwBase (r : Regs) (b : BitVec 2) : (r.withMode b).bwBase = r.bwBase := rfl
@[simp] theorem Regs.withMode_bwCap (r : Regs) (b : BitVec 2) : (r.withMode b).bwCap = r.bwCap := rfl
@[simp] theorem Regs.withMode_bwPos (r : Regs) (b : BitVec 2) : (r.withMode b).bwPos = r.bwPos := rfl
@[simp] theorem Regs.withMode_brBase (r : Regs) (b : BitVec 2) : (r.withMode b).brBase = r.brBase := rfl
@[simp] theorem Regs.withMode_brEnd (r : Regs) (b : BitVec 2) : (r.withMode b).brEnd = r.brEnd := rfl
@[simp] theorem Regs.withMode_brPos (r : Regs) (b : BitVec 2) : (r.withMode b).brPos = r.brPos := rfl
@[simp] theorem Regs.withMode_acc (r : Regs) (b : BitVec 2) : (r.withMode b).acc = r.acc := rfl
@[simp] theorem Regs.withMode_accNdig (r : Regs) (b : BitVec 2) : (r.withMode b).accNdig = r.accNdig := rfl
@[simp] theorem Regs.withMode_faddr (r : Regs) (b : BitVec 2) : (r.withMode b).faddr = r.faddr := rfl
@[simp] theorem Regs.withMode_fcmd (r : Regs) (b : BitVec 2) : (r.withMode b).fcmd = r.fcmd := rfl

/-! ### `Regs.withFault` -/

@[simp] theorem Regs.withFault_src (r : Regs) (b : BitVec 8) : (r.withFault b).src = r.src := rfl
@[simp] theorem Regs.withFault_srclen (r : Regs) (b : BitVec 8) : (r.withFault b).srclen = r.srclen := rfl
@[simp] theorem Regs.withFault_dst (r : Regs) (b : BitVec 8) : (r.withFault b).dst = r.dst := rfl
@[simp] theorem Regs.withFault_dstcap (r : Regs) (b : BitVec 8) : (r.withFault b).dstcap = r.dstcap := rfl
@[simp] theorem Regs.withFault_cnt (r : Regs) (b : BitVec 8) : (r.withFault b).cnt = r.cnt := rfl
@[simp] theorem Regs.withFault_arg (r : Regs) (b : BitVec 8) : (r.withFault b).arg = r.arg := rfl
@[simp] theorem Regs.withFault_bitlen (r : Regs) (b : BitVec 8) : (r.withFault b).bitlen = r.bitlen := rfl
@[simp] theorem Regs.withFault_res (r : Regs) (b : BitVec 8) : (r.withFault b).res = r.res := rfl
@[simp] theorem Regs.withFault_res2 (r : Regs) (b : BitVec 8) : (r.withFault b).res2 = r.res2 := rfl
@[simp] theorem Regs.withFault_metaCount (r : Regs) (b : BitVec 8) : (r.withFault b).metaCount = r.metaCount := rfl
@[simp] theorem Regs.withFault_metaBlocks (r : Regs) (b : BitVec 8) : (r.withFault b).metaBlocks = r.metaBlocks := rfl
@[simp] theorem Regs.withFault_metaBytes (r : Regs) (b : BitVec 8) : (r.withFault b).metaBytes = r.metaBytes := rfl
@[simp] theorem Regs.withFault_metaLast (r : Regs) (b : BitVec 8) : (r.withFault b).metaLast = r.metaLast := rfl
@[simp] theorem Regs.withFault_metaMaxbw (r : Regs) (b : BitVec 8) : (r.withFault b).metaMaxbw = r.metaMaxbw := rfl
@[simp] theorem Regs.withFault_metaBits (r : Regs) (b : BitVec 8) : (r.withFault b).metaBits = r.metaBits := rfl
@[simp] theorem Regs.withFault_bwBase (r : Regs) (b : BitVec 8) : (r.withFault b).bwBase = r.bwBase := rfl
@[simp] theorem Regs.withFault_bwCap (r : Regs) (b : BitVec 8) : (r.withFault b).bwCap = r.bwCap := rfl
@[simp] theorem Regs.withFault_bwPos (r : Regs) (b : BitVec 8) : (r.withFault b).bwPos = r.bwPos := rfl
@[simp] theorem Regs.withFault_brBase (r : Regs) (b : BitVec 8) : (r.withFault b).brBase = r.brBase := rfl
@[simp] theorem Regs.withFault_brEnd (r : Regs) (b : BitVec 8) : (r.withFault b).brEnd = r.brEnd := rfl
@[simp] theorem Regs.withFault_brPos (r : Regs) (b : BitVec 8) : (r.withFault b).brPos = r.brPos := rfl
@[simp] theorem Regs.withFault_acc (r : Regs) (b : BitVec 8) : (r.withFault b).acc = r.acc := rfl
@[simp] theorem Regs.withFault_accNdig (r : Regs) (b : BitVec 8) : (r.withFault b).accNdig = r.accNdig := rfl
@[simp] theorem Regs.withFault_faddr (r : Regs) (b : BitVec 8) : (r.withFault b).faddr = r.faddr := rfl
@[simp] theorem Regs.withFault_fcmd (r : Regs) (b : BitVec 8) : (r.withFault b).fcmd = r.fcmd := rfl

/-! ### `State.withRes` -/

@[simp] theorem State.withRes_status (s : State) (v : Word) : (s.withRes v).regs.status = s.regs.status := rfl
@[simp] theorem State.withRes_src (s : State) (v : Word) : (s.withRes v).regs.src = s.regs.src := rfl
@[simp] theorem State.withRes_srclen (s : State) (v : Word) : (s.withRes v).regs.srclen = s.regs.srclen := rfl
@[simp] theorem State.withRes_dst (s : State) (v : Word) : (s.withRes v).regs.dst = s.regs.dst := rfl
@[simp] theorem State.withRes_dstcap (s : State) (v : Word) : (s.withRes v).regs.dstcap = s.regs.dstcap := rfl
@[simp] theorem State.withRes_cnt (s : State) (v : Word) : (s.withRes v).regs.cnt = s.regs.cnt := rfl
@[simp] theorem State.withRes_arg (s : State) (v : Word) : (s.withRes v).regs.arg = s.regs.arg := rfl
@[simp] theorem State.withRes_bitlen (s : State) (v : Word) : (s.withRes v).regs.bitlen = s.regs.bitlen := rfl
@[simp] theorem State.withRes_res (s : State) (v : Word) : (s.withRes v).regs.res = v := rfl
@[simp] theorem State.withRes_res2 (s : State) (v : Word) : (s.withRes v).regs.res2 = s.regs.res2 := rfl
@[simp] theorem State.withRes_metaCount (s : State) (v : Word) : (s.withRes v).regs.metaCount = s.regs.metaCount := rfl
@[simp] theorem State.withRes_metaBlocks (s : State) (v : Word) : (s.withRes v).regs.metaBlocks = s.regs.metaBlocks := rfl
@[simp] theorem State.withRes_metaBytes (s : State) (v : Word) : (s.withRes v).regs.metaBytes = s.regs.metaBytes := rfl
@[simp] theorem State.withRes_metaLast (s : State) (v : Word) : (s.withRes v).regs.metaLast = s.regs.metaLast := rfl
@[simp] theorem State.withRes_metaMaxbw (s : State) (v : Word) : (s.withRes v).regs.metaMaxbw = s.regs.metaMaxbw := rfl
@[simp] theorem State.withRes_metaBits (s : State) (v : Word) : (s.withRes v).regs.metaBits = s.regs.metaBits := rfl
@[simp] theorem State.withRes_bwBase (s : State) (v : Word) : (s.withRes v).regs.bwBase = s.regs.bwBase := rfl
@[simp] theorem State.withRes_bwCap (s : State) (v : Word) : (s.withRes v).regs.bwCap = s.regs.bwCap := rfl
@[simp] theorem State.withRes_bwPos (s : State) (v : Word) : (s.withRes v).regs.bwPos = s.regs.bwPos := rfl
@[simp] theorem State.withRes_brBase (s : State) (v : Word) : (s.withRes v).regs.brBase = s.regs.brBase := rfl
@[simp] theorem State.withRes_brEnd (s : State) (v : Word) : (s.withRes v).regs.brEnd = s.regs.brEnd := rfl
@[simp] theorem State.withRes_brPos (s : State) (v : Word) : (s.withRes v).regs.brPos = s.regs.brPos := rfl
@[simp] theorem State.withRes_acc (s : State) (v : Word) : (s.withRes v).regs.acc = s.regs.acc := rfl
@[simp] theorem State.withRes_accNdig (s : State) (v : Word) : (s.withRes v).regs.accNdig = s.regs.accNdig := rfl
@[simp] theorem State.withRes_faddr (s : State) (v : Word) : (s.withRes v).regs.faddr = s.regs.faddr := rfl
@[simp] theorem State.withRes_fcmd (s : State) (v : Word) : (s.withRes v).regs.fcmd = s.regs.fcmd := rfl
@[simp] theorem State.withRes_mem (s : State) (v : Word) : (s.withRes v).mem = s.mem := rfl
@[simp] theorem State.withRes_platform (s : State) (v : Word) : (s.withRes v).platform = s.platform := rfl
@[simp] theorem State.withRes_pending (s : State) (v : Word) : (s.withRes v).pending = s.pending := rfl
@[simp] theorem State.withRes_replies (s : State) (v : Word) : (s.withRes v).replies = s.replies := rfl
@[simp] theorem State.withRes_draws (s : State) (v : Word) : (s.withRes v).draws = s.draws := rfl

/-! ### `State.withResults` -/

@[simp] theorem State.withResults_status (s : State) (v v2 : Word) : (s.withResults v v2).regs.status = s.regs.status := rfl
@[simp] theorem State.withResults_src (s : State) (v v2 : Word) : (s.withResults v v2).regs.src = s.regs.src := rfl
@[simp] theorem State.withResults_srclen (s : State) (v v2 : Word) : (s.withResults v v2).regs.srclen = s.regs.srclen := rfl
@[simp] theorem State.withResults_dst (s : State) (v v2 : Word) : (s.withResults v v2).regs.dst = s.regs.dst := rfl
@[simp] theorem State.withResults_dstcap (s : State) (v v2 : Word) : (s.withResults v v2).regs.dstcap = s.regs.dstcap := rfl
@[simp] theorem State.withResults_cnt (s : State) (v v2 : Word) : (s.withResults v v2).regs.cnt = s.regs.cnt := rfl
@[simp] theorem State.withResults_arg (s : State) (v v2 : Word) : (s.withResults v v2).regs.arg = s.regs.arg := rfl
@[simp] theorem State.withResults_bitlen (s : State) (v v2 : Word) : (s.withResults v v2).regs.bitlen = s.regs.bitlen := rfl
@[simp] theorem State.withResults_res (s : State) (v v2 : Word) : (s.withResults v v2).regs.res = v := rfl
@[simp] theorem State.withResults_res2 (s : State) (v v2 : Word) : (s.withResults v v2).regs.res2 = v2 := rfl
@[simp] theorem State.withResults_metaCount (s : State) (v v2 : Word) : (s.withResults v v2).regs.metaCount = s.regs.metaCount := rfl
@[simp] theorem State.withResults_metaBlocks (s : State) (v v2 : Word) : (s.withResults v v2).regs.metaBlocks = s.regs.metaBlocks := rfl
@[simp] theorem State.withResults_metaBytes (s : State) (v v2 : Word) : (s.withResults v v2).regs.metaBytes = s.regs.metaBytes := rfl
@[simp] theorem State.withResults_metaLast (s : State) (v v2 : Word) : (s.withResults v v2).regs.metaLast = s.regs.metaLast := rfl
@[simp] theorem State.withResults_metaMaxbw (s : State) (v v2 : Word) : (s.withResults v v2).regs.metaMaxbw = s.regs.metaMaxbw := rfl
@[simp] theorem State.withResults_metaBits (s : State) (v v2 : Word) : (s.withResults v v2).regs.metaBits = s.regs.metaBits := rfl
@[simp] theorem State.withResults_bwBase (s : State) (v v2 : Word) : (s.withResults v v2).regs.bwBase = s.regs.bwBase := rfl
@[simp] theorem State.withResults_bwCap (s : State) (v v2 : Word) : (s.withResults v v2).regs.bwCap = s.regs.bwCap := rfl
@[simp] theorem State.withResults_bwPos (s : State) (v v2 : Word) : (s.withResults v v2).regs.bwPos = s.regs.bwPos := rfl
@[simp] theorem State.withResults_brBase (s : State) (v v2 : Word) : (s.withResults v v2).regs.brBase = s.regs.brBase := rfl
@[simp] theorem State.withResults_brEnd (s : State) (v v2 : Word) : (s.withResults v v2).regs.brEnd = s.regs.brEnd := rfl
@[simp] theorem State.withResults_brPos (s : State) (v v2 : Word) : (s.withResults v v2).regs.brPos = s.regs.brPos := rfl
@[simp] theorem State.withResults_acc (s : State) (v v2 : Word) : (s.withResults v v2).regs.acc = s.regs.acc := rfl
@[simp] theorem State.withResults_accNdig (s : State) (v v2 : Word) : (s.withResults v v2).regs.accNdig = s.regs.accNdig := rfl
@[simp] theorem State.withResults_faddr (s : State) (v v2 : Word) : (s.withResults v v2).regs.faddr = s.regs.faddr := rfl
@[simp] theorem State.withResults_fcmd (s : State) (v v2 : Word) : (s.withResults v v2).regs.fcmd = s.regs.fcmd := rfl
@[simp] theorem State.withResults_mem (s : State) (v v2 : Word) : (s.withResults v v2).mem = s.mem := rfl
@[simp] theorem State.withResults_platform (s : State) (v v2 : Word) : (s.withResults v v2).platform = s.platform := rfl
@[simp] theorem State.withResults_pending (s : State) (v v2 : Word) : (s.withResults v v2).pending = s.pending := rfl
@[simp] theorem State.withResults_replies (s : State) (v v2 : Word) : (s.withResults v v2).replies = s.replies := rfl
@[simp] theorem State.withResults_draws (s : State) (v v2 : Word) : (s.withResults v v2).draws = s.draws := rfl

/-! ### `State.withMalf` -/

@[simp] theorem State.withMalf_status (s : State) (b : Bool) : (s.withMalf b).regs.status = (s.regs.withMalf b).status := rfl
@[simp] theorem State.withMalf_src (s : State) (b : Bool) : (s.withMalf b).regs.src = s.regs.src := rfl
@[simp] theorem State.withMalf_srclen (s : State) (b : Bool) : (s.withMalf b).regs.srclen = s.regs.srclen := rfl
@[simp] theorem State.withMalf_dst (s : State) (b : Bool) : (s.withMalf b).regs.dst = s.regs.dst := rfl
@[simp] theorem State.withMalf_dstcap (s : State) (b : Bool) : (s.withMalf b).regs.dstcap = s.regs.dstcap := rfl
@[simp] theorem State.withMalf_cnt (s : State) (b : Bool) : (s.withMalf b).regs.cnt = s.regs.cnt := rfl
@[simp] theorem State.withMalf_arg (s : State) (b : Bool) : (s.withMalf b).regs.arg = s.regs.arg := rfl
@[simp] theorem State.withMalf_bitlen (s : State) (b : Bool) : (s.withMalf b).regs.bitlen = s.regs.bitlen := rfl
@[simp] theorem State.withMalf_res (s : State) (b : Bool) : (s.withMalf b).regs.res = s.regs.res := rfl
@[simp] theorem State.withMalf_res2 (s : State) (b : Bool) : (s.withMalf b).regs.res2 = s.regs.res2 := rfl
@[simp] theorem State.withMalf_metaCount (s : State) (b : Bool) : (s.withMalf b).regs.metaCount = s.regs.metaCount := rfl
@[simp] theorem State.withMalf_metaBlocks (s : State) (b : Bool) : (s.withMalf b).regs.metaBlocks = s.regs.metaBlocks := rfl
@[simp] theorem State.withMalf_metaBytes (s : State) (b : Bool) : (s.withMalf b).regs.metaBytes = s.regs.metaBytes := rfl
@[simp] theorem State.withMalf_metaLast (s : State) (b : Bool) : (s.withMalf b).regs.metaLast = s.regs.metaLast := rfl
@[simp] theorem State.withMalf_metaMaxbw (s : State) (b : Bool) : (s.withMalf b).regs.metaMaxbw = s.regs.metaMaxbw := rfl
@[simp] theorem State.withMalf_metaBits (s : State) (b : Bool) : (s.withMalf b).regs.metaBits = s.regs.metaBits := rfl
@[simp] theorem State.withMalf_bwBase (s : State) (b : Bool) : (s.withMalf b).regs.bwBase = s.regs.bwBase := rfl
@[simp] theorem State.withMalf_bwCap (s : State) (b : Bool) : (s.withMalf b).regs.bwCap = s.regs.bwCap := rfl
@[simp] theorem State.withMalf_bwPos (s : State) (b : Bool) : (s.withMalf b).regs.bwPos = s.regs.bwPos := rfl
@[simp] theorem State.withMalf_brBase (s : State) (b : Bool) : (s.withMalf b).regs.brBase = s.regs.brBase := rfl
@[simp] theorem State.withMalf_brEnd (s : State) (b : Bool) : (s.withMalf b).regs.brEnd = s.regs.brEnd := rfl
@[simp] theorem State.withMalf_brPos (s : State) (b : Bool) : (s.withMalf b).regs.brPos = s.regs.brPos := rfl
@[simp] theorem State.withMalf_acc (s : State) (b : Bool) : (s.withMalf b).regs.acc = s.regs.acc := rfl
@[simp] theorem State.withMalf_accNdig (s : State) (b : Bool) : (s.withMalf b).regs.accNdig = s.regs.accNdig := rfl
@[simp] theorem State.withMalf_faddr (s : State) (b : Bool) : (s.withMalf b).regs.faddr = s.regs.faddr := rfl
@[simp] theorem State.withMalf_fcmd (s : State) (b : Bool) : (s.withMalf b).regs.fcmd = s.regs.fcmd := rfl
@[simp] theorem State.withMalf_mem (s : State) (b : Bool) : (s.withMalf b).mem = s.mem := rfl
@[simp] theorem State.withMalf_platform (s : State) (b : Bool) : (s.withMalf b).platform = s.platform := rfl
@[simp] theorem State.withMalf_pending (s : State) (b : Bool) : (s.withMalf b).pending = s.pending := rfl
@[simp] theorem State.withMalf_replies (s : State) (b : Bool) : (s.withMalf b).replies = s.replies := rfl
@[simp] theorem State.withMalf_draws (s : State) (b : Bool) : (s.withMalf b).draws = s.draws := rfl

/-! ### `State.withBwPos` -/

@[simp] theorem State.withBwPos_status (s : State) (p : Word) : (s.withBwPos p).regs.status = s.regs.status := rfl
@[simp] theorem State.withBwPos_src (s : State) (p : Word) : (s.withBwPos p).regs.src = s.regs.src := rfl
@[simp] theorem State.withBwPos_srclen (s : State) (p : Word) : (s.withBwPos p).regs.srclen = s.regs.srclen := rfl
@[simp] theorem State.withBwPos_dst (s : State) (p : Word) : (s.withBwPos p).regs.dst = s.regs.dst := rfl
@[simp] theorem State.withBwPos_dstcap (s : State) (p : Word) : (s.withBwPos p).regs.dstcap = s.regs.dstcap := rfl
@[simp] theorem State.withBwPos_cnt (s : State) (p : Word) : (s.withBwPos p).regs.cnt = s.regs.cnt := rfl
@[simp] theorem State.withBwPos_arg (s : State) (p : Word) : (s.withBwPos p).regs.arg = s.regs.arg := rfl
@[simp] theorem State.withBwPos_bitlen (s : State) (p : Word) : (s.withBwPos p).regs.bitlen = s.regs.bitlen := rfl
@[simp] theorem State.withBwPos_res (s : State) (p : Word) : (s.withBwPos p).regs.res = s.regs.res := rfl
@[simp] theorem State.withBwPos_res2 (s : State) (p : Word) : (s.withBwPos p).regs.res2 = s.regs.res2 := rfl
@[simp] theorem State.withBwPos_metaCount (s : State) (p : Word) : (s.withBwPos p).regs.metaCount = s.regs.metaCount := rfl
@[simp] theorem State.withBwPos_metaBlocks (s : State) (p : Word) : (s.withBwPos p).regs.metaBlocks = s.regs.metaBlocks := rfl
@[simp] theorem State.withBwPos_metaBytes (s : State) (p : Word) : (s.withBwPos p).regs.metaBytes = s.regs.metaBytes := rfl
@[simp] theorem State.withBwPos_metaLast (s : State) (p : Word) : (s.withBwPos p).regs.metaLast = s.regs.metaLast := rfl
@[simp] theorem State.withBwPos_metaMaxbw (s : State) (p : Word) : (s.withBwPos p).regs.metaMaxbw = s.regs.metaMaxbw := rfl
@[simp] theorem State.withBwPos_metaBits (s : State) (p : Word) : (s.withBwPos p).regs.metaBits = s.regs.metaBits := rfl
@[simp] theorem State.withBwPos_bwBase (s : State) (p : Word) : (s.withBwPos p).regs.bwBase = s.regs.bwBase := rfl
@[simp] theorem State.withBwPos_bwCap (s : State) (p : Word) : (s.withBwPos p).regs.bwCap = s.regs.bwCap := rfl
@[simp] theorem State.withBwPos_bwPos (s : State) (p : Word) : (s.withBwPos p).regs.bwPos = p := rfl
@[simp] theorem State.withBwPos_brBase (s : State) (p : Word) : (s.withBwPos p).regs.brBase = s.regs.brBase := rfl
@[simp] theorem State.withBwPos_brEnd (s : State) (p : Word) : (s.withBwPos p).regs.brEnd = s.regs.brEnd := rfl
@[simp] theorem State.withBwPos_brPos (s : State) (p : Word) : (s.withBwPos p).regs.brPos = s.regs.brPos := rfl
@[simp] theorem State.withBwPos_acc (s : State) (p : Word) : (s.withBwPos p).regs.acc = s.regs.acc := rfl
@[simp] theorem State.withBwPos_accNdig (s : State) (p : Word) : (s.withBwPos p).regs.accNdig = s.regs.accNdig := rfl
@[simp] theorem State.withBwPos_faddr (s : State) (p : Word) : (s.withBwPos p).regs.faddr = s.regs.faddr := rfl
@[simp] theorem State.withBwPos_fcmd (s : State) (p : Word) : (s.withBwPos p).regs.fcmd = s.regs.fcmd := rfl
@[simp] theorem State.withBwPos_mem (s : State) (p : Word) : (s.withBwPos p).mem = s.mem := rfl
@[simp] theorem State.withBwPos_platform (s : State) (p : Word) : (s.withBwPos p).platform = s.platform := rfl
@[simp] theorem State.withBwPos_pending (s : State) (p : Word) : (s.withBwPos p).pending = s.pending := rfl
@[simp] theorem State.withBwPos_replies (s : State) (p : Word) : (s.withBwPos p).replies = s.replies := rfl
@[simp] theorem State.withBwPos_draws (s : State) (p : Word) : (s.withBwPos p).draws = s.draws := rfl

/-! ### `State.withBrPos` -/

@[simp] theorem State.withBrPos_status (s : State) (p : Word) : (s.withBrPos p).regs.status = s.regs.status := rfl
@[simp] theorem State.withBrPos_src (s : State) (p : Word) : (s.withBrPos p).regs.src = s.regs.src := rfl
@[simp] theorem State.withBrPos_srclen (s : State) (p : Word) : (s.withBrPos p).regs.srclen = s.regs.srclen := rfl
@[simp] theorem State.withBrPos_dst (s : State) (p : Word) : (s.withBrPos p).regs.dst = s.regs.dst := rfl
@[simp] theorem State.withBrPos_dstcap (s : State) (p : Word) : (s.withBrPos p).regs.dstcap = s.regs.dstcap := rfl
@[simp] theorem State.withBrPos_cnt (s : State) (p : Word) : (s.withBrPos p).regs.cnt = s.regs.cnt := rfl
@[simp] theorem State.withBrPos_arg (s : State) (p : Word) : (s.withBrPos p).regs.arg = s.regs.arg := rfl
@[simp] theorem State.withBrPos_bitlen (s : State) (p : Word) : (s.withBrPos p).regs.bitlen = s.regs.bitlen := rfl
@[simp] theorem State.withBrPos_res (s : State) (p : Word) : (s.withBrPos p).regs.res = s.regs.res := rfl
@[simp] theorem State.withBrPos_res2 (s : State) (p : Word) : (s.withBrPos p).regs.res2 = s.regs.res2 := rfl
@[simp] theorem State.withBrPos_metaCount (s : State) (p : Word) : (s.withBrPos p).regs.metaCount = s.regs.metaCount := rfl
@[simp] theorem State.withBrPos_metaBlocks (s : State) (p : Word) : (s.withBrPos p).regs.metaBlocks = s.regs.metaBlocks := rfl
@[simp] theorem State.withBrPos_metaBytes (s : State) (p : Word) : (s.withBrPos p).regs.metaBytes = s.regs.metaBytes := rfl
@[simp] theorem State.withBrPos_metaLast (s : State) (p : Word) : (s.withBrPos p).regs.metaLast = s.regs.metaLast := rfl
@[simp] theorem State.withBrPos_metaMaxbw (s : State) (p : Word) : (s.withBrPos p).regs.metaMaxbw = s.regs.metaMaxbw := rfl
@[simp] theorem State.withBrPos_metaBits (s : State) (p : Word) : (s.withBrPos p).regs.metaBits = s.regs.metaBits := rfl
@[simp] theorem State.withBrPos_bwBase (s : State) (p : Word) : (s.withBrPos p).regs.bwBase = s.regs.bwBase := rfl
@[simp] theorem State.withBrPos_bwCap (s : State) (p : Word) : (s.withBrPos p).regs.bwCap = s.regs.bwCap := rfl
@[simp] theorem State.withBrPos_bwPos (s : State) (p : Word) : (s.withBrPos p).regs.bwPos = s.regs.bwPos := rfl
@[simp] theorem State.withBrPos_brBase (s : State) (p : Word) : (s.withBrPos p).regs.brBase = s.regs.brBase := rfl
@[simp] theorem State.withBrPos_brEnd (s : State) (p : Word) : (s.withBrPos p).regs.brEnd = s.regs.brEnd := rfl
@[simp] theorem State.withBrPos_brPos (s : State) (p : Word) : (s.withBrPos p).regs.brPos = p := rfl
@[simp] theorem State.withBrPos_acc (s : State) (p : Word) : (s.withBrPos p).regs.acc = s.regs.acc := rfl
@[simp] theorem State.withBrPos_accNdig (s : State) (p : Word) : (s.withBrPos p).regs.accNdig = s.regs.accNdig := rfl
@[simp] theorem State.withBrPos_faddr (s : State) (p : Word) : (s.withBrPos p).regs.faddr = s.regs.faddr := rfl
@[simp] theorem State.withBrPos_fcmd (s : State) (p : Word) : (s.withBrPos p).regs.fcmd = s.regs.fcmd := rfl
@[simp] theorem State.withBrPos_mem (s : State) (p : Word) : (s.withBrPos p).mem = s.mem := rfl
@[simp] theorem State.withBrPos_platform (s : State) (p : Word) : (s.withBrPos p).platform = s.platform := rfl
@[simp] theorem State.withBrPos_pending (s : State) (p : Word) : (s.withBrPos p).pending = s.pending := rfl
@[simp] theorem State.withBrPos_replies (s : State) (p : Word) : (s.withBrPos p).replies = s.replies := rfl
@[simp] theorem State.withBrPos_draws (s : State) (p : Word) : (s.withBrPos p).draws = s.draws := rfl

/-! ### `State.takeFault` -/

@[simp] theorem State.takeFault_status (s : State) (c : FaultCode) (n : Nat) (w : Word) : (s.takeFault c n w).regs.status = (s.regs.withFault c.number).status := rfl
@[simp] theorem State.takeFault_src (s : State) (c : FaultCode) (n : Nat) (w : Word) : (s.takeFault c n w).regs.src = s.regs.src := rfl
@[simp] theorem State.takeFault_srclen (s : State) (c : FaultCode) (n : Nat) (w : Word) : (s.takeFault c n w).regs.srclen = s.regs.srclen := rfl
@[simp] theorem State.takeFault_dst (s : State) (c : FaultCode) (n : Nat) (w : Word) : (s.takeFault c n w).regs.dst = s.regs.dst := rfl
@[simp] theorem State.takeFault_dstcap (s : State) (c : FaultCode) (n : Nat) (w : Word) : (s.takeFault c n w).regs.dstcap = s.regs.dstcap := rfl
@[simp] theorem State.takeFault_cnt (s : State) (c : FaultCode) (n : Nat) (w : Word) : (s.takeFault c n w).regs.cnt = s.regs.cnt := rfl
@[simp] theorem State.takeFault_arg (s : State) (c : FaultCode) (n : Nat) (w : Word) : (s.takeFault c n w).regs.arg = s.regs.arg := rfl
@[simp] theorem State.takeFault_bitlen (s : State) (c : FaultCode) (n : Nat) (w : Word) : (s.takeFault c n w).regs.bitlen = s.regs.bitlen := rfl
@[simp] theorem State.takeFault_res (s : State) (c : FaultCode) (n : Nat) (w : Word) : (s.takeFault c n w).regs.res = 0 := rfl
@[simp] theorem State.takeFault_res2 (s : State) (c : FaultCode) (n : Nat) (w : Word) : (s.takeFault c n w).regs.res2 = 0 := rfl
@[simp] theorem State.takeFault_metaCount (s : State) (c : FaultCode) (n : Nat) (w : Word) : (s.takeFault c n w).regs.metaCount = s.regs.metaCount := rfl
@[simp] theorem State.takeFault_metaBlocks (s : State) (c : FaultCode) (n : Nat) (w : Word) : (s.takeFault c n w).regs.metaBlocks = s.regs.metaBlocks := rfl
@[simp] theorem State.takeFault_metaBytes (s : State) (c : FaultCode) (n : Nat) (w : Word) : (s.takeFault c n w).regs.metaBytes = s.regs.metaBytes := rfl
@[simp] theorem State.takeFault_metaLast (s : State) (c : FaultCode) (n : Nat) (w : Word) : (s.takeFault c n w).regs.metaLast = s.regs.metaLast := rfl
@[simp] theorem State.takeFault_metaMaxbw (s : State) (c : FaultCode) (n : Nat) (w : Word) : (s.takeFault c n w).regs.metaMaxbw = s.regs.metaMaxbw := rfl
@[simp] theorem State.takeFault_metaBits (s : State) (c : FaultCode) (n : Nat) (w : Word) : (s.takeFault c n w).regs.metaBits = s.regs.metaBits := rfl
@[simp] theorem State.takeFault_bwBase (s : State) (c : FaultCode) (n : Nat) (w : Word) : (s.takeFault c n w).regs.bwBase = s.regs.bwBase := rfl
@[simp] theorem State.takeFault_bwCap (s : State) (c : FaultCode) (n : Nat) (w : Word) : (s.takeFault c n w).regs.bwCap = s.regs.bwCap := rfl
@[simp] theorem State.takeFault_bwPos (s : State) (c : FaultCode) (n : Nat) (w : Word) : (s.takeFault c n w).regs.bwPos = s.regs.bwPos := rfl
@[simp] theorem State.takeFault_brBase (s : State) (c : FaultCode) (n : Nat) (w : Word) : (s.takeFault c n w).regs.brBase = s.regs.brBase := rfl
@[simp] theorem State.takeFault_brEnd (s : State) (c : FaultCode) (n : Nat) (w : Word) : (s.takeFault c n w).regs.brEnd = s.regs.brEnd := rfl
@[simp] theorem State.takeFault_brPos (s : State) (c : FaultCode) (n : Nat) (w : Word) : (s.takeFault c n w).regs.brPos = s.regs.brPos := rfl
@[simp] theorem State.takeFault_acc (s : State) (c : FaultCode) (n : Nat) (w : Word) : (s.takeFault c n w).regs.acc = s.regs.acc := rfl
@[simp] theorem State.takeFault_accNdig (s : State) (c : FaultCode) (n : Nat) (w : Word) : (s.takeFault c n w).regs.accNdig = s.regs.accNdig := rfl
@[simp] theorem State.takeFault_faddr (s : State) (c : FaultCode) (n : Nat) (w : Word) : (s.takeFault c n w).regs.faddr = saturated n := rfl
@[simp] theorem State.takeFault_fcmd (s : State) (c : FaultCode) (n : Nat) (w : Word) : (s.takeFault c n w).regs.fcmd = w := rfl
@[simp] theorem State.takeFault_mem (s : State) (c : FaultCode) (n : Nat) (w : Word) : (s.takeFault c n w).mem = s.mem := rfl
@[simp] theorem State.takeFault_platform (s : State) (c : FaultCode) (n : Nat) (w : Word) : (s.takeFault c n w).platform = s.platform := rfl
@[simp] theorem State.takeFault_pending (s : State) (c : FaultCode) (n : Nat) (w : Word) : (s.takeFault c n w).pending = s.pending := rfl
@[simp] theorem State.takeFault_replies (s : State) (c : FaultCode) (n : Nat) (w : Word) : (s.takeFault c n w).replies = s.replies := rfl
@[simp] theorem State.takeFault_draws (s : State) (c : FaultCode) (n : Nat) (w : Word) : (s.takeFault c n w).draws = s.draws := rfl

/-! ### `State.clearFault` -/

@[simp] theorem State.clearFault_status (s : State) : s.clearFault.regs.status = (s.regs.withFault 0).status := rfl
@[simp] theorem State.clearFault_src (s : State) : s.clearFault.regs.src = s.regs.src := rfl
@[simp] theorem State.clearFault_srclen (s : State) : s.clearFault.regs.srclen = s.regs.srclen := rfl
@[simp] theorem State.clearFault_dst (s : State) : s.clearFault.regs.dst = s.regs.dst := rfl
@[simp] theorem State.clearFault_dstcap (s : State) : s.clearFault.regs.dstcap = s.regs.dstcap := rfl
@[simp] theorem State.clearFault_cnt (s : State) : s.clearFault.regs.cnt = s.regs.cnt := rfl
@[simp] theorem State.clearFault_arg (s : State) : s.clearFault.regs.arg = s.regs.arg := rfl
@[simp] theorem State.clearFault_bitlen (s : State) : s.clearFault.regs.bitlen = s.regs.bitlen := rfl
@[simp] theorem State.clearFault_res (s : State) : s.clearFault.regs.res = s.regs.res := rfl
@[simp] theorem State.clearFault_res2 (s : State) : s.clearFault.regs.res2 = s.regs.res2 := rfl
@[simp] theorem State.clearFault_metaCount (s : State) : s.clearFault.regs.metaCount = s.regs.metaCount := rfl
@[simp] theorem State.clearFault_metaBlocks (s : State) : s.clearFault.regs.metaBlocks = s.regs.metaBlocks := rfl
@[simp] theorem State.clearFault_metaBytes (s : State) : s.clearFault.regs.metaBytes = s.regs.metaBytes := rfl
@[simp] theorem State.clearFault_metaLast (s : State) : s.clearFault.regs.metaLast = s.regs.metaLast := rfl
@[simp] theorem State.clearFault_metaMaxbw (s : State) : s.clearFault.regs.metaMaxbw = s.regs.metaMaxbw := rfl
@[simp] theorem State.clearFault_metaBits (s : State) : s.clearFault.regs.metaBits = s.regs.metaBits := rfl
@[simp] theorem State.clearFault_bwBase (s : State) : s.clearFault.regs.bwBase = s.regs.bwBase := rfl
@[simp] theorem State.clearFault_bwCap (s : State) : s.clearFault.regs.bwCap = s.regs.bwCap := rfl
@[simp] theorem State.clearFault_bwPos (s : State) : s.clearFault.regs.bwPos = s.regs.bwPos := rfl
@[simp] theorem State.clearFault_brBase (s : State) : s.clearFault.regs.brBase = s.regs.brBase := rfl
@[simp] theorem State.clearFault_brEnd (s : State) : s.clearFault.regs.brEnd = s.regs.brEnd := rfl
@[simp] theorem State.clearFault_brPos (s : State) : s.clearFault.regs.brPos = s.regs.brPos := rfl
@[simp] theorem State.clearFault_acc (s : State) : s.clearFault.regs.acc = s.regs.acc := rfl
@[simp] theorem State.clearFault_accNdig (s : State) : s.clearFault.regs.accNdig = s.regs.accNdig := rfl
@[simp] theorem State.clearFault_faddr (s : State) : s.clearFault.regs.faddr = 0 := rfl
@[simp] theorem State.clearFault_fcmd (s : State) : s.clearFault.regs.fcmd = 0 := rfl
@[simp] theorem State.clearFault_mem (s : State) : s.clearFault.mem = s.mem := rfl
@[simp] theorem State.clearFault_platform (s : State) : s.clearFault.platform = s.platform := rfl
@[simp] theorem State.clearFault_pending (s : State) : s.clearFault.pending = s.pending := rfl
@[simp] theorem State.clearFault_replies (s : State) : s.clearFault.replies = s.replies := rfl
@[simp] theorem State.clearFault_draws (s : State) : s.clearFault.draws = s.draws := rfl

/-! ### `State.withBpMeta` -/

@[simp] theorem State.withBpMeta_status (s : State) (v : Variant) (vs : List Nat) : (s.withBpMeta v vs).regs.status = s.regs.status := rfl
@[simp] theorem State.withBpMeta_src (s : State) (v : Variant) (vs : List Nat) : (s.withBpMeta v vs).regs.src = s.regs.src := rfl
@[simp] theorem State.withBpMeta_srclen (s : State) (v : Variant) (vs : List Nat) : (s.withBpMeta v vs).regs.srclen = s.regs.srclen := rfl
@[simp] theorem State.withBpMeta_dst (s : State) (v : Variant) (vs : List Nat) : (s.withBpMeta v vs).regs.dst = s.regs.dst := rfl
@[simp] theorem State.withBpMeta_dstcap (s : State) (v : Variant) (vs : List Nat) : (s.withBpMeta v vs).regs.dstcap = s.regs.dstcap := rfl
@[simp] theorem State.withBpMeta_cnt (s : State) (v : Variant) (vs : List Nat) : (s.withBpMeta v vs).regs.cnt = s.regs.cnt := rfl
@[simp] theorem State.withBpMeta_arg (s : State) (v : Variant) (vs : List Nat) : (s.withBpMeta v vs).regs.arg = s.regs.arg := rfl
@[simp] theorem State.withBpMeta_bitlen (s : State) (v : Variant) (vs : List Nat) : (s.withBpMeta v vs).regs.bitlen = s.regs.bitlen := rfl
@[simp] theorem State.withBpMeta_res (s : State) (v : Variant) (vs : List Nat) : (s.withBpMeta v vs).regs.res = s.regs.res := rfl
@[simp] theorem State.withBpMeta_res2 (s : State) (v : Variant) (vs : List Nat) : (s.withBpMeta v vs).regs.res2 = s.regs.res2 := rfl
@[simp] theorem State.withBpMeta_metaCount (s : State) (v : Variant) (vs : List Nat) : (s.withBpMeta v vs).regs.metaCount = word vs.length := rfl
@[simp] theorem State.withBpMeta_metaBlocks (s : State) (v : Variant) (vs : List Nat) : (s.withBpMeta v vs).regs.metaBlocks = word (ceilDiv (blockValues v vs).length Config.blockLen) := rfl
@[simp] theorem State.withBpMeta_metaBytes (s : State) (v : Variant) (vs : List Nat) : (s.withBpMeta v vs).regs.metaBytes = word (bpStream v vs).length := rfl
@[simp] theorem State.withBpMeta_metaLast (s : State) (v : Variant) (vs : List Nat) : (s.withBpMeta v vs).regs.metaLast = word (lastBlockSize (blockValues v vs).length) := rfl
@[simp] theorem State.withBpMeta_metaMaxbw (s : State) (v : Variant) (vs : List Nat) : (s.withBpMeta v vs).regs.metaMaxbw = word (((splitBlocks (blockValues v vs)).map blockWidth).foldl max 0) := rfl
@[simp] theorem State.withBpMeta_metaBits (s : State) (v : Variant) (vs : List Nat) : (s.withBpMeta v vs).regs.metaBits = s.regs.metaBits := rfl
@[simp] theorem State.withBpMeta_bwBase (s : State) (v : Variant) (vs : List Nat) : (s.withBpMeta v vs).regs.bwBase = s.regs.bwBase := rfl
@[simp] theorem State.withBpMeta_bwCap (s : State) (v : Variant) (vs : List Nat) : (s.withBpMeta v vs).regs.bwCap = s.regs.bwCap := rfl
@[simp] theorem State.withBpMeta_bwPos (s : State) (v : Variant) (vs : List Nat) : (s.withBpMeta v vs).regs.bwPos = s.regs.bwPos := rfl
@[simp] theorem State.withBpMeta_brBase (s : State) (v : Variant) (vs : List Nat) : (s.withBpMeta v vs).regs.brBase = s.regs.brBase := rfl
@[simp] theorem State.withBpMeta_brEnd (s : State) (v : Variant) (vs : List Nat) : (s.withBpMeta v vs).regs.brEnd = s.regs.brEnd := rfl
@[simp] theorem State.withBpMeta_brPos (s : State) (v : Variant) (vs : List Nat) : (s.withBpMeta v vs).regs.brPos = s.regs.brPos := rfl
@[simp] theorem State.withBpMeta_acc (s : State) (v : Variant) (vs : List Nat) : (s.withBpMeta v vs).regs.acc = s.regs.acc := rfl
@[simp] theorem State.withBpMeta_accNdig (s : State) (v : Variant) (vs : List Nat) : (s.withBpMeta v vs).regs.accNdig = s.regs.accNdig := rfl
@[simp] theorem State.withBpMeta_faddr (s : State) (v : Variant) (vs : List Nat) : (s.withBpMeta v vs).regs.faddr = s.regs.faddr := rfl
@[simp] theorem State.withBpMeta_fcmd (s : State) (v : Variant) (vs : List Nat) : (s.withBpMeta v vs).regs.fcmd = s.regs.fcmd := rfl
@[simp] theorem State.withBpMeta_mem (s : State) (v : Variant) (vs : List Nat) : (s.withBpMeta v vs).mem = s.mem := rfl
@[simp] theorem State.withBpMeta_platform (s : State) (v : Variant) (vs : List Nat) : (s.withBpMeta v vs).platform = s.platform := rfl
@[simp] theorem State.withBpMeta_pending (s : State) (v : Variant) (vs : List Nat) : (s.withBpMeta v vs).pending = s.pending := rfl
@[simp] theorem State.withBpMeta_replies (s : State) (v : Variant) (vs : List Nat) : (s.withBpMeta v vs).replies = s.replies := rfl
@[simp] theorem State.withBpMeta_draws (s : State) (v : Variant) (vs : List Nat) : (s.withBpMeta v vs).draws = s.draws := rfl

/-! ### `State.withEliasMeta` -/

@[simp] theorem State.withEliasMeta_status (s : State) (count total bytes : Nat) : (s.withEliasMeta count total bytes).regs.status = s.regs.status := rfl
@[simp] theorem State.withEliasMeta_src (s : State) (count total bytes : Nat) : (s.withEliasMeta count total bytes).regs.src = s.regs.src := rfl
@[simp] theorem State.withEliasMeta_srclen (s : State) (count total bytes : Nat) : (s.withEliasMeta count total bytes).regs.srclen = s.regs.srclen := rfl
@[simp] theorem State.withEliasMeta_dst (s : State) (count total bytes : Nat) : (s.withEliasMeta count total bytes).regs.dst = s.regs.dst := rfl
@[simp] theorem State.withEliasMeta_dstcap (s : State) (count total bytes : Nat) : (s.withEliasMeta count total bytes).regs.dstcap = s.regs.dstcap := rfl
@[simp] theorem State.withEliasMeta_cnt (s : State) (count total bytes : Nat) : (s.withEliasMeta count total bytes).regs.cnt = s.regs.cnt := rfl
@[simp] theorem State.withEliasMeta_arg (s : State) (count total bytes : Nat) : (s.withEliasMeta count total bytes).regs.arg = s.regs.arg := rfl
@[simp] theorem State.withEliasMeta_bitlen (s : State) (count total bytes : Nat) : (s.withEliasMeta count total bytes).regs.bitlen = s.regs.bitlen := rfl
@[simp] theorem State.withEliasMeta_res (s : State) (count total bytes : Nat) : (s.withEliasMeta count total bytes).regs.res = s.regs.res := rfl
@[simp] theorem State.withEliasMeta_res2 (s : State) (count total bytes : Nat) : (s.withEliasMeta count total bytes).regs.res2 = s.regs.res2 := rfl
@[simp] theorem State.withEliasMeta_metaCount (s : State) (count total bytes : Nat) : (s.withEliasMeta count total bytes).regs.metaCount = Machine.word count := rfl
@[simp] theorem State.withEliasMeta_metaBlocks (s : State) (count total bytes : Nat) : (s.withEliasMeta count total bytes).regs.metaBlocks = s.regs.metaBlocks := rfl
@[simp] theorem State.withEliasMeta_metaBytes (s : State) (count total bytes : Nat) : (s.withEliasMeta count total bytes).regs.metaBytes = Machine.word bytes := rfl
@[simp] theorem State.withEliasMeta_metaLast (s : State) (count total bytes : Nat) : (s.withEliasMeta count total bytes).regs.metaLast = s.regs.metaLast := rfl
@[simp] theorem State.withEliasMeta_metaMaxbw (s : State) (count total bytes : Nat) : (s.withEliasMeta count total bytes).regs.metaMaxbw = s.regs.metaMaxbw := rfl
@[simp] theorem State.withEliasMeta_metaBits (s : State) (count total bytes : Nat) : (s.withEliasMeta count total bytes).regs.metaBits = Machine.word total := rfl
@[simp] theorem State.withEliasMeta_bwBase (s : State) (count total bytes : Nat) : (s.withEliasMeta count total bytes).regs.bwBase = s.regs.bwBase := rfl
@[simp] theorem State.withEliasMeta_bwCap (s : State) (count total bytes : Nat) : (s.withEliasMeta count total bytes).regs.bwCap = s.regs.bwCap := rfl
@[simp] theorem State.withEliasMeta_bwPos (s : State) (count total bytes : Nat) : (s.withEliasMeta count total bytes).regs.bwPos = s.regs.bwPos := rfl
@[simp] theorem State.withEliasMeta_brBase (s : State) (count total bytes : Nat) : (s.withEliasMeta count total bytes).regs.brBase = s.regs.brBase := rfl
@[simp] theorem State.withEliasMeta_brEnd (s : State) (count total bytes : Nat) : (s.withEliasMeta count total bytes).regs.brEnd = s.regs.brEnd := rfl
@[simp] theorem State.withEliasMeta_brPos (s : State) (count total bytes : Nat) : (s.withEliasMeta count total bytes).regs.brPos = s.regs.brPos := rfl
@[simp] theorem State.withEliasMeta_acc (s : State) (count total bytes : Nat) : (s.withEliasMeta count total bytes).regs.acc = s.regs.acc := rfl
@[simp] theorem State.withEliasMeta_accNdig (s : State) (count total bytes : Nat) : (s.withEliasMeta count total bytes).regs.accNdig = s.regs.accNdig := rfl
@[simp] theorem State.withEliasMeta_faddr (s : State) (count total bytes : Nat) : (s.withEliasMeta count total bytes).regs.faddr = s.regs.faddr := rfl
@[simp] theorem State.withEliasMeta_fcmd (s : State) (count total bytes : Nat) : (s.withEliasMeta count total bytes).regs.fcmd = s.regs.fcmd := rfl
@[simp] theorem State.withEliasMeta_mem (s : State) (count total bytes : Nat) : (s.withEliasMeta count total bytes).mem = s.mem := rfl
@[simp] theorem State.withEliasMeta_platform (s : State) (count total bytes : Nat) : (s.withEliasMeta count total bytes).platform = s.platform := rfl
@[simp] theorem State.withEliasMeta_pending (s : State) (count total bytes : Nat) : (s.withEliasMeta count total bytes).pending = s.pending := rfl
@[simp] theorem State.withEliasMeta_replies (s : State) (count total bytes : Nat) : (s.withEliasMeta count total bytes).replies = s.replies := rfl
@[simp] theorem State.withEliasMeta_draws (s : State) (count total bytes : Nat) : (s.withEliasMeta count total bytes).draws = s.draws := rfl

/-! ### Updates outside the registers -/

@[simp] theorem State.loseExtent_regs (s : State) (a n : Nat) : (s.loseExtent a n).regs = s.regs := rfl
@[simp] theorem State.loseExtent_mem (s : State) (a n : Nat) : (s.loseExtent a n).mem = s.mem.writeBytes a ((List.range n).map fun k => Config.freeByte (s.draws + k)) := rfl
@[simp] theorem State.loseExtent_platform (s : State) (a n : Nat) : (s.loseExtent a n).platform = s.platform := rfl
@[simp] theorem State.loseExtent_pending (s : State) (a n : Nat) : (s.loseExtent a n).pending = s.pending := rfl
@[simp] theorem State.loseExtent_replies (s : State) (a n : Nat) : (s.loseExtent a n).replies = s.replies := rfl
@[simp] theorem State.loseExtent_draws (s : State) (a n : Nat) : (s.loseExtent a n).draws = s.draws + n := rfl
@[simp] theorem State.resetRegisters_regs (s : State) : s.resetRegisters.regs = Regs.reset := rfl
@[simp] theorem State.resetRegisters_mem (s : State) : s.resetRegisters.mem = s.mem := rfl
@[simp] theorem State.resetRegisters_platform (s : State) : s.resetRegisters.platform = s.platform := rfl
@[simp] theorem State.resetRegisters_pending (s : State) : s.resetRegisters.pending = s.pending := rfl
@[simp] theorem State.resetRegisters_replies (s : State) : s.resetRegisters.replies = s.replies := rfl
@[simp] theorem State.resetRegisters_draws (s : State) : s.resetRegisters.draws = s.draws := rfl
@[simp] theorem State.reply_regs (s : State) (v : Word) : (s.reply v).regs = s.regs := rfl
@[simp] theorem State.reply_mem (s : State) (v : Word) : (s.reply v).mem = s.mem := rfl
@[simp] theorem State.reply_platform (s : State) (v : Word) : (s.reply v).platform = s.platform := rfl
@[simp] theorem State.reply_pending (s : State) (v : Word) : (s.reply v).pending = s.pending := rfl
@[simp] theorem State.reply_replies (s : State) (v : Word) : (s.reply v).replies = v :: s.replies := rfl
@[simp] theorem State.reply_draws (s : State) (v : Word) : (s.reply v).draws = s.draws := rfl
@[simp] theorem State.withFetchWord_regs (s : State) (n w : Nat) : (s.withFetchWord n w).regs = s.regs := rfl
@[simp] theorem State.withFetchWord_mem (s : State) (n w : Nat) : (s.withFetchWord n w).mem = s.mem := rfl
@[simp] theorem State.withFetchWord_platform (s : State) (n w : Nat) : (s.withFetchWord n w).platform = s.platform := rfl
@[simp] theorem State.withFetchWord_pending (s : State) (n w : Nat) : (s.withFetchWord n w).pending = commandWrite n w :: s.pending := rfl
@[simp] theorem State.withFetchWord_replies (s : State) (n w : Nat) : (s.withFetchWord n w).replies = s.replies := rfl
@[simp] theorem State.withFetchWord_draws (s : State) (n w : Nat) : (s.withFetchWord n w).draws = s.draws := rfl

end Sys2Proof.Machine
end

