-- ==== Sys2Proof/Laws/Flags.lean ====
section
/-! SUPPORT. Reading a field of a word after writing one, and the fields of `STATUS`. -/

namespace Sys2Proof

theorem Word.getLsbD_withField (w : Word) (lo n k : Nat) (v : BitVec n) :
    (w.withField lo n v).getLsbD k =
      if lo ≤ k ∧ k < lo + n ∧ k < 64 then v.getLsbD (k - lo) else w.getLsbD k := by
  by_cases h64 : k < 64
  · by_cases h1 : k < lo
    · have : ¬ lo ≤ k := by omega
      simp [Word.withField, h64, h1, this]
    · by_cases h2 : k < lo + n
      · have h3 : lo ≤ k := by omega
        have h4 : k - lo < n := by omega
        simp [Word.withField, h64, h1, h2, h3, h4]
      · have h3 : lo ≤ k := by omega
        have h4 : ¬ k - lo < n := by omega
        have h5 : v.getLsbD (k - lo) = false := BitVec.getLsbD_of_ge _ _ (by omega)
        simp [Word.withField, h64, h1, h2, h4, h5]
  · rw [if_neg (by omega), BitVec.getLsbD_of_ge _ _ (by omega), BitVec.getLsbD_of_ge _ _ (by omega)]

theorem Word.getLsbD_field (w : Word) (lo n k : Nat) :
    (w.field lo n).getLsbD k = (decide (k < n) && w.getLsbD (lo + k)) := by
  simp [Word.field]

theorem Word.field_withField_same (w : Word) (lo n : Nat) (v : BitVec n) (h : lo + n ≤ 64) :
    (w.withField lo n v).field lo n = v := by
  apply BitVec.eq_of_getLsbD_eq
  intro k hk
  rw [Word.getLsbD_field, Word.getLsbD_withField, if_pos (by omega)]
  simp [hk]

theorem Word.field_withField_other (w : Word) (lo n lo' n' : Nat) (v : BitVec n)
    (h : lo' + n' ≤ lo ∨ lo + n ≤ lo') : (w.withField lo n v).field lo' n' = w.field lo' n' := by
  apply BitVec.eq_of_getLsbD_eq
  intro k hk
  rw [Word.getLsbD_field, Word.getLsbD_withField, if_neg (by omega), Word.getLsbD_field]

end Sys2Proof

namespace Sys2Proof.Machine

@[simp] theorem Regs.withOvf_ovf (r : Regs) (b : Bool) : (r.withOvf b).ovf = b := by
  rw [Regs.ovf, Regs.withOvf, Word.getLsbD_withField, if_pos (by decide)]; simp

@[simp] theorem Regs.withOvf_neg (r : Regs) (b : Bool) : (r.withOvf b).neg = r.neg := by
  rw [Regs.neg, Regs.withOvf, Word.getLsbD_withField, if_neg (by decide)]; rfl

@[simp] theorem Regs.withOvf_malf (r : Regs) (b : Bool) : (r.withOvf b).malf = r.malf := by
  rw [Regs.malf, Regs.withOvf, Word.getLsbD_withField, if_neg (by decide)]; rfl

@[simp] theorem Regs.withOvf_mode (r : Regs) (b : Bool) : (r.withOvf b).mode = r.mode := Word.field_withField_other _ _ _ _ _ _ (by decide)

@[simp] theorem Regs.withOvf_fault (r : Regs) (b : Bool) : (r.withOvf b).fault = r.fault := Word.field_withField_other _ _ _ _ _ _ (by decide)

@[simp] theorem Regs.withNeg_ovf (r : Regs) (b : Bool) : (r.withNeg b).ovf = r.ovf := by
  rw [Regs.ovf, Regs.withNeg, Word.getLsbD_withField, if_neg (by decide)]; rfl

@[simp] theorem Regs.withNeg_neg (r : Regs) (b : Bool) : (r.withNeg b).neg = b := by
  rw [Regs.neg, Regs.withNeg, Word.getLsbD_withField, if_pos (by decide)]; simp

@[simp] theorem Regs.withNeg_malf (r : Regs) (b : Bool) : (r.withNeg b).malf = r.malf := by
  rw [Regs.malf, Regs.withNeg, Word.getLsbD_withField, if_neg (by decide)]; rfl

@[simp] theorem Regs.withNeg_mode (r : Regs) (b : Bool) : (r.withNeg b).mode = r.mode := Word.field_withField_other _ _ _ _ _ _ (by decide)

@[simp] theorem Regs.withNeg_fault (r : Regs) (b : Bool) : (r.withNeg b).fault = r.fault := Word.field_withField_other _ _ _ _ _ _ (by decide)

@[simp] theorem Regs.withMalf_ovf (r : Regs) (b : Bool) : (r.withMalf b).ovf = r.ovf := by
  rw [Regs.ovf, Regs.withMalf, Word.getLsbD_withField, if_neg (by decide)]; rfl

@[simp] theorem Regs.withMalf_neg (r : Regs) (b : Bool) : (r.withMalf b).neg = r.neg := by
  rw [Regs.neg, Regs.withMalf, Word.getLsbD_withField, if_neg (by decide)]; rfl

@[simp] theorem Regs.withMalf_malf (r : Regs) (b : Bool) : (r.withMalf b).malf = b := by
  rw [Regs.malf, Regs.withMalf, Word.getLsbD_withField, if_pos (by decide)]; simp

@[simp] theorem Regs.withMalf_mode (r : Regs) (b : Bool) : (r.withMalf b).mode = r.mode := Word.field_withField_other _ _ _ _ _ _ (by decide)

@[simp] theorem Regs.withMalf_fault (r : Regs) (b : Bool) : (r.withMalf b).fault = r.fault := Word.field_withField_other _ _ _ _ _ _ (by decide)

@[simp] theorem Regs.withMode_ovf (r : Regs) (b : BitVec 2) : (r.withMode b).ovf = r.ovf := by
  rw [Regs.ovf, Regs.withMode, Word.getLsbD_withField, if_neg (by decide)]; rfl

@[simp] theorem Regs.withMode_neg (r : Regs) (b : BitVec 2) : (r.withMode b).neg = r.neg := by
  rw [Regs.neg, Regs.withMode, Word.getLsbD_withField, if_neg (by decide)]; rfl

@[simp] theorem Regs.withMode_malf (r : Regs) (b : BitVec 2) : (r.withMode b).malf = r.malf := by
  rw [Regs.malf, Regs.withMode, Word.getLsbD_withField, if_neg (by decide)]; rfl

@[simp] theorem Regs.withMode_mode (r : Regs) (b : BitVec 2) : (r.withMode b).mode = b := Word.field_withField_same _ _ _ _ (by decide)

@[simp] theorem Regs.withMode_fault (r : Regs) (b : BitVec 2) : (r.withMode b).fault = r.fault := Word.field_withField_other _ _ _ _ _ _ (by decide)

@[simp] theorem Regs.withFault_ovf (r : Regs) (b : BitVec 8) : (r.withFault b).ovf = r.ovf := by
  rw [Regs.ovf, Regs.withFault, Word.getLsbD_withField, if_neg (by decide)]; rfl

@[simp] theorem Regs.withFault_neg (r : Regs) (b : BitVec 8) : (r.withFault b).neg = r.neg := by
  rw [Regs.neg, Regs.withFault, Word.getLsbD_withField, if_neg (by decide)]; rfl

@[simp] theorem Regs.withFault_malf (r : Regs) (b : BitVec 8) : (r.withFault b).malf = r.malf := by
  rw [Regs.malf, Regs.withFault, Word.getLsbD_withField, if_neg (by decide)]; rfl

@[simp] theorem Regs.withFault_mode (r : Regs) (b : BitVec 8) : (r.withFault b).mode = r.mode := Word.field_withField_other _ _ _ _ _ _ (by decide)

@[simp] theorem Regs.withFault_fault (r : Regs) (b : BitVec 8) : (r.withFault b).fault = b := Word.field_withField_same _ _ _ _ (by decide)

/-- Each writer leaves the reserved bits of `STATUS` as they are. -/
theorem Regs.status_reserved_kept (r : Regs) (lo n : Nat)
    (h : (lo, n) = (3, 1) ∨ (lo, n) = (6, 2) ∨ (lo, n) = (16, 48)) :
    (∀ b, (r.withOvf b).status.field lo n = r.status.field lo n) ∧
    (∀ b, (r.withNeg b).status.field lo n = r.status.field lo n) ∧
    (∀ b, (r.withMalf b).status.field lo n = r.status.field lo n) ∧
    (∀ b, (r.withMode b).status.field lo n = r.status.field lo n) ∧
    (∀ b, (r.withFault b).status.field lo n = r.status.field lo n) := by
  rcases h with h | h | h <;> obtain ⟨rfl, rfl⟩ := Prod.mk.inj h <;>
    refine ⟨?_, ?_, ?_, ?_, ?_⟩ <;> intro b <;>
    exact Word.field_withField_other _ _ _ _ _ _ (by decide)

end Sys2Proof.Machine
end

