-- ==== Sys2Proof/Laws/Memory.lean ====
section
/-! SUPPORT. The laws of the data memory: a write is read back, leaves every other address alone, and
keeps the canonical form. -/

namespace Sys2Proof.Machine

theorem Memory.read_of_lt (m : Memory) (a : Nat) (h : ∀ c ∈ m, a < c.1) :
    Memory.read m a = Config.unwrittenByte := by
  induction m with
  | nil => rfl
  | cons c rest ih =>
    obtain ⟨k, b⟩ := c
    have hk : a < k := h (k, b) (by simp)
    rw [Memory.read, if_neg (by omega)]
    exact ih fun c hc => h c (by simp [hc])

theorem Memory.read_write_same (m : Memory) (a : Nat) (b : Byte) (h : m.wf) :
    Memory.read (Memory.write m a b) a = b := by
  induction m with
  | nil => by_cases hb : b = Config.unwrittenByte <;> simp [Memory.write, Memory.read, hb]
  | cons c rest ih =>
    obtain ⟨k, d⟩ := c
    have hs := List.pairwise_cons.mp h.1
    have hrest : Memory.wf rest := ⟨hs.2, fun c hc => h.2 c (by simp [hc])⟩
    rw [Memory.write]
    split
    · rename_i hlt
      split
      · rename_i hb
        rw [hb]
        apply Memory.read_of_lt
        intro c hc
        rcases List.mem_cons.mp hc with rfl | hc
        · exact hlt
        · exact lt_trans hlt (hs.1 c hc)
      · simp [Memory.read]
    · split
      · rename_i heq
        subst heq
        split
        · rename_i hb
          rw [hb]
          exact Memory.read_of_lt _ _ fun c hc => hs.1 c hc
        · simp [Memory.read]
      · rename_i hne
        rw [Memory.read, if_neg (fun e => hne e.symm)]
        exact ih hrest

theorem Memory.read_write_other (m : Memory) (a x : Nat) (b : Byte) (h : x ≠ a) :
    Memory.read (Memory.write m a b) x = Memory.read m x := by
  induction m with
  | nil =>
    by_cases hb : b = Config.unwrittenByte <;> simp [Memory.write, Memory.read, hb, Ne.symm h]
  | cons c rest ih =>
    obtain ⟨k, d⟩ := c
    rw [Memory.write]
    split
    · split
      · rfl
      · simp [Memory.read, Ne.symm h]
    · split
      · rename_i heq
        subst heq
        split <;> simp [Memory.read, Ne.symm h]
      · simp [Memory.read, ih]

theorem Memory.mem_write (m : Memory) (a : Nat) (b : Byte) (c : Host.Cell)
    (h : c ∈ Memory.write m a b) : c ∈ m ∨ (c = (a, b) ∧ b ≠ Config.unwrittenByte) := by
  induction m with
  | nil =>
    rw [Memory.write] at h
    split at h
    · simp at h
    · rename_i hb; exact .inr ⟨by simpa using h, hb⟩
  | cons e rest ih =>
    obtain ⟨k, d⟩ := e
    rw [Memory.write] at h
    split at h
    · split at h
      · exact .inl h
      · rename_i hb
        rcases List.mem_cons.mp h with h | h
        · exact .inr ⟨h, hb⟩
        · exact .inl h
    · split at h
      · split at h
        · exact .inl (by simp [h])
        · rename_i hb
          rcases List.mem_cons.mp h with h | h
          · exact .inr ⟨h, hb⟩
          · exact .inl (by simp [h])
      · rcases List.mem_cons.mp h with h | h
        · exact .inl (by simp [h])
        · rcases ih h with h | h
          · exact .inl (by simp [h])
          · exact .inr h

theorem Memory.wf_write (m : Memory) (a : Nat) (b : Byte) (h : m.wf) : Memory.wf (Memory.write m a b) := by
  refine ⟨?_, fun c hc => ?_⟩
  · induction m with
    | nil => rw [Memory.write]; split <;> simp
    | cons e rest ih =>
      obtain ⟨k, d⟩ := e
      have hs := List.pairwise_cons.mp h.1
      have hrest : Memory.wf rest := ⟨hs.2, fun c hc => h.2 c (by simp [hc])⟩
      rw [Memory.write]
      split
      · rename_i hlt
        split
        · exact h.1
        · refine List.pairwise_cons.mpr ⟨fun c hc => ?_, h.1⟩
          rcases List.mem_cons.mp hc with rfl | hc
          · exact hlt
          · exact lt_trans hlt (hs.1 c hc)
      · split
        · rename_i heq
          subst heq
          split
          · exact hs.2
          · exact List.pairwise_cons.mpr ⟨hs.1, hs.2⟩
        · rename_i hlt hne
          refine List.pairwise_cons.mpr ⟨fun c hc => ?_, ih hrest⟩
          rcases Memory.mem_write rest a b c hc with hc | ⟨rfl, -⟩
          · exact hs.1 c hc
          · show k < a
            omega
  · rcases Memory.mem_write m a b c hc with hc | ⟨rfl, hb⟩
    · exact h.2 c hc
    · exact hb

theorem Memory.wf_writeBytes (m : Memory) (a : Nat) (out : List Byte) (h : m.wf) :
    Memory.wf (Memory.writeBytes m a out) := by
  induction out generalizing m a with
  | nil => exact h
  | cons b rest ih => exact ih _ _ (Memory.wf_write m a b h)

theorem Memory.read_writeBytes_outside (m : Memory) (a x : Nat) (out : List Byte)
    (h : x < a ∨ a + out.length ≤ x) : Memory.read (Memory.writeBytes m a out) x = Memory.read m x := by
  induction out generalizing m a with
  | nil => rfl
  | cons b rest ih =>
    simp only [List.length_cons] at h
    rw [Memory.writeBytes, ih _ _ (by omega), Memory.read_write_other _ _ _ _ (by omega)]

theorem Memory.read_writeBytes_inside (m : Memory) (a x : Nat) (out : List Byte) (hm : m.wf)
    (h : a ≤ x ∧ x < a + out.length) :
    Memory.read (Memory.writeBytes m a out) x = out.getD (x - a) 0 := by
  induction out generalizing m a with
  | nil => simp at h; omega
  | cons b rest ih =>
    simp only [List.length_cons] at h
    rw [Memory.writeBytes]
    by_cases hx : x = a
    · subst hx
      rw [Memory.read_writeBytes_outside _ _ _ _ (by omega), Memory.read_write_same _ _ _ hm]
      simp
    · rw [ih _ _ (Memory.wf_write _ _ _ hm) (by omega)]
      obtain ⟨k, rfl⟩ : ∃ k, x = a + 1 + k := ⟨x - (a + 1), by omega⟩
      have e1 : a + 1 + k - (a + 1) = k := by omega
      have e2 : a + 1 + k - a = k + 1 := by omega
      rw [e1, e2, List.getD_cons_succ]

/-- What a stored byte sequence reads as, at every address. -/
theorem Memory.read_writeBytes (m : Memory) (a x : Nat) (out : List Byte) (hm : m.wf) :
    Memory.read (Memory.writeBytes m a out) x =
      if a ≤ x ∧ x < a + out.length then out.getD (x - a) 0 else Memory.read m x := by
  split
  · rename_i h; exact Memory.read_writeBytes_inside m a x out hm h
  · exact Memory.read_writeBytes_outside m a x out (by omega)

/-- Every listed cell stays below `limit`. -/
theorem Memory.below_writeBytes (m : Memory) (a limit : Nat) (out : List Byte)
    (hm : ∀ c ∈ m, c.1 < limit) (h : out = [] ∨ a + out.length ≤ limit) :
    ∀ c ∈ Memory.writeBytes m a out, c.1 < limit := by
  induction out generalizing m a with
  | nil => exact hm
  | cons b rest ih =>
    simp only [List.length_cons, reduceCtorEq, false_or] at h
    refine ih _ _ (fun c hc => ?_) (.inr (by omega))
    rcases Memory.mem_write m a b c hc with hc | ⟨rfl, -⟩
    · exact hm c hc
    · show a < limit
      omega

theorem State.reset_mem_wf : State.reset.mem.wf := by simp [State.reset, Memory.wf]

end Sys2Proof.Machine
end

