-- ==== Sys2Proof/Laws/Ops.lean ====
section
/-! SUPPORT. What each shared operation can do, said once: when it succeeds and with what, how it can end
early, and what a command that answers a next state has done. -/

namespace Sys2Proof.Machine

/-! ### Attempts -/

@[simp] theorem attempt_ok_bind {α β : Type} (a : α) (f : α → Attempt β) :
    (Except.ok a >>= f : Attempt β) = f a := rfl

@[simp] theorem attempt_error_bind {α β : Type} (e : Stop) (f : α → Attempt β) :
    ((Except.error e : Attempt α) >>= f) = .error e := rfl

@[simp] theorem attempt_pure {α : Type} (a : α) : (pure a : Attempt α) = .ok a := rfl

theorem attempt_bind_ok {α β : Type} (x : Attempt α) (f : α → Attempt β) (r : β) :
    (x >>= f) = .ok r ↔ ∃ a, x = .ok a ∧ f a = .ok r := by
  cases x <;> simp

theorem attempt_bind_error {α β : Type} (x : Attempt α) (f : α → Attempt β) (e : Stop) :
    (x >>= f) = .error e ↔ x = .error e ∨ ∃ a, x = .ok a ∧ f a = .error e := by
  cases x <;> simp

@[simp] theorem raiseIf_false (c : FaultCode) (n : Nat) : raiseIf false c n = .ok () := rfl

@[simp] theorem raiseIf_true (c : FaultCode) (n : Nat) : raiseIf true c n = .error (.raise c n) := rfl

theorem raiseIf_ok (b : Bool) (c : FaultCode) (n : Nat) : raiseIf b c n = .ok () ↔ b = false := by
  cases b <;> simp

theorem raiseIf_error (b : Bool) (c : FaultCode) (n : Nat) (e : Stop) :
    raiseIf b c n = .error e ↔ b = true ∧ e = .raise c n := by
  cases b <;> simp [eq_comm]

/-! ### Extents -/

theorem checkRange_ok (a n : Nat) : checkRange a n = .ok () ↔ InSpace a n := by
  rw [checkRange, raiseIf_ok, decide_eq_false_iff_not, Config.addressLimit]; omega

theorem checkRange_error (a n : Nat) (e : Stop) :
    checkRange a n = .error e ↔ ¬ InSpace a n ∧ e = .raise .addrWrap a := by
  rw [checkRange, raiseIf_error, decide_eq_true_eq, Config.addressLimit]
  constructor <;> rintro ⟨h, rfl⟩ <;> exact ⟨by omega, rfl⟩

theorem checkOverlap_ok (a n b m : Nat) : checkOverlap a n b m = .ok () ↔ Apart a n b m := by
  simp only [checkOverlap, raiseIf_ok, Apart, Bool.and_eq_false_iff, decide_eq_false_iff_not]
  omega

theorem checkOverlap_error (a n b m : Nat) (e : Stop) :
    checkOverlap a n b m = .error e ↔ ¬ Apart a n b m ∧ e = .raise .overlap b := by
  simp only [checkOverlap, raiseIf_error, Apart, Bool.and_eq_true, decide_eq_true_eq]
  constructor <;> rintro ⟨h, rfl⟩ <;> exact ⟨by omega, rfl⟩

/-- The extent checks let through exactly the extents that lie in the address space and are apart. -/
theorem checkExtents_ok (s : State) (sl : Nat) :
    checkExtents s sl = .ok () ↔
      InSpace s.regs.src.toNat sl ∧ InSpace s.regs.dst.toNat s.regs.dstcap.toNat ∧
        Apart s.regs.src.toNat sl s.regs.dst.toNat s.regs.dstcap.toNat := by
  simp only [checkExtents, attempt_bind_ok, checkOverlap_ok]
  constructor
  · rintro ⟨_, h1, _, h2, h3⟩
    exact ⟨(checkRange_ok _ _).mp h1, (checkRange_ok _ _).mp h2, h3⟩
  · rintro ⟨h1, h2, h3⟩
    exact ⟨(), (checkRange_ok _ _).mpr h1, (), (checkRange_ok _ _).mpr h2, h3⟩

/-! ### The memory port -/

theorem portRead_ok (s : State) (a : Nat) (b : Byte) :
    portRead s a = .ok b ↔
      canRead s.platform a = true ∧ inWindow s.platform a = false ∧ b = s.mem.read a := by
  rw [portRead]
  cases canRead s.platform a <;> cases inWindow s.platform a <;> simp [eq_comm]

theorem Reads.tail {s : State} {a n : Nat} (h : Reads s a (n + 1)) : Reads s (a + 1) n := by
  intro k hk
  have := h (k + 1) (by omega)
  rwa [show a + (k + 1) = a + 1 + k by omega] at this

theorem Reads.head {s : State} {a n : Nat} (h : Reads s a (n + 1)) :
    canRead s.platform a = true ∧ inWindow s.platform a = false := h 0 (by omega)

theorem Reads.mono {s : State} {a n b m : Nat} (h : Reads s a n) (hb : a ≤ b) (hm : b + m ≤ a + n) :
    Reads s b m := by
  intro k hk
  have := h (b - a + k) (by omega)
  rwa [show a + (b - a + k) = b + k by omega] at this

theorem bytesAt_succ (m : Memory) (a n : Nat) :
    bytesAt m a (n + 1) = m.read a :: bytesAt m (a + 1) n := by
  simp only [bytesAt, List.range_succ_eq_map, List.map_cons, List.map_map, Nat.add_zero]
  congr 1
  apply List.map_congr_left
  intro k _
  simp only [Function.comp]
  congr 1
  omega

@[simp] theorem bytesAt_length (m : Memory) (a n : Nat) : (bytesAt m a n).length = n := by
  simp [bytesAt]

/-- A read of readable bytes answers what memory holds. -/
theorem readBytes_of_reads (s : State) (a n : Nat) (h : Reads s a n) :
    readBytes s a n = .ok (bytesAt s.mem a n) := by
  induction n generalizing a with
  | zero => rfl
  | succ n ih =>
    have hb := (portRead_ok s a _).mpr ⟨h.head.1, h.head.2, rfl⟩
    simp [readBytes, hb, ih (a + 1) h.tail, bytesAt_succ]

/-- A read that answers has answered what memory holds. -/
theorem readBytes_ok (s : State) (a n : Nat) (r : List Byte) (h : readBytes s a n = .ok r) :
    Reads s a n ∧ r = bytesAt s.mem a n := by
  induction n generalizing a r with
  | zero =>
    simp only [readBytes, Except.ok.injEq] at h
    exact ⟨fun k hk => absurd hk (by omega), by subst h; rfl⟩
  | succ n ih =>
    simp only [readBytes, attempt_bind_ok, attempt_pure, Except.ok.injEq] at h
    obtain ⟨b, hb, rest, hr, rfl⟩ := h
    obtain ⟨h1, h2, rfl⟩ := (portRead_ok _ _ _).mp hb
    obtain ⟨h3, rfl⟩ := ih _ _ hr
    refine ⟨fun k hk => ?_, (bytesAt_succ _ _ _).symm⟩
    rcases k with _ | k
    · exact ⟨h1, h2⟩
    · have := h3 k (by omega)
      rwa [show a + 1 + k = a + (k + 1) by omega] at this

theorem readNumber_of_reads (s : State) (a n : Nat) (h : Reads s a n) :
    readNumber s a n = .ok (numberAt s.mem a n) := by
  simp [readNumber, readBytes_of_reads s a n h, numberAt]

theorem arrayAt_succ (m : Memory) (a esz n : Nat) :
    arrayAt m a esz (n + 1) = numberAt m a esz :: arrayAt m (a + esz) esz n := by
  simp only [arrayAt, List.range_succ_eq_map, List.map_cons, List.map_map, Nat.zero_mul, Nat.add_zero]
  congr 1
  apply List.map_congr_left
  intro k _
  simp only [Function.comp, Nat.succ_eq_add_one]
  congr 1
  ring

@[simp] theorem arrayAt_length (m : Memory) (a esz n : Nat) : (arrayAt m a esz n).length = n := by
  simp [arrayAt]

/-- A read of a readable array answers the elements that memory holds. -/
theorem readArray_of_reads (s : State) (a esz n : Nat) (h : Reads s a (esz * n)) :
    readArray s esz a n = .ok (arrayAt s.mem a esz n) := by
  induction n generalizing a with
  | zero => rfl
  | succ n ih =>
    have h1 : Reads s a esz := h.mono (le_refl _) (by rw [Nat.mul_succ]; omega)
    have h2 : Reads s (a + esz) (esz * n) := h.mono (by omega) (by rw [Nat.mul_succ]; omega)
    simp [readArray, readNumber_of_reads s a esz h1, ih _ h2, arrayAt_succ]

/-- The write phase goes through where every byte may be written. -/
theorem portWritable_of_writes (s : State) (base len a n : Nat) (h : Writes s a n) :
    portWritable s.platform base len a n = .ok () := by
  induction n generalizing a with
  | zero => rfl
  | succ n ih =>
    have h0 := h 0 (by omega)
    simp only [Nat.add_zero] at h0
    have ht : Writes s (a + 1) n := by
      intro k hk
      have := h (k + 1) (by omega)
      rwa [show a + (k + 1) = a + 1 + k by omega] at this
    simp [portWritable, h0.1, h0.2, ih (a + 1) ht]

/-- Everything the write check can do when it stops: a write fault that names the whole output extent, or
the refusal of the block's own window. -/
theorem portWritable_error (p : Platform) (base len a n : Nat) (e : Stop)
    (h : portWritable p base len a n = .error e) :
    (∃ x, e = .writeFault x base len) ∨ ∃ x, e = .refuse (.ownWindow x) := by
  induction n generalizing a with
  | zero => simp [portWritable] at h
  | succ n ih =>
    rw [portWritable] at h
    split at h
    · simp only [Except.error.injEq] at h; exact .inl ⟨a, h.symm⟩
    · split at h
      · simp only [Except.error.injEq] at h; exact .inr ⟨a, h.symm⟩
      · exact ih _ h

theorem writePhase_of_writes (s : State) (a : Nat) (out : List Byte) (h : Writes s a out.length) :
    writePhase s a out = .ok { s with mem := s.mem.writeBytes a out } := by
  simp [writePhase, portWritable_of_writes s a out.length a out.length h]

theorem writePhase_ok (s : State) (a : Nat) (out : List Byte) (t : State)
    (h : writePhase s a out = .ok t) : t = { s with mem := s.mem.writeBytes a out } := by
  simp only [writePhase, attempt_bind_ok, attempt_pure, Except.ok.injEq] at h
  obtain ⟨_, _, rfl⟩ := h
  rfl

theorem writeOutput_of_writes (s : State) (out : List Byte) (hc : out.length ≤ s.regs.dstcap.toNat)
    (h : Writes s s.regs.dst.toNat out.length) :
    writeOutput s out = .ok { s with mem := s.mem.writeBytes s.regs.dst.toNat out } := by
  have h0 : decide (s.regs.dstcap.toNat < out.length) = false := by simpa using hc
  simp [writeOutput, h0, writePhase_of_writes _ _ _ h]

/-- An output that was written fits its buffer, and nothing but memory has changed. -/
theorem writeOutput_ok (s : State) (out : List Byte) (t : State) (h : writeOutput s out = .ok t) :
    out.length ≤ s.regs.dstcap.toNat ∧ t = { s with mem := s.mem.writeBytes s.regs.dst.toNat out } := by
  simp only [writeOutput, attempt_bind_ok] at h
  obtain ⟨_, h1, h2⟩ := h
  refine ⟨?_, writePhase_ok _ _ _ _ h2⟩
  have := (raiseIf_ok _ _ _).mp h1
  simpa using this

/-! ### Commands -/

/-- A ready block runs the body of a well-formed command. -/
theorem command_ready (i : Instr) (s : State) (body : Attempt State) (hf : s.faulted = false)
    (hw : i.WellFormed) : command i s body = settle s (encode i) body := by
  rw [command, hf, if_neg (by simp), if_pos hw]

/-- A command that completes answers its body's state. -/
theorem command_completes (i : Instr) (s t : State) (body : Attempt State) (hf : s.faulted = false)
    (hw : i.WellFormed) (hb : body = .ok t) : command i s body = .next t := by
  rw [command_ready i s body hf hw, hb]; rfl

/-- A command whose body raises a fault records it. -/
theorem command_raises (i : Instr) (s : State) (body : Attempt State) (c : FaultCode) (n : Nat)
    (hf : s.faulted = false) (hw : i.WellFormed) (hb : body = .error (.raise c n)) :
    command i s body = .next (s.takeFault c n (encode i)) := by
  rw [command_ready i s body hf hw, hb]; rfl

/-- A faulted block ignores a command. -/
theorem command_faulted (i : Instr) (s : State) (body : Attempt State) (hf : s.faulted = true) :
    command i s body = .next s := by
  rw [command, hf]; rfl

/-- Everything a command can do when it answers a next state. -/
theorem command_next (i : Instr) (s t : State) (body : Attempt State) (h : command i s body = .next t) :
    (s.faulted = true ∧ t = s) ∨
    (s.faulted = false ∧ i.WellFormed ∧ body = .ok t) ∨
    (s.faulted = false ∧ ∃ c n, t = s.takeFault c n (encode i) ∧
      (body = .error (.raise c n) ∨ ¬ i.WellFormed)) ∨
    (s.faulted = false ∧ ∃ x base len, t = (s.takeFault .memFault x (encode i)).loseExtent base len ∧
      body = .error (.writeFault x base len)) := by
  rw [command] at h
  split at h
  · rename_i hf
    exact .inl ⟨hf, by simpa using h.symm⟩
  · rename_i hf
    have hf : s.faulted = false := by simpa using hf
    split at h
    · rename_i hw
      match body, h with
      | .ok u, h => exact .inr (.inl ⟨hf, hw, by simp only [settle, Host.Outcome.next.injEq] at h; rw [h]⟩)
      | .error (.raise c n), h =>
        exact .inr (.inr (.inl ⟨hf, c, n, by simpa [settle] using h.symm, .inl rfl⟩))
      | .error (.writeFault x b l), h =>
        exact .inr (.inr (.inr ⟨hf, x, b, l, by simpa [settle] using h.symm, rfl⟩))
      | .error (.refuse r), h => simp [settle] at h
    · rename_i hw
      exact .inr (.inr (.inl ⟨hf, .illegalCmd, _, by simpa using h.symm, .inr hw⟩))

/-- The write check stops at the first byte that may not be written. -/
theorem portWritable_refused (s : State) (base len a n k : Nat) (hk : k < n) (h : Writes s a k)
    (hc : canWrite s.platform (a + k) = false) :
    portWritable s.platform base len a n = .error (.writeFault (a + k) base len) := by
  induction k generalizing a n with
  | zero =>
    obtain ⟨n, rfl⟩ : ∃ m, n = m + 1 := ⟨n - 1, by omega⟩
    rw [Nat.add_zero] at hc
    simp [portWritable, hc]
  | succ k ih =>
    obtain ⟨n, rfl⟩ : ∃ m, n = m + 1 := ⟨n - 1, by omega⟩
    have h0 := h 0 (by omega)
    rw [Nat.add_zero] at h0
    have ht : Writes s (a + 1) k := fun j hj => by
      have := h (j + 1) (by omega)
      rwa [show a + (j + 1) = a + 1 + j by omega] at this
    rw [show a + (k + 1) = a + 1 + k by omega] at hc ⊢
    simp [portWritable, h0.1, h0.2, ih (a + 1) n (by omega) ht hc]

/-- Fault entry as the statements spell it. -/
theorem takeFault_eq (s : State) (c : FaultCode) (n : Nat) (w : Word) :
    s.takeFault c n w = { s with regs := faultRegs s.regs c n w } := rfl

/-- A fault leaves the block faulted. -/
theorem takeFault_faulted (s : State) (c : FaultCode) (n : Nat) (w : Word) :
    (s.takeFault c n w).faulted = true := by
  have h : (s.takeFault c n w).regs.fault = c.number := Regs.withFault_fault s.regs c.number
  rw [State.faulted, h]
  cases c <;> decide

/-- Where a store leads, in the words of the statements. -/
theorem stored_writeBytes (s t : State) (a : Nat) (out : List Byte) (hm : s.mem.wf)
    (ht : t.mem = s.mem.writeBytes a out) : Stored s t a out := by
  intro x
  rw [ht]
  exact Memory.read_writeBytes s.mem a x out hm

/-- A body whose write phase meets a refused byte records it and loses its output. -/
theorem command_losesOutput (i : Instr) (s : State) (x base len : Nat) (body : Attempt State)
    (hr : Ready s) (hw : i.WellFormed) (hb : body = .error (.writeFault x base len))
    (he : exec i s = command i s body) : LosesOutput i s x base len := by
  refine ⟨(s.takeFault .memFault x (encode i)).loseExtent base len, ?_, rfl, ?_, rfl, rfl, rfl, rfl⟩
  · rw [he, command_ready i s body hr.1 hw, hb]; rfl
  · exact stored_writeBytes s _ _ _ hr.2 rfl

/-- A command whose body ends in a write phase of `out` at `a`, after which only registers change, does what
`StoresOutput` says. -/
theorem command_storesOutput (i : Instr) (s : State) (r : Regs) (a : Nat) (out : List Byte)
    (f : State → Attempt State) (hr : Ready s) (hw : i.WellFormed)
    (hf : ∀ m, f { s with mem := m } = .ok { s with regs := r, mem := m })
    (he : exec i s = command i s (writePhase s a out >>= f)) : StoresOutput i s r a out := by
  refine ⟨fun h => ?_, fun k hk h hc => ?_⟩
  · refine ⟨{ s with regs := r, mem := s.mem.writeBytes a out }, ?_, rfl, ?_, rfl, rfl, rfl, rfl⟩
    · rw [he]
      exact command_completes i s _ _ hr.1 hw (by rw [writePhase_of_writes s a out h]; exact hf _)
    · exact stored_writeBytes s _ a out hr.2 rfl
  · refine command_losesOutput i s (a + k) a out.length _ hr hw ?_ he
    simp [writePhase, portWritable_refused s a out.length a out.length k hk h hc]

/-- The same for a command that ends in the capacity check and the write phase at `DST`. -/
theorem command_output (i : Instr) (s : State) (r : Regs) (out : List Byte) (f : State → Attempt State)
    (hr : Ready s) (hw : i.WellFormed) (hcap : out.length ≤ s.regs.dstcap.toNat)
    (hf : ∀ m, f { s with mem := m } = .ok { s with regs := r, mem := m })
    (he : exec i s = command i s (writeOutput s out >>= f)) :
    StoresOutput i s r s.regs.dst.toNat out := by
  refine command_storesOutput i s r _ out f hr hw hf ?_
  have : decide (s.regs.dstcap.toNat < out.length) = false := by simpa using hcap
  simpa [writeOutput, this] using he

end Sys2Proof.Machine
end

