-- ==== Sys2Proof/Laws/Reads.lean ====
section
/-! SUPPORT. What the reading operations can do: how they can end early, which bytes they depend on, and
what they answer from readable memory. -/

namespace Sys2Proof.Machine

/-! ### How a read can end early -/

/-- The computation ends early only by raising a fault, or by the refusal of an own-window byte of
`[lo, hi)` that the platform lets it read. -/
def ReadsWithin {α : Type} (s : State) (lo hi : Nat) (x : Attempt α) : Prop :=
  ∀ e, x = .error e → (∃ c n, e = .raise c n) ∨
    ∃ a, e = .refuse (.ownWindow a) ∧ lo ≤ a ∧ a < hi ∧ inWindow s.platform a = true ∧
      canRead s.platform a = true

theorem ReadsWithin.ok {α : Type} (s : State) (lo hi : Nat) (a : α) :
    ReadsWithin s lo hi (.ok a : Attempt α) := fun e h => by simp at h

theorem ReadsWithin.raise {α : Type} (s : State) (lo hi : Nat) (c : FaultCode) (n : Nat) :
    ReadsWithin s lo hi (.error (.raise c n) : Attempt α) := fun e h => by
  simp only [Except.error.injEq] at h; exact .inl ⟨c, n, h.symm⟩

theorem ReadsWithin.bind {α β : Type} {s : State} {lo hi : Nat} {x : Attempt α} {f : α → Attempt β}
    (hx : ReadsWithin s lo hi x) (hf : ∀ a, x = .ok a → ReadsWithin s lo hi (f a)) :
    ReadsWithin s lo hi (x >>= f) := by
  intro e h
  rcases (attempt_bind_error _ _ _).mp h with h | ⟨a, ha, h⟩
  · exact hx e h
  · exact hf a ha e h

theorem ReadsWithin.raiseIf (s : State) (lo hi : Nat) (b : Bool) (c : FaultCode) (n : Nat) :
    ReadsWithin s lo hi (raiseIf b c n) := by
  cases b
  · exact ReadsWithin.ok _ _ _ _
  · exact ReadsWithin.raise _ _ _ _ _

theorem ReadsWithin.mono {α : Type} {s : State} {lo hi lo' hi' : Nat} {x : Attempt α}
    (h : ReadsWithin s lo hi x) (h1 : lo' ≤ lo) (h2 : hi ≤ hi') : ReadsWithin s lo' hi' x := by
  intro e he
  rcases h e he with h | ⟨a, rfl, h3, h4, h5⟩
  · exact .inl h
  · exact .inr ⟨a, rfl, by omega, by omega, h5⟩

theorem portRead_within (s : State) (lo hi a : Nat) (h1 : lo ≤ a) (h2 : a < hi) :
    ReadsWithin s lo hi (portRead s a) := by
  intro e h
  rw [portRead] at h
  split at h
  · simp only [Except.error.injEq] at h; exact .inl ⟨_, _, h.symm⟩
  · rename_i hr
    split at h
    · rename_i hw
      simp only [Except.error.injEq] at h
      exact .inr ⟨a, h.symm, h1, h2, hw, by simpa using hr⟩
    · simp at h

theorem readBytes_within (s : State) (lo hi a n : Nat) (h1 : lo ≤ a) (h2 : a + n ≤ hi) :
    ReadsWithin s lo hi (readBytes s a n) := by
  induction n generalizing a with
  | zero => exact ReadsWithin.ok _ _ _ _
  | succ n ih =>
    exact (portRead_within s lo hi a h1 (by omega)).bind fun _ _ =>
      (ih (a + 1) (by omega) (by omega)).bind fun _ _ => ReadsWithin.ok _ _ _ _

theorem readNumber_within (s : State) (lo hi a n : Nat) (h1 : lo ≤ a) (h2 : a + n ≤ hi) :
    ReadsWithin s lo hi (readNumber s a n) :=
  (readBytes_within s lo hi a n h1 h2).bind fun _ _ => ReadsWithin.ok _ _ _ _

theorem readArray_within (s : State) (lo hi a esz n : Nat) (h1 : lo ≤ a) (h2 : a + esz * n ≤ hi) :
    ReadsWithin s lo hi (readArray s esz a n) := by
  induction n generalizing a with
  | zero => exact ReadsWithin.ok _ _ _ _
  | succ n ih =>
    rw [Nat.mul_succ] at h2
    exact (readNumber_within s lo hi a esz h1 (by omega)).bind fun _ _ =>
      (ih (a + esz) (by omega) (by omega)).bind fun _ _ => ReadsWithin.ok _ _ _ _

theorem checkRange_within (s : State) (lo hi a n : Nat) : ReadsWithin s lo hi (checkRange a n) :=
  ReadsWithin.raiseIf _ _ _ _ _ _

theorem checkExtents_within (s : State) (lo hi sl : Nat) : ReadsWithin s lo hi (checkExtents s sl) :=
  (checkRange_within _ _ _ _ _).bind fun _ _ => (checkRange_within _ _ _ _ _).bind fun _ _ =>
    ReadsWithin.raiseIf _ _ _ _ _ _

theorem portBit_within (s : State) (lo hi base p : Nat) (h1 : lo ≤ base) (h2 : base + p / 8 < hi) :
    ReadsWithin s lo hi (portBit s base p) :=
  (portRead_within s lo hi _ (by omega) h2).bind fun _ _ => ReadsWithin.ok _ _ _ _

/-- Bit positions below `stop` lie in the bytes of a stream of `stop` bits. -/
theorem bit_byte_lt (base p stop : Nat) (h : p < stop) : base + p / 8 < base + ceilDiv stop 8 := by
  rw [ceilDiv_eight]; omega

theorem portBits_within (s : State) (base stop p n : Nat) (h : p + n ≤ stop) :
    ReadsWithin s base (base + ceilDiv stop 8) (portBits s base p n) := by
  induction n generalizing p with
  | zero => exact ReadsWithin.ok _ _ _ _
  | succ n ih =>
    exact (portBit_within s _ _ base p (le_refl _) (bit_byte_lt base p stop (by omega))).bind fun _ _ =>
      (ih (p + 1) (by omega)).bind fun _ _ => ReadsWithin.ok _ _ _ _

/-! ### Which bytes a read depends on -/

/-- The state with another data memory. -/
abbrev State.withMem (s : State) (m : Memory) : State := { s with mem := m }

theorem bind_congr_ok {α β : Type} {x y : Attempt α} {f g : α → Attempt β} (hx : x = y)
    (hf : ∀ a, y = .ok a → f a = g a) : (x >>= f) = (y >>= g) := by
  subst hx
  cases x with
  | error e => rfl
  | ok a => exact hf a rfl

theorem portRead_congr (s : State) (m : Memory) (a : Nat) (h : s.mem.read a = m.read a) :
    portRead (s.withMem m) a = portRead s a := by
  simp only [portRead]; rw [h]

theorem readBytes_congr (s : State) (m : Memory) (a n : Nat)
    (h : ∀ x, a ≤ x → x < a + n → s.mem.read x = m.read x) :
    readBytes (s.withMem m) a n = readBytes s a n := by
  induction n generalizing a with
  | zero => rfl
  | succ n ih =>
    refine bind_congr_ok (portRead_congr s m a (h a (by omega) (by omega))) fun _ _ => ?_
    rw [ih (a + 1) fun x h1 h2 => h x (by omega) (by omega)]

theorem readNumber_congr (s : State) (m : Memory) (a n : Nat)
    (h : ∀ x, a ≤ x → x < a + n → s.mem.read x = m.read x) :
    readNumber (s.withMem m) a n = readNumber s a n := by
  simp only [readNumber]; rw [readBytes_congr s m a n h]

theorem readArray_congr (s : State) (m : Memory) (esz a n : Nat)
    (h : ∀ x, a ≤ x → x < a + esz * n → s.mem.read x = m.read x) :
    readArray (s.withMem m) esz a n = readArray s esz a n := by
  induction n generalizing a with
  | zero => rfl
  | succ n ih =>
    rw [Nat.mul_succ] at h
    refine bind_congr_ok (readNumber_congr s m a esz fun x h1 h2 => h x h1 (by omega)) fun _ _ => ?_
    rw [ih (a + esz) fun x h1 h2 => h x (by omega) (by omega)]

theorem portBit_congr (s : State) (m : Memory) (base p : Nat)
    (h : s.mem.read (base + p / 8) = m.read (base + p / 8)) :
    portBit (s.withMem m) base p = portBit s base p := by
  simp only [portBit]; rw [portRead_congr s m _ h]

theorem portBits_congr (s : State) (m : Memory) (base stop p n : Nat) (hn : p + n ≤ stop)
    (h : ∀ x, base ≤ x → x < base + ceilDiv stop 8 → s.mem.read x = m.read x) :
    portBits (s.withMem m) base p n = portBits s base p n := by
  induction n generalizing p with
  | zero => rfl
  | succ n ih =>
    refine bind_congr_ok (portBit_congr s m base p
      (h _ (by omega) (bit_byte_lt base p stop (by omega)))) fun _ _ => ?_
    rw [ih (p + 1) (by omega)]

/-! ### What a read of readable memory answers -/

theorem bitsAt_succ (m : Memory) (base p n : Nat) :
    bitsAt m base p (n + 1) = bitAt m base p :: bitsAt m base (p + 1) n := by
  simp only [bitsAt, List.range_succ_eq_map, List.map_cons, List.map_map, Nat.add_zero]
  congr 1
  apply List.map_congr_left
  intro k _
  simp only [Function.comp]
  congr 1
  omega

@[simp] theorem bitsAt_length (m : Memory) (base p n : Nat) : (bitsAt m base p n).length = n := by
  simp [bitsAt]

theorem bitsAt_append (m : Memory) (base p k n : Nat) :
    bitsAt m base p (k + n) = bitsAt m base p k ++ bitsAt m base (p + k) n := by
  induction k generalizing p with
  | zero => simp [bitsAt]
  | succ k ih =>
    rw [Nat.succ_add, bitsAt_succ, ih, bitsAt_succ, List.cons_append]
    congr 3
    omega

theorem bytesAt_append (m : Memory) (a k n : Nat) :
    bytesAt m a (k + n) = bytesAt m a k ++ bytesAt m (a + k) n := by
  induction k generalizing a with
  | zero => simp [bytesAt]
  | succ k ih =>
    rw [Nat.succ_add, bytesAt_succ, ih, bytesAt_succ, List.cons_append]
    congr 3
    omega

theorem ReadsBits.mono {s : State} {base p n q k : Nat} (h : ReadsBits s base p n) (h1 : p ≤ q)
    (h2 : q + k ≤ p + n) : ReadsBits s base q k := by
  intro j hj
  have := h (q - p + j) (by omega)
  rwa [show p + (q - p + j) = q + j by omega] at this

theorem portBit_of_reads (s : State) (base p : Nat) (h : ReadsBits s base p 1) :
    portBit s base p = .ok (bitAt s.mem base p) := by
  have h0 := h 0 (by omega)
  rw [Nat.add_zero] at h0
  simp [portBit, (portRead_ok s _ _).mpr ⟨h0.1, h0.2, rfl⟩, bitAt]

theorem portBits_of_reads (s : State) (base p n : Nat) (h : ReadsBits s base p n) :
    portBits s base p n = .ok (bitsAt s.mem base p n) := by
  induction n generalizing p with
  | zero => rfl
  | succ n ih =>
    simp [portBits, portBit_of_reads s base p (h.mono (le_refl _) (by omega)),
      ih (p + 1) (h.mono (by omega) (by omega)), bitsAt_succ]

end Sys2Proof.Machine
end

