-- ==== Sys2Proof/Laws/Streams.lean ====
section
/-! SUPPORT. What the stream decoders of every unit can do: how they can end early, and which bytes they
depend on. All stay inside their source extent (20_memory.md R81). -/

namespace Sys2Proof.Machine

/-- The memories agree on the `n` bytes at `a`. -/
abbrev Agree (s : State) (m : Memory) (a n : Nat) : Prop :=
  ∀ x, a ≤ x → x < a + n → s.mem.read x = m.read x

theorem raiseIf_guard {b : Bool} {c : FaultCode} {n : Nat} {u : Unit} (h : raiseIf b c n = .ok u) :
    b = false := by
  cases u; exact (raiseIf_ok b c n).mp h

theorem ReadsWithin.guard {α : Type} {s : State} {lo hi : Nat} {b : Bool} {c : FaultCode} {n : Nat}
    {f : Unit → Attempt α} (h : b = false → ReadsWithin s lo hi (f ())) :
    ReadsWithin s lo hi (Machine.raiseIf b c n >>= f) :=
  (ReadsWithin.raiseIf s lo hi b c n).bind fun _ hb => h (raiseIf_guard hb)

theorem guard_congr {α : Type} {b : Bool} {c : FaultCode} {n : Nat} {f g : Unit → Attempt α}
    (h : b = false → f () = g ()) : (raiseIf b c n >>= f) = (raiseIf b c n >>= g) :=
  bind_congr_ok rfl fun _ hb => h (raiseIf_guard hb)

/-! ### Tagged varint -/

theorem tvGetAt_within (s : State) (base len off : Nat) :
    ReadsWithin s base (base + len) (tvGetAt s base len off) := by
  refine ReadsWithin.guard fun h1 => (portRead_within s _ _ _ (by omega) ?_).bind fun first _ =>
    ReadsWithin.guard fun h2 => (readBytes_within s _ _ _ _ (by omega) ?_).bind fun _ _ =>
      ReadsWithin.ok _ _ _ _
  · simp at h1; omega
  · simp at h2; omega

theorem tvGetAt_congr (s : State) (m : Memory) (base len off : Nat) (h : Agree s m base len) :
    tvGetAt (s.withMem m) base len off = tvGetAt s base len off := by
  refine guard_congr fun h1 => bind_congr_ok (portRead_congr s m _ (h _ (by omega) ?_)) fun first _ =>
    guard_congr fun h2 => bind_congr_ok (readBytes_congr s m _ _ fun x h3 h4 => h x (by omega) ?_)
      fun _ _ => rfl
  · simp at h1; omega
  · simp at h2; omega

/-! ### Group varint -/

theorem gvReadWidths_within (s : State) (c : Nat) :
    ReadsWithin s s.regs.src.toNat (s.regs.src.toNat + s.regs.srclen.toNat) (gvReadWidths s c) := by
  refine ReadsWithin.guard fun h1 => (readBytes_within s _ _ _ _ (by omega) ?_).bind fun _ _ =>
    ReadsWithin.ok _ _ _ _
  simp at h1; omega

theorem gvReadWidths_congr (s : State) (m : Memory) (c : Nat)
    (h : Agree s m s.regs.src.toNat s.regs.srclen.toNat) :
    gvReadWidths (s.withMem m) c = gvReadWidths s c := by
  refine guard_congr fun h1 => bind_congr_ok (readBytes_congr s m _ _ fun x h2 h3 =>
    h x ?_ ?_) fun _ _ => rfl
  · dsimp only at h2; omega
  · simp only [decide_eq_false_iff_not] at h1 h3; omega

theorem gvReadField_within (s : State) (off w : Nat) :
    ReadsWithin s s.regs.src.toNat (s.regs.src.toNat + s.regs.srclen.toNat) (gvReadField s off w) := by
  refine ReadsWithin.guard fun h1 => readNumber_within s _ _ _ _ (by omega) ?_
  simp at h1; omega

theorem gvReadField_congr (s : State) (m : Memory) (off w : Nat)
    (h : Agree s m s.regs.src.toNat s.regs.srclen.toNat) :
    gvReadField (s.withMem m) off w = gvReadField s off w := by
  refine guard_congr fun h1 => readNumber_congr s m _ _ fun x h2 h3 => h x ?_ ?_
  · dsimp only at h2; omega
  · simp only [decide_eq_false_iff_not] at h1 h3; omega

theorem gvReadFields_within (s : State) (off : Nat) (ws : List Nat) :
    ReadsWithin s s.regs.src.toNat (s.regs.src.toNat + s.regs.srclen.toNat) (gvReadFields s off ws) := by
  induction ws generalizing off with
  | nil => exact ReadsWithin.ok _ _ _ _
  | cons w ws ih =>
    exact (gvReadField_within s off w).bind fun _ _ => (ih _).bind fun _ _ => ReadsWithin.ok _ _ _ _

theorem gvReadFields_congr (s : State) (m : Memory) (off : Nat) (ws : List Nat)
    (h : Agree s m s.regs.src.toNat s.regs.srclen.toNat) :
    gvReadFields (s.withMem m) off ws = gvReadFields s off ws := by
  induction ws generalizing off with
  | nil => rfl
  | cons w ws ih =>
    refine bind_congr_ok (gvReadField_congr s m off w h) fun _ _ => ?_
    rw [ih]

/-! ### BP128 -/

/-- A computation that touches no memory ends early only by raising. -/
def Pure {α : Type} (x : Attempt α) : Prop := ∀ e, x = .error e → ∃ c n, e = .raise c n

theorem Pure.within {α : Type} {x : Attempt α} (h : Pure x) (s : State) (lo hi : Nat) :
    ReadsWithin s lo hi x := fun e he => .inl (h e he)

theorem prefixSums_pure (width prev k : Nat) (ds : List Nat) : Pure (prefixSums width prev k ds) := by
  induction ds generalizing prev k with
  | nil => intro e h; simp [prefixSums] at h
  | cons d ds ih =>
    intro e h
    simp only [prefixSums, attempt_bind_error, raiseIf_error] at h
    rcases h with ⟨_, rfl⟩ | ⟨_, _, h⟩
    · exact ⟨_, _, rfl⟩
    · rcases h with h | ⟨_, _, h⟩
      · exact ih _ _ e h
      · simp at h

theorem produce_pure (v : Variant) (out xs : List Nat) : Pure (produce v out xs) := by
  intro e h
  simp only [produce, attempt_bind_error] at h
  rcases h with h | ⟨_, _, h⟩
  · rw [blockOutput] at h
    split at h
    · exact prefixSums_pure _ _ _ _ e h
    · simp at h
  · simp at h

theorem checkMonotone_pure (v : Variant) (vs : List Nat) : Pure (checkMonotone v vs) := by
  intro e h
  rw [checkMonotone] at h
  split at h
  · split at h
    · simp only [Except.error.injEq] at h; exact ⟨_, _, h.symm⟩
    · simp at h
  · simp at h

theorem checkNonzero_pure (vs : List Nat) : Pure (checkNonzero vs) := by
  intro e h
  rw [checkNonzero] at h
  split at h
  · simp only [Except.error.injEq] at h; exact ⟨_, _, h.symm⟩
  · simp at h

theorem blockCount_within (s : State) (h off : Nat) :
    ReadsWithin s s.regs.src.toNat (s.regs.src.toNat + s.regs.srclen.toNat) (blockCount s h off) := by
  rw [blockCount]
  split
  · refine ReadsWithin.guard fun h1 => (portRead_within s _ _ _ (by omega) ?_).bind fun _ _ =>
      ReadsWithin.guard fun _ => ReadsWithin.ok _ _ _ _
    simp at h1; omega
  · exact ReadsWithin.ok _ _ _ _

theorem blockCount_congr (s : State) (m : Memory) (h off : Nat)
    (ha : Agree s m s.regs.src.toNat s.regs.srclen.toNat) :
    blockCount (s.withMem m) h off = blockCount s h off := by
  unfold blockCount
  split
  · refine guard_congr fun h1 => bind_congr_ok (portRead_congr s m _ (ha _ ?_ ?_)) fun _ _ => rfl
    · dsimp only; omega
    · simp only [decide_eq_false_iff_not] at h1 ⊢; omega
  · rfl

theorem parseBlock_within (s : State) (v : Variant) (off : Nat) :
    ReadsWithin s s.regs.src.toNat (s.regs.src.toNat + s.regs.srclen.toNat) (parseBlock s v off) := by
  refine ReadsWithin.guard fun h1 => (portRead_within s _ _ _ (by omega) ?_).bind fun _ _ =>
    ReadsWithin.guard fun _ => (blockCount_within s _ _).bind fun _ _ =>
      ReadsWithin.guard fun h2 => (readBytes_within s _ _ _ _ (by omega) ?_).bind fun _ _ =>
        ReadsWithin.ok _ _ _ _
  · simp at h1; omega
  · simp at h2; omega

theorem parseBlock_congr (s : State) (m : Memory) (v : Variant) (off : Nat)
    (h : Agree s m s.regs.src.toNat s.regs.srclen.toNat) :
    parseBlock (s.withMem m) v off = parseBlock s v off := by
  refine guard_congr fun h1 => bind_congr_ok (portRead_congr s m _ (h _ ?_ ?_)) fun _ _ =>
    guard_congr fun _ => bind_congr_ok (blockCount_congr s m _ _ h) fun _ _ =>
      guard_congr fun h2 => bind_congr_ok (readBytes_congr s m _ _ fun x h3 h4 => h x ?_ ?_) fun _ _ => rfl
  · dsimp only; omega
  · simp only [decide_eq_false_iff_not] at h1 ⊢; omega
  · dsimp only at h3; omega
  · simp only [decide_eq_false_iff_not] at h2 h4; omega

theorem decodeBlocks32_within (s : State) (v : Variant) (cap n off : Nat) (out : List Nat) :
    ReadsWithin s s.regs.src.toNat (s.regs.src.toNat + s.regs.srclen.toNat)
      (decodeBlocks32 s v cap n off out) := by
  induction n generalizing off out with
  | zero => exact ReadsWithin.ok _ _ _ _
  | succ n ih =>
    rw [decodeBlocks32]
    split
    · exact ReadsWithin.ok _ _ _ _
    · refine (parseBlock_within s v off).bind fun _ _ => ((produce_pure _ _ _).within _ _ _).bind fun _ _ => ?_
      split
      · exact ReadsWithin.ok _ _ _ _
      · exact ih _ _

theorem decodeBlocks32_congr (s : State) (m : Memory) (v : Variant) (cap n off : Nat) (out : List Nat)
    (h : Agree s m s.regs.src.toNat s.regs.srclen.toNat) :
    decodeBlocks32 (s.withMem m) v cap n off out = decodeBlocks32 s v cap n off out := by
  induction n generalizing off out with
  | zero => rfl
  | succ n ih =>
    unfold decodeBlocks32
    split
    · rfl
    · refine bind_congr_ok (parseBlock_congr s m v off h) fun _ _ => bind_congr_ok rfl fun _ _ => ?_
      split
      · rfl
      · exact ih _ _

theorem decodeBlocks64_within (s : State) (v : Variant) (cap n off owed : Nat) (out : List Nat) :
    ReadsWithin s s.regs.src.toNat (s.regs.src.toNat + s.regs.srclen.toNat)
      (decodeBlocks64 s v cap n off owed out) := by
  induction n generalizing off owed out with
  | zero =>
    rw [decodeBlocks64]
    split
    · exact ReadsWithin.ok _ _ _ _
    · exact ReadsWithin.raise _ _ _ _ _
  | succ n ih =>
    rw [decodeBlocks64]
    split
    · exact ReadsWithin.ok _ _ _ _
    · exact (parseBlock_within s v off).bind fun _ _ => ReadsWithin.guard fun _ => ReadsWithin.guard fun _ =>
        ((produce_pure _ _ _).within _ _ _).bind fun _ _ => ih _ _ _

theorem decodeBlocks64_congr (s : State) (m : Memory) (v : Variant) (cap n off owed : Nat)
    (out : List Nat) (h : Agree s m s.regs.src.toNat s.regs.srclen.toNat) :
    decodeBlocks64 (s.withMem m) v cap n off owed out = decodeBlocks64 s v cap n off owed out := by
  induction n generalizing off owed out with
  | zero => rfl
  | succ n ih =>
    unfold decodeBlocks64
    split
    · rfl
    · exact bind_congr_ok (parseBlock_congr s m v off h) fun _ _ => bind_congr_ok rfl fun _ _ =>
        bind_congr_ok rfl fun _ _ => bind_congr_ok rfl fun _ _ => ih _ _ _

theorem decodeStream32_within (s : State) (v : Variant) :
    ReadsWithin s s.regs.src.toNat (s.regs.src.toNat + s.regs.srclen.toNat) (decodeStream32 s v) := by
  rw [decodeStream32]
  split
  · split
    · exact ReadsWithin.ok _ _ _ _
    · exact (tvGetAt_within s _ _ _).bind fun _ _ => ReadsWithin.guard fun _ => decodeBlocks32_within _ _ _ _ _ _
  · exact decodeBlocks32_within _ _ _ _ _ _

theorem decodeStream32_congr (s : State) (m : Memory) (v : Variant)
    (h : Agree s m s.regs.src.toNat s.regs.srclen.toNat) :
    decodeStream32 (s.withMem m) v = decodeStream32 s v := by
  unfold decodeStream32
  split
  · split
    · rfl
    · exact bind_congr_ok (tvGetAt_congr s m _ _ _ h) fun _ _ => bind_congr_ok rfl fun _ _ =>
        decodeBlocks32_congr s m _ _ _ _ _ h
  · exact decodeBlocks32_congr s m _ _ _ _ _ h

theorem decodeStream64_within (s : State) (v : Variant) :
    ReadsWithin s s.regs.src.toNat (s.regs.src.toNat + s.regs.srclen.toNat) (decodeStream64 s v) := by
  refine (tvGetAt_within s _ _ _).bind fun _ _ => ?_
  split
  · split
    · exact ReadsWithin.ok _ _ _ _
    · exact (tvGetAt_within s _ _ _).bind fun _ _ => ReadsWithin.guard fun _ =>
        decodeBlocks64_within _ _ _ _ _ _ _
  · exact decodeBlocks64_within _ _ _ _ _ _ _

theorem decodeStream64_congr (s : State) (m : Memory) (v : Variant)
    (h : Agree s m s.regs.src.toNat s.regs.srclen.toNat) :
    decodeStream64 (s.withMem m) v = decodeStream64 s v := by
  refine bind_congr_ok (tvGetAt_congr s m _ _ _ h) fun _ _ => ?_
  split
  · split
    · rfl
    · exact bind_congr_ok (tvGetAt_congr s m _ _ _ h) fun _ _ => bind_congr_ok rfl fun _ _ =>
        decodeBlocks64_congr s m _ _ _ _ _ _ h
  · exact decodeBlocks64_congr s m _ _ _ _ _ _ h

theorem decodeStream_within (s : State) (v : Variant) :
    ReadsWithin s s.regs.src.toNat (s.regs.src.toNat + s.regs.srclen.toNat) (decodeStream s v) := by
  rw [decodeStream]
  split
  · exact decodeStream64_within s v
  · exact decodeStream32_within s v

theorem decodeStream_congr (s : State) (m : Memory) (v : Variant)
    (h : Agree s m s.regs.src.toNat s.regs.srclen.toNat) :
    decodeStream (s.withMem m) v = decodeStream s v := by
  unfold decodeStream
  split
  · exact decodeStream64_congr s m v h
  · exact decodeStream32_congr s m v h

/-! ### Elias -/

theorem zeroRun_within (s : State) (base stop limit pos : Nat) :
    ReadsWithin s base (base + ceilDiv stop 8) (zeroRun s base stop limit pos) := by
  induction limit generalizing pos with
  | zero => exact ReadsWithin.ok _ _ _ _
  | succ n ih =>
    rw [zeroRun]
    split
    · exact ReadsWithin.ok _ _ _ _
    · rename_i h
      refine (portBit_within s _ _ base pos (le_refl _) (bit_byte_lt base pos stop (by omega))).bind
        fun _ _ => ?_
      split
      · exact ReadsWithin.ok _ _ _ _
      · exact (ih _).bind fun _ _ => ReadsWithin.ok _ _ _ _

theorem zeroRun_congr (s : State) (m : Memory) (base stop limit pos : Nat)
    (h : Agree s m base (ceilDiv stop 8)) :
    zeroRun (s.withMem m) base stop limit pos = zeroRun s base stop limit pos := by
  induction limit generalizing pos with
  | zero => rfl
  | succ n ih =>
    unfold zeroRun
    split
    · rfl
    · rename_i hp
      refine bind_congr_ok (portBit_congr s m base pos
        (h _ (by omega) (bit_byte_lt base pos stop (by omega)))) fun _ _ => ?_
      split
      · rfl
      · rw [ih]

theorem gammaDecode_within (s : State) (base stop wmax pos : Nat) :
    ReadsWithin s base (base + ceilDiv stop 8) (gammaDecode s base stop wmax pos) := by
  refine (zeroRun_within s base stop wmax pos).bind fun r _ => ?_
  rcases r with _ | z
  · exact ReadsWithin.ok _ _ _ _
  · simp only
    split
    · exact ReadsWithin.ok _ _ _ _
    · exact (portBits_within s base stop _ _ (by omega)).bind fun _ _ => ReadsWithin.ok _ _ _ _

theorem gammaDecode_congr (s : State) (m : Memory) (base stop wmax pos : Nat)
    (h : Agree s m base (ceilDiv stop 8)) :
    gammaDecode (s.withMem m) base stop wmax pos = gammaDecode s base stop wmax pos := by
  refine bind_congr_ok (zeroRun_congr s m base stop wmax pos h) fun r _ => ?_
  rcases r with _ | z
  · rfl
  · simp only
    split
    · rfl
    · rw [portBits_congr s m base stop _ _ (by omega) h]

theorem deltaDecode_within (s : State) (base stop wmax pos : Nat) :
    ReadsWithin s base (base + ceilDiv stop 8) (deltaDecode s base stop wmax pos) := by
  refine (gammaDecode_within s base stop 64 pos).bind fun r _ => ?_
  rcases r with _ | ⟨len, q⟩
  · exact ReadsWithin.ok _ _ _ _
  · simp only
    split
    · exact ReadsWithin.ok _ _ _ _
    · split
      · exact ReadsWithin.ok _ _ _ _
      · exact (portBits_within s base stop _ _ (by omega)).bind fun _ _ => ReadsWithin.ok _ _ _ _

theorem deltaDecode_congr (s : State) (m : Memory) (base stop wmax pos : Nat)
    (h : Agree s m base (ceilDiv stop 8)) :
    deltaDecode (s.withMem m) base stop wmax pos = deltaDecode s base stop wmax pos := by
  refine bind_congr_ok (gammaDecode_congr s m base stop 64 pos h) fun r _ => ?_
  rcases r with _ | ⟨len, q⟩
  · rfl
  · simp only
    split
    · rfl
    · split
      · rfl
      · rw [portBits_congr s m base stop _ _ (by omega) h]

theorem codeDecode_within (s : State) (c : Code) (base stop wmax pos : Nat) :
    ReadsWithin s base (base + ceilDiv stop 8) (c.decode s base stop wmax pos) := by
  cases c
  · exact gammaDecode_within s base stop wmax pos
  · exact deltaDecode_within s base stop wmax pos

theorem codeDecode_congr (s : State) (m : Memory) (c : Code) (base stop wmax pos : Nat)
    (h : Agree s m base (ceilDiv stop 8)) :
    c.decode (s.withMem m) base stop wmax pos = c.decode s base stop wmax pos := by
  cases c
  · exact gammaDecode_congr s m base stop wmax pos h
  · exact deltaDecode_congr s m base stop wmax pos h

theorem decodeCodes_within (s : State) (c : Code) (base stop wmax n pos : Nat) :
    ReadsWithin s base (base + ceilDiv stop 8) (decodeCodes s c base stop wmax n pos) := by
  induction n generalizing pos with
  | zero => exact ReadsWithin.ok _ _ _ _
  | succ n ih =>
    rw [decodeCodes]
    split
    · exact ReadsWithin.ok _ _ _ _
    · refine (codeDecode_within s c base stop wmax pos).bind fun r _ => ?_
      rcases r with _ | ⟨v, q⟩
      · exact ReadsWithin.ok _ _ _ _
      · exact (ih q).bind fun _ _ => ReadsWithin.ok _ _ _ _

theorem decodeCodes_congr (s : State) (m : Memory) (c : Code) (base stop wmax n pos : Nat)
    (h : Agree s m base (ceilDiv stop 8)) :
    decodeCodes (s.withMem m) c base stop wmax n pos = decodeCodes s c base stop wmax n pos := by
  induction n generalizing pos with
  | zero => rfl
  | succ n ih =>
    unfold decodeCodes
    split
    · rfl
    · refine bind_congr_ok (codeDecode_congr s m c base stop wmax pos h) fun r _ => ?_
      rcases r with _ | ⟨v, q⟩
      · rfl
      · simp only
        rw [ih]

/-! ### Digits -/

theorem digitRun_within (s : State) (lo hi a n : Nat) (h1 : lo ≤ a) (h2 : a + n ≤ hi) :
    ReadsWithin s lo hi (digitRun s a n) := by
  induction n generalizing a with
  | zero => exact ReadsWithin.ok _ _ _ _
  | succ n ih =>
    refine (portRead_within s lo hi a h1 (by omega)).bind fun b _ => ?_
    simp only
    split
    · exact ReadsWithin.ok _ _ _ _
    · exact (ih (a + 1) (by omega) (by omega)).bind fun _ _ => ReadsWithin.ok _ _ _ _

theorem digitRun_congr (s : State) (m : Memory) (a n : Nat) (h : Agree s m a n) :
    digitRun (s.withMem m) a n = digitRun s a n := by
  induction n generalizing a with
  | zero => rfl
  | succ n ih =>
    refine bind_congr_ok (portRead_congr s m a (h a (by omega) (by omega))) fun b _ => ?_
    simp only
    split
    · rfl
    · rw [ih (a + 1) fun x h1 h2 => h x (by omega) (by omega)]

end Sys2Proof.Machine
end

