-- ==== Sys2Proof/Laws/Effects.lean ====
section
/-! SUPPORT. Everything a command can do, said once: how its body can end, which registers it may write,
where it may store, and that two memories that agree on its source extent lead it to the same end. -/

namespace Sys2Proof.Machine

/-- `n` bytes at `a` lie in the extent, and the extent in the address space. -/
abbrev Inside (a n : Nat) (extent : Nat × Nat) : Prop :=
  extent.1 ≤ a ∧ a + n ≤ extent.1 + extent.2 ∧ InSpace extent.1 extent.2

/-- An output of `n` bytes at `a` starts where the command's output does, inside its destination extent. -/
abbrev OutputAt (i : Instr) (s : State) (a n : Nat) : Prop :=
  a = outputBase i s ∧ Inside a n (destExtent i s)

/-- The ways a command's body can end early. -/
def EarlyEnd (i : Instr) (s : State) (e : Stop) : Prop :=
  (∃ c n, e = .raise c n) ∨
  (∃ x a n, e = .writeFault x a n ∧ OutputAt i s a n ∧ a ≤ x ∧ x < a + n ∧
    canWrite s.platform x = false ∧ ∀ j, a ≤ j → j < x → canWrite s.platform j = true) ∨
  (∃ a, e = .refuse (.ownWindow a) ∧ inWindow s.platform a = true ∧
    (canRead s.platform a = true ∨ canWrite s.platform a = true) ∧
    (Within a (sourceExtent i s) ∨ Within a (destExtent i s)))

/-- The registers a completing command may write (30_encoding.md R97): from `r` to `r'`. (`SYS.CLRF` and
`SYS.RESET` do not take the common form of a command, and `exec_next` has their effect.) -/
def RegsMay (i : Instr) (r r' : Regs) : Prop :=
  match i with
  | .sysNop => r' = r
  | .bpEnc32 | .bpEncd32 | .bpEnc64 | .bpEncd64 =>
    r' = { r with res := r'.res, metaCount := r'.metaCount, metaBlocks := r'.metaBlocks,
                  metaBytes := r'.metaBytes, metaLast := r'.metaLast, metaMaxbw := r'.metaMaxbw }
  | .egEnc32 | .egEnc64 | .edEnc32 | .edEnc64 =>
    r' = { r with res := r'.res, metaCount := r'.metaCount, metaBits := r'.metaBits,
                  metaBytes := r'.metaBytes }
  | .bwWrite _ | .egPut | .edPut => r' = { r with res := r'.res, bwPos := r'.bwPos }
  | .brRead _ => ∃ b, r' = { r.withMalf b with res := r'.res, brPos := r'.brPos }
  | .egGet | .edGet =>
    ∃ b, r' = { r.withMalf b with res := r'.res, res2 := r'.res2, brPos := r'.brPos }
  | .egDec32 | .egDec64 | .edDec32 | .edDec64 =>
    ∃ b, r' = { r.withMalf b with res := r'.res, res2 := r'.res2 }
  | .accClr _ => ∃ n m, r' = { ((r.withOvf false).withNeg n).withMode m with acc := 0, accNdig := 0 }
  | .accDigit _ =>
    (∃ b, (r.ovf = true → b = true) ∧ r' = { r.withOvf b with acc := r'.acc, accNdig := r'.accNdig }) ∧
    (r.acc.toNat ≤ r.accLimit → r'.acc.toNat ≤ r.accLimit)
  | .accStr =>
    (∃ b, (r.ovf = true → b = true) ∧
      r' = { r.withOvf b with res := r'.res, res2 := r'.res2, acc := r'.acc, accNdig := r'.accNdig }) ∧
    (r.acc.toNat ≤ r.accLimit → r'.acc.toNat ≤ r.accLimit)
  | .fwPut _ | .tvPut | .tvLen | .gvEnc | .gvSize
  | .bpSize32 | .bpSized32 | .bpSize64 | .bpSized64 | .bpBenef32 | .bpBenefd32 | .bpBenef64 | .bpBenefd64
  | .bpSorted32 | .bpSorted64 | .brMore _ | .egBits | .edBits | .accClass => r' = { r with res := r'.res }
  | .sysClrf | .sysReset | .fwGet _ | .wsel | .tvGet | .gvDec | .gvGetf
  | .bpDec32 | .bpDecd32 | .bpDec64 | .bpDecd64 | .bpMaxb32 | .bpMaxbd32 | .bpMaxb64 | .bpMaxbd64 =>
    r' = { r with res := r'.res, res2 := r'.res2 }

/-- What the body of a command comes to on two memories: the same early end, or the same registers and the
same bytes stored at the same place inside the destination extent. -/
def Twin (i : Instr) (s : State) (m : Memory) (x y : Attempt State) : Prop :=
  (∃ e, x = .error e ∧ y = .error e ∧ EarlyEnd i s e) ∨
  (∃ r a out, x = .ok { s with regs := r, mem := s.mem.writeBytes a out } ∧
    y = .ok { s with regs := r, mem := m.writeBytes a out } ∧ RegsMay i s.regs r ∧
    (out = [] ∨ OutputAt i s a out.length))

theorem Twin.bind {α : Type} {i : Instr} {s : State} {m : Memory} {x y : Attempt α}
    {f g : α → Attempt State} (hxy : y = x) (he : ∀ e, x = .error e → EarlyEnd i s e)
    (hf : ∀ a, x = .ok a → Twin i s m (f a) (g a)) : Twin i s m (x >>= f) (y >>= g) := by
  subst hxy
  cases h : y with
  | error e => exact .inl ⟨e, rfl, rfl, he e h⟩
  | ok a => exact hf a h

/-- A part that reads inside the source extent. -/
theorem Twin.read {α : Type} {i : Instr} {s : State} {m : Memory} {x y : Attempt α}
    {f g : α → Attempt State} (hxy : y = x)
    (hx : ReadsWithin s (sourceExtent i s).1 ((sourceExtent i s).1 + (sourceExtent i s).2) x)
    (hf : ∀ a, x = .ok a → Twin i s m (f a) (g a)) : Twin i s m (x >>= f) (y >>= g) :=
  Twin.bind hxy (fun e h => (hx e h).imp id fun ⟨a, h1, h2, h3, h4, h5⟩ =>
    .inr ⟨a, h1, h4, .inl h5, .inl ⟨h2, h3⟩⟩) hf

/-- A check that touches no memory. -/
theorem Twin.check {i : Instr} {s : State} {m : Memory} {b : Bool} {c : FaultCode} {n : Nat}
    {f g : Unit → Attempt State} (hf : b = false → Twin i s m (f ()) (g ())) :
    Twin i s m (raiseIf b c n >>= f) (raiseIf b c n >>= g) :=
  Twin.bind rfl (fun _ h => .inl ⟨c, n, ((raiseIf_error _ _ _ _).mp h).2⟩) fun _ h => hf (raiseIf_guard h)

theorem Twin.range {i : Instr} {s : State} {m : Memory} {a n : Nat} {f g : Unit → Attempt State}
    (hf : InSpace a n → Twin i s m (f ()) (g ())) :
    Twin i s m (checkRange a n >>= f) (checkRange a n >>= g) :=
  Twin.bind rfl (fun _ h => .inl ⟨_, _, ((checkRange_error _ _ _).mp h).2⟩) fun u h => by
    cases u; exact hf ((checkRange_ok _ _).mp h)

theorem Twin.extents {i : Instr} {s : State} {m : Memory} {n : Nat} {f g : Unit → Attempt State}
    (hf : InSpace s.regs.dst.toNat s.regs.dstcap.toNat → Twin i s m (f ()) (g ())) :
    Twin i s m (checkExtents s n >>= f) (checkExtents (s.withMem m) n >>= g) :=
  Twin.bind rfl (fun e h => by
    simp only [checkExtents, attempt_bind_error] at h
    rcases h with h | ⟨_, _, h | ⟨_, _, h⟩⟩
    · exact .inl ⟨_, _, ((checkRange_error _ _ _).mp h).2⟩
    · exact .inl ⟨_, _, ((checkRange_error _ _ _).mp h).2⟩
    · exact .inl ⟨_, _, ((checkOverlap_error _ _ _ _ _).mp h).2⟩) fun u h => by
    cases u; exact hf ((checkExtents_ok _ _).mp h).2.1

/-- A completion that stores nothing. -/
theorem Twin.done {i : Instr} {s : State} {m : Memory} {r : Regs} (h : RegsMay i s.regs r) :
    Twin i s m (.ok { s with regs := r }) (.ok { s.withMem m with regs := r }) :=
  .inr ⟨r, 0, [], rfl, rfl, h, .inl rfl⟩

theorem portWritable_ends {i : Instr} {s : State} {base len : Nat} (hd : OutputAt i s base len)
    (a n : Nat) (h1 : base ≤ a) (h2 : a + n ≤ base + len)
    (h0 : ∀ j, base ≤ j → j < a → canWrite s.platform j = true) (e : Stop)
    (h : portWritable s.platform base len a n = .error e) : EarlyEnd i s e := by
  induction n generalizing a with
  | zero => simp [portWritable] at h
  | succ n ih =>
    rw [portWritable] at h
    split at h
    · rename_i hw
      simp only [Except.error.injEq] at h
      exact .inr (.inl ⟨a, base, len, h.symm, hd, h1, by omega, by simpa using hw, h0⟩)
    · rename_i hw
      split at h
      · rename_i hin
        simp only [Except.error.injEq] at h
        refine .inr (.inr ⟨a, h.symm, hin, .inr (by simpa using hw), .inr ⟨?_, ?_⟩⟩)
        · have := hd.2.1; omega
        · have := hd.2.2.1; omega
      · refine ih (a + 1) (by omega) (by omega) (fun j hj hj' => ?_) h
        rcases Nat.lt_or_ge j a with hja | hja
        · exact h0 j hj hja
        · rw [show j = a by omega]; simpa using hw

/-- A write phase inside the destination extent, and the registers written after it. -/
theorem Twin.write {i : Instr} {s : State} {m : Memory} {a : Nat} {out : List Byte} {r : Regs}
    {f g : State → Attempt State} (hd : out = [] ∨ OutputAt i s a out.length)
    (hr : RegsMay i s.regs r) (hf : ∀ q, f { s with mem := q } = .ok { s with regs := r, mem := q })
    (hg : ∀ q, g { s with mem := q } = .ok { s with regs := r, mem := q }) :
    Twin i s m (writePhase s a out >>= f) (writePhase (s.withMem m) a out >>= g) := by
  cases h : portWritable s.platform a out.length a out.length with
  | error e =>
    refine .inl ⟨e, ?_, ?_, ?_⟩
    · simp [writePhase, h]
    · simp [writePhase, h]
    · rcases hd with rfl | hd
      · simp [portWritable] at h
      · exact portWritable_ends hd a out.length (le_refl _) (le_refl _) (fun j h1 h2 => absurd h2 (by omega)) e h
  | ok u =>
    refine .inr ⟨r, a, out, ?_, ?_, hr, hd⟩
    · simp [writePhase, h, hf]
    · simp [writePhase, h, hg]

/-- The end of a command that stores an output at `DST`. -/
theorem Twin.output {i : Instr} {s : State} {m : Memory} {out : List Byte} {r : Regs}
    {f g : State → Attempt State}
    (he : appendedBits i s = none ∧ destExtent i s = (s.regs.dst.toNat, s.regs.dstcap.toNat))
    (hs : InSpace s.regs.dst.toNat s.regs.dstcap.toNat)
    (hr : RegsMay i s.regs r) (hf : ∀ q, f { s with mem := q } = .ok { s with regs := r, mem := q })
    (hg : ∀ q, g { s with mem := q } = .ok { s with regs := r, mem := q }) :
    Twin i s m (writeOutput s out >>= f) (writeOutput (s.withMem m) out >>= g) := by
  cases hb : decide (s.regs.dstcap.toNat < out.length) with
  | true =>
    refine .inl ⟨.raise .dstOverrun out.length, ?_, ?_, .inl ⟨_, _, rfl⟩⟩ <;> simp [writeOutput, hb]
  | false =>
    have h1 : writeOutput s out = writePhase s s.regs.dst.toNat out := by simp [writeOutput, hb]
    have h2 : writeOutput (s.withMem m) out = writePhase (s.withMem m) s.regs.dst.toNat out := by
      simp [writeOutput, hb]
    rw [h1, h2]
    refine Twin.write (.inr ?_) hr hf hg
    simp only [decide_eq_false_iff_not] at hb
    rw [OutputAt, outputBase, he.1, he.2]
    exact ⟨rfl, le_refl _, by show _ ≤ _ + _; omega, hs⟩

/-- What `exec` comes to, from what the body comes to. -/
theorem command_twin (i : Instr) (s : State) (m : Memory) (x y : Attempt State) (h : Twin i s m x y) :
    (s.faulted = true ∧ command i s x = .next s ∧ command i (s.withMem m) y = .next (s.withMem m)) ∨
    (s.faulted = false ∧ ∃ c n, command i s x = .next (s.takeFault c n (encode i)) ∧
      command i (s.withMem m) y = .next ((s.withMem m).takeFault c n (encode i))) ∨
    (s.faulted = false ∧ ∃ a b n, OutputAt i s b n ∧ b ≤ a ∧ a < b + n ∧
      canWrite s.platform a = false ∧ (∀ j, b ≤ j → j < a → canWrite s.platform j = true) ∧
      command i s x = .next ((s.takeFault .memFault a (encode i)).loseExtent b n) ∧
      command i (s.withMem m) y = .next (((s.withMem m).takeFault .memFault a (encode i)).loseExtent b n)) ∨
    (s.faulted = false ∧ ∃ a, inWindow s.platform a = true ∧
      (canRead s.platform a = true ∨ canWrite s.platform a = true) ∧
      (Within a (sourceExtent i s) ∨ Within a (destExtent i s)) ∧
      command i s x = .refused (.ownWindow a) ∧ command i (s.withMem m) y = .refused (.ownWindow a)) ∨
    (s.faulted = false ∧ ∃ r a out, RegsMay i s.regs r ∧ (out = [] ∨ OutputAt i s a out.length) ∧
      command i s x = .next { s with regs := r, mem := s.mem.writeBytes a out } ∧
      command i (s.withMem m) y = .next { s with regs := r, mem := m.writeBytes a out }) := by
  have hfm : (s.withMem m).faulted = s.faulted := rfl
  cases hf : s.faulted with
  | true => exact .inl ⟨rfl, by simp [command, hf], by simp [command, hfm, hf]⟩
  | false =>
    by_cases hw : i.WellFormed
    · have e1 : command i s x = settle s (encode i) x := by simp [command, hf, hw]
      have e2 : command i (s.withMem m) y = settle (s.withMem m) (encode i) y := by simp [command, hfm, hf, hw]
      rw [e1, e2]
      rcases h with ⟨e, rfl, rfl, ⟨c, n, rfl⟩ | ⟨a, b, n, rfl, h1, h2, h3, h4, h5⟩ | ⟨a, rfl, h1, h2, h3⟩⟩ |
        ⟨r, a, out, rfl, rfl, h1, h2⟩
      · exact .inr (.inl ⟨rfl, c, n, rfl, rfl⟩)
      · exact .inr (.inr (.inl ⟨rfl, a, b, n, h1, h2, h3, h4, h5, rfl, rfl⟩))
      · exact .inr (.inr (.inr (.inl ⟨rfl, a, h1, h2, h3, rfl, rfl⟩)))
      · exact .inr (.inr (.inr (.inr ⟨rfl, r, a, out, h1, h2, rfl, rfl⟩)))
    · exact .inr (.inl ⟨rfl, .illegalCmd, (encode i).toNat, by simp [command, hf, hw], by simp [command, hfm, hf, hw]⟩)

end Sys2Proof.Machine
end

