-- ==== Sys2Proof/Laws/Exec.lean ====
section
/-! SUPPORT. What each command can do: `exec_does` says once, for every instruction, every way it can end. -/

namespace Sys2Proof.Machine

/-- The memory agrees with the state's on everything the command may read. -/
abbrev AgreesFor (i : Instr) (s : State) (m : Memory) : Prop :=
  Agree s m (sourceExtent i s).1 (sourceExtent i s).2 ∧
  (appendedBits i s ≠ none →
    s.mem.read (s.regs.bwBase.toNat + s.regs.bwPos.toNat / 8)
      = m.read (s.regs.bwBase.toNat + s.regs.bwPos.toNat / 8))

/-- All that a command can do, on a state and on the same state with another memory that agrees with it where
the command reads: ignore, record a fault, record a write fault and lose its output, be refused at the own
window, or complete. -/
def Does (i : Instr) (s : State) (m : Memory) (x y : Host.Outcome State Fault Refusal) : Prop :=
  (s.faulted = true ∧ x = .next s ∧ y = .next (s.withMem m)) ∨
  (s.faulted = false ∧ ∃ c n, x = .next (s.takeFault c n (encode i)) ∧
    y = .next ((s.withMem m).takeFault c n (encode i))) ∨
  (s.faulted = false ∧ ∃ a b n, OutputAt i s b n ∧ b ≤ a ∧ a < b + n ∧
    canWrite s.platform a = false ∧ (∀ j, b ≤ j → j < a → canWrite s.platform j = true) ∧
    x = .next ((s.takeFault .memFault a (encode i)).loseExtent b n) ∧
    y = .next (((s.withMem m).takeFault .memFault a (encode i)).loseExtent b n)) ∨
  (s.faulted = false ∧ ∃ a, inWindow s.platform a = true ∧
    (canRead s.platform a = true ∨ canWrite s.platform a = true) ∧
    (Within a (sourceExtent i s) ∨ Within a (destExtent i s)) ∧
    x = .refused (.ownWindow a) ∧ y = .refused (.ownWindow a)) ∨
  (s.faulted = false ∧ ∃ r a out, RegsMay i s.regs r ∧ (out = [] ∨ OutputAt i s a out.length) ∧
    x = .next { s with regs := r, mem := s.mem.writeBytes a out } ∧
    y = .next { s with regs := r, mem := m.writeBytes a out })

/-! ### Fixed width, varints -/

theorem execFwPut_does (imm : BitVec 8) (s : State) (m : Memory) :
    Does (.fwPut imm) s m (execFwPut imm s) (execFwPut imm (s.withMem m)) :=
  command_twin _ _ _ _ _ (Twin.range fun h => Twin.output (r := { s.regs with res := word imm.toNat })
    ⟨rfl, rfl⟩ h rfl (fun _ => rfl) (fun _ => rfl))

theorem execFwGet_does (imm : BitVec 8) (s : State) (m : Memory) (h : AgreesFor (.fwGet imm) s m) :
    Does (.fwGet imm) s m (execFwGet imm s) (execFwGet imm (s.withMem m)) := by
  refine command_twin _ _ _ _ _ (Twin.range fun _ => Twin.check fun h1 => Twin.read
    (readNumber_congr s m _ _ fun x h2 h3 => h.1 x h2 ?_)
    (readNumber_within s _ _ _ _ (le_refl _) ?_) fun v _ => Twin.done rfl)
  · simp only [decide_eq_false_iff_not] at h1
    change x < s.regs.src.toNat + imm.toNat at h3
    show x < s.regs.src.toNat + s.regs.srclen.toNat
    omega
  · simp only [decide_eq_false_iff_not] at h1
    show _ ≤ s.regs.src.toNat + s.regs.srclen.toNat
    omega

theorem execTvPut_does (s : State) (m : Memory) :
    Does .tvPut s m (execTvPut s) (execTvPut (s.withMem m)) :=
  command_twin _ _ _ _ _ (Twin.range fun h => Twin.output
    (r := { s.regs with res := word (tvEncode s.regs.arg.toNat).length }) ⟨rfl, rfl⟩ h rfl (fun _ => rfl)
    (fun _ => rfl))

theorem execTvGet_does (s : State) (m : Memory) (h : AgreesFor .tvGet s m) :
    Does .tvGet s m (execTvGet s) (execTvGet (s.withMem m)) :=
  command_twin _ _ _ _ _ (Twin.range fun _ => Twin.read (tvGetAt_congr s m _ _ _ h.1)
    (tvGetAt_within s _ _ _) fun _ _ => Twin.done rfl)

theorem execGvEnc_does (s : State) (m : Memory) (h : AgreesFor .gvEnc s m) :
    Does .gvEnc s m (execGvEnc s) (execGvEnc (s.withMem m)) := by
  refine command_twin _ _ _ _ _ ?_
  dsimp only
  split
  · exact Twin.done rfl
  · exact Twin.extents fun hs => Twin.read (readArray_congr s m _ _ _ h.1)
      (readArray_within s _ _ _ _ _ (le_refl _) (le_refl _)) fun vs _ =>
        Twin.output (r := { s.regs with res := word (gvEncode vs).length }) ⟨rfl, rfl⟩ hs rfl (fun _ => rfl)
          (fun _ => rfl)

theorem execGvDec_does (s : State) (m : Memory) (h : AgreesFor .gvDec s m) :
    Does .gvDec s m (execGvDec s) (execGvDec (s.withMem m)) := by
  refine command_twin _ _ _ _ _ (Twin.extents fun hs => Twin.check fun h1 => ?_)
  simp only [decide_eq_false_iff_not, not_lt] at h1
  refine Twin.read (portRead_congr s m _ (h.1 _ (le_refl _) ?_)) (portRead_within s _ _ _ (le_refl _) ?_)
    fun first _ => ?_
  · show s.regs.src.toNat < s.regs.src.toNat + s.regs.srclen.toNat; omega
  · show s.regs.src.toNat < s.regs.src.toNat + s.regs.srclen.toNat; omega
  dsimp only
  split
  · exact Twin.done rfl
  · exact Twin.read (gvReadWidths_congr s m _ h.1) (gvReadWidths_within s _) fun ws _ =>
      Twin.read (gvReadFields_congr s m _ _ h.1) (gvReadFields_within s _ _) fun _ _ =>
        Twin.output (r := { s.regs with
          res := word (min first.toNat s.regs.cnt.toNat), res2 := word (gvOffset ws first.toNat) })
          ⟨rfl, rfl⟩ hs rfl (fun _ => rfl) (fun _ => rfl)

theorem execGvGetf_does (s : State) (m : Memory) (h : AgreesFor .gvGetf s m) :
    Does .gvGetf s m (execGvGetf s) (execGvGetf (s.withMem m)) := by
  refine command_twin _ _ _ _ _ (Twin.range fun hs => Twin.check fun h1 => ?_)
  simp only [decide_eq_false_iff_not, not_lt] at h1
  refine Twin.read (portRead_congr s m _ (h.1 _ (le_refl _) ?_)) (portRead_within s _ _ _ (le_refl _) ?_)
    fun first _ => ?_
  · show s.regs.src.toNat < s.regs.src.toNat + s.regs.srclen.toNat; omega
  · show s.regs.src.toNat < s.regs.src.toNat + s.regs.srclen.toNat; omega
  dsimp only
  split
  · exact Twin.done rfl
  · exact Twin.read (gvReadWidths_congr s m _ h.1) (gvReadWidths_within s _) fun _ _ =>
      Twin.read (gvReadField_congr s m _ _ h.1) (gvReadField_within s _ _) fun _ _ => Twin.done rfl

theorem execGvSize_does (s : State) (m : Memory) (h : AgreesFor .gvSize s m) :
    Does .gvSize s m (execGvSize s) (execGvSize (s.withMem m)) := by
  refine command_twin _ _ _ _ _ ?_
  dsimp only
  split
  · exact Twin.done rfl
  · exact Twin.range fun hs => Twin.read (readArray_congr s m _ _ _ h.1)
      (readArray_within s _ _ _ _ _ (le_refl _) (le_refl _)) fun _ _ => Twin.done rfl

/-! ### BP128 -/

/-- A computation that touches no memory, in a command's body. -/
theorem Twin.pure {α : Type} {i : Instr} {s : State} {m : Memory} {x : Attempt α}
    {f g : α → Attempt State} (hx : Pure x) (hf : ∀ a, x = .ok a → Twin i s m (f a) (g a)) :
    Twin i s m (x >>= f) (x >>= g) :=
  Twin.bind rfl (fun e h => .inl (hx e h)) hf

theorem bpEncode_does (i : Instr) (v : Variant) (s : State) (m : Memory) (hi : (i, v) ∈ bpEncoders)
    (h : AgreesFor i s m) : Does i s m (bpEncode i v s) (bpEncode i v (s.withMem m)) := by
  have hsrc : sourceExtent i s = (s.regs.src.toNat, v.esz * s.regs.cnt.toNat) := by
    fin_cases hi <;> rfl
  have hdst : appendedBits i s = none ∧ destExtent i s = (s.regs.dst.toNat, s.regs.dstcap.toNat) := by
    fin_cases hi <;> exact ⟨rfl, rfl⟩
  rw [AgreesFor, hsrc] at h
  refine command_twin _ _ _ _ _ (Twin.extents fun hs => Twin.read (readArray_congr s m _ _ _ h.1) ?_
    fun vs _ => Twin.pure (checkMonotone_pure v vs) fun _ _ => ?_)
  · rw [hsrc]; exact readArray_within s _ _ _ _ _ (le_refl _) (le_refl _)
  · refine Twin.output (r := { s.regs with
      res := word (bpStream v vs).length
      metaCount := word vs.length
      metaBlocks := word (ceilDiv (blockValues v vs).length Config.blockLen)
      metaBytes := word (bpStream v vs).length
      metaLast := word (lastBlockSize (blockValues v vs).length)
      metaMaxbw := word (((splitBlocks (blockValues v vs)).map blockWidth).foldl max 0) })
      hdst hs ?_ (fun _ => rfl) (fun _ => rfl)
    fin_cases hi <;> rfl

theorem bpDecode_does (i : Instr) (v : Variant) (s : State) (m : Memory) (hi : (i, v) ∈ bpDecoders)
    (h : AgreesFor i s m) : Does i s m (bpDecode i v s) (bpDecode i v (s.withMem m)) := by
  have hsrc : sourceExtent i s = (s.regs.src.toNat, s.regs.srclen.toNat) := by fin_cases hi <;> rfl
  have hdst : appendedBits i s = none ∧ destExtent i s = (s.regs.dst.toNat, s.regs.dstcap.toNat) := by
    fin_cases hi <;> exact ⟨rfl, rfl⟩
  rw [AgreesFor, hsrc] at h
  refine command_twin _ _ _ _ _ (Twin.extents fun hs => Twin.read (decodeStream_congr s m v h.1) ?_
    fun r _ => ?_)
  · rw [hsrc]; exact decodeStream_within s v
  · refine Twin.output (r := { s.regs with res := word r.1.length, res2 := word r.2 })
      hdst hs ?_ (fun _ => rfl) (fun _ => rfl)
    fin_cases hi <;> rfl

theorem bpQuery_does (i : Instr) (v : Variant) (s : State) (m : Memory) (answer : List Nat → Word)
    (hsrc : sourceExtent i s = (s.regs.src.toNat, v.esz * s.regs.cnt.toNat))
    (hr : ∀ w, RegsMay i s.regs { s.regs with res := w }) (h : AgreesFor i s m) :
    Does i s m (bpQuery i v s answer) (bpQuery i v (s.withMem m) answer) := by
  rw [AgreesFor, hsrc] at h
  refine command_twin _ _ _ _ _ (Twin.range fun hs => Twin.read (readArray_congr s m _ _ _ h.1) ?_
    fun vs _ => Twin.pure (checkMonotone_pure v vs) fun _ _ => Twin.done (hr _))
  rw [hsrc]; exact readArray_within s _ _ _ _ _ (le_refl _) (le_refl _)

/-! ### Bit writer, bit reader, Elias -/

theorem bytesOfBits_length (t : List Bool) : (bytesOfBits t).length = ceilDiv t.length 8 := by
  simp [bytesOfBits]

theorem bwAppend_twin (i : Instr) (s : State) (m : Memory) (t : List Bool) (v : Word)
    (ht : appendedBits i s = some t) (h : AgreesFor i s m) :
    Twin i s m (bwAppend s t >>= fun u => .ok (u.withRes v))
      (bwAppend (s.withMem m) t >>= fun u => .ok (u.withRes v)) := by
  have hi : destExtent i s = (s.regs.bwBase.toNat, s.regs.bwCap.toNat) ∧
      ∀ p, RegsMay i s.regs { s.regs with res := v, bwPos := p } := by
    cases i <;> first | exact ⟨rfl, fun _ => rfl⟩ | (simp [appendedBits] at ht)
  have hread := h.2 (by rw [ht]; simp)
  unfold bwAppend
  simp only [bind_assoc]
  refine Twin.range fun hs => ?_
  split
  · exact Twin.done (hi.2 s.regs.bwPos)
  · rename_i hk
    simp only [bind_assoc]
    refine Twin.check fun hc => ?_
    simp only [Bool.or_eq_false_iff, decide_eq_false_iff_not, not_lt, not_le, ceilDiv_eight] at hc
    have hfit : s.regs.bwBase.toNat + s.regs.bwPos.toNat / 8
        < s.regs.bwBase.toNat + s.regs.bwCap.toNat := by omega
    refine Twin.bind (y := writerHead (s.withMem m) _ _) (x := writerHead s _ _) ?_ ?_ ?_
    · unfold writerHead
      split
      · rfl
      · exact bind_congr_ok (portRead_congr s m _ hread) fun _ _ => rfl
    · intro e he
      unfold writerHead at he
      split at he
      · simp at he
      · rcases (attempt_bind_error _ _ _).mp he with he | ⟨_, _, he⟩
        · rcases portRead_within s _ _ _ (Nat.le_add_right _ _) hfit e he with h1 | ⟨a, h1, h2, h3, h4, h5⟩
          · exact .inl h1
          · refine .inr (.inr ⟨a, h1, h4, .inl h5, .inr ?_⟩)
            rw [hi.1]; exact ⟨h2, h3⟩
        · simp at he
    · intro head hh
      have hl : head.length ≤ s.regs.bwPos.toNat % 8 := by
        unfold writerHead at hh
        split at hh
        · simp only [Except.ok.injEq] at hh; subst hh; simp
        · obtain ⟨b, _, hh⟩ := (attempt_bind_ok _ _ _).mp hh
          simp only [attempt_pure, Except.ok.injEq] at hh
          subst hh; simp
      refine Twin.write (r := { s.regs with res := v, bwPos := word (s.regs.bwPos.toNat + t.length) })
        (.inr ?_) (hi.2 _) (fun _ => rfl) (fun _ => rfl)
      rw [OutputAt, outputBase, ht, hi.1, bytesOfBits_length, ceilDiv_eight, List.length_append]
      refine ⟨rfl, Nat.le_add_right _ _, ?_, hs⟩
      show _ ≤ s.regs.bwBase.toNat + s.regs.bwCap.toNat
      omega

theorem execBwWrite_does (imm : BitVec 8) (s : State) (m : Memory) (h : AgreesFor (.bwWrite imm) s m) :
    Does (.bwWrite imm) s m (execBwWrite imm s) (execBwWrite imm (s.withMem m)) := by
  by_cases hi : imm.toNat ≤ 64
  · exact command_twin _ _ _ _ _ (bwAppend_twin _ s m _ _ (by simp [appendedBits, hi]) h)
  · have hw : ¬ (Instr.bwWrite imm).WellFormed := fun hw => hi hw.2
    have hfm : (s.withMem m).faulted = s.faulted := rfl
    cases hf : s.faulted with
    | true => exact .inl ⟨hf, by simp [execBwWrite, command, hf], by simp [execBwWrite, command, hfm, hf]⟩
    | false =>
      exact .inr (.inl ⟨hf, .illegalCmd, (encode (.bwWrite imm)).toNat,
        by simp [execBwWrite, command, hf, hw], by simp [execBwWrite, command, hfm, hf, hw]⟩)

theorem codePut_does (i : Instr) (c : Code) (s : State) (m : Memory)
    (ht : s.regs.arg.toNat ≠ 0 → appendedBits i s = some (c.word s.regs.arg.toNat))
    (h : AgreesFor i s m) : Does i s m (codePut i c s) (codePut i c (s.withMem m)) :=
  command_twin _ _ _ _ _ (Twin.check fun h0 => bwAppend_twin i s m _ _ (ht (by simpa using h0)) h)

theorem execBrRead_does (imm : BitVec 8) (s : State) (m : Memory) (h : AgreesFor (.brRead imm) s m) :
    Does (.brRead imm) s m (execBrRead imm s) (execBrRead imm (s.withMem m)) := by
  refine command_twin _ _ _ _ _ (Twin.range fun _ => ?_)
  have hb : brHas (s.withMem m) imm.toNat = brHas s imm.toNat := rfl
  rw [hb]
  split
  · rename_i hp
    have hp : s.regs.brPos.toNat + imm.toNat ≤ s.regs.brEnd.toNat := by simpa [brHas] using hp
    exact Twin.read (portBits_congr s m _ _ _ _ hp h.1) (portBits_within s _ _ _ _ hp)
      fun _ _ => Twin.done ⟨false, rfl⟩
  · exact Twin.done ⟨true, rfl⟩

theorem codeGet_does (i : Instr) (c : Code) (s : State) (m : Memory) (hi : i = .egGet ∨ i = .edGet)
    (h : AgreesFor i s m) : Does i s m (codeGet i c s) (codeGet i c (s.withMem m)) := by
  have hsrc : sourceExtent i s = (s.regs.brBase.toNat, ceilDiv s.regs.brEnd.toNat 8) := by
    rcases hi with rfl | rfl <;> rfl
  rw [AgreesFor, hsrc] at h
  refine command_twin _ _ _ _ _ (Twin.range fun _ =>
    Twin.read (codeDecode_congr s m c _ _ _ _ h.1) ?_ fun r _ => ?_)
  · rw [hsrc]; exact codeDecode_within s c _ _ _ _
  · rcases r with _ | ⟨v, q⟩
    · refine Twin.done (r := { s.regs.withMalf true with res := 0, res2 := 0 }) ?_
      rcases hi with rfl | rfl <;> exact ⟨true, rfl⟩
    · refine Twin.done (r := { s.regs.withMalf false with
        res := word v, res2 := word (q - s.regs.brPos.toNat), brPos := word q }) ?_
      rcases hi with rfl | rfl <;> exact ⟨false, rfl⟩

theorem codeEncode_does (i : Instr) (c : Code) (wide : Bool) (s : State) (m : Memory)
    (hi : (i, c, wide) ∈ eliasEncoders) (h : AgreesFor i s m) :
    Does i s m (codeEncode i c wide s) (codeEncode i c wide (s.withMem m)) := by
  have hsrc : sourceExtent i s = (s.regs.src.toNat, elementBytes wide * s.regs.cnt.toNat) := by
    fin_cases hi <;> rfl
  have hdst : appendedBits i s = none ∧ destExtent i s = (s.regs.dst.toNat, s.regs.dstcap.toNat) := by
    fin_cases hi <;> exact ⟨rfl, rfl⟩
  rw [AgreesFor, hsrc] at h
  refine command_twin _ _ _ _ _ (Twin.extents fun hs => Twin.read (readArray_congr s m _ _ _ h.1) ?_
    fun vs _ => Twin.pure (checkNonzero_pure vs) fun _ _ => Twin.check fun hc => ?_)
  · rw [hsrc]; exact readArray_within s _ _ _ _ _ (le_refl _) (le_refl _)
  · simp only [Bool.or_eq_false_iff, decide_eq_false_iff_not, not_lt] at hc
    refine Twin.write (r := { s.regs with
      res := word (ceilDiv (codeStream c vs).length 8)
      metaCount := word vs.length
      metaBits := word (codeStream c vs).length
      metaBytes := word (ceilDiv (codeStream c vs).length 8) }) (.inr ?_) ?_ (fun _ => rfl) (fun _ => rfl)
    · rw [OutputAt, outputBase, hdst.1, hdst.2, bytesOfBits_length]
      exact ⟨rfl, le_refl _, by show _ ≤ s.regs.dst.toNat + s.regs.dstcap.toNat; omega, hs⟩
    · fin_cases hi <;> rfl

theorem codeDecode_does (i : Instr) (c : Code) (wide : Bool) (s : State) (m : Memory)
    (hi : (i, c, wide) ∈ eliasDecoders) (h : AgreesFor i s m) :
    Does i s m (codeDecode i c wide s) (codeDecode i c wide (s.withMem m)) := by
  have hsrc : sourceExtent i s = (s.regs.src.toNat, ceilDiv s.regs.bitlen.toNat 8) := by
    fin_cases hi <;> rfl
  have hdst : appendedBits i s = none ∧ destExtent i s = (s.regs.dst.toNat, s.regs.dstcap.toNat) := by
    fin_cases hi <;> exact ⟨rfl, rfl⟩
  rw [AgreesFor, hsrc] at h
  refine command_twin _ _ _ _ _ (Twin.extents fun hs =>
    Twin.read (decodeCodes_congr s m c _ _ _ _ _ h.1) ?_ fun r _ => ?_)
  · rw [hsrc]; exact decodeCodes_within s c _ _ _ _ _
  · refine Twin.output (r := { s.regs.withMalf r.2.2 with res := word r.1.length, res2 := word r.2.1 })
      hdst hs ?_ (fun _ => rfl) (fun _ => rfl)
    fin_cases hi <;> exact ⟨r.2.2, rfl⟩

/-! ### The accumulator -/

theorem accLimit_lt (m : AccMode) (n : Bool) : accLimit m n < 2 ^ 128 := by
  cases m <;> cases n <;> decide

theorem Word.withField_twice (w : Word) (lo n : Nat) (u v : BitVec n) :
    (w.withField lo n u).withField lo n v = w.withField lo n v := by
  apply BitVec.eq_of_getLsbD_eq
  intro k hk
  simp only [Word.getLsbD_withField]
  split <;> rfl

theorem Regs.withOvf_self (r : Regs) : r.withOvf r.ovf = r := by
  have : r.status.withField 0 1 (BitVec.ofBool (r.status.getLsbD 0)) = r.status := by
    apply BitVec.eq_of_getLsbD_eq
    intro i hi
    rw [Word.getLsbD_withField]
    split
    · rename_i h
      have : i = 0 := by omega
      subst this
      cases r.status.getLsbD 0 <;> simp
    · rfl
  rw [Regs.withOvf, Regs.ovf, this]

/-- One digit step (45_acc128.md R273). -/
theorem accStep_regs (s : State) (d : Nat) :
    ∃ b : Bool, (s.regs.ovf = true → b = true) ∧ (accStep s d) = { s with regs :=
      { s.regs.withOvf b with acc := (accStep s d).regs.acc, accNdig := (accStep s d).regs.accNdig } } ∧
      (s.regs.acc.toNat ≤ s.regs.accLimit → (accStep s d).regs.acc.toNat ≤ s.regs.accLimit) := by
  have hself := Regs.withOvf_self s.regs
  unfold accStep
  dsimp only
  split
  · rename_i h
    refine ⟨true, fun _ => rfl, ?_, fun h => h⟩
    rw [show true = s.regs.ovf from h.symm, hself]
  · split
    · refine ⟨true, fun _ => rfl, rfl, fun h => h⟩
    · rename_i h1 h2
      refine ⟨s.regs.ovf, fun h => h, ?_, fun _ => ?_⟩
      · rw [hself]
      · have := accLimit_lt (accMode s.regs.mode) s.regs.neg
        simp only [Regs.accLimit, not_lt] at h2 ⊢
        simp only [BitVec.toNat_ofNat]
        exact le_trans (Nat.mod_le _ _) h2

/-- Digit steps one after the other. -/
theorem accSteps_regs (s : State) (ds : List Nat) :
    ∃ b : Bool, (s.regs.ovf = true → b = true) ∧ (ds.foldl accStep s) = { s with regs :=
      { s.regs.withOvf b with
        acc := (ds.foldl accStep s).regs.acc, accNdig := (ds.foldl accStep s).regs.accNdig } } ∧
      (s.regs.acc.toNat ≤ s.regs.accLimit → (ds.foldl accStep s).regs.acc.toNat ≤ s.regs.accLimit) := by
  induction ds generalizing s with
  | nil =>
    obtain ⟨b, h1, h2, -⟩ := accStep_regs s 0
    refine ⟨s.regs.ovf, fun h => h, ?_, fun h => h⟩
    rw [List.foldl_nil, Regs.withOvf_self]
  | cons d ds ih =>
    obtain ⟨b, h1, h2, h3⟩ := accStep_regs s d
    obtain ⟨b', h1', h2', h3'⟩ := ih (accStep s d)
    rw [List.foldl_cons]
    have hm : (accStep s d).regs.mode = s.regs.mode := by rw [h2]; exact Regs.withOvf_mode _ _
    have hn : (accStep s d).regs.neg = s.regs.neg := by rw [h2]; exact Regs.withOvf_neg _ _
    have e : (accStep s d).regs.accLimit = s.regs.accLimit := by rw [Regs.accLimit, hm, hn, Regs.accLimit]
    refine ⟨b', fun h => h1' ?_, ?_, fun h => ?_⟩
    · rw [h2]; exact (Regs.withOvf_ovf _ _).trans (h1 h)
    · conv_lhs => rw [h2']
      rw [h2]
      simp [Regs.withOvf, Word.withField_twice]
    · rw [← e]; exact h3' (by rw [e]; exact h3 h)

theorem execAccClr_does (imm : BitVec 8) (s : State) (m : Memory) :
    Does (.accClr imm) s m (execAccClr imm s) (execAccClr imm (s.withMem m)) :=
  command_twin _ _ _ _ _ (Twin.done ⟨_, _, rfl⟩)

theorem execAccDigit_does (imm : BitVec 8) (s : State) (m : Memory) :
    Does (.accDigit imm) s m (execAccDigit imm s) (execAccDigit imm (s.withMem m)) := by
  refine command_twin _ _ _ _ _ ?_
  obtain ⟨b, h1, h2, h3⟩ := accStep_regs s imm.toNat
  have e : accStep (s.withMem m) imm.toNat = { s.withMem m with regs := (accStep s imm.toNat).regs } := by
    unfold accStep; dsimp only; split
    · rfl
    · split <;> rfl
  have e' : accStep s imm.toNat = { s with regs := (accStep s imm.toNat).regs } := by rw [h2]
  rw [e, e']
  refine Twin.done ⟨⟨b, h1, ?_⟩, h3⟩
  rw [h2]

theorem accSteps_mem (s : State) (m : Memory) (ds : List Nat) :
    ds.foldl accStep (s.withMem m) = (ds.foldl accStep s).withMem m := by
  induction ds generalizing s with
  | nil => rfl
  | cons d ds ih =>
    have e : accStep (s.withMem m) d = (accStep s d).withMem m := by
      unfold accStep; dsimp only; split
      · rfl
      · split <;> rfl
    rw [List.foldl_cons, e, ih, List.foldl_cons]

theorem execAccStr_does (s : State) (m : Memory) (h : AgreesFor .accStr s m) :
    Does .accStr s m (execAccStr s) (execAccStr (s.withMem m)) := by
  refine command_twin _ _ _ _ _ (Twin.range fun _ => Twin.read (digitRun_congr s m _ _ h.1)
    (digitRun_within s _ _ _ _ (le_refl _) (le_refl _)) fun r _ => ?_)
  obtain ⟨b, h1, h2, h3⟩ := accSteps_regs s r.1
  rw [accSteps_mem s m]
  have e' : r.1.foldl accStep s = { s with regs := (r.1.foldl accStep s).regs } := by rw [h2]
  have e : ((r.1.foldl accStep s).withMem m) = { s.withMem m with regs := (r.1.foldl accStep s).regs } := by
    rw [h2]
  rw [e, e']
  refine Twin.done (r := { (r.1.foldl accStep s).regs with res := word r.1.length, res2 := word r.2 })
    ⟨⟨b, h1, ?_⟩, h3⟩
  rw [h2]

/-! ### Every command -/

/-- Every way every command can end, but for the two that a faulted block executes. -/
theorem exec_does (i : Instr) (s : State) (m : Memory) (h1 : i ≠ .sysClrf) (h2 : i ≠ .sysReset)
    (h : AgreesFor i s m) : Does i s m (exec i s) (exec i (s.withMem m)) := by
  cases i with
  | sysNop => exact command_twin _ _ _ _ _ (Twin.done rfl)
  | sysClrf => exact absurd rfl h1
  | sysReset => exact absurd rfl h2
  | fwPut imm => exact execFwPut_does imm s m
  | fwGet imm => exact execFwGet_does imm s m h
  | wsel => exact command_twin _ _ _ _ _ (Twin.done rfl)
  | tvPut => exact execTvPut_does s m
  | tvGet => exact execTvGet_does s m h
  | tvLen => exact command_twin _ _ _ _ _ (Twin.done rfl)
  | gvEnc => exact execGvEnc_does s m h
  | gvDec => exact execGvDec_does s m h
  | gvGetf => exact execGvGetf_does s m h
  | gvSize => exact execGvSize_does s m h
  | bpEnc32 => exact bpEncode_does _ _ s m (by simp [bpEncoders]) h
  | bpEncd32 => exact bpEncode_does _ _ s m (by simp [bpEncoders]) h
  | bpEnc64 => exact bpEncode_does _ _ s m (by simp [bpEncoders]) h
  | bpEncd64 => exact bpEncode_does _ _ s m (by simp [bpEncoders]) h
  | bpDec32 => exact bpDecode_does _ _ s m (by simp [bpDecoders]) h
  | bpDecd32 => exact bpDecode_does _ _ s m (by simp [bpDecoders]) h
  | bpDec64 => exact bpDecode_does _ _ s m (by simp [bpDecoders]) h
  | bpDecd64 => exact bpDecode_does _ _ s m (by simp [bpDecoders]) h
  | bpSize32 => exact bpQuery_does _ _ s m _ rfl (fun _ => rfl) h
  | bpSized32 => exact bpQuery_does _ _ s m _ rfl (fun _ => rfl) h
  | bpSize64 => exact bpQuery_does _ _ s m _ rfl (fun _ => rfl) h
  | bpSized64 => exact bpQuery_does _ _ s m _ rfl (fun _ => rfl) h
  | bpMaxb32 => exact command_twin _ _ _ _ _ (Twin.done rfl)
  | bpMaxbd32 => exact command_twin _ _ _ _ _ (Twin.done rfl)
  | bpMaxb64 => exact command_twin _ _ _ _ _ (Twin.done rfl)
  | bpMaxbd64 => exact command_twin _ _ _ _ _ (Twin.done rfl)
  | bpBenef32 => exact bpQuery_does _ _ s m _ rfl (fun _ => rfl) h
  | bpBenefd32 => exact bpQuery_does _ _ s m _ rfl (fun _ => rfl) h
  | bpBenef64 => exact bpQuery_does _ _ s m _ rfl (fun _ => rfl) h
  | bpBenefd64 => exact bpQuery_does _ _ s m _ rfl (fun _ => rfl) h
  | bpSorted32 => exact bpQuery_does _ _ s m _ rfl (fun _ => rfl) h
  | bpSorted64 => exact bpQuery_does _ _ s m _ rfl (fun _ => rfl) h
  | bwWrite imm => exact execBwWrite_does imm s m h
  | brRead imm => exact execBrRead_does imm s m h
  | brMore imm => exact command_twin _ _ _ _ _ (Twin.done rfl)
  | egPut => exact codePut_does _ _ s m (fun h0 => by simp only [appendedBits, if_neg h0]; rfl) h
  | egGet => exact codeGet_does _ _ s m (.inl rfl) h
  | egBits => exact command_twin _ _ _ _ _ (Twin.done rfl)
  | egEnc32 => exact codeEncode_does _ _ _ s m (by simp [eliasEncoders]) h
  | egEnc64 => exact codeEncode_does _ _ _ s m (by simp [eliasEncoders]) h
  | egDec32 => exact codeDecode_does _ _ _ s m (by simp [eliasDecoders]) h
  | egDec64 => exact codeDecode_does _ _ _ s m (by simp [eliasDecoders]) h
  | edPut => exact codePut_does _ _ s m (fun h0 => by simp only [appendedBits, if_neg h0]; rfl) h
  | edGet => exact codeGet_does _ _ s m (.inr rfl) h
  | edBits => exact command_twin _ _ _ _ _ (Twin.done rfl)
  | edEnc32 => exact codeEncode_does _ _ _ s m (by simp [eliasEncoders]) h
  | edEnc64 => exact codeEncode_does _ _ _ s m (by simp [eliasEncoders]) h
  | edDec32 => exact codeDecode_does _ _ _ s m (by simp [eliasDecoders]) h
  | edDec64 => exact codeDecode_does _ _ _ s m (by simp [eliasDecoders]) h
  | accClr imm => exact execAccClr_does imm s m
  | accDigit imm => exact execAccDigit_does imm s m
  | accStr => exact execAccStr_does s m h
  | accClass => exact command_twin _ _ _ _ _ (Twin.done rfl)

/-- A memory agrees with itself. -/
theorem AgreesFor.self (i : Instr) (s : State) : AgreesFor i s s.mem := ⟨fun _ _ _ => rfl, fun _ => rfl⟩

/-- Every way a command can answer a next state: `SYS.CLRF`, `SYS.RESET`, ignored by a faulted block, a fault
recorded with nothing else changed, a write-phase fault inside the destination extent, or a completion that
writes registers the command may write and bytes inside its destination extent. -/
theorem exec_next (i : Instr) (s t : State) (h : exec i s = .next t) :
    (i = .sysClrf ∧ t = s.clearFault) ∨ (i = .sysReset ∧ t = s.resetRegisters) ∨
    (s.faulted = true ∧ t = s) ∨
    (s.faulted = false ∧ ∃ c n, t = s.takeFault c n (encode i)) ∨
    (s.faulted = false ∧ ∃ a b n, OutputAt i s b n ∧ b ≤ a ∧ a < b + n ∧
      canWrite s.platform a = false ∧ (∀ j, b ≤ j → j < a → canWrite s.platform j = true) ∧
      t = (s.takeFault .memFault a (encode i)).loseExtent b n) ∨
    (s.faulted = false ∧ ∃ r a out, RegsMay i s.regs r ∧ (out = [] ∨ OutputAt i s a out.length) ∧
      t = { s with regs := r, mem := s.mem.writeBytes a out }) := by
  by_cases h1 : i = .sysClrf
  · subst h1
    exact .inl ⟨rfl, by simpa [exec, execSysClrf] using h.symm⟩
  by_cases h2 : i = .sysReset
  · subst h2
    exact .inr (.inl ⟨rfl, by simpa [exec, execSysReset] using h.symm⟩)
  refine .inr (.inr ?_)
  rcases exec_does i s s.mem h1 h2 (AgreesFor.self i s) with ⟨hf, e, -⟩ | ⟨hf, c, n, e, -⟩ |
    ⟨hf, a, b, n, q1, q2, q3, q4, q5, e, -⟩ | ⟨hf, a, q1, q2, q3, e, -⟩ | ⟨hf, r, a, out, q1, q2, e, -⟩ <;> rw [e] at h
  · exact .inl ⟨hf, by simpa using h.symm⟩
  · exact .inr (.inl ⟨hf, c, n, by simpa using h.symm⟩)
  · exact .inr (.inr (.inl ⟨hf, a, b, n, q1, q2, q3, q4, q5, by simpa using h.symm⟩))
  · simp at h
  · exact .inr (.inr (.inr ⟨hf, r, a, out, q1, q2, by simpa using h.symm⟩))

end Sys2Proof.Machine
end

