-- ==== Sys2Proof/Laws/PerInstr.lean ====
section
/-! SUPPORT. The laws stated per instruction: decoding an instruction's command word gives the
instruction back (30_encoding.md R92, R94). -/

namespace Sys2Proof.Laws.DecodeInvertsEncode

/-- A well-formed instruction is what its command word decodes to. -/
def Statement (i : Sys2Proof.Instr) : Prop := i.WellFormed → Sys2Proof.decode (Sys2Proof.encode i) = .ok i

/-- Checked for every value of `IMM`. -/
theorem of_all (c : BitVec 8 → Sys2Proof.Instr)
    (h : ∀ n : Fin 256, (c (BitVec.ofNat 8 n)).WellFormed →
      Sys2Proof.decode (Sys2Proof.encode (c (BitVec.ofNat 8 n))) = .ok (c (BitVec.ofNat 8 n)))
    (imm : BitVec 8) : Statement (c imm) := by
  have := h ⟨imm.toNat, imm.isLt⟩
  simpa [Statement] using this

theorem sysNop : Statement .sysNop := by unfold Statement; decide

theorem sysClrf : Statement .sysClrf := by unfold Statement; decide

theorem sysReset : Statement .sysReset := by unfold Statement; decide

theorem fwPut (imm : BitVec 8) : Statement (.fwPut imm) := of_all _ (by decide +kernel) imm

theorem fwGet (imm : BitVec 8) : Statement (.fwGet imm) := of_all _ (by decide +kernel) imm

theorem wsel : Statement .wsel := by unfold Statement; decide

theorem tvPut : Statement .tvPut := by unfold Statement; decide

theorem tvGet : Statement .tvGet := by unfold Statement; decide

theorem tvLen : Statement .tvLen := by unfold Statement; decide

theorem gvEnc : Statement .gvEnc := by unfold Statement; decide

theorem gvDec : Statement .gvDec := by unfold Statement; decide

theorem gvGetf : Statement .gvGetf := by unfold Statement; decide

theorem gvSize : Statement .gvSize := by unfold Statement; decide

theorem bpEnc32 : Statement .bpEnc32 := by unfold Statement; decide

theorem bpEncd32 : Statement .bpEncd32 := by unfold Statement; decide

theorem bpEnc64 : Statement .bpEnc64 := by unfold Statement; decide

theorem bpEncd64 : Statement .bpEncd64 := by unfold Statement; decide

theorem bpDec32 : Statement .bpDec32 := by unfold Statement; decide

theorem bpDecd32 : Statement .bpDecd32 := by unfold Statement; decide

theorem bpDec64 : Statement .bpDec64 := by unfold Statement; decide

theorem bpDecd64 : Statement .bpDecd64 := by unfold Statement; decide

theorem bpSize32 : Statement .bpSize32 := by unfold Statement; decide

theorem bpSized32 : Statement .bpSized32 := by unfold Statement; decide

theorem bpSize64 : Statement .bpSize64 := by unfold Statement; decide

theorem bpSized64 : Statement .bpSized64 := by unfold Statement; decide

theorem bpMaxb32 : Statement .bpMaxb32 := by unfold Statement; decide

theorem bpMaxbd32 : Statement .bpMaxbd32 := by unfold Statement; decide

theorem bpMaxb64 : Statement .bpMaxb64 := by unfold Statement; decide

theorem bpMaxbd64 : Statement .bpMaxbd64 := by unfold Statement; decide

theorem bpBenef32 : Statement .bpBenef32 := by unfold Statement; decide

theorem bpBenefd32 : Statement .bpBenefd32 := by unfold Statement; decide

theorem bpBenef64 : Statement .bpBenef64 := by unfold Statement; decide

theorem bpBenefd64 : Statement .bpBenefd64 := by unfold Statement; decide

theorem bpSorted32 : Statement .bpSorted32 := by unfold Statement; decide

theorem bpSorted64 : Statement .bpSorted64 := by unfold Statement; decide

theorem bwWrite (imm : BitVec 8) : Statement (.bwWrite imm) := of_all _ (by decide +kernel) imm

theorem brRead (imm : BitVec 8) : Statement (.brRead imm) := of_all _ (by decide +kernel) imm

theorem brMore (imm : BitVec 8) : Statement (.brMore imm) := of_all _ (by decide +kernel) imm

theorem egPut : Statement .egPut := by unfold Statement; decide

theorem egGet : Statement .egGet := by unfold Statement; decide

theorem egBits : Statement .egBits := by unfold Statement; decide

theorem egEnc32 : Statement .egEnc32 := by unfold Statement; decide

theorem egEnc64 : Statement .egEnc64 := by unfold Statement; decide

theorem egDec32 : Statement .egDec32 := by unfold Statement; decide

theorem egDec64 : Statement .egDec64 := by unfold Statement; decide

theorem edPut : Statement .edPut := by unfold Statement; decide

theorem edGet : Statement .edGet := by unfold Statement; decide

theorem edBits : Statement .edBits := by unfold Statement; decide

theorem edEnc32 : Statement .edEnc32 := by unfold Statement; decide

theorem edEnc64 : Statement .edEnc64 := by unfold Statement; decide

theorem edDec32 : Statement .edDec32 := by unfold Statement; decide

theorem edDec64 : Statement .edDec64 := by unfold Statement; decide

theorem accClr (imm : BitVec 8) : Statement (.accClr imm) := of_all _ (by decide +kernel) imm

theorem accDigit (imm : BitVec 8) : Statement (.accDigit imm) := of_all _ (by decide +kernel) imm

theorem accStr : Statement .accStr := by unfold Statement; decide

theorem accClass : Statement .accClass := by unfold Statement; decide

end Sys2Proof.Laws.DecodeInvertsEncode
end

