-- ==== Sys2Proof/Laws/Sources.lean ====
section
/-! SUPPORT. What the BP128 decoders' parts answer of a source, in the words of the statements: a varint, a
block, and each defect of a block, at any offset. -/

namespace Sys2Proof.Machine

theorem tvAnnounced_eq (s : State) (off : Nat) :
    tvAnnounced (s.mem.read (s.regs.src.toNat + off)) = (varintAt s off).2 := rfl

theorem varintAt_length_pos (s : State) (off : Nat) : 1 ≤ (varintAt s off).2 := by simp [varintAt]

/-- The value that a whole tagged varint's bytes spell is the one read off the memory. -/
theorem tvValue_bytesAt (s : State) (off : Nat) :
    tvValue (bytesAt s.mem (s.regs.src.toNat + off) (varintAt s off).2) = (varintAt s off).1 := by
  have hl : (varintAt s off).2 = clz8 (s.mem.read (s.regs.src.toNat + off)) + 1 := rfl
  have hv : (varintAt s off).1 = if clz8 (s.mem.read (s.regs.src.toNat + off)) = 8
      then numberAt s.mem (s.regs.src.toNat + off + 1) 8
      else (s.mem.read (s.regs.src.toNat + off)).toNat % 2 ^ (7 - clz8 (s.mem.read (s.regs.src.toNat + off)))
        + 2 ^ (7 - clz8 (s.mem.read (s.regs.src.toNat + off)))
          * numberAt s.mem (s.regs.src.toNat + off + 1) (clz8 (s.mem.read (s.regs.src.toNat + off))) := rfl
  rw [hl, hv, bytesAt_succ, tvValue]
  generalize clz8 (s.mem.read (s.regs.src.toNat + off)) = z
  by_cases h : z = 8
  · rw [if_pos h, if_pos h, h, List.take_of_length_le (by simp), numberAt]
  · rw [if_neg h, if_neg h, List.take_of_length_le (by simp), numberAt]

/-- A varint that ends inside the source and may be read is read. -/
theorem sourceVarint_sound (s : State) (off : Nat) (h : VarintSound s off) :
    sourceVarint s off = .ok (varintAt s off) := by
  have hp := varintAt_length_pos s off
  have hr : portRead s (s.regs.src.toNat + off) = .ok (s.mem.read (s.regs.src.toNat + off)) :=
    (portRead_ok _ _ _).mpr ⟨(h.2 0 hp).1, (h.2 0 hp).2, rfl⟩
  have h1 : decide (s.regs.srclen.toNat < off + 1) = false := by
    have := h.1; simp only [decide_eq_false_iff_not]; omega
  have h2 : decide (s.regs.srclen.toNat < off + tvAnnounced (s.mem.read (s.regs.src.toNat + off))) = false := by
    have := h.1; rw [decide_eq_false_iff_not, tvAnnounced_eq]; omega
  simp only [sourceVarint, tvGetAt, h1, raiseIf_false, attempt_ok_bind, hr, h2, attempt_pure]
  rw [tvAnnounced_eq, readBytes_of_reads s _ _ h.2, attempt_ok_bind, tvValue_bytesAt]

/-- A varint whose first byte lies past the source. -/
theorem sourceVarint_empty (s : State) (off : Nat) (h : s.regs.srclen.toNat < off + 1) :
    sourceVarint s off = .error (.raise .srcUnderrun (off + 1)) := by
  simp [sourceVarint, tvGetAt, h]

/-- A varint that the end of the source cuts short after its first byte. -/
theorem sourceVarint_cut (s : State) (off : Nat) (h1 : off + 1 ≤ s.regs.srclen.toNat)
    (hr : Reads s (s.regs.src.toNat + off) 1) (h2 : s.regs.srclen.toNat < off + (varintAt s off).2) :
    sourceVarint s off = .error (.raise .srcUnderrun (off + (varintAt s off).2)) := by
  have hr : portRead s (s.regs.src.toNat + off) = .ok (s.mem.read (s.regs.src.toNat + off)) :=
    (portRead_ok _ _ _).mpr ⟨(hr 0 (by omega)).1, (hr 0 (by omega)).2, rfl⟩
  have h1 : decide (s.regs.srclen.toNat < off + 1) = false := by
    simp only [decide_eq_false_iff_not]; omega
  have h2 : decide (s.regs.srclen.toNat < off + tvAnnounced (s.mem.read (s.regs.src.toNat + off))) = true := by
    rw [decide_eq_true_eq, tvAnnounced_eq]; omega
  simp only [sourceVarint, tvGetAt, h1, raiseIf_false, attempt_ok_bind, hr, h2, raiseIf_true,
    attempt_error_bind]
  rw [tvAnnounced_eq]

/-! ### Blocks -/

theorem headerBytes_blockAt (s : State) (off : Nat) :
    (blockAt s off).headerBytes = if 128 ≤ (s.mem.read (s.regs.src.toNat + off)).toNat then 2 else 1 := by
  by_cases h : 128 ≤ (s.mem.read (s.regs.src.toNat + off)).toNat <;> simp [SourceBlock.headerBytes, blockAt, h]

/-- Everything after the first header byte, in the words of `blockAt`. -/
theorem parseBlock_header (s : State) (v : Variant) (off : Nat) (h : off + 1 ≤ s.regs.srclen.toNat)
    (hr : Reads s (s.regs.src.toNat + off) 1) :
    parseBlock s v off = (do
      raiseIf (v.width < (blockAt s off).width) .badWidth off
      let m ← blockCount s (s.mem.read (s.regs.src.toNat + off)).toNat off
      let start := off + (blockAt s off).headerBytes
      let pl := ceilDiv (m * (blockAt s off).width) 8
      raiseIf (s.regs.srclen.toNat < start + pl) .srcUnderrun (start + pl)
      let payload ← readBytes s (s.regs.src.toNat + start) pl
      return { values := unpack payload m (blockAt s off).width, short := (blockAt s off).short, next := start + pl }) := by
  have h1 : decide (s.regs.srclen.toNat < off + 1) = false := by
    simp only [decide_eq_false_iff_not]; omega
  have hr : portRead s (s.regs.src.toNat + off) = .ok (s.mem.read (s.regs.src.toNat + off)) :=
    (portRead_ok _ _ _).mpr ⟨(hr 0 (by omega)).1, (hr 0 (by omega)).2, rfl⟩
  simp only [parseBlock, h1, raiseIf_false, attempt_ok_bind, hr]
  rw [headerBytes_blockAt]
  rfl

/-- The count of a block with a sound header. -/
theorem blockCount_sound (s : State) (v : Variant) (off : Nat) (h : HeaderSound s v off) :
    blockCount s (s.mem.read (s.regs.src.toNat + off)).toNat off = .ok (blockAt s off).count := by
  obtain ⟨-, hc, hl, hr⟩ := h
  by_cases hs : 128 ≤ (s.mem.read (s.regs.src.toNat + off)).toNat
  · simp only [blockAt, SourceBlock.headerBytes, hs, decide_true, if_true, forall_const] at hc hl hr
    have h1 : decide (s.regs.srclen.toNat < off + 2) = false := by
      simp only [decide_eq_false_iff_not]; omega
    have hb : portRead s (s.regs.src.toNat + off + 1) = .ok (s.mem.read (s.regs.src.toNat + off + 1)) :=
      (portRead_ok _ _ _).mpr ⟨(hr 1 (by omega)).1, (hr 1 (by omega)).2, rfl⟩
    have h2 : (decide ((s.mem.read (s.regs.src.toNat + off + 1)).toNat = 0) ||
        decide (127 < (s.mem.read (s.regs.src.toNat + off + 1)).toNat)) = false := by
      simp only [Bool.or_eq_false_iff, decide_eq_false_iff_not]; omega
    simp only [blockCount, if_pos hs, h1, raiseIf_false, attempt_ok_bind, hb, h2, attempt_pure, blockAt]
  · simp only [blockCount, if_neg hs, blockAt, Config.blockLen]

/-- A sound block is parsed: its values, whether it is partial, and the offset just past it. -/
theorem parseBlock_sound (s : State) (v : Variant) (off : Nat) (h : BlockSound s v off) :
    parseBlock s v off =
      .ok ⟨blockValuesAt s off, (blockAt s off).short, off + (blockAt s off).size⟩ := by
  obtain ⟨hh, hl, hr⟩ := h
  have hb1 : 1 ≤ (blockAt s off).headerBytes := by simp only [SourceBlock.headerBytes]; split <;> omega
  have hsize : (blockAt s off).size = (blockAt s off).headerBytes
      + ceilDiv ((blockAt s off).count * (blockAt s off).width) 8 := rfl
  have hlen := hh.2.2.1
  rw [parseBlock_header s v off (by omega) (hh.2.2.2.mono (le_refl _) (by omega)), blockCount_sound s v off hh]
  have h1 : decide (v.width < (blockAt s off).width) = false := by
    have := hh.1; simp only [decide_eq_false_iff_not]; omega
  have h2 : decide (s.regs.srclen.toNat < off + (blockAt s off).headerBytes
      + ceilDiv ((blockAt s off).count * (blockAt s off).width) 8) = false := by
    simp only [decide_eq_false_iff_not]; omega
  have hp : Reads s (s.regs.src.toNat + (off + (blockAt s off).headerBytes))
      (ceilDiv ((blockAt s off).count * (blockAt s off).width) 8) := hr.mono (by omega) (by omega)
  simp only [h1, raiseIf_false, attempt_ok_bind, h2, readBytes_of_reads s _ _ hp, attempt_pure, hsize, unpack,
    blockValuesAt, numberAt]
  simp only [Nat.add_assoc]

/-- A header byte past the source. -/
theorem parseBlock_empty (s : State) (v : Variant) (off : Nat) (h : s.regs.srclen.toNat < off + 1) :
    parseBlock s v off = .error (.raise .srcUnderrun (off + 1)) := by
  simp [parseBlock, h]

/-- A header width above the element's. -/
theorem parseBlock_badWidth (s : State) (v : Variant) (off : Nat) (h : off + 1 ≤ s.regs.srclen.toNat)
    (hr : Reads s (s.regs.src.toNat + off) 1) (hw : v.width < (blockAt s off).width) :
    parseBlock s v off = .error (.raise .badWidth off) := by
  rw [parseBlock_header s v off h hr]
  simp [hw]

/-- A partial block without its count byte. -/
theorem parseBlock_cutHeader (s : State) (v : Variant) (off : Nat) (h : off + 1 ≤ s.regs.srclen.toNat)
    (hr : Reads s (s.regs.src.toNat + off) 1) (hw : (blockAt s off).width ≤ v.width)
    (hs : (blockAt s off).short = true) (hl : s.regs.srclen.toNat < off + 2) :
    parseBlock s v off = .error (.raise .srcUnderrun (off + 2)) := by
  rw [parseBlock_header s v off h hr]
  have hs' : 128 ≤ (s.mem.read (s.regs.src.toNat + off)).toNat := by simpa [blockAt] using hs
  simp [Nat.not_lt.mpr hw, blockCount, hs', hl]

/-- A partial block whose count byte is 0 or above 127. -/
theorem parseBlock_badCount (s : State) (v : Variant) (off : Nat) (h : off + 2 ≤ s.regs.srclen.toNat)
    (hr : Reads s (s.regs.src.toNat + off) 2) (hw : (blockAt s off).width ≤ v.width)
    (hs : (blockAt s off).short = true) (hc : (blockAt s off).count = 0 ∨ 127 < (blockAt s off).count) :
    parseBlock s v off = .error (.raise .badCount (off + 1)) := by
  rw [parseBlock_header s v off (by omega) (hr.mono (le_refl _) (by omega))]
  have hs' : 128 ≤ (s.mem.read (s.regs.src.toNat + off)).toNat := by simpa [blockAt] using hs
  have hb : portRead s (s.regs.src.toNat + off + 1) = .ok (s.mem.read (s.regs.src.toNat + off + 1)) :=
    (portRead_ok _ _ _).mpr ⟨(hr 1 (by omega)).1, (hr 1 (by omega)).2, rfl⟩
  have hc' : (decide ((s.mem.read (s.regs.src.toNat + off + 1)).toNat = 0) ||
      decide (127 < (s.mem.read (s.regs.src.toNat + off + 1)).toNat)) = true := by
    simpa [blockAt, hs'] using hc
  have h1 : decide (v.width < (blockAt s off).width) = false := by simpa using hw
  have h2 : decide (s.regs.srclen.toNat < off + 2) = false := by simpa using h
  simp only [h1, h2, raiseIf_false, attempt_ok_bind, blockCount, if_pos hs', hb, hc', raiseIf_true,
    attempt_error_bind]

/-- A payload that the end of the source cuts short. -/
theorem parseBlock_cutPayload (s : State) (v : Variant) (off : Nat) (h : HeaderSound s v off)
    (hl : s.regs.srclen.toNat < off + (blockAt s off).size) :
    parseBlock s v off = .error (.raise .srcUnderrun (off + (blockAt s off).size)) := by
  have hb1 : 1 ≤ (blockAt s off).headerBytes := by simp only [SourceBlock.headerBytes]; split <;> omega
  have hlen := h.2.2.1
  have hsize : off + (blockAt s off).size = off + (blockAt s off).headerBytes
      + ceilDiv ((blockAt s off).count * (blockAt s off).width) 8 := (Nat.add_assoc _ _ _).symm
  rw [parseBlock_header s v off (by omega) (h.2.2.2.mono (le_refl _) (by omega)), blockCount_sound s v off h]
  have h1 : decide (v.width < (blockAt s off).width) = false := by simpa using h.1
  have h2 : decide (s.regs.srclen.toNat < off + (blockAt s off).headerBytes
      + ceilDiv ((blockAt s off).count * (blockAt s off).width) 8) = true := by
    simp only [decide_eq_true_eq]; omega
  simp only [h1, raiseIf_false, attempt_ok_bind, h2, raiseIf_true, attempt_error_bind, hsize]

end Sys2Proof.Machine
end

