-- ==== Sys2Proof/Tests/Slice0.lean ====
section
/-! SUPPORT. Tests. Expected values are the spec's: the words of 30_encoding.md R90 and R94, the vectors of
95_test_vectors.md and the examples in the rules; each test names its own. After them, for every statement with
hypotheses, a state and operands that meet them (`meets_…`), clause by clause. -/

section
open Sys2Proof Sys2Proof.Machine

set_option Elab.async false
set_option synthInstance.maxSize 4000

/-! ### Well-formedness: an ill-formed term for each check (30_encoding.md R93) -/

theorem test_fw_width_zero_is_ill_formed : ¬ (Instr.fwPut 0).WellFormed ∧ ¬ (Instr.fwGet 0).WellFormed := by decide
theorem test_fw_width_nine_is_ill_formed : ¬ (Instr.fwPut 9).WellFormed ∧ ¬ (Instr.fwGet 9).WellFormed := by decide
theorem test_bit_count_65_is_ill_formed : ¬ (Instr.bwWrite 65).WellFormed ∧ ¬ (Instr.brRead 65).WellFormed := by decide
theorem test_mode_8_is_ill_formed : ¬ (Instr.accClr 8).WellFormed := by decide
theorem test_digit_10_is_ill_formed : ¬ (Instr.accDigit 10).WellFormed := by decide
theorem test_greatest_immediates_are_well_formed : (Instr.fwPut 8).WellFormed ∧ (Instr.fwGet 8).WellFormed ∧
    (Instr.bwWrite 64).WellFormed ∧ (Instr.brRead 64).WellFormed ∧ (Instr.brMore 255).WellFormed ∧
    (Instr.accClr 7).WellFormed ∧ (Instr.accDigit 9).WellFormed := by decide

/-! ### Decoding: the words of R94 as R90 lays them out -/

theorem test_decode_system :
    decode 0x00000000 = .ok .sysNop ∧
    decode 0x00000001 = .ok .sysClrf ∧
    decode 0x00000002 = .ok .sysReset := by decide

theorem test_decode_fixed_width :
    decode 0x00040010 = .ok (.fwPut 4) ∧
    decode 0x00030011 = .ok (.fwGet 3) ∧
    decode 0x00000012 = .ok .wsel := by decide

theorem test_decode_tagged_varint :
    decode 0x00000018 = .ok .tvPut ∧
    decode 0x00000019 = .ok .tvGet ∧
    decode 0x0000001A = .ok .tvLen := by decide

theorem test_decode_group_varint :
    decode 0x00000020 = .ok .gvEnc ∧
    decode 0x00000021 = .ok .gvDec ∧
    decode 0x00000022 = .ok .gvGetf ∧
    decode 0x00000023 = .ok .gvSize := by decide

theorem test_decode_bp128_encoders_and_decoders :
    decode 0x00000030 = .ok .bpEnc32 ∧
    decode 0x00000230 = .ok .bpEncd32 ∧
    decode 0x00000130 = .ok .bpEnc64 ∧
    decode 0x00000330 = .ok .bpEncd64 ∧
    decode 0x00000031 = .ok .bpDec32 ∧
    decode 0x00000231 = .ok .bpDecd32 ∧
    decode 0x00000131 = .ok .bpDec64 ∧
    decode 0x00000331 = .ok .bpDecd64 := by decide

theorem test_decode_bp128_queries :
    decode 0x00000032 = .ok .bpSize32 ∧
    decode 0x00000232 = .ok .bpSized32 ∧
    decode 0x00000132 = .ok .bpSize64 ∧
    decode 0x00000332 = .ok .bpSized64 ∧
    decode 0x00000033 = .ok .bpMaxb32 ∧
    decode 0x00000233 = .ok .bpMaxbd32 ∧
    decode 0x00000133 = .ok .bpMaxb64 ∧
    decode 0x00000333 = .ok .bpMaxbd64 ∧
    decode 0x00000034 = .ok .bpBenef32 ∧
    decode 0x00000234 = .ok .bpBenefd32 ∧
    decode 0x00000134 = .ok .bpBenef64 ∧
    decode 0x00000334 = .ok .bpBenefd64 ∧
    decode 0x00000035 = .ok .bpSorted32 ∧
    decode 0x00000135 = .ok .bpSorted64 := by decide

theorem test_decode_bit_writer_and_reader :
    decode 0x00090040 = .ok (.bwWrite 9) ∧
    decode 0x00400041 = .ok (.brRead 64) ∧
    decode 0x00FF0042 = .ok (.brMore 255) := by decide

theorem test_decode_gamma :
    decode 0x00000048 = .ok .egPut ∧
    decode 0x00000049 = .ok .egGet ∧
    decode 0x0000004A = .ok .egBits ∧
    decode 0x0000004B = .ok .egEnc32 ∧
    decode 0x0000014B = .ok .egEnc64 ∧
    decode 0x0000004C = .ok .egDec32 ∧
    decode 0x0000014C = .ok .egDec64 := by decide

theorem test_decode_delta :
    decode 0x00000050 = .ok .edPut ∧
    decode 0x00000051 = .ok .edGet ∧
    decode 0x00000052 = .ok .edBits ∧
    decode 0x00000053 = .ok .edEnc32 ∧
    decode 0x00000153 = .ok .edEnc64 ∧
    decode 0x00000054 = .ok .edDec32 ∧
    decode 0x00000154 = .ok .edDec64 := by decide

theorem test_decode_accumulator :
    decode 0x00070060 = .ok (.accClr 7) ∧
    decode 0x00090061 = .ok (.accDigit 9) ∧
    decode 0x00000062 = .ok .accStr ∧
    decode 0x00000063 = .ok .accClass := by decide

/-- The field layout of R90, bit by bit: `IMM` in 23:16, `DLT` in 9, `ESZ` in 8, `OPC` in 7:0. -/
theorem test_decode_bits :
    decode 0b0000_0000__0000_1001__000000_0_0__0100_0000 = .ok (.bwWrite 9) ∧
    decode 0b0000_0000__0000_0000__000000_1_1__0011_0001 = .ok .bpDecd64 ∧
    decode 0b0000_0000__0000_0000__000000_0_1__0101_0011 = .ok .edEnc64 := by decide

/-- The fourteen illegal words of 95_test_vectors.md 2.7. -/
theorem test_illegal_words :
    [0x0000000000000003, 0x0000000000000430, 0x0000000001000030, 0x0000000100000000, 0x0000000000010000,
      0x0000000000000100, 0x0000000000000010, 0x0000000000090010, 0x0000000000410040, 0x0000000000080060,
      0x00000000000A0061, 0x0000000000000235, 0x000000000000014A, 0x0000000000000218].map
      (fun w : Word => (decode w).toOption) = List.replicate 14 none := by decide +kernel

/-! ### Helpers -/

/-- A machine after reset with these bytes at `0x1000`, `SRC = 0x1000`, `DST = 0x2000`, room for 64 bytes, and
then the registers as `f` sets them. -/
def testMachine (source : List Byte) (f : Regs → Regs) : State :=
  { State.reset with
    regs := f { Regs.reset with src := 0x1000, dst := 0x2000, dstcap := 64 }
    mem := State.reset.mem.writeBytes 0x1000 source }

/-- The state after the command; the same state should it be refused. -/
def testAfter (i : Instr) (s : State) : State :=
  match exec i s with
  | .next t => t
  | _ => s

/-- An array of elements of `esz` bytes. -/
def testArray (esz : Nat) (vs : List Nat) : List Byte := vs.flatMap fun v => fieldBytes v esz

/-- `RES`, `RES2`, and the first `n` bytes at `DST` after the command. -/
def testRun (i : Instr) (s : State) (n : Nat) : Word × Word × List Byte :=
  let t := testAfter i s
  (t.regs.res, t.regs.res2, bytesAt t.mem 0x2000 n)

/-- `META_COUNT`, `META_BLOCKS`, `META_BYTES`, `META_LAST`, `META_MAXBW`, `META_BITS` after the command. -/
def testMeta (i : Instr) (s : State) : List Word :=
  let r := (testAfter i s).regs
  [r.metaCount, r.metaBlocks, r.metaBytes, r.metaLast, r.metaMaxbw, r.metaBits]

/-- `FAULT` and `FADDR` after the command. -/
def testFault (i : Instr) (s : State) : Nat × Word :=
  let r := (testAfter i s).regs
  (r.fault.toNat, r.faddr)

/-! ### One step of each command -/

/-- 46_system.md R290. -/
theorem test_sys_nop :
    let s := testMachine [1] fun r => { r with res := 7 }
    testAfter .sysNop s = s := by decide +kernel

/-- 46_system.md R291, its example. -/
theorem test_sys_clrf :
    let s := testMachine [] fun r => { r with status := 0x0300, faddr := 13, fcmd := 0x20, src := 5 }
    (testAfter .sysClrf s).regs = { s.regs with status := 0, faddr := 0, fcmd := 0 } := by decide +kernel

/-- 46_system.md R292, its example. -/
theorem test_sys_reset :
    let s := testMachine [9] fun r => { r with src := 0x1000, status := 1, bwPos := 12 }
    testAfter .sysReset s = { s with regs := Regs.reset } := by decide +kernel

/-- Vector F1; a second store shows the truncation of F2. -/
theorem test_fw_put :
    let s := testMachine [] fun r => { r with arg := 0x1122334455667788, dstcap := 8 }
    testRun (.fwPut 3) s 4 = (3, 0, [0x88, 0x77, 0x66, 0x00]) := by decide +kernel

/-- Vector F7. -/
theorem test_fw_put_overrun :
    let s := testMachine [] fun r => { r with dstcap := 3 }
    testFault (.fwPut 4) s = (3, 4) ∧ (testAfter (.fwPut 4) s).regs.fcmd = 0x00040010 := by decide +kernel

/-- Vector F4. -/
theorem test_fw_get :
    let s := testMachine [0xF1, 0x53, 0x65] fun r => { r with srclen := 3 }
    testRun (.fwGet 3) s 0 = (0x6553F1, 3, []) := by decide +kernel

/-- 95_test_vectors.md 2.7, with the window as the unreadable place. -/
theorem test_fw_get_unreadable :
    let s := testMachine [] fun r => { r with src := 0x7FFFFFFFFFFFFFFD, srclen := 8 }
    testFault (.fwGet 8) s = (11, 0x8000000000000000) := by decide +kernel

/-- The example of 40_fixed_width_wsel.md R117. -/
theorem test_wsel :
    let s := testMachine [] fun r => { r with arg := 94102 }
    testRun .wsel s 0 = (0x113243, 47, []) := by decide +kernel

/-- 95_test_vectors.md 2.1. -/
theorem test_wsel_greatest :
    let s := testMachine [] fun r => { r with arg := 0xFFFFFFFFFFFFFFFF }
    testRun .wsel s 0 = (0x409388, 0, []) := by decide +kernel

/-- The example of 41_tagged_varint.md R134. -/
theorem test_tv_put :
    let s := testMachine [] fun r => { r with arg := 1000 }
    testRun .tvPut s 3 = (2, 0, [0x68, 0x0F, 0x00]) := by decide +kernel

/-- 95_test_vectors.md 2.2. -/
theorem test_tv_put_nine_bytes :
    let s := testMachine [] fun r => { r with arg := 0x0100000000000000 }
    testRun .tvPut s 9 = (9, 0, [0, 0, 0, 0, 0, 0, 0, 0, 1]) := by decide +kernel

/-- The example of 41_tagged_varint.md R135. -/
theorem test_tv_get :
    let s := testMachine [0x6C, 0x04] fun r => { r with srclen := 2 }
    testRun .tvGet s 0 = (300, 2, []) := by decide +kernel

/-- 95_test_vectors.md 2.2. -/
theorem test_tv_get_longer_spelling :
    let s := testMachine [0, 1] fun r => { r with srclen := 9 }
    testRun .tvGet s 0 = (1, 9, []) := by decide +kernel

/-- The example of 41_tagged_varint.md R136. -/
theorem test_tv_len :
    let s := testMachine [] fun r => { r with arg := 16384 }
    testRun .tvLen s 0 = (3, 0, []) := by decide +kernel

/-- Vector G1. -/
theorem test_gv_enc :
    let s := testMachine (testArray 8 [25, 50000, 94102, 1700000000]) fun r => { r with cnt := 4 }
    testRun .gvEnc s 13 = (13, 0, [0x04, 0xA4, 0x19, 0x50, 0xC3, 0x96, 0x6F, 0x01, 0x00, 0x00, 0xF1, 0x53, 0x65]) := by decide +kernel

/-- Vector G4. -/
theorem test_gv_enc_two_bitmap_bytes :
    let s := testMachine (testArray 8 [1, 256, 65536, 2 ^ 32, 5]) fun r => { r with cnt := 5 }
    testRun .gvEnc s 19 = (19, 0, [0x05, 0xE4, 0x00, 0x01, 0x00, 0x01, 0x00, 0x00, 0x01, 0x00, 0x00, 0x00, 0x00, 0x00, 0x01, 0x00, 0x00, 0x00, 0x05]) := by decide +kernel

/-- Vector G4 decoded with CNT = 3. -/
theorem test_gv_dec :
    let s := testMachine [0x05, 0xE4, 0x00, 0x01, 0x00, 0x01, 0x00, 0x00, 0x01, 0x00, 0x00, 0x00, 0x00, 0x00, 0x01, 0x00, 0x00, 0x00, 0x05] fun r => { r with srclen := 19, cnt := 3, dstcap := 24 }
    testRun .gvDec s 24 = (3, 19, testArray 8 [1, 256, 65536]) := by decide +kernel

/-- Vector G1 with SRCLEN = 12. -/
theorem test_gv_dec_cut_short :
    let s := testMachine [0x04, 0xA4, 0x19, 0x50, 0xC3, 0x96, 0x6F, 0x01, 0x00, 0x00, 0xF1, 0x53, 0x65] fun r => { r with srclen := 12, cnt := 4 }
    testFault .gvDec s = (2, 13) := by decide +kernel

/-- Vector G1, field 2. -/
theorem test_gv_getf :
    let s := testMachine [0x04, 0xA4, 0x19, 0x50, 0xC3, 0x96, 0x6F, 0x01, 0x00, 0x00, 0xF1, 0x53, 0x65] fun r => { r with srclen := 13, arg := 2 }
    testRun .gvGetf s 0 = (4, 94102, []) := by decide +kernel

/-- Vector G1, field 4. -/
theorem test_gv_getf_past_the_count :
    let s := testMachine [0x04, 0xA4, 0x19, 0x50, 0xC3, 0x96, 0x6F, 0x01, 0x00, 0x00, 0xF1, 0x53, 0x65] fun r => { r with srclen := 13, arg := 4, res := 9 }
    testRun .gvGetf s 0 = (0, 0, []) := by decide +kernel

/-- Vector G4. -/
theorem test_gv_size :
    let s := testMachine (testArray 8 [1, 256, 65536, 2 ^ 32, 5]) fun r => { r with cnt := 5 }
    testRun .gvSize s 0 = (19, 0, []) := by decide +kernel

/-- Vector B16. -/
theorem test_bp_enc32 :
    let s := testMachine (testArray 4 [1, 2, 3]) fun r => { r with cnt := 3, metaBits := 8 }
    testRun .bpEnc32 s 3 = (3, 0, [0x82, 0x03, 0x39]) ∧
      testMeta .bpEnc32 s = [3, 1, 3, 3, 2, 8] := by decide +kernel

/-- Vector B20. -/
theorem test_bp_encd32 :
    let s := testMachine (testArray 4 [10, 13, 13, 20]) fun r => { r with cnt := 4, metaBits := 8 }
    testRun .bpEncd32 s 5 = (5, 0, [0x8A, 0x83, 0x03, 0xC3, 0x01]) ∧
      testMeta .bpEncd32 s = [4, 1, 5, 3, 3, 8] := by decide +kernel

/-- Vector B21. -/
theorem test_bp_enc64 :
    let s := testMachine (testArray 8 [10, 13, 13, 20]) fun r => { r with cnt := 4, metaBits := 8 }
    testRun .bpEnc64 s 6 = (6, 0, [0x84, 0x85, 0x04, 0xAA, 0x35, 0x0A]) ∧
      testMeta .bpEnc64 s = [4, 1, 6, 4, 5, 8] := by decide +kernel

/-- Vector B19. -/
theorem test_bp_encd64 :
    let s := testMachine (testArray 8 [0, 2 ^ 64 - 1]) fun r => { r with cnt := 2, metaBits := 8 }
    testRun .bpEncd64 s 12 = (12, 0, [0x82, 0x80, 0xC0, 0x01, 0xFF, 0xFF, 0xFF, 0xFF, 0xFF, 0xFF, 0xFF, 0xFF]) ∧
      testMeta .bpEncd64 s = [2, 1, 12, 1, 64, 8] := by decide +kernel

/-- Vector B10. -/
theorem test_bp_enc32_full_block :
    let s := testMachine [] fun r => { r with cnt := 128 }
    testRun .bpEnc32 s 1 = (1, 0, [0]) ∧ testMeta .bpEnc32 s = [128, 1, 1, 128, 0, 0] := by decide +kernel

/-- 95_test_vectors.md 2.4, queries. -/
theorem test_bp_encd32_decreasing :
    let s := testMachine (testArray 4 [5, 4, 9]) fun r => { r with cnt := 3 }
    testFault .bpEncd32 s = (8, 1) := by decide +kernel

/-- Vector B30. -/
theorem test_bp_dec32 :
    let s := testMachine [0x82, 0x03, 0x39] fun r => { r with srclen := 3, cnt := 10 }
    testRun .bpDec32 s 12 = (3, 3, testArray 4 [1, 2, 3]) := by decide +kernel

/-- Vector B34. -/
theorem test_bp_decd32 :
    let s := testMachine [0x8A, 0x83, 0x03, 0xC3, 0x01] fun r => { r with srclen := 5, cnt := 4 }
    testRun .bpDecd32 s 16 = (4, 5, testArray 4 [10, 13, 13, 20]) := by decide +kernel

/-- Vector B37. -/
theorem test_bp_dec64 :
    let s := testMachine [0x84, 0x85, 0x04, 0xAA, 0x35, 0x0A] fun r => { r with srclen := 6, cnt := 2 }
    testRun .bpDec64 s 16 = (2, 6, testArray 8 [10, 13]) := by decide +kernel

/-- Vector B38. -/
theorem test_bp_decd64 :
    let s := testMachine [0x82, 0x80, 0xC0, 0x01, 0xFF, 0xFF, 0xFF, 0xFF, 0xFF, 0xFF, 0xFF, 0xFF] fun r => { r with srclen := 12, cnt := 2 }
    testRun .bpDecd64 s 16 = (2, 12, testArray 8 [0, 2 ^ 64 - 1]) := by decide +kernel

/-- Vector B44. -/
theorem test_bp_dec64_wrong_partial_count :
    let s := testMachine [0x83, 0x82, 0x02, 0x09] fun r => { r with srclen := 4, cnt := 3 }
    testFault .bpDec64 s = (7, 2) := by decide +kernel

/-- Vector B46. -/
theorem test_bp_decd32_overflow :
    let s := testMachine [0x0F, 0xFF, 0xFF, 0xFF, 0x1F, 0x81, 0x01, 0x01] fun r => { r with srclen := 8, cnt := 2 }
    testFault .bpDecd32 s = (9, 1) := by decide +kernel

/-- The example of 43_bp128.md R192. -/
theorem test_bp_size32 :
    let s := testMachine (testArray 4 [1, 2, 3]) fun r => { r with cnt := 3 }
    testRun .bpSize32 s 0 = (3, 0, []) := by decide +kernel

/-- The example of 43_bp128.md R193. -/
theorem test_bp_sized32 :
    let s := testMachine (testArray 4 [1000, 1010, 1020]) fun r => { r with cnt := 3 }
    testRun .bpSized32 s 0 = (5, 0, []) := by decide +kernel

/-- The example of 43_bp128.md R194. -/
theorem test_bp_size64 :
    let s := testMachine (testArray 8 [1, 2, 3]) fun r => { r with cnt := 3 }
    testRun .bpSize64 s 0 = (4, 0, []) := by decide +kernel

/-- The example of 43_bp128.md R195. -/
theorem test_bp_sized64 :
    let s := testMachine (testArray 8 [5, 5, 9]) fun r => { r with cnt := 3 }
    testRun .bpSized64 s 0 = (5, 0, []) := by decide +kernel

/-- 95_test_vectors.md 2.4, the table of bounds. -/
theorem test_bp_maxb32 :
    let s := testMachine (testArray 4 []) fun r => { r with cnt := 200 }
    testRun .bpMaxb32 s 0 = (803, 803, []) := by decide +kernel

/-- 95_test_vectors.md 2.4, the table of bounds. -/
theorem test_bp_maxbd32 :
    let s := testMachine (testArray 4 []) fun r => { r with cnt := 128 }
    testRun .bpMaxbd32 s 0 = (518, 513, []) := by decide +kernel

/-- 95_test_vectors.md 2.4, the table of bounds. -/
theorem test_bp_maxb64 :
    let s := testMachine (testArray 4 []) fun r => { r with cnt := 129 }
    testRun .bpMaxb64 s 0 = (1044, 1035, []) := by decide +kernel

/-- 95_test_vectors.md 2.4, the table of bounds. -/
theorem test_bp_maxbd64 :
    let s := testMachine (testArray 4 []) fun r => { r with cnt := 1 }
    testRun .bpMaxbd64 s 0 = (28, 10, []) := by decide +kernel

/-- 43_bp128.md R209. -/
theorem test_bp_maxb64_saturates :
    let s := testMachine [] fun r => { r with cnt := 0x2000000000000000 }
    testRun .bpMaxb64 s 0 = (0xFFFFFFFFFFFFFFFF, 0xFFFFFFFFFFFFFFFF, []) := by decide +kernel

/-- 95_test_vectors.md 2.4, queries. -/
theorem test_bp_benef32 :
    let s := testMachine (testArray 4 [2 ^ 32 - 1]) fun r => { r with cnt := 1 }
    testRun .bpBenef32 s 0 = (0, 0, []) := by decide +kernel

/-- 5 bytes (R193) are fewer than 12 (43_bp128.md R201). -/
theorem test_bp_benefd32 :
    let s := testMachine (testArray 4 [1000, 1010, 1020]) fun r => { r with cnt := 3 }
    testRun .bpBenefd32 s 0 = (1, 0, []) := by decide +kernel

/-- The example of 43_bp128.md R202. -/
theorem test_bp_benef64 :
    let s := testMachine (testArray 8 [1, 2, 3]) fun r => { r with cnt := 3 }
    testRun .bpBenef64 s 0 = (1, 0, []) := by decide +kernel

/-- The example of 43_bp128.md R203. -/
theorem test_bp_benefd64 :
    let s := testMachine (testArray 8 [5, 5, 9]) fun r => { r with cnt := 3 }
    testRun .bpBenefd64 s 0 = (1, 0, []) := by decide +kernel

/-- The example of 43_bp128.md R204. -/
theorem test_bp_sorted32 :
    let s := testMachine (testArray 4 [5, 4]) fun r => { r with cnt := 2 }
    testRun .bpSorted32 s 0 = (0, 0, []) := by decide +kernel

/-- The example of 43_bp128.md R205. -/
theorem test_bp_sorted64 :
    let s := testMachine (testArray 8 [0, 2 ^ 64 - 1]) fun r => { r with cnt := 2 }
    testRun .bpSorted64 s 0 = (1, 0, []) := by decide +kernel

/-- The example of 44_elias.md R228. -/
theorem test_bw_write :
    let s := testMachine [0xA0, 0xEE, 0xEE] fun r => { r with bwBase := 0x1000, bwCap := 8, bwPos := 3, arg := 0x1FF }
    let t := testAfter (.bwWrite 9) s
    (t.regs.res, t.regs.bwPos, bytesAt t.mem 0x1000 3) = (9, 12, [0xBF, 0xF0, 0xEE]) := by decide +kernel

/-- 95_test_vectors.md 2.5. -/
theorem test_bw_write_overrun :
    let s := testMachine [] fun r => { r with bwBase := 0x1000, bwCap := 1 }
    testFault (.bwWrite 9) s = (3, 2) ∧ (testAfter (.bwWrite 9) s).regs.bwPos = 0 := by decide +kernel

/-- The example of 44_elias.md R229. -/
theorem test_br_read :
    let s := testMachine [0xBF, 0xF0] fun r => { r with brBase := 0x1000, brEnd := 12, brPos := 3, status := 4 }
    (testAfter (.brRead 9) s).regs = { s.regs with res := 0x1FF, brPos := 12, status := 0 } := by decide +kernel

/-- The example of 44_elias.md R229. -/
theorem test_br_read_past_the_end :
    let s := testMachine [0xBF, 0xF0] fun r => { r with brBase := 0x1000, brEnd := 12, brPos := 12, res := 3 }
    (testAfter (.brRead 1) s).regs = { s.regs with res := 0, status := 4 } := by decide +kernel

/-- The example of 44_elias.md R230. -/
theorem test_br_more :
    let s := testMachine [] fun r => { r with brEnd := 12, brPos := 3 }
    (testRun (.brMore 9) s 0).1 = 1 ∧ (testRun (.brMore 10) s 0).1 = 0 := by decide +kernel

/-- Program P3. -/
theorem test_eg_put :
    let s := testMachine [0xA0] fun r => { r with bwBase := 0x1000, bwCap := 8, bwPos := 3, arg := 5 }
    let t := testAfter .egPut s
    (t.regs.res, t.regs.bwPos, bytesAt t.mem 0x1000 1) = (5, 8, [0xA5]) := by decide +kernel

/-- 95_test_vectors.md 2.5. -/
theorem test_eg_put_zero :
    testFault .egPut (testMachine [] id) = (10, 0) := by decide +kernel

/-- The example of 44_elias.md R232, the fifth word. -/
theorem test_eg_get :
    let s := testMachine [0xA6, 0x42, 0x80] fun r => { r with brBase := 0x1000, brEnd := 17, brPos := 12, status := 4 }
    (testAfter .egGet s).regs = { s.regs with res := 5, res2 := 5, brPos := 17, status := 0 } := by decide +kernel

/-- The example of 44_elias.md R232, the sixth. -/
theorem test_eg_get_at_the_end :
    let s := testMachine [0xA6, 0x42, 0x80] fun r => { r with brBase := 0x1000, brEnd := 17, brPos := 17, res2 := 5 }
    (testAfter .egGet s).regs = { s.regs with res := 0, res2 := 0, status := 4 } := by decide +kernel

/-- The example of 44_elias.md R233. -/
theorem test_eg_bits :
    let s := testMachine [] fun r => { r with arg := 0xFFFFFFFFFFFFFFFF }
    (testRun .egBits s 0).1 = 127 ∧ (testRun .egBits (testMachine [] id) 0).1 = 0 := by decide +kernel

/-- Vector E1. -/
theorem test_eg_enc32 :
    let s := testMachine (testArray 4 [1, 2, 3, 4, 5]) fun r => { r with cnt := 5, metaLast := 8 }
    testRun .egEnc32 s 3 = (3, 0, [0xA6, 0x42, 0x80]) ∧
      testMeta .egEnc32 s = [5, 0, 3, 8, 0, 17] := by decide +kernel

/-- Vector E12. -/
theorem test_eg_enc64 :
    let s := testMachine (testArray 8 [2 ^ 32]) fun r => { r with cnt := 1, metaLast := 8 }
    testRun .egEnc64 s 9 = (9, 0, [0x00, 0x00, 0x00, 0x00, 0x80, 0x00, 0x00, 0x00, 0x00]) ∧
      testMeta .egEnc64 s = [1, 0, 9, 8, 0, 65] := by decide +kernel

/-- Vector E15. -/
theorem test_eg_enc32_zero :
    let s := testMachine (testArray 4 [3, 0, 5, 0]) fun r => { r with cnt := 4 }
    testFault .egEnc32 s = (10, 1) := by decide +kernel

/-- Vector E23. -/
theorem test_eg_dec32 :
    let s := testMachine [0xA6, 0x42, 0x80] fun r => { r with bitlen := 24, cnt := 10 }
    testRun .egDec32 s 20 = (5, 17, testArray 4 [1, 2, 3, 4, 5]) ∧
      (testAfter .egDec32 s).regs.status = 4 := by decide +kernel

/-- Vector E27. -/
theorem test_eg_dec64 :
    let s := testMachine [0x00, 0x00, 0x00, 0x00, 0x80, 0x00, 0x00, 0x00, 0x00] fun r => { r with bitlen := 65, cnt := 1 }
    testRun .egDec64 s 8 = (1, 65, testArray 8 [2 ^ 32]) ∧
      (testAfter .egDec64 s).regs.status = 0 := by decide +kernel

/-- Vector E26. -/
theorem test_eg_dec32_value_too_wide :
    let s := testMachine [0x00, 0x00, 0x00, 0x00, 0x80, 0x00, 0x00, 0x00, 0x00] fun r => { r with bitlen := 65, cnt := 1 }
    testRun .egDec32 s 0 = (0, 0, testArray 4 []) ∧
      (testAfter .egDec32 s).regs.status = 4 := by decide +kernel

/-- Program P3. -/
theorem test_ed_put :
    let s := testMachine [0xA5, 0xFF] fun r => { r with bwBase := 0x1000, bwCap := 8, bwPos := 8, arg := 10 }
    let t := testAfter .edPut s
    (t.regs.res, t.regs.bwPos, bytesAt t.mem 0x1000 2) = (8, 16, [0xA5, 0x22]) := by decide +kernel

/-- Program P3. -/
theorem test_ed_get :
    let s := testMachine [0xA5, 0x22] fun r => { r with brBase := 0x1000, brEnd := 16, brPos := 8 }
    (testAfter .edGet s).regs = { s.regs with res := 10, res2 := 8, brPos := 16 } := by decide +kernel

/-- The example of 44_elias.md R240. -/
theorem test_ed_bits :
    let s := testMachine [] fun r => { r with arg := 0xFFFFFFFFFFFFFFFF }
    (testRun .edBits s 0).1 = 76 ∧ (testRun .edBits (testMachine [] id) 0).1 = 0 := by decide +kernel

/-- Vector E2. -/
theorem test_ed_enc32 :
    let s := testMachine (testArray 4 [1, 2, 3, 4, 5]) fun r => { r with cnt := 5, metaLast := 8 }
    testRun .edEnc32 s 3 = (3, 0, [0xA2, 0xB1, 0xA0]) ∧
      testMeta .edEnc32 s = [5, 0, 3, 8, 0, 19] := by decide +kernel

/-- Vector E11. -/
theorem test_ed_enc64 :
    let s := testMachine (testArray 8 [2 ^ 64 - 1]) fun r => { r with cnt := 1, metaLast := 8 }
    testRun .edEnc64 s 10 = (10, 0, [0x02, 0x07, 0xFF, 0xFF, 0xFF, 0xFF, 0xFF, 0xFF, 0xFF, 0xF0]) ∧
      testMeta .edEnc64 s = [1, 0, 10, 8, 0, 76] := by decide +kernel

/-- Vector E24. -/
theorem test_ed_dec32 :
    let s := testMachine [0xA2, 0xB1, 0xA0] fun r => { r with bitlen := 19, cnt := 10 }
    testRun .edDec32 s 20 = (5, 19, testArray 4 [1, 2, 3, 4, 5]) ∧
      (testAfter .edDec32 s).regs.status = 0 := by decide +kernel

/-- Vector E29. -/
theorem test_ed_dec64 :
    let s := testMachine [0x04, 0x20, 0x00, 0x00, 0x00, 0x00] fun r => { r with bitlen := 43, cnt := 1 }
    testRun .edDec64 s 8 = (1, 43, testArray 8 [2 ^ 32]) ∧
      (testAfter .edDec64 s).regs.status = 0 := by decide +kernel

/-- The example of 45_acc128.md R272, with MALF set. -/
theorem test_acc_clr :
    let s := testMachine [] fun r => { r with acc := 9, accNdig := 1, status := 0x05 }
    (testAfter (.accClr 7) s).regs = { s.regs with acc := 0, accNdig := 0, status := 0x36 } := by decide +kernel

/-- The example of 45_acc128.md R274. -/
theorem test_acc_digit :
    let s := testMachine [] fun r => { r with acc := 1844674407370955161, accNdig := 19 }
    (testAfter (.accDigit 5) s).regs = { s.regs with acc := 0xFFFFFFFFFFFFFFFF, accNdig := 20 } := by decide +kernel

/-- The example of 45_acc128.md R274. -/
theorem test_acc_digit_overflow :
    let s := testMachine [] fun r => { r with acc := 1844674407370955161, accNdig := 19 }
    (testAfter (.accDigit 6) s).regs = { s.regs with status := 1, accNdig := 20 } := by decide +kernel

/-- The example of 45_acc128.md R275. -/
theorem test_acc_str :
    let s := testMachine [0x32, 0x39, 0x39, 0x2E, 0x35] fun r => { r with cnt := 5 }
    (testAfter .accStr s).regs = { s.regs with acc := 299, accNdig := 3, res := 3, res2 := 0x2E } := by decide +kernel

/-- 45_acc128.md R275. -/
theorem test_acc_str_all_digits :
    let s := testMachine [0x30, 0x37] fun r => { r with cnt := 2 }
    (testAfter .accStr s).regs = { s.regs with acc := 7, accNdig := 2, res := 2, res2 := 256 } := by decide +kernel

/-- Vectors A13 and A15. -/
theorem test_acc_class :
    let s := testMachine [] fun r => { r with acc := 0x80000000000000000000000000000000, status := 0x32 }
    (testRun .accClass s 0).1 = 3 ∧
      (testRun .accClass (testMachine [] fun r => { r with acc := 0x7FFFFFFFFFFFFFFFFFFFFFFFFFFFFFFF, status := 0x30 }) 0).1 = 4 := by decide +kernel

/-- 95_test_vectors.md 2.7. -/
theorem test_extent_ends_at_the_top :
    let s := testMachine [] fun r => { r with src := 0xFFFFFFFFFFFFFFFC, cnt := 2 }
    testFault .bpSize32 s = (4, 0xFFFFFFFFFFFFFFFC) ∧
      testFault .bpSize32 { s with regs := { s.regs with cnt := 1 } } = (0, 0) := by decide +kernel

/-- 95_test_vectors.md 2.7. -/
theorem test_overlap :
    let s := testMachine [] fun r => { r with cnt := 4, dst := 0x100C, dstcap := 16 }
    testFault .bpEnc32 s = (5, 0x100C) ∧
      testFault .bpEnc32 { s with regs := { s.regs with dst := 0x1010 } } = (0, 0) := by decide +kernel

/-! ### The host port -/

/-- Program P5 from its fault on: `WSEL` is ignored, then `SYS.CLRF` acknowledges. -/
theorem test_faulted_block_ignores :
    let s := testMachine [] fun r => { r with status := 0x0300, faddr := 13, fcmd := 0x20, arg := 94102 }
    (match step (s.withFetchWord 32 0x12) with | .next t => some t.regs | _ => none) = some s.regs ∧
    (match step (s.withFetchWord 32 0x01) with | .next t => some t.regs | _ => none)
      = some { s.regs with status := 0, faddr := 0, fcmd := 0 } := by decide +kernel

/-- 10_state.md R38, R22: a host read of `ID`, and a misaligned one. -/
theorem test_host_read :
    (match step { State.reset with pending := [.readReg 0xE0 8] } with | .next t => t.replies | _ => [])
      = [0x0000000742503132] ∧
    (match step { State.reset with pending := [.readReg 0xE4 8] } with | .refused r => some r | _ => none)
      = some (.windowAccess 0xE4 8) := by decide +kernel

/-- `decodeTableWord` reads the table's numbering; the first step after reset runs the word. -/
theorem test_table_word :
    decodeTableWord 32 0x00070060 = some (.accClr 7) ∧
    (match step (State.reset.withFetchWord 32 0x00070060) with | .next t => t.regs.status | _ => 0) = 0x32 := by
  decide +kernel

/-! ### The hypotheses of the statements are met

One theorem for each statement that has hypotheses, with the boundary values of its clauses. The register
window of the reset platform starts at `2^63` and is neither readable nor writable, so an extent that runs into
it meets its first refused byte there. -/

/-- After reset with these host actions pending. -/
def testHost (actions : List HostAction) : State := { State.reset with pending := actions }

/-- A platform that admits every address, its register window too. -/
def testOpenPlatform : Platform :=
  { mmioBase := 0x8000000000000000, readable := [⟨0, 2 ^ 64⟩], writable := [⟨0, 2 ^ 64⟩] }

/-- The block may read this many bytes at `0x1000` and write this many at `0x2000`, and no others. -/
def testLimits (s : State) (readable writable : Nat) : State :=
  { s with platform :=
      { s.platform with readable := [⟨0x1000, readable⟩], writable := [⟨0x2000, writable⟩] } }

/-- The first `k` bytes at `DST` may be written and the next may not. -/
abbrev StopsWritingAt (s : State) (k : Nat) : Prop :=
  Writes s s.regs.dst.toNat k ∧ canWrite s.platform (s.regs.dst.toNat + k) = false

/-- A stream of these blocks; the prefixes say that there are `total` values and, for delta, that the first
is 5. -/
def testStream (v : Variant) (total : Nat) (blocks : List Byte) : List Byte :=
  (if v.wide then tvEncode total else []) ++ (if v.delta then tvEncode 5 else []) ++ blocks

/-- That stream as the source, with `CNT = 200`. -/
def testDecoding (v : Variant) (total : Nat) (blocks : List Byte) : State :=
  testMachine (testStream v total blocks) fun r =>
    { r with srclen := BitVec.ofNat 64 (testStream v total blocks).length, cnt := 200 }

theorem meets_OpcodeMapDecodes :
    (Instr.fwPut 1).WellFormed ∧ (Instr.fwPut 8).WellFormed ∧ (Instr.bwWrite 0).WellFormed ∧
    (Instr.brMore 255).WellFormed ∧ Instr.accStr.WellFormed ∧
    (∀ row ∈ opcodeMap, row.1 ≠ (3 : Word).toNat % 256) ∧
    (∀ row ∈ opcodeMap, row.1 ≠ (0xFF : Word).toNat % 256) := by decide +kernel

theorem meets_StepRunsTheDecodedCommand :
    (testHost [.writeReg 0 8 0x00080010]).pending = .writeReg 0 8 0x00080010 :: [] ∧
    decode 0x00080010 = .ok (.fwPut 8) := by decide +kernel

theorem meets_IllegalWordsFault :
    (testHost [.writeReg 0 8 0x00090010]).faulted = false ∧
    (testHost [.writeReg 0 8 0x00090010]).pending = .writeReg 0 8 0x00090010 :: [] ∧
    (∀ i : Instr, i.WellFormed → encode i ≠ 0x00090010) ∧
    ∀ i : Instr, i.WellFormed → encode i ≠ 0xFFFFFFFFFFFFFFFF := by
  refine ⟨by decide, by decide, ?_, ?_⟩ <;> intro i <;> cases i <;>
    first | decide | (rename_i imm; revert imm; decide +kernel)

theorem meets_ResetGivesEveryRegisterItsValue : (testHost [.reset]).pending = .reset :: [] := by decide

theorem meets_FaultedBlockIgnoresCommands :
    let s (a : HostAction) := { testHost [a] with regs := { Regs.reset with status := 0x0300 } }
    (∀ a ∈ [.writeReg 0 8 1, .writeReg 0 8 2, .writeReg 0 8 3, .readReg 0x08 8, .writeReg 0x10 8 5,
        .writeReg 0x08 8 5, .writeReg 0xF8 8 5], (s a).faulted = true ∧ (s a).pending = a :: []) ∧
    (0x08, (s (.readReg 0x08 8)).regs.status) ∈ registerMap (s (.readReg 0x08 8)).regs ∧
    (0x10, { (s (.writeReg 0x10 8 5)).regs with src := 5 }) ∈ writableMap (s (.writeReg 0x10 8 5)).regs 5 ∧
    (∀ offset ∈ [0x08, 0xF8], offset % 8 = 0 ∧ 0 < offset ∧ offset < 256 ∧
      ∀ p ∈ writableMap (s (.writeReg offset 8 5)).regs 5, p.1 ≠ offset) := by decide +kernel

theorem meets_HostReadReturnsTheRegister :
    let s := testHost [.readReg 0xF8 8]
    (0xF8, (0 : Word)) ∈ registerMap s.regs ∧ (0x00, (0 : Word)) ∈ registerMap s.regs ∧
    s.pending = .readReg 0xF8 8 :: [] := by decide +kernel

theorem meets_HostWriteStoresOneRegister :
    let s := testHost [.writeReg 0xB0 8 7]
    ((0xB0, { s.regs with brPos := 7 }) ∈ writableMap s.regs 7 ∧ s.pending = .writeReg 0xB0 8 7 :: []) ∧
    (0xF8 % 8 = 0 ∧ 0 < 0xF8 ∧ 0xF8 < 256 ∧ (∀ p ∈ writableMap s.regs 7, p.1 ≠ 0xF8) ∧
      (testHost [.writeReg 0xF8 8 7]).pending = .writeReg 0xF8 8 7 :: []) ∧
    ((4 ≠ 8 ∨ 0x10 % 8 ≠ 0 ∨ 256 ≤ 0x10) ∧ (testHost [.writeReg 0x10 4 7]).pending = .writeReg 0x10 4 7 :: []) ∧
    ((8 ≠ 8 ∨ 0x104 % 8 ≠ 0 ∨ 256 ≤ 0x104) ∧ (testHost [.readReg 0x104 8]).pending = .readReg 0x104 8 :: []) ∧
    ((8 ≠ 8 ∨ 256 % 8 ≠ 0 ∨ 256 ≤ 256) ∧ (testHost [.readReg 256 8]).pending = .readReg 256 8 :: []) := by
  decide +kernel

theorem meets_HostMemoryIsOrdinary :
    let s := testHost [.writeMem 0x7FFFFFFFFFFFFFFF 5]
    s.mem.wf ∧ inWindow s.platform (0x7FFFFFFFFFFFFFFF : Word).toNat = false ∧
    s.pending = .writeMem 0x7FFFFFFFFFFFFFFF 5 :: [] ∧
    (testHost [.readMem 0x7FFFFFFFFFFFFFFF]).pending = .readMem 0x7FFFFFFFFFFFFFFF :: [] := by decide +kernel

theorem meets_StepPerformsOneAction :
    (testHost []).pending = [] ∧ ∃ t, step (testHost [.readReg 0xE0 8]) = .next t := by
  exact ⟨rfl, _, rfl⟩

theorem meets_FaultChangesOnlyTheRecord :
    let s := testMachine [] fun r => { r with dstcap := 3 }
    let w := testLimits (testMachine [] fun r => r) 0 2
    let u := testHost [.writeReg 0 8 3]
    (Ready s ∧ exec (.fwPut 4) s = .next (testAfter (.fwPut 4) s) ∧ (testAfter (.fwPut 4) s).faulted = true) ∧
    (Ready w ∧ exec (.fwPut 4) w = .next (testAfter (.fwPut 4) w) ∧ (testAfter (.fwPut 4) w).faulted = true) ∧
    u.faulted = false ∧ u.pending = .writeReg 0 8 3 :: [] ∧ decode 3 = .error (.unknownOpcode 3) := by
  exact ⟨⟨by decide +kernel, rfl, by decide +kernel⟩, ⟨by decide +kernel, rfl, by decide +kernel⟩, by decide,
    rfl, by decide⟩

theorem meets_RegistersAreWrittenOnlyByTheirCommands :
    let s := testMachine [] fun r => { r with arg := 94102, status := 1 }
    let f := testMachine [] fun r => { r with status := 0x0300 }
    (Instr.tvLen ≠ .sysReset ∧ exec .tvLen s = .next (testAfter .tvLen s) ∧
      (∀ p ∈ bpEncoders, Instr.tvLen ≠ p.1) ∧ (∀ p ∈ eliasEncoders, Instr.tvLen ≠ p.1) ∧
      (∀ p ∈ eliasDecoders, Instr.tvLen ≠ p.1) ∧ s.regs.ovf = true ∧ Instr.tvLen ≠ .sysClrf ∧
      (testAfter .tvLen s).faulted = s.faulted ∧ (writesResults .tvLen).2 = false) ∧
    (exec (.accDigit 1) s = .next (testAfter (.accDigit 1) s) ∧ (testAfter (.accDigit 1) s).faulted = s.faulted ∧
      (writesResults (.accDigit 1)).1 = false) ∧
    (f.faulted = true ∧ exec .sysClrf f = .next (testAfter .sysClrf f) ∧ (writesResults .sysClrf).1 = false) := by
  exact ⟨⟨by decide, rfl, by decide, by decide, by decide, by decide, by decide, by decide +kernel, rfl⟩,
    ⟨rfl, by decide +kernel, rfl⟩, by decide, rfl, rfl⟩

theorem meets_StoresStayInTheDestinationExtent :
    let s := testMachine [] fun r => { r with arg := 7 }
    exec (.fwPut 8) s = .next (testAfter (.fwPut 8) s) ∧ destExtent (.fwPut 8) s = (0x2000, 64) ∧
    ¬ Within 0x1FFF (destExtent (.fwPut 8) s) ∧ ¬ Within 0x2040 (destExtent (.fwPut 8) s) := by
  exact ⟨rfl, by decide +kernel, by decide +kernel, by decide +kernel⟩

theorem meets_OutcomeDependsOnlyOnTheSourceExtent :
    let s := testMachine [0xF1, 0x53] fun r =>
      { r with srclen := 2, bwBase := 0x1000, bwCap := 4, bwPos := 3, arg := 9 }
    let m := s.mem.writeBytes 0x2000 [7]
    s.mem.wf ∧ m.wf ∧ s.mem ≠ m ∧
    (∀ x, Within x (sourceExtent (.fwGet 2) s) → s.mem.read x = m.read x) ∧
    (∀ x, Within x (sourceExtent (.bwWrite 4) s) → s.mem.read x = m.read x) ∧
    appendedBits (.bwWrite 4) s ≠ none ∧
    s.mem.read (s.regs.bwBase.toNat + s.regs.bwPos.toNat / 8)
      = m.read (s.regs.bwBase.toNat + s.regs.bwPos.toNat / 8) := by
  refine ⟨by decide +kernel, by decide +kernel, by decide +kernel, ?_, ?_, by decide +kernel, by decide +kernel⟩
  · rintro x ⟨h, h'⟩
    have h1 : 0x1000 ≤ x := h
    have h2 : x < 0x1000 + 2 := h'
    obtain rfl | rfl : x = 0x1000 ∨ x = 0x1001 := by omega
    · decide +kernel
    · decide +kernel
  · rintro x ⟨h, h'⟩
    have h2 : x < 0 + 0 := h'
    omega

/-- For `StepKeepsMemoryCanonical`, `StepKeepsStatusLegal` and `StepKeepsAccumulatorInRange`. -/
theorem meets_StepKeepsInvariants :
    let s := testHost [.writeReg 0 8 0x00070060]
    s.mem.wf ∧ MemoryInSpace s ∧ StatusLegal s ∧ AccInRange s ∧
    ∃ t, step s = .next t ∧ t.regs.mode = 3 := by
  exact ⟨by decide +kernel, by decide +kernel, by decide +kernel, by decide +kernel, _, rfl, by decide +kernel⟩

theorem meets_CommandsAreRefusedOnlyAtTheOwnWindow :
    exec (.fwGet 1) { State.reset with
        platform := testOpenPlatform, regs := { Regs.reset with src := 0x8000000000000000, srclen := 1 } }
      = .refused (.ownWindow 0x8000000000000000) ∧
    ∀ a, inWindow State.reset.platform a = true →
      canRead State.reset.platform a = false ∧ canWrite State.reset.platform a = false := by
  refine ⟨rfl, fun a h => ?_⟩
  have h' : 0x8000000000000000 ≤ a ∧ a < 0x8000000000000000 + 256 := by
    simpa [inWindow, State.reset, Config.resetPlatform, Config.windowBytes] using h
  constructor <;>
    simp [canRead, canWrite, State.reset, Config.resetPlatform, Config.allButWindow, Region.holds] <;> omega

theorem meets_ExtentFaultsComeFirst :
    let s := testMachine [] fun r => { r with cnt := 2 }
    let wrapSource := { s with regs := { s.regs with src := 0xFFFFFFFFFFFFFFF9 } }
    let wrapDest := { s with regs := { s.regs with src := 0xFFFFFFFFFFFFFFF8, dst := 0xFFFFFFFFFFFFFFC1 } }
    let meeting := { s with regs := { s.regs with dst := 0x1007 } }
    (wrapSource.faulted = false ∧ ReachesExtents .bpEnc32 wrapSource ∧ ¬ InSpace 0xFFFFFFFFFFFFFFF9 8) ∧
    (ReachesExtents .bpEnc32 wrapDest ∧ InSpace 0xFFFFFFFFFFFFFFF8 8 ∧ ¬ InSpace 0xFFFFFFFFFFFFFFC1 64) ∧
    (ReachesExtents .bpEnc32 meeting ∧ sourceExtent .bpEnc32 meeting = (0x1000, 8) ∧
      destExtent .bpEnc32 meeting = (0x1007, 64) ∧ InSpace 0x1000 8 ∧ InSpace 0x1007 64 ∧
      ¬ Apart 0x1000 8 0x1007 64) := by decide +kernel

theorem meets_FirstUnreadableByteFaults :
    let array := testMachine [] fun r => { r with src := 0x7FFFFFFFFFFFFFFC, cnt := 2 }
    let digits := { testMachine [] fun r => { r with src := 0x7FFFFFFFFFFFFFFF, cnt := 2 } with
      mem := [(0x7FFFFFFFFFFFFFFF, 0x30)] }
    (array.faulted = false ∧ ReachesExtents .bpEnc32 array ∧
      ExtentsAdmitted (sourceExtent .bpEnc32 array) (destExtent .bpEnc32 array) ∧
      4 < (sourceExtent .bpEnc32 array).2 ∧ Reads array (sourceExtent .bpEnc32 array).1 4 ∧
      canRead array.platform ((sourceExtent .bpEnc32 array).1 + 4) = false ∧ Instr.bpEnc32 ∈ arrayReaders) ∧
    (digits.faulted = false ∧ ReachesExtents .accStr digits ∧
      ExtentsAdmitted (sourceExtent .accStr digits) (destExtent .accStr digits) ∧
      1 < (sourceExtent .accStr digits).2 ∧ Reads digits (sourceExtent .accStr digits).1 1 ∧
      canRead digits.platform ((sourceExtent .accStr digits).1 + 1) = false ∧
      ∀ j < 1, 48 ≤ (digits.mem.read (digits.regs.src.toNat + j)).toNat ∧
        (digits.mem.read (digits.regs.src.toNat + j)).toNat ≤ 57) := by decide +kernel

/-- A group of a 1-byte and an 8-byte field, and the address of the first byte that may not be read. -/
theorem meets_FirstUnreadableByteFaults_groups :
    let s (n : Nat) := testLimits (testMachine [2, 0x0C, 0x19] fun r => { r with srclen := 11, cnt := 2, arg := 1 }) n 64
    let c := ((s 0).mem.read 0x1000).toNat
    (∀ n ∈ [0, 1, 2, 3, 10], (s n).faulted = false ∧ ExtentsAdmitted (0x1000, 11) (destExtent .gvDec (s n)) ∧
      ExtentsAdmitted (0x1000, 11) (destExtent .gvGetf (s n)) ∧ canRead (s n).platform (0x1000 + n) = false) ∧
    (c = 2 ∧ 1 + ceilDiv c 4 = 2 ∧ 1 < c ∧ Reads (s 1) 0x1000 1 ∧ Reads (s 2) 0x1000 2 ∧ Reads (s 10) 0x1000 2) ∧
    (groupOffset (s 2).mem 0x1000 c 0 = 2 ∧ groupWidth (s 2).mem 0x1000 0 = 1 ∧
      groupOffset (s 3).mem 0x1000 c 1 = 3 ∧ groupWidth (s 3).mem 0x1000 1 = 8) ∧
    Reads (s 10) (0x1000 + 2) 1 ∧ Reads (s 10) (0x1000 + 3) 7 := by decide +kernel

theorem meets_FirstUnreadableByteFaults_bp128 :
    ∀ p ∈ bpDecoders,
      let blocks : List Byte := [0x84, 0x05, 0x21, 0x43, 0x05]
      let off := blockOffset (testDecoding p.2 6 blocks) p.2 0
      let s (n : Nat) := testLimits (testDecoding p.2 6 blocks) (off + n) 64
      let second := testDecoding p.2 134 (0x00 :: blocks)
      (∀ n ∈ [0, 1, 4], (s n).faulted = false ∧
        ExtentsAdmitted (0x1000, (s n).regs.srclen.toNat) (0x2000, 64) ∧ TurnsToBlock (s n) p.2 0 ∧
        canRead (s n).platform (0x1000 + off + n) = false) ∧
      (off + 1 ≤ (s 0).regs.srclen.toNat ∧ off + 2 ≤ (s 1).regs.srclen.toNat ∧ Reads (s 1) (0x1000 + off) 1) ∧
      (blockAt (s 1) off).short = true ∧ (blockAt (s 1) off).width ≤ p.2.width ∧
      (HeaderSound (s 4) p.2 off ∧ off + (blockAt (s 4) off).size ≤ (s 4).regs.srclen.toNat ∧
        (blockAt (s 4) off).headerBytes ≤ 4 ∧ 4 < (blockAt (s 4) off).size ∧ Reads (s 4) (0x1000 + off) 4) ∧
      TurnsToBlock (testLimits second (blockOffset second p.2 1) 64) p.2 1 := by decide +kernel

theorem meets_FirstUnreadableByteFaults_prefixes :
    let s (n : Nat) := testLimits (testMachine [0x40, 0x81, 0x05] fun r => { r with srclen := 3, cnt := 9 }) n 64
    (∀ v ∈ [(⟨true, false⟩ : Variant), ⟨true, true⟩], ∀ n ∈ [0, 1],
      TurnsToVarint (s n) v 0 ∧ (varintAt (s n) 0).2 = 2 ∧ Reads (s n) 0x1000 n ∧
      canRead (s n).platform (0x1000 + n) = false) ∧
    (TurnsToVarint (s 1) ⟨false, true⟩ 0 ∧ TurnsToVarint (s 2) ⟨true, true⟩ 2 ∧
      countBytes (s 2) ⟨true, true⟩ = 2 ∧ 2 + 1 ≤ (s 2).regs.srclen.toNat ∧
      canRead (s 2).platform (0x1000 + 2) = false) := by decide +kernel

theorem meets_FirstUnreadableByteFaults_bits :
    let zeros := testLimits (testMachine [] fun r =>
      { r with brBase := 0x1000, brEnd := 24, bitlen := 24, cnt := 1 }) 1 64
    let code (c : List Bool) := testLimits (testMachine (bytesOfBits c) fun r =>
      { r with brBase := 0x1000, brEnd := 24, bitlen := 24, cnt := 1 }) 1 64
    let writer := testLimits (testMachine [] fun r => { r with bwBase := 0x2000, bwCap := 1, bwPos := 7, arg := 1 }) 0 8
    (∀ s ∈ [zeros, code (gammaCode 32), code (deltaCode 256)], s.faulted = false ∧
      InSpace 0x1000 (ceilDiv 24 8) ∧ ExtentsAdmitted (0x1000, ceilDiv 24 8) (0x2000, 64) ∧
      ReadsBits s 0x1000 0 8 ∧ canRead s.platform (0x1000 + (0 + 8) / 8) = false) ∧
    (∀ c : Code, CodeExamines c zeros.mem 0x1000 0 24 64 8) ∧
    (∀ wmax ∈ [32, 64], CodeExamines .gamma (code (gammaCode 32)).mem 0x1000 0 24 wmax 8) ∧
    (∀ wmax ∈ [32, 64], CodeExamines .delta (code (deltaCode 256)).mem 0x1000 0 24 wmax 8) ∧
    (writer.faulted = false ∧ appendedBits (.bwWrite 1) writer = some [true] ∧ InSpace 0x2000 1 ∧
      ceilDiv (7 + 1) 8 ≤ 1 ∧ 7 % 8 ≠ 0 ∧ canRead writer.platform (0x2000 + 7 / 8) = false) := by
  refine ⟨by decide +kernel, fun c => ?_, fun wmax h => ?_, fun wmax h => ?_, by decide +kernel⟩
  · cases c
    · exact .inl (by decide +kernel)
    · exact .inl (.inl (by decide +kernel))
  · refine .inr ⟨5, ?_⟩; revert wmax; decide +kernel
  · refine .inr ⟨9, ⟨by decide, by decide, ?_⟩, ?_⟩
    · decide +kernel
    · revert wmax; decide +kernel

theorem meets_OversizedOutputFaults :
    let s (cap : Word) := testMachine (testArray 8 [3]) fun r => { r with cnt := 1, dstcap := cap }
    let w := testMachine [] fun r => { r with bwBase := 0x2000, bwCap := 1, arg := 5 }
    let full := testMachine [] fun r =>
      { r with bwBase := 0, bwCap := 0x2000000000000000, bwPos := 0xFFFFFFFFFFFFFFFF, arg := 1 }
    ((s 2).faulted = false ∧ ReachesExtents .gvEnc (s 2) ∧
      ExtentsAdmitted (sourceExtent .gvEnc (s 2)) (destExtent .gvEnc (s 2)) ∧ Reads (s 2) 0x1000 8 ∧
      2 < (gvEncode (arrayAt (s 2).mem 0x1000 8 1)).length) ∧
    (∀ p ∈ bpEncoders, ExtentsAdmitted (sourceExtent p.1 (s 0)) (destExtent p.1 (s 0)) ∧
      Reads (s 0) 0x1000 (p.2.esz * 1) ∧ NonDecreasing (arrayAt (s 0).mem 0x1000 p.2.esz 1) ∧
      0 < (bpStream p.2 (arrayAt (s 0).mem 0x1000 p.2.esz 1)).length) ∧
    (∀ p ∈ eliasEncoders, ExtentsAdmitted (sourceExtent p.1 (s 0)) (destExtent p.1 (s 0)) ∧
      Reads (s 0) 0x1000 (elementBytes p.2.2 * 1) ∧
      (∀ v ∈ arrayAt (s 0).mem 0x1000 (elementBytes p.2.2) 1, v ≠ 0) ∧
      0 < ceilDiv (codeStream p.2.1 (arrayAt (s 0).mem 0x1000 (elementBytes p.2.2) 1)).length 8) ∧
    (w.faulted = false ∧ appendedBits (.bwWrite 9) w = some (bits 5 9) ∧ bits 5 9 ≠ [] ∧ InSpace 0x2000 1 ∧
      1 < ceilDiv (0 + (bits 5 9).length) 8) ∧
    (full.faulted = false ∧ appendedBits .egPut full = some [true] ∧ InSpace 0 0x2000000000000000 ∧
      2 ^ 64 ≤ full.regs.bwPos.toNat + [true].length) := by decide +kernel

theorem meets_BadInputValuesFault :
    let falling (esz : Nat) := testMachine (testArray esz [5, 5, 4]) fun r => { r with cnt := 3, dstcap := 0 }
    let zeros (esz : Nat) := testMachine (testArray esz [3, 0, 0]) fun r => { r with cnt := 3, dstcap := 0 }
    (∀ p ∈ deltaReaders,
      let s := falling p.2
      let vs := arrayAt s.mem s.regs.src.toNat p.2 s.regs.cnt.toNat
      s.faulted = false ∧ ExtentsAdmitted (sourceExtent p.1 s) (destExtent p.1 s) ∧
      Reads s s.regs.src.toNat (p.2 * s.regs.cnt.toNat) ∧ 2 < vs.length ∧ vs.getD 2 0 < vs.getD 1 0 ∧
      ∀ k < 2, 1 ≤ k → vs.getD (k - 1) 0 ≤ vs.getD k 0) ∧
    (∀ p ∈ eliasEncoders,
      let s := zeros (elementBytes p.2.2)
      let vs := arrayAt s.mem s.regs.src.toNat (elementBytes p.2.2) s.regs.cnt.toNat
      s.faulted = false ∧ ExtentsAdmitted (sourceExtent p.1 s) (destExtent p.1 s) ∧
      Reads s s.regs.src.toNat (elementBytes p.2.2 * s.regs.cnt.toNat) ∧
      1 < vs.length ∧ vs.getD 1 0 = 0 ∧ ∀ k < 1, vs.getD k 0 ≠ 0) ∧
    (testMachine [] id).faulted = false ∧ (testMachine [] id).regs.arg = 0 := by decide +kernel

theorem meets_ShortBuffersFaultTheDecoders :
    let s (bytes : List Byte) (len cap : Word) := testMachine bytes fun r =>
      { r with srclen := len, cnt := 2, arg := 1, dstcap := cap }
    let group : List Byte := [2, 0x04, 0x19, 0x50, 0xC3]
    (ExtentsAdmitted (0x1000, 0) (0x2000, 64) ∧ (s [] 0 64).faulted = false ∧ InSpace 0x1000 0) ∧
    (Reads (s group 1 64) 0x1000 1 ∧ InSpace 0x1000 1 ∧ ((s group 1 64).mem.read 0x1000).toNat = 2 ∧
      1 < 1 + ceilDiv 2 4 ∧ ExtentsAdmitted (0x1000, 1) (0x2000, 64)) ∧
    (Reads (s group 4 64) 0x1000 (1 + ceilDiv 2 4) ∧ 1 + ceilDiv 2 4 ≤ 4 ∧
      groupOffset (s group 4 64).mem 0x1000 2 0 + groupWidth (s group 4 64).mem 0x1000 0 ≤ 4 ∧
      4 < groupOffset (s group 4 64).mem 0x1000 2 1 + groupWidth (s group 4 64).mem 0x1000 1 ∧
      ExtentsAdmitted (0x1000, 4) (0x2000, 64)) ∧
    ((∀ k < 2, groupOffset (s group 5 15).mem 0x1000 2 k + groupWidth (s group 5 15).mem 0x1000 k ≤ 5 ∧
      Reads (s group 5 15) (0x1000 + groupOffset (s group 5 15).mem 0x1000 2 k)
        (groupWidth (s group 5 15).mem 0x1000 k)) ∧ 15 < 8 * 2 ∧ ExtentsAdmitted (0x1000, 5) (0x2000, 15)) := by decide +kernel

theorem meets_ShortBuffersFaultTheDecoders_bp128 :
    ∀ p ∈ bpDecoders, let out := bpStream p.2 [10, 13]
      let t := testMachine out fun r =>
        { r with srclen := BitVec.ofNat 64 out.length, cnt := 2, dstcap := 7 }
      t.faulted = false ∧ (∀ x ∈ [10, 13], x < 2 ^ p.2.width) ∧ NonDecreasing [10, 13] ∧
      t.regs.srclen.toNat = out.length ∧ bytesAt t.mem 0x1000 out.length = out ∧
      ExtentsAdmitted (0x1000, out.length) (0x2000, 7) ∧ Reads t 0x1000 out.length ∧ 7 < p.2.esz * 2 := by decide +kernel

theorem meets_ShortBuffersFaultTheDecoders_elias :
    ∀ p ∈ eliasDecoders, let code := [1, 5].flatMap p.2.1.word
      let t := testMachine (bytesOfBits code) fun r =>
        { r with bitlen := BitVec.ofNat 64 code.length, cnt := 2, dstcap := 7 }
      (∀ x ∈ [1, 5], 1 ≤ x ∧ x < 2 ^ (8 * elementBytes p.2.2)) ∧ t.regs.bitlen.toNat = code.length ∧
      bitsAt t.mem 0x1000 0 code.length = code ∧ ExtentsAdmitted (0x1000, ceilDiv code.length 8) (0x2000, 7) ∧
      Reads t 0x1000 (ceilDiv code.length 8) ∧ 7 < elementBytes p.2.2 * 2 := by decide +kernel

theorem meets_FwPutStoresTheField :
    let s := testMachine [] fun r => { r with dstcap := 8 }
    let top := testMachine [] fun r => { r with dst := 0x7FFFFFFFFFFFFFFF, dstcap := 8 }
    (∀ w : BitVec 8, w = 1 ∨ w = 8 → (Instr.fwPut w).WellFormed) ∧ Ready s ∧
    (InSpace 0x2000 8 ∧ 8 ≤ 8 ∧ Writes s 0x2000 8) ∧ ¬ InSpace 0xFFFFFFFFFFFFFFFF 2 ∧
    (InSpace 0x2000 7 ∧ 7 < 8) ∧
    (Ready top ∧ 1 < 8 ∧ InSpace 0x7FFFFFFFFFFFFFFF 8 ∧ Writes top 0x7FFFFFFFFFFFFFFF 1 ∧
      canWrite top.platform (0x7FFFFFFFFFFFFFFF + 1) = false) := by decide +kernel

theorem meets_FwGetLoadsTheField :
    let s := testMachine [0xFF] fun r => { r with srclen := 8 }
    let top := testMachine [] fun r => { r with src := 0x7FFFFFFFFFFFFFFF, srclen := 8 }
    (∀ w : BitVec 8, w = 1 ∨ w = 8 → (Instr.fwGet w).WellFormed) ∧ s.faulted = false ∧
    (InSpace 0x1000 8 ∧ 8 ≤ 8 ∧ Reads s 0x1000 8) ∧ ¬ InSpace 0xFFFFFFFFFFFFFFFF 2 ∧
    (InSpace 0x1000 7 ∧ 7 < 8) ∧
    (top.faulted = false ∧ 1 < 8 ∧ InSpace 0x7FFFFFFFFFFFFFFF 8 ∧ Reads top 0x7FFFFFFFFFFFFFFF 1 ∧
      canRead top.platform (0x7FFFFFFFFFFFFFFF + 1) = false) := by decide +kernel

/-- For `WselReadsTheWidths`, `TvLenFollowsTheThresholds`, `BpMaxbReturnsTheBounds`, `BrMoreComparesThePosition`,
`CodeBitsAnswersTheLength`, `AccClassPicksTheSmallestType` and `WidthsAreTheLeastThatHold`. -/
theorem meets_UnfaultedRegisterQueries :
    (testMachine [] id).faulted = false ∧ 0 < 2 ^ 64 ∧ 2 ^ 64 - 1 < 2 ^ 64 ∧ 0 ≤ 2 ^ 64 - 1 := by decide +kernel

theorem meets_TvPutStoresTheVarint :
    let s := testMachine [] fun r => { r with arg := 0xFFFFFFFFFFFFFFFF, dstcap := 9 }
    let top := testMachine [] fun r => { r with arg := 128, dst := 0x7FFFFFFFFFFFFFFF, dstcap := 2 }
    Ready s ∧ (InSpace 0x2000 9 ∧ (tvEncode s.regs.arg.toNat).length ≤ 9 ∧
      Writes s 0x2000 (tvEncode s.regs.arg.toNat).length) ∧
    ¬ InSpace 0xFFFFFFFFFFFFFFFF 2 ∧ (InSpace 0x2000 8 ∧ 8 < (tvEncode s.regs.arg.toNat).length) ∧
    (Ready top ∧ 1 < (tvEncode top.regs.arg.toNat).length ∧ InSpace 0x7FFFFFFFFFFFFFFF 2 ∧
      (tvEncode top.regs.arg.toNat).length ≤ 2 ∧ Writes top 0x7FFFFFFFFFFFFFFF 1 ∧
      canWrite top.platform (0x7FFFFFFFFFFFFFFF + 1) = false) := by decide +kernel

theorem meets_TvGetReadsAnyVarint :
    let s := testMachine [0x00, 0x01] fun r => { r with srclen := 9 }
    let top := { testMachine [] fun r => { r with src := 0x7FFFFFFFFFFFFFFF, srclen := 2 } with
      mem := [(0x7FFFFFFFFFFFFFFF, 0x40)] }
    let z (m : Memory) (a : Nat) := 8 - bitwidth (m.read a).toNat
    (s.faulted = false ∧ InSpace 0x1000 9 ∧ z s.mem 0x1000 + 1 ≤ 9 ∧ Reads s 0x1000 (z s.mem 0x1000 + 1)) ∧
    ¬ InSpace 0xFFFFFFFFFFFFFFFF 2 ∧
    (InSpace 0x1000 8 ∧ 1 ≤ 8 ∧ 8 < z s.mem 0x1000 + 1 ∧ Reads s 0x1000 1) ∧
    (InSpace 0x8000000000000000 1 ∧ 1 ≤ 1 ∧ canRead s.platform 0x8000000000000000 = false) ∧
    (top.faulted = false ∧ 1 ≤ 1 ∧ 1 < z top.mem 0x7FFFFFFFFFFFFFFF + 1 ∧ InSpace 0x7FFFFFFFFFFFFFFF 2 ∧
      z top.mem 0x7FFFFFFFFFFFFFFF + 1 ≤ 2 ∧ Reads top 0x7FFFFFFFFFFFFFFF 1 ∧
      canRead top.platform (0x7FFFFFFFFFFFFFFF + 1) = false) := by decide +kernel

theorem meets_TaggedVarintsRoundTrip :
    let s := testMachine [] fun r => { r with arg := 1000 }
    let t := testAfter .tvPut s
    1000 < 2 ^ 64 ∧ Ready s ∧ exec .tvPut s = .next t ∧ t.faulted = false ∧
    t.regs.res.toNat ≤ (2 : Word).toNat ∧ InSpace s.regs.dst.toNat (2 : Word).toNat ∧
    Reads s s.regs.dst.toNat t.regs.res.toNat := by
  exact ⟨by decide, by decide +kernel, rfl, by decide +kernel, by decide +kernel, by decide +kernel,
    by decide +kernel⟩

theorem meets_GroupCountSentinels :
    let s (c : Byte) := testMachine [c] fun r => { r with srclen := 1, cnt := 65, arg := 2 }
    (64 < (s 0).regs.cnt.toNat ∧ (testMachine [] id).regs.cnt = 0) ∧
    ∀ c ∈ [(0 : Byte), 65, 2], (s c).faulted = false ∧ InSpace 0x1000 1 ∧ Reads (s c) 0x1000 1 ∧
      InSpace 0x2000 64 ∧ Apart 0x1000 1 0x2000 64 ∧
      (((s c).mem.read 0x1000).toNat = 0 ∨ 64 < ((s c).mem.read 0x1000).toNat ∨
        ((s c).mem.read 0x1000).toNat ≤ (s c).regs.arg.toNat) := by decide +kernel

theorem meets_GvEncStoresTheGroup :
    let s := testMachine (testArray 8 [300]) fun r => { r with cnt := 1, dstcap := 4 }
    let full := testMachine [] fun r => { r with cnt := 64, dstcap := 81 }
    (Ready s ∧ 1 ≤ s.regs.cnt.toNat ∧ s.regs.cnt.toNat ≤ 64 ∧ InSpace 0x1000 8 ∧ Reads s 0x1000 8 ∧
      1 + ceilDiv 1 4 + ((arrayAt s.mem 0x1000 8 1).map snappedWidth).sum = 4 ∧
      InSpace 0x2000 4 ∧ Apart 0x1000 8 0x2000 4 ∧ Writes s 0x2000 4 ∧
      Reads (testLimits s 8 3) 0x1000 8 ∧ StopsWritingAt (testLimits s 8 3) 3) ∧
    (Ready full ∧ full.regs.cnt.toNat ≤ 64 ∧ InSpace 0x1000 512 ∧ Reads full 0x1000 512 ∧
      1 + ceilDiv 64 4 + ((arrayAt full.mem 0x1000 8 64).map snappedWidth).sum = 81 ∧
      InSpace 0x2000 81 ∧ Apart 0x1000 512 0x2000 81 ∧ Writes full 0x2000 81) := by decide +kernel

theorem meets_GvDecReadsTheFields :
    let s := testMachine [2, 0x0D, 0x01, 0x00, 0x19] fun r => { r with srclen := 10, cnt := 64 }
    let c := (s.mem.read 0x1000).toNat
    Ready s ∧ 1 ≤ c ∧ c ≤ 64 ∧ InSpace 0x1000 10 ∧ InSpace 0x2000 64 ∧ Apart 0x1000 10 0x2000 64 ∧
    1 + ceilDiv c 4 ≤ 10 ∧ Reads s 0x1000 (1 + ceilDiv c 4) ∧
    (∀ k < 2, groupOffset s.mem 0x1000 c k + groupWidth s.mem 0x1000 k ≤ 12) ∧
    (∀ k < 1, groupOffset s.mem 0x1000 c k + groupWidth s.mem 0x1000 k ≤ 10 ∧
      Reads s (0x1000 + groupOffset s.mem 0x1000 c k) (groupWidth s.mem 0x1000 k)) ∧
    8 * min c 1 ≤ 64 ∧ Writes s 0x2000 (8 * min c 1) ∧
    Reads (testLimits s 12 7) 0x1000 12 ∧ StopsWritingAt (testLimits s 12 7) 7 := by decide +kernel

theorem meets_GvGetfReadsOneField :
    let s := testMachine [2, 0x0C, 0x19, 0x01] fun r => { r with srclen := 11, arg := 1 }
    let c := (s.mem.read 0x1000).toNat
    s.faulted = false ∧ 1 < c ∧ c ≤ 64 ∧ InSpace 0x1000 11 ∧ 1 + ceilDiv c 4 ≤ 11 ∧
    Reads s 0x1000 (1 + ceilDiv c 4) ∧ groupOffset s.mem 0x1000 c 1 + groupWidth s.mem 0x1000 1 ≤ 11 ∧
    Reads s (0x1000 + groupOffset s.mem 0x1000 c 1) (groupWidth s.mem 0x1000 1) := by decide +kernel

theorem meets_GroupsRoundTrip :
    let vs := [25, 50000, 94102, 1700000000]
    let s := testMachine (gvEncode vs) fun r => { r with srclen := 13, cnt := 4, dstcap := 32, arg := 3 }
    Ready s ∧ 1 ≤ vs.length ∧ vs.length ≤ 64 ∧ (∀ v ∈ vs, v < 2 ^ 64) ∧
    bytesAt s.mem 0x1000 (gvEncode vs).length = gvEncode vs ∧ (gvEncode vs).length ≤ 13 ∧
    InSpace 0x1000 13 ∧ Reads s 0x1000 (gvEncode vs).length ∧
    (vs.length ≤ 4 ∧ InSpace 0x2000 32 ∧ Apart 0x1000 13 0x2000 32 ∧ 8 * vs.length ≤ 32 ∧
      Writes s 0x2000 (8 * vs.length)) ∧ s.regs.arg.toNat < vs.length := by decide +kernel

theorem meets_UnpackInvertsPack :
    (∀ v ∈ [10, 13, 31, 0], v < 2 ^ 5) ∧ (∀ v ∈ [0, 0], v < 2 ^ 0) ∧
    unle [0xAA, 0x7D, 0xF0] % 2 ^ (4 * 5) = unle (pack [10, 13, 31, 0] 5) := by decide +kernel

theorem meets_BpEncStoresTheStream :
    ∀ p ∈ bpEncoders, ∀ vs ∈ [[], [10, 13, 13, 20]],
      let out := bpStream p.2 vs
      let s := testMachine (testArray p.2.esz vs) fun r =>
        { r with cnt := BitVec.ofNat 64 vs.length, dstcap := BitVec.ofNat 64 out.length }
      Ready s ∧ arrayAt s.mem 0x1000 p.2.esz vs.length = vs ∧ s.regs.dstcap.toNat = out.length ∧
      ExtentsAdmitted (0x1000, p.2.esz * vs.length) (0x2000, out.length) ∧
      Reads s 0x1000 (p.2.esz * vs.length) ∧ NonDecreasing vs ∧ Writes s 0x2000 out.length ∧
      (vs ≠ [] → Reads (testLimits s 32 2) 0x1000 (p.2.esz * vs.length) ∧ 2 < out.length ∧
        StopsWritingAt (testLimits s 32 2) 2) := by decide +kernel

theorem meets_BpDecReturnsTheEncodedValues :
    ∀ p ∈ bpDecoders, ∀ vs ∈ [[], [7], [10, 13, 13, 20]],
      let out := bpStream p.2 vs
      let s := testMachine out fun r =>
        { r with cnt := BitVec.ofNat 64 vs.length, srclen := BitVec.ofNat 64 out.length }
      Ready s ∧ (∀ x ∈ vs, x < 2 ^ p.2.width) ∧ NonDecreasing vs ∧ s.regs.cnt.toNat = vs.length ∧
      s.regs.srclen.toNat = out.length ∧ bytesAt s.mem 0x1000 out.length = out ∧
      ExtentsAdmitted (0x1000, out.length) (0x2000, 64) ∧ Reads s 0x1000 out.length ∧
      p.2.esz * vs.length ≤ 64 ∧ Writes s 0x2000 (p.2.esz * vs.length) := by decide +kernel

/-- Any source: a first block, then a partial one of a width and a padding no encoder writes, and a byte after
it. `CNT` below, at and above what the stream holds. -/
theorem meets_BpDecReturnsTheEncodedValues_any :
    ∀ p ∈ bpDecoders,
      let total := if p.2.delta then 130 else 129
      let s (cnt : Word) := { testDecoding p.2 total [0x00, 0x83, 0x01, 0xF9, 0xEE] with
        regs := { (testDecoding p.2 total [0x00, 0x83, 0x01, 0xF9, 0xEE]).regs with cnt := cnt } }
      (Ready (s 0) ∧ ExtentsAdmitted (0x1000, (s 0).regs.srclen.toNat) (0x2000, 64) ∧ BlocksSound (s 0) p.2 0 ∧
        wantedValues (s 0) p.2 = 0 ∧ (decodedValues (s 0) p.2 0).length = 0) ∧
      (BlocksSound (s 9) p.2 1 ∧ wantedValues (s 9) p.2 ≤ (decodedValues (s 9) p.2 1).length ∧
        64 < p.2.esz * ((decodedValues (s 9) p.2 1).take 128).length) ∧
      (BlocksSound (s 200) p.2 2 ∧ (decodedValues (s 200) p.2 2).length = total ∧
        (∀ y ∈ decodedValues (s 200) p.2 2, y < 2 ^ p.2.width) ∧
        (blockAt (s 200) (blockOffset (s 200) p.2 1)).short = true) := by decide +kernel

/-- A 32-bit source that ends where its full block ends, and the output's first refused byte. -/
theorem meets_BpDecReturnsTheEncodedValues_end :
    ∀ p ∈ bpDecoders,
      let s := testLimits (testDecoding p.2 129 [0x00]) 16 6
      let u := { s with regs := { s.regs with cnt := 2 } }
      (p.2.wide = false → BlocksSound s p.2 1 ∧ blockOffset s p.2 1 = s.regs.srclen.toNat) ∧
      (Ready u ∧ ExtentsAdmitted (0x1000, u.regs.srclen.toNat) (0x2000, 64) ∧ BlocksSound u p.2 1 ∧
        ((decodedValues u p.2 1).take (wantedValues u p.2)).length = 2 ∧ p.2.esz * 2 ≤ 64 ∧
        StopsWritingAt u 6) := by decide +kernel

theorem meets_DefectiveStreamsFault :
    ∀ p ∈ bpDecoders,
      let s (blocks : List Byte) := testDecoding p.2 2 blocks
      let off := blockOffset (s []) p.2 0
      let len (blocks : List Byte) := (s blocks).regs.srclen.toNat
      let owed := if p.2.delta then 1 else 2
      (∀ blocks ∈ [[0xFF], [0x81], [0x81, 0x00], [0x81, 0x80], [0x81, 0x09, 0x01], [0x81, 0x03, 0x03], [0x00]],
        (s blocks).faulted = false ∧ ExtentsAdmitted (0x1000, len blocks) (0x2000, 64) ∧
        TurnsToBlock (s blocks) p.2 0 ∧ off + 1 ≤ len blocks ∧ Reads (s blocks) (0x1000 + off) 2) ∧
      (p.2.wide = true → TurnsToBlock (s []) p.2 0 ∧ len [] < off + 1) ∧
      p.2.width < (blockAt (s [0xFF]) off).width ∧
      ((blockAt (s [0x81]) off).short = true ∧ len [0x81] < off + 2) ∧
      ((blockAt (s [0x81, 0x00]) off).count = 0 ∧ 127 < (blockAt (s [0x81, 0x80]) off).count) ∧
      (HeaderSound (s [0x81, 0x09, 0x01]) p.2 off ∧
        len [0x81, 0x09, 0x01] < off + (blockAt (s [0x81, 0x09, 0x01]) off).size) ∧
      (BlockSound (s [0x81, 0x03, 0x03]) p.2 off ∧ BlockSound (s [0x00]) p.2 off ∧
        (p.2.wide = true → (varintAt (s [0x00]) 0).1 - valuesBefore (s [0x00]) p.2 0 = owed)) ∧
      TurnsToBlock (testDecoding p.2 130 [0x00, 0x81, 0x00]) p.2 1 := by decide +kernel

theorem meets_DefectiveStreamsFault_prefixes :
    let s (bytes : List Byte) (len : Word) := testMachine bytes fun r => { r with srclen := len, cnt := 9 }
    (∀ v ∈ [(⟨true, false⟩ : Variant), ⟨true, true⟩], TurnsToVarint (s [] 0) v 0 ∧ (s [] 0).regs.srclen.toNat < 0 + 1 ∧
      TurnsToVarint (s [] 8) v 0 ∧ (s [] 8).regs.srclen.toNat < 0 + (varintAt (s [] 8) 0).2 ∧
      Reads (s [] 8) 0x1000 1) ∧
    (TurnsToVarint (s [0x82] 1) ⟨true, true⟩ 1 ∧ TurnsToVarint (s [0x82, 0x40] 2) ⟨true, true⟩ 1 ∧
      (varintAt (s [0x82, 0x40] 2) 1).2 = 2 ∧ TurnsToVarint (s [0x40] 1) ⟨false, true⟩ 0) ∧
    (let t := s (tvEncode (2 ^ 32)) 5
     takesFirst t ⟨false, true⟩ = true ∧ countBytes t ⟨false, true⟩ = 0 ∧ VarintSound t 0 ∧
      2 ^ 32 ≤ (varintAt t 0).1) := by decide +kernel

theorem meets_DefectiveStreamsFault_overflow :
    ∀ p ∈ [(⟨false, true⟩ : Variant), ⟨true, true⟩],
      let stream := (if p.wide then tvEncode 3 else []) ++ tvEncode (2 ^ p.width - 2) ++ [0x81, 0x02, 0x03]
      let s := testMachine stream fun r => { r with srclen := BitVec.ofNat 64 stream.length, cnt := 3 }
      s.faulted = false ∧ ExtentsAdmitted (0x1000, s.regs.srclen.toNat) (0x2000, 64) ∧ BlocksSound s p 1 ∧
      2 < wantedValues s p ∧ 2 < (decodedValues s p 1).length ∧ 2 ^ p.width ≤ (decodedValues s p 1).getD 2 0 ∧
      ∀ k < 2, (decodedValues s p 1).getD k 0 < 2 ^ p.width := by decide +kernel

theorem meets_BpQueriesAnswer :
    ∀ p ∈ bpSizers ++ bpBenefs, ∀ vs ∈ [[], [5, 5, 9]],
      let s := testMachine (testArray p.2.esz vs) fun r => { r with cnt := BitVec.ofNat 64 vs.length }
      s.faulted = false ∧ arrayAt s.mem 0x1000 p.2.esz s.regs.cnt.toNat = vs ∧
      InSpace 0x1000 (p.2.esz * s.regs.cnt.toNat) ∧ Reads s 0x1000 (p.2.esz * s.regs.cnt.toNat) ∧
      NonDecreasing vs := by decide +kernel

theorem meets_BpQueriesAnswer_sorted :
    ∀ p ∈ bpSorters, ∀ vs ∈ [[], [5], [5, 4]],
      let s := testMachine (testArray p.2 vs) fun r => { r with cnt := BitVec.ofNat 64 vs.length }
      s.faulted = false ∧ arrayAt s.mem 0x1000 p.2 s.regs.cnt.toNat = vs ∧
      InSpace 0x1000 (p.2 * s.regs.cnt.toNat) ∧ Reads s 0x1000 (p.2 * s.regs.cnt.toNat) := by decide +kernel

theorem meets_StreamsFitTheReportedBound :
    (∀ x ∈ [0, 2 ^ 64 - 1], x < 2 ^ (⟨true, true⟩ : Variant).width) ∧ NonDecreasing [0, 2 ^ 64 - 1] := by
  decide +kernel

theorem meets_CodesArePrefixFree : 1 ≤ 1 ∧ Code.gamma.word 1 <+: Code.gamma.word 1 := by decide +kernel

theorem meets_BitWriterAppends :
    let s := testMachine [0xA0, 0xEE] fun r => { r with bwBase := 0x1000, bwCap := 2, bwPos := 3, arg := 5 }
    let w := { s with platform := { s.platform with writable := [⟨0x1000, 1⟩] } }
    (Ready s ∧ InSpace 0x1000 2 ∧
      ∀ p ∈ [(Instr.bwWrite 0, []), (.bwWrite 13, bits 5 13), (.egPut, gammaCode 5), (.edPut, deltaCode 5)],
        appendedBits p.1 s = some p.2 ∧
        (p.2 ≠ [] → ceilDiv (3 + p.2.length) 8 ≤ 2 ∧ 3 + p.2.length < 2 ^ 64 ∧ Reads s (0x1000 + 3 / 8) 1 ∧
          Writes s (0x1000 + 3 / 8) (ceilDiv (3 + p.2.length) 8 - 3 / 8))) ∧
    (Ready w ∧ appendedBits (.bwWrite 13) w = some (bits 5 13) ∧ Reads w 0x1000 1 ∧
      1 < ceilDiv (3 + 13) 8 - 3 / 8 ∧ Writes w (0x1000 + 3 / 8) 1 ∧
      canWrite w.platform (0x1000 + 3 / 8 + 1) = false) := by decide +kernel

theorem meets_BrReadReturnsTheBits :
    let s (p : Word) := testMachine [0xBF, 0xF0] fun r => { r with brBase := 0x1000, brEnd := 64, brPos := p }
    let top := testMachine [] fun r => { r with brBase := 0x7FFFFFFFFFFFFFFF, brEnd := 16, brPos := 7 }
    ((Instr.brRead 64).WellFormed ∧ (Instr.brRead 0).WellFormed ∧ (s 0).faulted = false ∧
      InSpace 0x1000 (ceilDiv 64 8) ∧ 0 + 64 ≤ 64 ∧ ReadsBits (s 0) 0x1000 0 64) ∧
    ¬ InSpace 0xFFFFFFFFFFFFFFFF (ceilDiv 16 8) ∧ 64 < (s 1).regs.brPos.toNat + 64 ∧
    (1 < 2 ∧ InSpace 0x7FFFFFFFFFFFFFFF (ceilDiv 16 8) ∧ 7 + 2 ≤ 16 ∧ ReadsBits top 0x7FFFFFFFFFFFFFFF 7 1 ∧
      canRead top.platform (0x7FFFFFFFFFFFFFFF + (7 + 1) / 8) = false) := by decide +kernel

theorem meets_CodeGetDecodesTheCodeWord :
    ∀ p ∈ [(Instr.egGet, Code.gamma), (.edGet, .delta)], ∀ n ∈ [1, 2 ^ 64 - 1],
      let code := p.2.word n
      let s := testMachine (bytesOfBits ([true, false] ++ code)) fun r =>
        { r with brBase := 0x1000, brEnd := BitVec.ofNat 64 (2 + code.length), brPos := 2 }
      s.faulted = false ∧ 1 ≤ n ∧ n < 2 ^ 64 ∧ InSpace 0x1000 (ceilDiv s.regs.brEnd.toNat 8) ∧
      2 + code.length ≤ s.regs.brEnd.toNat ∧ bitsAt s.mem 0x1000 2 code.length = code ∧
      ReadsBits s 0x1000 2 code.length := by decide +kernel

theorem meets_CodeGetFailsWithoutMoving :
    let s (bytes : List Byte) (stop : Word) := testMachine bytes fun r => { r with brBase := 0x1000, brEnd := stop }
    ((s [] 0).faulted = false ∧ InSpace 0x1000 (ceilDiv 75 8) ∧ InSpace 0x1000 (ceilDiv 126 8)) ∧
    (∀ n ∈ [0, 5, 64], (∀ k < n, bitAt (s [] 75).mem 0x1000 k = false) ∧ ReadsBits (s [] 75) 0x1000 0 n) ∧
    (let t := s [0, 0, 0, 0, 0, 0, 0, 1] 126
     (∀ k < 63, bitAt t.mem 0x1000 k = false) ∧ bitAt t.mem 0x1000 63 = true ∧ 63 < 126 ∧
       126 < 0 + 2 * 63 + 1 ∧ ReadsBits t 0x1000 0 64) ∧
    (let t := s [0x02, 0x08] 13
     (gammaCode 65).length = 13 ∧ bitsAt t.mem 0x1000 0 13 = gammaCode 65 ∧ ReadsBits t 0x1000 0 13) ∧
    (let t := s [0x02, 0x00] 75
     (gammaCode 64).length = 13 ∧ 75 < 0 + 13 + (64 - 1) ∧ bitsAt t.mem 0x1000 0 13 = gammaCode 64 ∧
       ReadsBits t 0x1000 0 13) := by decide +kernel

theorem meets_EliasEncStoresTheCodeWords :
    ∀ p ∈ eliasEncoders, ∀ vs ∈ [[], [1, 2, 2 ^ 32 - 1]],
      let esz := elementBytes p.2.2
      let code := vs.flatMap p.2.1.word
      let size := ceilDiv code.length 8
      let s := testMachine (testArray esz vs) fun r =>
        { r with cnt := BitVec.ofNat 64 vs.length, dstcap := BitVec.ofNat 64 size }
      Ready s ∧ arrayAt s.mem 0x1000 esz s.regs.cnt.toNat = vs ∧
      ExtentsAdmitted (0x1000, esz * s.regs.cnt.toNat) (0x2000, s.regs.dstcap.toNat) ∧
      Reads s 0x1000 (esz * s.regs.cnt.toNat) ∧ (∀ x ∈ vs, x ≠ 0) ∧ code.length < 2 ^ 64 ∧
      size ≤ s.regs.dstcap.toNat ∧ Writes s 0x2000 size ∧
      (vs ≠ [] → Reads (testLimits s 32 5) 0x1000 (esz * s.regs.cnt.toNat) ∧ 5 < size ∧
        StopsWritingAt (testLimits s 32 5) 5) := by decide +kernel

theorem meets_EliasDecReturnsTheEncodedValues :
    ∀ p ∈ eliasDecoders, ∀ more ∈ [0, 5], ∀ vs ∈ [[1, 2, 2 ^ 32 - 1], [1]],
      let esz := elementBytes p.2.2
      let code := vs.flatMap p.2.1.word
      let s := testMachine (bytesOfBits code) fun r =>
        { r with cnt := BitVec.ofNat 64 (vs.length + more), bitlen := BitVec.ofNat 64 (code.length + more) }
      Ready s ∧ (∀ x ∈ vs, 1 ≤ x ∧ x < 2 ^ (8 * esz)) ∧ vs.length ≤ s.regs.cnt.toNat ∧
      code.length ≤ s.regs.bitlen.toNat ∧ bitsAt s.mem 0x1000 0 code.length = code ∧
      (if more = 0 then vs.length = s.regs.cnt.toNat ∨ code.length = s.regs.bitlen.toNat
        else vs.length < s.regs.cnt.toNat ∧ code.length < s.regs.bitlen.toNat ∧ more = min 32 (code.length + more - code.length) ∧
          ZerosAt s.mem 0x1000 code.length more) ∧
      ExtentsAdmitted (0x1000, ceilDiv s.regs.bitlen.toNat 8) (0x2000, 64) ∧
      ReadsBits s 0x1000 0 (code.length + more) ∧ esz * vs.length ≤ 64 ∧ Writes s 0x2000 (esz * vs.length) ∧
      StopsWritingAt (testLimits s 32 3) 3 := by decide +kernel

/-- A code word whose value is too wide for the element, and one that the end of the stream cuts short. -/
theorem meets_EliasDecReturnsTheEncodedValues_fails :
    let gamma := testMachine (bytesOfBits (gammaCode (2 ^ 32))) fun r => { r with cnt := 1, bitlen := 65 }
    let delta := testMachine (bytesOfBits (deltaCode (2 ^ 32))) fun r => { r with cnt := 1, bitlen := 43 }
    let short := testMachine [0x20] fun r => { r with cnt := 1, bitlen := 4 }
    CodeFails .gamma gamma.mem 0x1000 0 65 32 32 ∧ CodeFails .delta delta.mem 0x1000 0 43 32 11 ∧
    CodeFails .gamma short.mem 0x1000 0 4 64 3 := by
  refine ⟨.inl (by decide +kernel), .inr ⟨33, ⟨by decide, by decide, ?_⟩, ?_⟩, .inr ⟨2, ?_⟩⟩ <;> decide +kernel

/-- For `AccClrStartsANumber` and `AccDigitStepsExactly`. -/
theorem meets_AccClrAndAccDigit :
    (testMachine [] id).faulted = false ∧ (Instr.accClr 0).WellFormed ∧ (Instr.accClr 7).WellFormed ∧
    (Instr.accDigit 0).WellFormed ∧ (Instr.accDigit 9).WellFormed := by decide +kernel

theorem meets_AccStrRunsTheDigits :
    let s := testMachine [0x32, 0x39, 0x2E] fun r => { r with cnt := 3 }
    let all := testMachine [0x30, 0x39] fun r => { r with cnt := 2 }
    let top := { testMachine [] fun r => { r with src := 0x7FFFFFFFFFFFFFFF, cnt := 2 } with
      mem := [(0x7FFFFFFFFFFFFFFF, 0x30)] }
    let isDigit (t : State) (a j : Nat) := 0x30 ≤ (t.mem.read (a + j)).toNat ∧ (t.mem.read (a + j)).toNat ≤ 0x39
    (s.faulted = false ∧ 2 ≤ 3 ∧ InSpace 0x1000 3 ∧ Reads s 0x1000 (min (2 + 1) 3) ∧
      (∀ j < 2, isDigit s 0x1000 j) ∧ (2 < 3 → ¬ isDigit s 0x1000 2)) ∧
    (all.faulted = false ∧ 2 ≤ 2 ∧ InSpace 0x1000 2 ∧ Reads all 0x1000 (min (2 + 1) 2) ∧
      ∀ j < 2, isDigit all 0x1000 j) ∧
    ¬ InSpace 0xFFFFFFFFFFFFFFFF 2 ∧
    (top.faulted = false ∧ 1 < 2 ∧ InSpace 0x7FFFFFFFFFFFFFFF 2 ∧ Reads top 0x7FFFFFFFFFFFFFFF 1 ∧
      (∀ j < 1, isDigit top 0x7FFFFFFFFFFFFFFF j) ∧
      canRead top.platform (0x7FFFFFFFFFFFFFFF + 1) = false) := by decide +kernel

theorem meets_DigitsAccumulateTheNumber :
    (testMachine [] id).faulted = false ∧ (Instr.accClr 5).WellFormed ∧
    (∀ d ∈ [(9 : BitVec 8), 2, 2, 3, 3, 7, 2, 0, 3, 6, 8, 5, 4, 7, 7, 5, 8, 0, 9], (Instr.accDigit d).WellFormed) ∧
    accLimit (accMode ((5 : BitVec 8).extractLsb' 0 2)) ((5 : BitVec 8).getLsbD 2)
      < decimalValue [9, 2, 2, 3, 3, 7, 2, 0, 3, 6, 8, 5, 4, 7, 7, 5, 8, 0, 9] ∧
    decimalValue [9, 2, 2, 3, 3, 7, 2, 0, 3, 6, 8, 5, 4, 7, 7, 5, 8, 0, 8]
      ≤ accLimit (accMode ((5 : BitVec 8).extractLsb' 0 2)) ((5 : BitVec 8).getLsbD 2) := by decide +kernel

end
end

section
/-! PROOF. What a host action comes to (60_exceptions.md R333) and the register window as the maps of
10_state.md R21 print it: the statements on the host port. -/

namespace Sys2Proof.Machine

/-! ### The register window -/

theorem windowAligned_iff (offset size : Nat) :
    windowAligned offset size = true ↔ size = 8 ∧ offset % 8 = 0 ∧ offset < 256 := by
  simp only [windowAligned, Bool.and_eq_true, decide_eq_true_eq, and_assoc]
  rfl

/-- `ACC_LO` as 10_state.md R37 says it: the accumulator modulo `2^64`. -/
theorem acc_lowHalf (a : Wide) : a.extractLsb' 0 64 = BitVec.ofNat 64 (a.toNat % 2 ^ 64) := by
  apply BitVec.eq_of_toNat_eq
  simp

/-- `ACC_HI`: the accumulator divided by `2^64`. -/
theorem acc_highHalf (a : Wide) : a.extractLsb' 64 64 = BitVec.ofNat 64 (a.toNat / 2 ^ 64) := by
  apply BitVec.eq_of_toNat_eq
  simp [Nat.shiftRight_eq_div_pow]

/-- Every row of the register map is one aligned access, and reads as the row says. -/
theorem windowRead_of_mem_registerMap (r : Regs) :
    ∀ p ∈ registerMap r, windowAligned p.1 8 = true ∧ windowRead r p.1 = p.2 := by
  simp only [registerMap, List.forall_mem_cons, windowRead, acc_lowHalf, acc_highHalf]
  simp [windowAligned, Config.windowBytes, Config.identity]

/-- Every row of the map of writable registers is one aligned access besides `CMD`'s, and writes what the row
says. -/
theorem windowWrite_of_mem_writableMap (r : Regs) (v : Word) :
    ∀ p ∈ writableMap r v, windowAligned p.1 8 = true ∧ p.1 ≠ 0 ∧ windowWrite r p.1 v = p.2 := by
  simp [writableMap, windowWrite, windowAligned, Config.windowBytes]

/-- At an offset that is no row of the map of writable registers a host write changes nothing. -/
theorem windowWrite_of_not_writable (r : Regs) (v : Word) (offset : Nat)
    (h : ∀ p ∈ writableMap r v, p.1 ≠ offset) : windowWrite r offset v = r := by
  simp only [writableMap, List.forall_mem_cons] at h
  unfold windowWrite
  split
  case h_14 => rfl
  all_goals simp at h

@[simp] theorem windowWrite_status (r : Regs) (offset : Nat) (v : Word) :
    (windowWrite r offset v).status = r.status := by
  unfold windowWrite
  split <;> rfl

/-! ### One host action -/

theorem step_of_pending {s : State} {a : HostAction} {rest : List HostAction} (h : s.pending = a :: rest) :
    step s = perform a { s with pending := rest } := by
  rw [step, h]

theorem perform_readReg (s : State) {offset : Nat} (h : windowAligned offset 8 = true) :
    perform (.readReg offset 8) s = .next (s.reply (windowRead s.regs offset)) := by
  rw [perform, if_pos h]

theorem perform_writeReg (s : State) {offset : Nat} (v : Word) (h : windowAligned offset 8 = true)
    (h0 : offset ≠ 0) :
    perform (.writeReg offset 8 v) s = .next { s with regs := windowWrite s.regs offset v } := by
  rw [perform, if_pos h, if_neg h0]

theorem perform_commandWrite (s : State) (w : Word) :
    perform (.writeReg 0 8 w) s = runCommandWord w s := rfl

theorem perform_readReg_refused (s : State) {offset size : Nat} (h : ¬ windowAligned offset size = true) :
    perform (.readReg offset size) s = .refused (.windowAccess offset size) := by
  rw [perform, if_neg h]

theorem perform_writeReg_refused (s : State) {offset size : Nat} (v : Word)
    (h : ¬ windowAligned offset size = true) :
    perform (.writeReg offset size v) s = .refused (.windowAccess offset size) := by
  rw [perform, if_neg h]

theorem runCommandWord_of_decode {w : Word} {i : Instr} (s : State) (h : decode w = .ok i) :
    runCommandWord w s = exec i s := by
  rw [runCommandWord, h]

/-! ### Everything a step can do -/

/-- Everything a write to `CMD` can do when it answers a next state: the command it decodes to, or, with an
illegal value, nothing on a faulted block and `ILLEGAL_CMD` on another. -/
theorem runCommandWord_next {w : Word} {s t : State} (h : runCommandWord w s = .next t) :
    (∃ i, decode w = .ok i ∧ exec i s = .next t) ∨ (s.faulted = true ∧ t = s) ∨
    (s.faulted = false ∧ t = s.takeFault .illegalCmd w.toNat w) := by
  unfold runCommandWord at h
  split at h
  · next i hd => exact .inl ⟨i, hd, h⟩
  · split at h
    · next hf => exact .inr (.inl ⟨hf, by simpa using h.symm⟩)
    · next hf => exact .inr (.inr ⟨by simpa using hf, by simpa using h.symm⟩)

/-- Everything a host action can do when it answers a next state: a value is returned, a register other than
`CMD` is written, the block is reset, a byte of ordinary memory is written, or a command is started. -/
theorem perform_next {a : HostAction} {s t : State} (h : perform a s = .next t) :
    (∃ v, t = s.reply v) ∨ (∃ offset v, t = { s with regs := windowWrite s.regs offset v }) ∨
    t = s.resetRegisters ∨
    (∃ (x : Word) (b : Byte), a = .writeMem x b ∧ inWindow s.platform x.toNat = false ∧
      t = { s with mem := s.mem.write x.toNat b }) ∨
    (∃ w, a = .writeReg 0 8 w ∧ runCommandWord w s = .next t) := by
  cases a with
  | readReg offset size =>
    rw [perform] at h
    split at h
    · exact .inl ⟨_, by simpa using h.symm⟩
    · simp at h
  | writeReg offset size v =>
    rw [perform] at h
    split at h
    · next ha =>
      obtain ⟨rfl, -, -⟩ := (windowAligned_iff _ _).mp ha
      split at h
      · next h0 => subst h0; exact .inr (.inr (.inr (.inr ⟨v, rfl, h⟩)))
      · exact .inr (.inl ⟨offset, v, by simpa using h.symm⟩)
    · simp at h
  | reset => exact .inr (.inr (.inl (by simpa [perform] using h.symm)))
  | readMem x =>
    rw [perform] at h
    split at h
    · simp at h
    · exact .inl ⟨_, by simpa using h.symm⟩
  | writeMem x b =>
    rw [perform] at h
    split at h
    · simp at h
    · next hw => exact .inr (.inr (.inr (.inl ⟨x, b, rfl, by simpa using hw, by simpa using h.symm⟩)))

/-- Everything a step can do when it answers a next state: nothing, with no action pending, or the first
pending action. -/
theorem step_next {s t : State} (h : step s = .next t) :
    (s.pending = [] ∧ t = s) ∨
    ∃ a rest, s.pending = a :: rest ∧ perform a { s with pending := rest } = .next t := by
  cases hp : s.pending with
  | nil => exact .inl ⟨rfl, by simpa [step, hp] using h.symm⟩
  | cons a rest => exact .inr ⟨a, rest, rfl, by rwa [step_of_pending hp] at h⟩

/-! ### The statements on the host port -/

/-- Settles O3: the write is aligned and at `CMD`'s offset, so the step is the decoded command. -/
theorem stepRunsTheDecodedCommand : Obligations.StepRunsTheDecodedCommand := by
  intro s rest w i hp hd
  rw [step_of_pending hp, perform_commandWrite, runCommandWord_of_decode _ hd]

/-- Settles O10, from the register map row by row. -/
theorem hostReadReturnsTheRegister : Obligations.HostReadReturnsTheRegister := by
  intro s rest p hmem hp
  obtain ⟨ha, hr⟩ := windowRead_of_mem_registerMap s.regs p hmem
  rw [step_of_pending hp, perform_readReg _ ha, hr]
  rfl

/-- Settles O11: a row of the map of writable registers, an offset outside it, a misshapen access. -/
theorem hostWriteStoresOneRegister : Obligations.HostWriteStoresOneRegister := by
  intro s rest offset size v
  refine ⟨fun p hmem hp => ?_, fun h8 hpos hlt hno hp => ?_, fun hbad => ?_⟩
  · obtain ⟨ha, h0, hw⟩ := windowWrite_of_mem_writableMap s.regs v p hmem
    rw [step_of_pending hp, perform_writeReg _ v ha h0, hw]
  · have ha : windowAligned offset 8 = true := (windowAligned_iff _ _).mpr ⟨rfl, h8, hlt⟩
    rw [step_of_pending hp, perform_writeReg _ v ha (by omega), windowWrite_of_not_writable s.regs v offset hno]
  · have ha : ¬ windowAligned offset size = true := fun h => by
      have := (windowAligned_iff _ _).mp h
      omega
    exact ⟨fun hp => by rw [step_of_pending hp, perform_writeReg_refused _ v ha],
      fun hp => by rw [step_of_pending hp, perform_readReg_refused _ ha]⟩

end Sys2Proof.Machine
end

section
/-! PROOF. What a command does to the registers, said once as an inductive of named cases (`RegsChange`,
`exec_regs`), and the statements that follow from it: which command writes which register (10_state.md R21,
R23, R25, R34, 30_encoding.md R97), and the legal form of `STATUS` (R25). -/

namespace Sys2Proof.Machine

/-! ### What a command does to the registers -/

abbrev IsBpEncoder (i : Instr) : Prop := ∃ p ∈ bpEncoders, i = p.1

abbrev IsEliasEncoder (i : Instr) : Prop := ∃ p ∈ eliasEncoders, i = p.1

abbrev IsEliasDecoder (i : Instr) : Prop := ∃ p ∈ eliasDecoders, i = p.1

/-- The commands that move the bit writer (10_state.md R35). -/
abbrev IsBitWriter (i : Instr) : Prop := (∃ imm, i = .bwWrite imm) ∨ i = .egPut ∨ i = .edPut

/-- The commands that move the bit reader (10_state.md R36). -/
abbrev IsBitReader (i : Instr) : Prop := (∃ imm, i = .brRead imm) ∨ i = .egGet ∨ i = .edGet

abbrev IsAccClear (i : Instr) : Prop := ∃ imm, i = .accClr imm

/-- The commands that run digit steps (45_acc128.md R273). -/
abbrev IsAccStep (i : Instr) : Prop := (∃ imm, i = .accDigit imm) ∨ i = .accStr

/-- `RES` and `RES2` become these values only where 30_encoding.md R97 lets the command write them. -/
abbrev ResultsMay (i : Instr) (r : Regs) (v v2 : Word) : Prop :=
  ((writesResults i).1 = false → v = r.res) ∧ ((writesResults i).2 = false → v2 = r.res2)

/-- The ways a command can change the registers `r`: the two commands that a faulted block executes, a fault
raised, and what a completing command writes, by the registers it writes besides its results. -/
inductive RegsChange (i : Instr) (r : Regs) : Regs → Prop
  | reset (hi : i = .sysReset) : RegsChange i r Regs.reset
  | clearFault (hi : i = .sysClrf) : RegsChange i r { r.withFault 0 with faddr := 0, fcmd := 0 }
  | raise (hc : i ≠ .sysClrf) (hf : r.fault = 0) (code : FaultCode) (info : Nat) (cmd : Word) :
      RegsChange i r (faultRegs r code info cmd)
  | results (v v2 : Word) (hv : ResultsMay i r v v2) : RegsChange i r { r with res := v, res2 := v2 }
  | bpMeta (hi : IsBpEncoder i) (v v2 count blocks bytes last maxbw : Word) (hv : ResultsMay i r v v2) :
      RegsChange i r { r with
        res := v, res2 := v2, metaCount := count, metaBlocks := blocks, metaBytes := bytes,
        metaLast := last, metaMaxbw := maxbw }
  | eliasMeta (hi : IsEliasEncoder i) (v v2 count bits bytes : Word) (hv : ResultsMay i r v v2) :
      RegsChange i r { r with
        res := v, res2 := v2, metaCount := count, metaBits := bits, metaBytes := bytes }
  | bitWriter (hi : IsBitWriter i) (v v2 pos : Word) (hv : ResultsMay i r v v2) :
      RegsChange i r { r with res := v, res2 := v2, bwPos := pos }
  | bitReader (hi : IsBitReader i) (b : Bool) (v v2 pos : Word) (hv : ResultsMay i r v v2) :
      RegsChange i r { r.withMalf b with res := v, res2 := v2, brPos := pos }
  | eliasDecoder (hi : IsEliasDecoder i) (b : Bool) (v v2 : Word) (hv : ResultsMay i r v v2) :
      RegsChange i r { r.withMalf b with res := v, res2 := v2 }
  | accClear (hi : IsAccClear i) (neg : Bool) (mode : BitVec 2) :
      RegsChange i r { ((r.withOvf false).withNeg neg).withMode mode with acc := 0, accNdig := 0 }
  | accSteps (hi : IsAccStep i) (b : Bool) (hb : r.ovf = true → b = true) (v v2 : Word) (acc : Wide)
      (ndig : Word) (hv : ResultsMay i r v v2) :
      RegsChange i r { r.withOvf b with res := v, res2 := v2, acc := acc, accNdig := ndig }

theorem RegsChange.ignored (i : Instr) (r : Regs) : RegsChange i r r :=
  .results r.res r.res2 ⟨fun _ => rfl, fun _ => rfl⟩

/-- `RegsMay` gives each instruction the registers it may write; this is the case it falls under. -/
theorem RegsMay.change {i : Instr} {r r' : Regs} (h : RegsMay i r r') (hc : i ≠ .sysClrf) :
    RegsChange i r r' := by
  have both {v v2 : Word} (hw : writesResults i = (true, true)) : ResultsMay i r v v2 :=
    ⟨by simp [hw], by simp [hw]⟩
  have first {v : Word} (hw : writesResults i = (true, false)) : ResultsMay i r v r.res2 :=
    ⟨by simp [hw], fun _ => rfl⟩
  cases i with
  | sysNop => rw [show r' = r from h]; exact .ignored _ r
  | sysClrf => exact absurd rfl hc
  | bpEnc32 | bpEncd32 | bpEnc64 | bpEncd64 =>
    rw [show r' = _ from h]
    exact .bpMeta (by simp [IsBpEncoder, bpEncoders]) _ _ _ _ _ _ _ (first rfl)
  | egEnc32 | egEnc64 | edEnc32 | edEnc64 =>
    rw [show r' = _ from h]
    exact .eliasMeta (by simp [IsEliasEncoder, eliasEncoders]) _ _ _ _ _ (first rfl)
  | bwWrite _ | egPut | edPut =>
    rw [show r' = _ from h]
    exact .bitWriter (by simp [IsBitWriter]) _ _ _ (first rfl)
  | brRead _ =>
    obtain ⟨b, h⟩ := h
    rw [h]
    exact .bitReader (by simp [IsBitReader]) b _ _ _ (first rfl)
  | egGet | edGet =>
    obtain ⟨b, h⟩ := h
    rw [h]
    exact .bitReader (by simp [IsBitReader]) b _ _ _ (both rfl)
  | egDec32 | egDec64 | edDec32 | edDec64 =>
    obtain ⟨b, h⟩ := h
    rw [h]
    exact .eliasDecoder (by simp [IsEliasDecoder, eliasDecoders]) b _ _ (both rfl)
  | accClr imm =>
    obtain ⟨neg, mode, rfl⟩ := h
    exact .accClear ⟨imm, rfl⟩ neg mode
  | accDigit _ =>
    obtain ⟨⟨b, hb, h⟩, -⟩ := h
    rw [h]
    exact .accSteps (by simp [IsAccStep]) b hb _ _ _ _ ⟨fun _ => rfl, fun _ => rfl⟩
  | accStr =>
    obtain ⟨⟨b, hb, h⟩, -⟩ := h
    rw [h]
    exact .accSteps (by simp [IsAccStep]) b hb _ _ _ _ (both rfl)
  | fwPut _ | tvPut | tvLen | gvEnc | gvSize | bpSize32 | bpSized32 | bpSize64 | bpSized64
  | bpBenef32 | bpBenefd32 | bpBenef64 | bpBenefd64 | bpSorted32 | bpSorted64 | brMore _ | egBits | edBits
  | accClass =>
    rw [show r' = _ from h]
    exact .results _ _ (first rfl)
  | sysReset | fwGet _ | wsel | tvGet | gvDec | gvGetf | bpDec32 | bpDecd32 | bpDec64 | bpDecd64
  | bpMaxb32 | bpMaxbd32 | bpMaxb64 | bpMaxbd64 =>
    rw [show r' = _ from h]
    exact .results _ _ (both rfl)

/-- Every command that answers a next state changes the registers in one of those ways. -/
theorem exec_regs {i : Instr} {s t : State} (h : exec i s = .next t) : RegsChange i s.regs t.regs := by
  by_cases hc : i = .sysClrf
  · subst hc
    have ht : s.clearFault = t := by simpa [exec, execSysClrf] using h
    rw [← ht]
    exact .clearFault rfl
  have fault_zero (hf : s.faulted = false) : s.regs.fault = 0 := by simpa [State.faulted] using hf
  rcases exec_next i s t h with ⟨hi, -⟩ | ⟨hi, rfl⟩ | ⟨-, rfl⟩ | ⟨hf, code, info, rfl⟩ |
    ⟨hf, x, base, len, -, -, -, -, -, rfl⟩ | ⟨-, r, a, out, hr, -, rfl⟩
  · exact absurd hi hc
  · exact .reset hi
  · exact .ignored i _
  · exact .raise hc (fault_zero hf) code info _
  · exact .raise hc (fault_zero hf) .memFault x _
  · exact hr.change hc

/-! ### What each change leaves as it was -/

@[simp] theorem faultRegs_fault (r : Regs) (code : FaultCode) (info : Nat) (cmd : Word) :
    (faultRegs r code info cmd).fault = code.number := Regs.withFault_fault r code.number

theorem FaultCode.number_ne_zero (code : FaultCode) : code.number ≠ 0 := by
  cases code <;> decide

theorem FaultCode.number_le (code : FaultCode) : code.number.toNat ≤ 11 := by
  cases code <;> decide

section
variable {i : Instr} {r r' : Regs}

theorem RegsChange.operands (h : RegsChange i r r') (hr : i ≠ .sysReset) :
    r'.src = r.src ∧ r'.srclen = r.srclen ∧ r'.dst = r.dst ∧ r'.dstcap = r.dstcap ∧ r'.cnt = r.cnt ∧
      r'.arg = r.arg ∧ r'.bitlen = r.bitlen ∧ r'.bwBase = r.bwBase ∧ r'.bwCap = r.bwCap ∧
      r'.brBase = r.brBase ∧ r'.brEnd = r.brEnd := by
  cases h with
  | reset hi => exact absurd hi hr
  | _ => exact ⟨rfl, rfl, rfl, rfl, rfl, rfl, rfl, rfl, rfl, rfl, rfl⟩

theorem RegsChange.blockMeta (h : RegsChange i r r') (hr : i ≠ .sysReset) (hb : ¬ IsBpEncoder i) :
    r'.metaBlocks = r.metaBlocks ∧ r'.metaLast = r.metaLast ∧ r'.metaMaxbw = r.metaMaxbw := by
  cases h with
  | reset hi => exact absurd hi hr
  | bpMeta hi => exact absurd hi hb
  | _ => exact ⟨rfl, rfl, rfl⟩

theorem RegsChange.metaBits (h : RegsChange i r r') (hr : i ≠ .sysReset) (he : ¬ IsEliasEncoder i) :
    r'.metaBits = r.metaBits := by
  cases h with
  | reset hi => exact absurd hi hr
  | eliasMeta hi => exact absurd hi he
  | _ => rfl

theorem RegsChange.sizeMeta (h : RegsChange i r r') (hr : i ≠ .sysReset) (hb : ¬ IsBpEncoder i)
    (he : ¬ IsEliasEncoder i) : r'.metaCount = r.metaCount ∧ r'.metaBytes = r.metaBytes := by
  cases h with
  | reset hi => exact absurd hi hr
  | bpMeta hi => exact absurd hi hb
  | eliasMeta hi => exact absurd hi he
  | _ => exact ⟨rfl, rfl⟩

theorem RegsChange.bwPos (h : RegsChange i r r') (hr : i ≠ .sysReset) (hw : ¬ IsBitWriter i) :
    r'.bwPos = r.bwPos := by
  cases h with
  | reset hi => exact absurd hi hr
  | bitWriter hi => exact absurd hi hw
  | _ => rfl

theorem RegsChange.brPos (h : RegsChange i r r') (hr : i ≠ .sysReset) (hb : ¬ IsBitReader i) :
    r'.brPos = r.brPos := by
  cases h with
  | reset hi => exact absurd hi hr
  | bitReader hi => exact absurd hi hb
  | _ => rfl

theorem RegsChange.accumulator (h : RegsChange i r r') (hr : i ≠ .sysReset) (hc : ¬ IsAccClear i)
    (hs : ¬ IsAccStep i) : r'.acc = r.acc ∧ r'.accNdig = r.accNdig ∧ r'.ovf = r.ovf := by
  cases h with
  | reset hi => exact absurd hi hr
  | clearFault => exact ⟨rfl, rfl, Regs.withFault_ovf r _⟩
  | raise => exact ⟨rfl, rfl, Regs.withFault_ovf r _⟩
  | bitReader _ b => exact ⟨rfl, rfl, Regs.withMalf_ovf r b⟩
  | eliasDecoder _ b => exact ⟨rfl, rfl, Regs.withMalf_ovf r b⟩
  | accClear hi => exact absurd hi hc
  | accSteps hi => exact absurd hi hs
  | _ => exact ⟨rfl, rfl, rfl⟩

theorem RegsChange.signAndMode (h : RegsChange i r r') (hr : i ≠ .sysReset) (hc : ¬ IsAccClear i) :
    r'.neg = r.neg ∧ r'.mode = r.mode ∧ (r.ovf = true → r'.ovf = true) := by
  cases h with
  | reset hi => exact absurd hi hr
  | clearFault => exact ⟨Regs.withFault_neg r _, Regs.withFault_mode r _, (Regs.withFault_ovf r _).trans⟩
  | raise => exact ⟨Regs.withFault_neg r _, Regs.withFault_mode r _, (Regs.withFault_ovf r _).trans⟩
  | bitReader _ b => exact ⟨Regs.withMalf_neg r b, Regs.withMalf_mode r b, (Regs.withMalf_ovf r b).trans⟩
  | eliasDecoder _ b => exact ⟨Regs.withMalf_neg r b, Regs.withMalf_mode r b, (Regs.withMalf_ovf r b).trans⟩
  | accClear hi => exact absurd hi hc
  | accSteps _ b hb =>
    exact ⟨Regs.withOvf_neg r b, Regs.withOvf_mode r b, fun ho => (Regs.withOvf_ovf r b).trans (hb ho)⟩
  | _ => exact ⟨rfl, rfl, id⟩

theorem RegsChange.malf (h : RegsChange i r r') (hr : i ≠ .sysReset) (hb : ¬ IsBitReader i)
    (hd : ¬ IsEliasDecoder i) : r'.malf = r.malf := by
  cases h with
  | reset hi => exact absurd hi hr
  | clearFault => exact Regs.withFault_malf r _
  | raise => exact Regs.withFault_malf r _
  | bitReader hi => exact absurd hi hb
  | eliasDecoder hi => exact absurd hi hd
  | accClear _ neg mode => exact (Regs.withMode_malf _ mode).trans (by simp)
  | accSteps _ b => exact Regs.withOvf_malf r b
  | _ => rfl

/-- Only a change that raises a fault takes the block from not faulted to faulted. -/
theorem not_faultedAlike_of_raise {code : FaultCode} {info : Nat} {cmd : Word} (hf : r.fault = 0) :
    ¬ ((faultRegs r code info cmd).fault != 0) = (r.fault != 0) := by
  simpa [hf] using code.number_ne_zero

theorem RegsChange.faultRecord (h : RegsChange i r r') (hr : i ≠ .sysReset) (hc : i ≠ .sysClrf)
    (hf : (r'.fault != 0) = (r.fault != 0)) :
    r'.faddr = r.faddr ∧ r'.fcmd = r.fcmd ∧ r'.fault = r.fault := by
  cases h with
  | reset hi => exact absurd hi hr
  | clearFault hi => exact absurd hi hc
  | raise _ h0 => exact absurd hf (not_faultedAlike_of_raise h0)
  | bitReader _ b => exact ⟨rfl, rfl, Regs.withMalf_fault r b⟩
  | eliasDecoder _ b => exact ⟨rfl, rfl, Regs.withMalf_fault r b⟩
  | accClear _ neg mode => exact ⟨rfl, rfl, (Regs.withMode_fault _ mode).trans (by simp)⟩
  | accSteps _ b => exact ⟨rfl, rfl, Regs.withOvf_fault r b⟩
  | _ => exact ⟨rfl, rfl, rfl⟩

theorem RegsChange.resultsMay (h : RegsChange i r r') (hr : i ≠ .sysReset)
    (hf : i = .sysClrf ∨ (r'.fault != 0) = (r.fault != 0)) : ResultsMay i r r'.res r'.res2 := by
  cases h with
  | reset hi => exact absurd hi hr
  | raise hc h0 => exact (hf.elim hc (not_faultedAlike_of_raise h0)).elim
  | clearFault | accClear => exact ⟨fun _ => rfl, fun _ => rfl⟩
  | results | bpMeta | eliasMeta | bitWriter | bitReader | eliasDecoder | accSteps => assumption

end

/-- Settles O15, clause by clause from the ways a command can change the registers. -/
theorem registersAreWrittenOnlyByTheirCommands : Obligations.RegistersAreWrittenOnlyByTheirCommands := by
  intro i s t hr h
  have c := exec_regs h
  exact ⟨c.operands hr,
    fun hb => c.blockMeta hr fun ⟨p, hp, e⟩ => hb p hp e,
    fun he => c.metaBits hr fun ⟨p, hp, e⟩ => he p hp e,
    fun hb he => c.sizeMeta hr (fun ⟨p, hp, e⟩ => hb p hp e) fun ⟨p, hp, e⟩ => he p hp e,
    fun hw hg hd => c.bwPos hr (by simp [IsBitWriter, hw, hg, hd]),
    fun hb hg hd => c.brPos hr (by simp [IsBitReader, hb, hg, hd]),
    fun hc hd hs => c.accumulator hr (fun ⟨imm, e⟩ => hc imm e) (by simp [IsAccStep, hd, hs]),
    fun hc => c.signAndMode hr fun ⟨imm, e⟩ => hc imm e,
    fun hb hg hd he => c.malf hr (by simp [IsBitReader, hb, hg, hd]) fun ⟨p, hp, e⟩ => he p hp e,
    c.faultRecord hr, c.resultsMay hr⟩

/-! ### The legal form of `STATUS` -/

/-- `StatusLegal` as a condition on the registers alone. -/
abbrev LegalStatus (r : Regs) : Prop :=
  r.status.field 3 1 = 0 ∧ r.status.field 6 2 = 0 ∧ r.status.field 16 48 = 0 ∧ r.fault.toNat ≤ 11

theorem statusLegal_iff (s : State) : StatusLegal s ↔ LegalStatus s.regs := Iff.rfl

section
variable {r r' : Regs}

theorem LegalStatus.fault_le (h : LegalStatus r) : r.fault.toNat ≤ 11 := by
  obtain ⟨-, -, -, hf⟩ := h
  exact hf

/-- The three reserved fields as they were, and a fault code of the table. -/
theorem LegalStatus.of_reserved_kept (h : LegalStatus r)
    (kept : ∀ lo n, (lo, n) = (3, 1) ∨ (lo, n) = (6, 2) ∨ (lo, n) = (16, 48) →
      r'.status.field lo n = r.status.field lo n)
    (hf : r'.fault.toNat ≤ 11) : LegalStatus r' := by
  obtain ⟨h3, h6, h16, -⟩ := h
  exact ⟨(kept 3 1 (by simp)).trans h3, (kept 6 2 (by simp)).trans h6, (kept 16 48 (by simp)).trans h16, hf⟩

theorem LegalStatus.withOvf (h : LegalStatus r) (b : Bool) : LegalStatus (r.withOvf b) :=
  h.of_reserved_kept (fun lo n hl => (Regs.status_reserved_kept r lo n hl).1 b) (by simpa using h.fault_le)

theorem LegalStatus.withNeg (h : LegalStatus r) (b : Bool) : LegalStatus (r.withNeg b) :=
  h.of_reserved_kept (fun lo n hl => (Regs.status_reserved_kept r lo n hl).2.1 b) (by simpa using h.fault_le)

theorem LegalStatus.withMalf (h : LegalStatus r) (b : Bool) : LegalStatus (r.withMalf b) :=
  h.of_reserved_kept (fun lo n hl => (Regs.status_reserved_kept r lo n hl).2.2.1 b) (by simpa using h.fault_le)

theorem LegalStatus.withMode (h : LegalStatus r) (m : BitVec 2) : LegalStatus (r.withMode m) :=
  h.of_reserved_kept (fun lo n hl => (Regs.status_reserved_kept r lo n hl).2.2.2.1 m)
    (by simpa using h.fault_le)

theorem LegalStatus.withFault (h : LegalStatus r) {c : BitVec 8} (hc : c.toNat ≤ 11) :
    LegalStatus (r.withFault c) :=
  h.of_reserved_kept (fun lo n hl => (Regs.status_reserved_kept r lo n hl).2.2.2.2 c) (by simpa using hc)

/-- A host write leaves `STATUS`, a read-only register, as it is. -/
theorem LegalStatus.windowWrite (h : LegalStatus r) (offset : Nat) (v : Word) :
    LegalStatus (windowWrite r offset v) := by
  simpa [LegalStatus, Regs.fault] using h

end

theorem legalStatus_reset : LegalStatus Regs.reset := by decide

/-- Every change keeps the legal form: each writes `STATUS` through its named fields alone. -/
theorem RegsChange.legalStatus {i : Instr} {r r' : Regs} (c : RegsChange i r r') (h : LegalStatus r) :
    LegalStatus r' := by
  cases c with
  | reset => exact legalStatus_reset
  | clearFault => exact h.withFault (by decide)
  | raise _ _ code => exact h.withFault code.number_le
  | bitReader _ b => exact h.withMalf b
  | eliasDecoder _ b => exact h.withMalf b
  | accClear _ neg mode => exact ((h.withOvf false).withNeg neg).withMode mode
  | accSteps _ b => exact h.withOvf b
  | _ => exact h

theorem runCommandWord_legalStatus {w : Word} {s t : State} (h : LegalStatus s.regs)
    (he : runCommandWord w s = .next t) : LegalStatus t.regs := by
  rcases runCommandWord_next he with ⟨i, -, hx⟩ | ⟨-, rfl⟩ | ⟨-, rfl⟩
  · exact (exec_regs hx).legalStatus h
  · exact h
  · exact h.withFault (by decide)

theorem perform_legalStatus {a : HostAction} {s t : State} (h : LegalStatus s.regs)
    (he : perform a s = .next t) : LegalStatus t.regs := by
  rcases perform_next he with ⟨v, rfl⟩ | ⟨offset, v, rfl⟩ | rfl | ⟨x, b, -, -, rfl⟩ | ⟨w, -, hw⟩
  · exact h
  · exact h.windowWrite offset v
  · exact legalStatus_reset
  · exact h
  · exact runCommandWord_legalStatus h hw

/-- Settles O19: an idle step changes nothing, and each host action keeps the legal form. -/
theorem stepKeepsStatusLegal : Obligations.StepKeepsStatusLegal := by
  intro s t h he
  rw [statusLegal_iff] at h ⊢
  rcases step_next he with ⟨-, rfl⟩ | ⟨a, rest, -, hp⟩
  · exact h
  · exact perform_legalStatus (s := { s with pending := rest }) h hp

/-- Settles O8: memory lists nothing after reset, and every register is 0. -/
theorem resetStateMeetsTheInvariants : Obligations.ResetStateMeetsTheInvariants := by
  have memory_empty : State.reset.mem = [] := rfl
  refine ⟨⟨by decide, ?_⟩, ?_, (statusLegal_iff _).mpr legalStatus_reset, ?_⟩
  · simp [Memory.wf, memory_empty]
  · simp [MemoryInSpace, memory_empty]
  · exact Nat.zero_le _

end Sys2Proof.Machine
end

section
/-! PROOF. What a command does to the data memory, and the promises of the whole machine that follow: stores
stay in the destination extent (20_memory.md R66, R81), the outcome depends on the source extent alone (R83), the
memory stays canonical (R60), and a command is refused only at the block's own window (R73). -/

namespace Sys2Proof.Machine

/-! ### What a command does to the memory -/

/-- A command that answers a next state has stored one byte sequence, perhaps none, inside its destination
extent. -/
theorem exec_stores {i : Instr} {s t : State} (h : exec i s = .next t) :
    ∃ a out, t.mem = s.mem.writeBytes a out ∧ (out = [] ∨ Inside a out.length (destExtent i s)) := by
  rcases exec_next i s t h with ⟨-, rfl⟩ | ⟨-, rfl⟩ | ⟨-, rfl⟩ | ⟨-, code, info, rfl⟩ |
    ⟨-, x, base, len, ⟨-, hin⟩, -, -, -, -, rfl⟩ | ⟨-, r, a, out, -, hd, rfl⟩
  · exact ⟨0, [], rfl, .inl rfl⟩
  · exact ⟨0, [], rfl, .inl rfl⟩
  · exact ⟨0, [], rfl, .inl rfl⟩
  · exact ⟨0, [], rfl, .inl rfl⟩
  · exact ⟨base, _, rfl, .inr (by simpa using hin)⟩
  · exact ⟨a, out, rfl, hd.imp id fun ⟨_, hin⟩ => hin⟩

/-- Settles O16: the one sequence stored lies in the destination extent. -/
theorem storesStayInTheDestinationExtent : Obligations.StoresStayInTheDestinationExtent := by
  intro i s t h x hx
  obtain ⟨a, out, hmem, hd⟩ := exec_stores h
  rw [hmem]
  apply Memory.read_writeBytes_outside
  rcases hd with rfl | ⟨hlo, hhi, -⟩
  · simp only [List.length_nil]; omega
  · by_contra hin
    exact hx ⟨by omega, by omega⟩

/-! ### The same store on two memories -/

/-- After the same store every byte is the same in both memories, or as it was in both. -/
theorem Memory.writeBytes_alike {m m' : Memory} (hm : m.wf) (hm' : m'.wf) (a : Nat) (out : List Byte) (x : Nat) :
    (m.writeBytes a out).read x = (m'.writeBytes a out).read x ∨
      ((m.writeBytes a out).read x = m.read x ∧ (m'.writeBytes a out).read x = m'.read x) := by
  rw [Memory.read_writeBytes m a x out hm, Memory.read_writeBytes m' a x out hm']
  split
  · exact .inl rfl
  · exact .inr ⟨rfl, rfl⟩

/-- What `OutcomeDependsOnlyOnTheSourceExtent` says of the outcomes on two memories. -/
abbrev SameOutcome (s : State) (m : Memory) (x y : Host.Outcome State Fault Refusal) : Prop :=
  match x, y with
  | .next t, .next u =>
    t.regs = u.regs ∧ t.draws = u.draws ∧
      ∀ a, t.mem.read a = u.mem.read a ∨ (t.mem.read a = s.mem.read a ∧ u.mem.read a = m.read a)
  | .refused r, .refused q => r = q
  | _, _ => False

/-- Each way that `exec_does` leaves a command stores the same bytes at the same place on both memories. -/
theorem Does.sameOutcome {i : Instr} {s : State} {m : Memory} {x y : Host.Outcome State Fault Refusal}
    (h : Does i s m x y) (hs : s.mem.wf) (hm : m.wf) : SameOutcome s m x y := by
  rcases h with ⟨-, rfl, rfl⟩ | ⟨-, code, info, rfl, rfl⟩ | ⟨-, a, base, len, -, -, -, -, -, rfl, rfl⟩ |
    ⟨-, a, -, -, -, rfl, rfl⟩ | ⟨-, r, a, out, -, -, rfl, rfl⟩
  · exact ⟨rfl, rfl, fun _ => .inr ⟨rfl, rfl⟩⟩
  · exact ⟨rfl, rfl, fun _ => .inr ⟨rfl, rfl⟩⟩
  · exact ⟨rfl, rfl, Memory.writeBytes_alike hs hm base _⟩
  · rfl
  · exact ⟨rfl, rfl, Memory.writeBytes_alike hs hm a out⟩

/-- Settles O17: `SYS.CLRF` and `SYS.RESET` store nothing, and every other command does as `exec_does` says. -/
theorem outcomeDependsOnlyOnTheSourceExtent : Obligations.OutcomeDependsOnlyOnTheSourceExtent := by
  intro i s m hs hm hsrc hbyte
  show SameOutcome s m (exec i s) (exec i (s.withMem m))
  by_cases hc : i = .sysClrf
  · subst hc
    exact ⟨rfl, rfl, fun _ => .inr ⟨rfl, rfl⟩⟩
  by_cases hr : i = .sysReset
  · subst hr
    exact ⟨rfl, rfl, fun _ => .inr ⟨rfl, rfl⟩⟩
  exact (exec_does i s m hc hr ⟨fun x h1 h2 => hsrc x ⟨h1, h2⟩, hbyte⟩).sameOutcome hs hm

/-! ### The canonical form -/

/-- The memory is canonical, and lists no address above the top of the address space. -/
abbrev Canonical (m : Memory) : Prop := m.wf ∧ ∀ c ∈ m, c.1 < 2 ^ 64

theorem Canonical.writeBytes {m : Memory} (h : Canonical m) {a : Nat} {out : List Byte}
    (hd : out = [] ∨ a + out.length ≤ 2 ^ 64) : Canonical (m.writeBytes a out) :=
  ⟨Memory.wf_writeBytes m a out h.1, Memory.below_writeBytes m a _ out h.2 hd⟩

theorem exec_canonical {i : Instr} {s t : State} (h : Canonical s.mem) (he : exec i s = .next t) :
    Canonical t.mem := by
  obtain ⟨a, out, hmem, hd⟩ := exec_stores he
  rw [hmem]
  exact h.writeBytes (hd.imp id fun ⟨_, hhi, hspace⟩ => hhi.trans hspace)

theorem runCommandWord_canonical {w : Word} {s t : State} (h : Canonical s.mem)
    (he : runCommandWord w s = .next t) : Canonical t.mem := by
  rcases runCommandWord_next he with ⟨i, -, hx⟩ | ⟨-, rfl⟩ | ⟨-, rfl⟩
  · exact exec_canonical h hx
  · exact h
  · exact h

theorem perform_canonical {a : HostAction} {s t : State} (h : Canonical s.mem) (he : perform a s = .next t) :
    Canonical t.mem := by
  rcases perform_next he with ⟨v, rfl⟩ | ⟨offset, v, rfl⟩ | rfl | ⟨x, b, -, -, rfl⟩ | ⟨w, -, hw⟩
  · exact h
  · exact h
  · exact h
  · exact h.writeBytes (out := [b]) (.inr x.isLt)
  · exact runCommandWord_canonical h hw

/-- Settles O18: an idle step changes nothing, and each host action keeps the form. -/
theorem stepKeepsMemoryCanonical : Obligations.StepKeepsMemoryCanonical := by
  intro s t hwf hspace he
  rcases step_next he with ⟨-, rfl⟩ | ⟨a, rest, -, hp⟩
  · exact ⟨hwf, hspace⟩
  · exact perform_canonical (s := { s with pending := rest }) ⟨hwf, hspace⟩ hp

/-! ### Refusals -/

/-- Every command answers a next state, or is refused at a byte of its extents that lies in the block's own
window and that the platform admits. -/
theorem exec_next_or_refused (i : Instr) (s : State) :
    (∃ t, exec i s = .next t) ∨
    ∃ a, exec i s = .refused (.ownWindow a) ∧ inWindow s.platform a = true ∧
      (canRead s.platform a = true ∨ canWrite s.platform a = true) ∧
      (Within a (sourceExtent i s) ∨ Within a (destExtent i s)) := by
  by_cases hc : i = .sysClrf
  · subst hc; exact .inl ⟨_, rfl⟩
  by_cases hr : i = .sysReset
  · subst hr; exact .inl ⟨_, rfl⟩
  rcases exec_does i s s.mem hc hr (AgreesFor.self i s) with ⟨-, e, -⟩ | ⟨-, code, info, e, -⟩ |
    ⟨-, a, base, len, -, -, -, -, -, e, -⟩ | ⟨-, a, hwin, hadmit, hext, e, -⟩ | ⟨-, r, a, out, -, -, e, -⟩
  · exact .inl ⟨_, e⟩
  · exact .inl ⟨_, e⟩
  · exact .inl ⟨_, e⟩
  · exact .inr ⟨a, e, hwin, hadmit, hext⟩
  · exact .inl ⟨_, e⟩

/-- Settles O21. -/
theorem commandsAreRefusedOnlyAtTheOwnWindow : Obligations.CommandsAreRefusedOnlyAtTheOwnWindow := by
  refine ⟨fun i s r h => ?_, fun i s hnone => ?_⟩
  · rcases exec_next_or_refused i s with ⟨t, e⟩ | ⟨a, e, hwin, hadmit, hext⟩ <;> rw [h] at e
    · simp at e
    · exact ⟨a, by simpa using e, hwin, hadmit, hext⟩
  · rcases exec_next_or_refused i s with hnext | ⟨a, -, hwin, hadmit, -⟩
    · exact hnext
    · simp [hnone a hwin] at hadmit

end Sys2Proof.Machine
end

section
/-! PROOF. Every command makes the checks of its extents before any access (20_memory.md R68, R69,
60_exceptions.md R305): the source range, the destination range, their overlap. -/

namespace Sys2Proof.Machine

/-! ### A fault that ends a command -/

/-- A fault that the body raises is the command's, with nothing else changed. -/
theorem faults_of_raise {i : Instr} {s : State} {code : FaultCode} {info : Nat} (hf : s.faulted = false)
    (hw : i.WellFormed) (h : exec i s = command i s (.error (.raise code info))) : Faults i s code info := by
  rw [Faults, h, command_raises i s _ code info hf hw rfl, takeFault_eq]

/-! ### The checks of both extents -/

/-- The checks of a source and a destination extent, in the order of 60_exceptions.md R305. -/
def checkBoth (source dest : Nat × Nat) : Attempt Unit := do
  checkRange source.1 source.2
  checkRange dest.1 dest.2
  checkOverlap source.1 source.2 dest.1 dest.2

theorem checkExtents_eq_checkBoth (s : State) (n : Nat) :
    checkExtents s n = checkBoth (s.regs.src.toNat, n) (s.regs.dst.toNat, s.regs.dstcap.toNat) := rfl

section
variable {source dest : Nat × Nat}

theorem checkRange_of_inSpace {a n : Nat} (h : InSpace a n) : checkRange a n = .ok () := (checkRange_ok a n).mpr h

theorem checkRange_of_not_inSpace {a n : Nat} (h : ¬ InSpace a n) :
    checkRange a n = .error (.raise .addrWrap a) := (checkRange_error a n _).mpr ⟨h, rfl⟩

theorem checkBoth_of_source_wraps (hs : ¬ InSpace source.1 source.2) :
    checkBoth source dest = .error (.raise .addrWrap source.1) := by
  rw [checkBoth, checkRange_of_not_inSpace hs]; rfl

theorem checkBoth_of_dest_wraps (hs : InSpace source.1 source.2) (hd : ¬ InSpace dest.1 dest.2) :
    checkBoth source dest = .error (.raise .addrWrap dest.1) := by
  rw [checkBoth, checkRange_of_inSpace hs, checkRange_of_not_inSpace hd]; rfl

theorem checkBoth_of_overlap (hs : InSpace source.1 source.2) (hd : InSpace dest.1 dest.2)
    (ho : ¬ Apart source.1 source.2 dest.1 dest.2) :
    checkBoth source dest = .error (.raise .overlap dest.1) := by
  rw [checkBoth, checkRange_of_inSpace hs, checkRange_of_inSpace hd]
  exact (checkOverlap_error _ _ _ _ _).mpr ⟨ho, rfl⟩

theorem checkBoth_of_admitted (h : ExtentsAdmitted source dest) : checkBoth source dest = .ok () := by
  obtain ⟨hs, hd, ha⟩ := h
  rw [checkBoth, checkRange_of_inSpace hs, checkRange_of_inSpace hd]
  exact (checkOverlap_ok _ _ _ _).mpr ha

/-- Without a destination the checks are those of the source range. -/
theorem checkBoth_source (source : Nat × Nat) : checkBoth source (0, 0) = checkRange source.1 source.2 := by
  by_cases hs : InSpace source.1 source.2
  · rw [checkRange_of_inSpace hs]
    exact checkBoth_of_admitted ⟨hs, by simp [InSpace], .inr (.inl rfl)⟩
  · rw [checkRange_of_not_inSpace hs, checkBoth_of_source_wraps hs]

/-- Without a source the checks are those of the destination range. -/
theorem checkBoth_dest (dest : Nat × Nat) : checkBoth (0, 0) dest = checkRange dest.1 dest.2 := by
  have h0 : InSpace 0 0 := by simp [InSpace]
  by_cases hd : InSpace dest.1 dest.2
  · rw [checkRange_of_inSpace hd]
    exact checkBoth_of_admitted ⟨h0, hd, .inl rfl⟩
  · rw [checkRange_of_not_inSpace hd, checkBoth_of_dest_wraps h0 hd]

end

/-! ### The checks come first -/

/-- The command makes the checks of its extents, and then comes to `body`. -/
abbrev RunsAfterChecks (i : Instr) (s : State) (body : Attempt State) : Prop :=
  exec i s = command i s (checkBoth (sourceExtent i s) (destExtent i s) >>= fun _ => body)

/-- A failed check of the extents is how the command ends. -/
def ChecksExtentsFirst (i : Instr) (s : State) : Prop :=
  ∀ e, checkBoth (sourceExtent i s) (destExtent i s) = .error e → exec i s = command i s (.error e)

section
variable {i : Instr} {s : State} {body : Attempt State}

theorem RunsAfterChecks.of_source (hd : destExtent i s = (0, 0))
    (h : exec i s = command i s (checkRange (sourceExtent i s).1 (sourceExtent i s).2 >>= fun _ => body)) :
    RunsAfterChecks i s body := by
  rw [RunsAfterChecks, h, hd, checkBoth_source]

theorem RunsAfterChecks.of_dest (hs : sourceExtent i s = (0, 0))
    (h : exec i s = command i s (checkRange (destExtent i s).1 (destExtent i s).2 >>= fun _ => body)) :
    RunsAfterChecks i s body := by
  rw [RunsAfterChecks, h, hs, checkBoth_dest]

theorem RunsAfterChecks.checksFirst (h : RunsAfterChecks i s body) : ChecksExtentsFirst i s := by
  intro e he
  rw [h, he]; rfl

/-- A command whose extents are admitted ends as the rest of its body does. -/
theorem RunsAfterChecks.faults {code : FaultCode} {info : Nat} (h : RunsAfterChecks i s body)
    (hf : s.faulted = false) (hw : i.WellFormed) (ha : ExtentsAdmitted (sourceExtent i s) (destExtent i s))
    (hb : body = .error (.raise code info)) : Faults i s code info :=
  faults_of_raise hf hw (by rw [h, checkBoth_of_admitted ha, hb]; rfl)

/-- The bit writer checks its buffer before anything else (44_elias.md R224). -/
theorem ChecksExtentsFirst.of_writer {t : List Bool} {g : State → Attempt State}
    (hs : sourceExtent i s = (0, 0)) (hd : destExtent i s = (s.regs.bwBase.toNat, s.regs.bwCap.toNat))
    (h : exec i s = command i s (bwAppend s t >>= g)) : ChecksExtentsFirst i s := by
  rw [bwAppend, bind_assoc] at h
  exact (RunsAfterChecks.of_dest hs (by rw [h, hd])).checksFirst

/-- A command without extents has no check to fail. -/
theorem ChecksExtentsFirst.of_none (hs : sourceExtent i s = (0, 0)) (hd : destExtent i s = (0, 0)) :
    ChecksExtentsFirst i s := by
  intro e he
  rw [hs, hd, checkBoth_source, checkRange_of_inSpace (by simp [InSpace])] at he
  simp at he

end

theorem gvBadCount_of_range {c : Nat} (h : 1 ≤ c ∧ c ≤ 64) : gvBadCount c = false := by
  rw [gvBadCount, Bool.or_eq_false_iff]
  exact ⟨decide_eq_false (by omega), decide_eq_false (Nat.not_lt.mpr h.2)⟩

theorem execGvEnc_of_count {s : State} (h : 1 ≤ s.regs.cnt.toNat ∧ s.regs.cnt.toNat ≤ 64) :
    execGvEnc s = command .gvEnc s (do
      checkExtents s (8 * s.regs.cnt.toNat)
      let vs ← readArray s 8 s.regs.src.toNat s.regs.cnt.toNat
      let t ← writeOutput s (gvEncode vs)
      return t.withRes (word (gvEncode vs).length)) := by
  simp [execGvEnc, gvBadCount_of_range h]

theorem execGvSize_of_count {s : State} (h : 1 ≤ s.regs.cnt.toNat ∧ s.regs.cnt.toNat ≤ 64) :
    execGvSize s = command .gvSize s (do
      checkRange s.regs.src.toNat (8 * s.regs.cnt.toNat)
      let vs ← readArray s 8 s.regs.src.toNat s.regs.cnt.toNat
      return s.withRes (word (gvSize vs))) := by
  simp [execGvSize, gvBadCount_of_range h]

theorem codePut_of_nonzero {s : State} (i : Instr) (c : Code) (h : s.regs.arg.toNat ≠ 0) :
    codePut i c s = command i s (do
      let t ← bwAppend s (c.word s.regs.arg.toNat)
      return t.withRes (word (c.length s.regs.arg.toNat))) := by
  simp [codePut, h]

/-- Every command past its extent-free checks makes the checks of its extents first. -/
theorem exec_checksExtentsFirst (i : Instr) (s : State) (h : ReachesExtents i s) : ChecksExtentsFirst i s := by
  obtain ⟨-, hcount, hzero⟩ := h
  cases i with
  | sysNop | sysClrf | sysReset | wsel | tvLen | bpMaxb32 | bpMaxbd32 | bpMaxb64 | bpMaxbd64 | brMore _
  | egBits | edBits | accClr _ | accDigit _ | accClass => exact .of_none rfl rfl
  | fwPut _ | tvPut => exact (RunsAfterChecks.of_dest rfl rfl).checksFirst
  | bwWrite _ => exact .of_writer rfl rfl rfl
  | egPut | edPut => exact .of_writer rfl rfl (codePut_of_nonzero _ _ (hzero (by simp)))
  | gvEnc => exact RunsAfterChecks.checksFirst (execGvEnc_of_count (hcount (by simp)))
  | gvSize => exact (RunsAfterChecks.of_source (i := .gvSize) rfl (execGvSize_of_count (hcount (by simp)))).checksFirst
  | fwGet _ | tvGet | gvGetf | bpSize32 | bpSized32 | bpSize64 | bpSized64 | bpBenef32 | bpBenefd32
  | bpBenef64 | bpBenefd64 | bpSorted32 | bpSorted64 | brRead _ | egGet | edGet | accStr =>
    exact (RunsAfterChecks.of_source rfl rfl).checksFirst
  | gvDec | bpEnc32 | bpEncd32 | bpEnc64 | bpEncd64 | bpDec32 | bpDecd32 | bpDec64 | bpDecd64
  | egEnc32 | egEnc64 | egDec32 | egDec64 | edEnc32 | edEnc64 | edDec32 | edDec64 =>
    exact RunsAfterChecks.checksFirst rfl

/-- Settles O22: the first check of the two extents that fails is the fault. -/
theorem extentFaultsComeFirst : Obligations.ExtentFaultsComeFirst := by
  intro i s hf h
  have faults {code info} (he : checkBoth (sourceExtent i s) (destExtent i s) = .error (.raise code info)) :
      Faults i s code info := faults_of_raise hf h.1 (exec_checksExtentsFirst i s h _ he)
  exact ⟨fun hs => faults (checkBoth_of_source_wraps hs),
    fun hs hd => faults (checkBoth_of_dest_wraps hs hd),
    fun hs hd ho => faults (checkBoth_of_overlap hs hd ho)⟩

end Sys2Proof.Machine
end

section
/-! PROOF. What the reading operations answer at the first byte that may not be read (20_memory.md R64), and what
the group varint's parts answer of a group in memory (42_group_varint.md R148, R152, R153). -/

namespace Sys2Proof.Machine

/-! ### The first unreadable byte -/

/-- A computation ends early as its first part does. -/
theorem bind_error {α β : Type} {x : Attempt α} {f : α → Attempt β} {e : Stop} (h : x = .error e) :
    (x >>= f) = .error e := by
  rw [h]; rfl

section
variable {s : State}

theorem portRead_unreadable {a : Nat} (h : canRead s.platform a = false) :
    portRead s a = .error (.raise .memFault a) := by
  simp [portRead, h]

theorem portRead_of_reads {a : Nat} (h : Reads s a 1) : portRead s a = .ok (s.mem.read a) := by
  obtain ⟨hr, hw⟩ := h.head
  exact (portRead_ok s a _).mpr ⟨hr, hw, rfl⟩

theorem readBytes_unreadable {a n k : Nat} (hk : k < n) (hr : Reads s a k)
    (hu : canRead s.platform (a + k) = false) : readBytes s a n = .error (.raise .memFault (a + k)) := by
  induction n generalizing a k with
  | zero => omega
  | succ n ih =>
    cases k with
    | zero => exact bind_error (portRead_unreadable hu)
    | succ k =>
      rw [show a + (k + 1) = a + 1 + k by omega] at hu ⊢
      have hrest := ih (Nat.lt_of_succ_lt_succ hk) hr.tail hu
      simp [readBytes, portRead_of_reads (hr.mono (le_refl _) (by omega)), hrest]

theorem readNumber_unreadable {a n k : Nat} (hk : k < n) (hr : Reads s a k)
    (hu : canRead s.platform (a + k) = false) : readNumber s a n = .error (.raise .memFault (a + k)) := by
  simp [readNumber, readBytes_unreadable hk hr hu]

/-- An array is read in rising address order, so the first unreadable byte is met before any later element. -/
theorem readArray_unreadable {esz a n k : Nat} (hk : k < esz * n) (hr : Reads s a k)
    (hu : canRead s.platform (a + k) = false) : readArray s esz a n = .error (.raise .memFault (a + k)) := by
  induction n generalizing a k with
  | zero => simp at hk
  | succ n ih =>
    rw [Nat.mul_succ] at hk
    by_cases hfirst : k < esz
    · simp [readArray, readNumber_unreadable hfirst hr hu]
    · have hrest : Reads s (a + esz) (k - esz) := hr.mono (by omega) (by omega)
      have hstop : a + k = a + esz + (k - esz) := by omega
      rw [hstop] at hu ⊢
      simp [readArray, readNumber_of_reads s a esz (hr.mono (le_refl _) (by omega)), ih (by omega) hrest hu]

/-- A digit run goes on while it finds digits, up to the first unreadable byte (45_acc128.md R275). -/
theorem digitRun_unreadable {a n k : Nat} (hk : k < n) (hr : Reads s a k)
    (hu : canRead s.platform (a + k) = false)
    (hd : ∀ j < k, 48 ≤ (s.mem.read (a + j)).toNat ∧ (s.mem.read (a + j)).toNat ≤ 57) :
    digitRun s a n = .error (.raise .memFault (a + k)) := by
  induction n generalizing a k with
  | zero => omega
  | succ n ih =>
    cases k with
    | zero => exact bind_error (portRead_unreadable hu)
    | succ k =>
      have hdigit : ¬ ((s.mem.read a).toNat < 0x30 ∨ 0x39 < (s.mem.read a).toNat) := by
        have := hd 0 (by omega)
        rw [Nat.add_zero] at this
        omega
      have hrest : ∀ j < k, 48 ≤ (s.mem.read (a + 1 + j)).toNat ∧ (s.mem.read (a + 1 + j)).toNat ≤ 57 := by
        intro j hj
        have := hd (j + 1) (by omega)
        rwa [show a + (j + 1) = a + 1 + j by omega] at this
      rw [show a + (k + 1) = a + 1 + k by omega] at hu ⊢
      have htail := ih (Nat.lt_of_succ_lt_succ hk) hr.tail hu hrest
      simp [digitRun, portRead_of_reads (hr.mono (le_refl _) (by omega)), hdigit, htail]

theorem portBit_unreadable {base p : Nat} (hu : canRead s.platform (base + p / 8) = false) :
    portBit s base p = .error (.raise .memFault (base + p / 8)) := by
  simp [portBit, portRead_unreadable hu]

theorem portBits_unreadable {base p n k : Nat} (hk : k < n) (hr : ReadsBits s base p k)
    (hu : canRead s.platform (base + (p + k) / 8) = false) :
    portBits s base p n = .error (.raise .memFault (base + (p + k) / 8)) := by
  induction n generalizing p k with
  | zero => omega
  | succ n ih =>
    cases k with
    | zero => exact bind_error (portBit_unreadable hu)
    | succ k =>
      rw [show p + (k + 1) = p + 1 + k by omega] at hu ⊢
      have hrest := ih (Nat.lt_of_succ_lt_succ hk) (hr.mono (by omega) (by omega)) hu
      simp [portBits, portBit_of_reads s base p (hr.mono (le_refl _) (by omega)), hrest]

end

/-! ### Group varints in memory -/

/-- The widths of the `c` fields of the group at `a`. -/
def groupWidths (m : Memory) (a c : Nat) : List Nat := (List.range c).map (groupWidth m a)

section
variable (m : Memory) (a c : Nat)

theorem groupWidths_take {i : Nat} (h : i ≤ c) : (groupWidths m a c).take i = groupWidths m a i := by
  rw [groupWidths, ← List.map_take, List.take_range, Nat.min_eq_left h, groupWidths]

theorem groupWidths_getD {i : Nat} (h : i < c) : (groupWidths m a c).getD i 0 = groupWidth m a i := by
  simp [groupWidths, h]

@[simp] theorem groupWidths_length : (groupWidths m a c).length = c := by simp [groupWidths]

theorem gvOffset_groupWidths {i : Nat} (h : i ≤ c) : gvOffset (groupWidths m a c) i = groupOffset m a c i := by
  rw [gvOffset, groupWidths_length, groupWidths_take m a c h]
  rfl

theorem bytesAt_getD {n i : Nat} (h : i < n) : (bytesAt m a n).getD i 0 = m.read (a + i) := by
  simp [bytesAt, h]

/-- The bitmap that stands in memory announces the widths of the group there. -/
theorem gvWidths_bytesAt : gvWidths (bytesAt m (a + 1) (ceilDiv c 4)) c = groupWidths m a c := by
  refine List.map_congr_left fun i hi => ?_
  have hbyte : i / 4 < ceilDiv c 4 := by
    rw [lt_ceilDiv_iff _ _ _ (by omega)]
    have := List.mem_range.mp hi
    omega
  rw [bytesAt_getD m (a + 1) hbyte]
  rfl

end

section
variable {s : State}

theorem gvReadWidths_of_reads {c : Nat} (hl : 1 + ceilDiv c 4 ≤ s.regs.srclen.toNat)
    (hr : Reads s (s.regs.src.toNat + 1) (ceilDiv c 4)) :
    gvReadWidths s c = .ok (groupWidths s.mem s.regs.src.toNat c) := by
  simp [gvReadWidths, Nat.not_lt.mpr hl, readBytes_of_reads s _ _ hr, gvWidths_bytesAt]

theorem gvReadWidths_unreadable {c k : Nat} (hl : 1 + ceilDiv c 4 ≤ s.regs.srclen.toNat)
    (hk : k < ceilDiv c 4) (hr : Reads s (s.regs.src.toNat + 1) k)
    (hu : canRead s.platform (s.regs.src.toNat + 1 + k) = false) :
    gvReadWidths s c = .error (.raise .memFault (s.regs.src.toNat + 1 + k)) := by
  simp [gvReadWidths, Nat.not_lt.mpr hl, readBytes_unreadable hk hr hu]

theorem gvReadField_of_reads {off w : Nat} (hl : off + w ≤ s.regs.srclen.toNat)
    (hr : Reads s (s.regs.src.toNat + off) w) :
    gvReadField s off w = .ok (numberAt s.mem (s.regs.src.toNat + off) w) := by
  simp [gvReadField, Nat.not_lt.mpr hl, readNumber_of_reads s _ _ hr]

theorem gvReadField_unreadable {off w k : Nat} (hl : off + w ≤ s.regs.srclen.toNat) (hk : k < w)
    (hr : Reads s (s.regs.src.toNat + off) k)
    (hu : canRead s.platform (s.regs.src.toNat + off + k) = false) :
    gvReadField s off w = .error (.raise .memFault (s.regs.src.toNat + off + k)) := by
  simp [gvReadField, Nat.not_lt.mpr hl, readNumber_unreadable hk hr hu]

/-- The first field that cannot be read is how the reading of the fields ends. -/
theorem gvReadFields_error {off k : Nat} {ws : List Nat} {e : Stop} (hk : k < ws.length)
    (hbefore : ∀ l < k, ∃ x, gvReadField s (off + (ws.take l).sum) (ws.getD l 0) = .ok x)
    (he : gvReadField s (off + (ws.take k).sum) (ws.getD k 0) = .error e) :
    gvReadFields s off ws = .error e := by
  induction ws generalizing off k with
  | nil => simp at hk
  | cons w ws ih =>
    cases k with
    | zero =>
      have hw : gvReadField s off w = .error e := by simpa using he
      simp [gvReadFields, hw]
    | succ k =>
      obtain ⟨x, hx⟩ := hbefore 0 (by omega)
      have hw : gvReadField s off w = .ok x := by simpa using hx
      have hrest : gvReadFields s (off + w) ws = .error e := by
        refine ih (k := k) (by simpa using hk) (fun l hl => ?_) ?_
        · simpa [Nat.add_assoc] using hbefore (l + 1) (by omega)
        · simpa [Nat.add_assoc] using he
      simp [gvReadFields, hw, hrest]

end

end Sys2Proof.Machine
end

section
/-! PROOF. How a BP128 decoder comes to the block it turns to (43_bp128.md R178 to R181, R188 to R191): after `n`
sound full blocks it stands at `blockOffset s v n` and has delivered `decodedValues s v n`; and what it answers
there at the first byte that may not be read. -/

namespace Sys2Proof.Machine

/-! ### Running sums (43_bp128.md R181) -/

/-- The sums of the first one, two, … of the deltas onto `prev`. -/
def runningSums (prev : Nat) (ds : List Nat) : List Nat :=
  (List.range ds.length).map fun k => prev + (ds.take (k + 1)).sum

theorem runningSums_cons (prev d : Nat) (ds : List Nat) :
    runningSums prev (d :: ds) = (prev + d) :: runningSums (prev + d) ds := by
  simp [runningSums, List.range_succ_eq_map, Nat.add_assoc]

@[simp] theorem runningSums_length (prev : Nat) (ds : List Nat) : (runningSums prev ds).length = ds.length := by
  simp [runningSums]

theorem runningSums_append (prev : Nat) (ds es : List Nat) :
    runningSums prev (ds ++ es) = runningSums prev ds ++ runningSums (prev + ds.sum) es := by
  induction ds generalizing prev with
  | nil => simp [runningSums]
  | cons d ds ih => simp [runningSums_cons, ih, Nat.add_assoc]

theorem getLastD_runningSums (prev : Nat) (ds : List Nat) :
    (prev :: runningSums prev ds).getLastD 0 = prev + ds.sum := by
  induction ds generalizing prev with
  | nil => simp [runningSums]
  | cons d ds ih =>
    have := ih (prev + d)
    rw [runningSums_cons, List.sum_cons, ← Nat.add_assoc, ← this]
    simp

/-- Deltas whose sums fit the element are summed up. -/
theorem prefixSums_of_lt {width prev k : Nat} {ds : List Nat} (h : ∀ y ∈ runningSums prev ds, y < 2 ^ width) :
    prefixSums width prev k ds = .ok (runningSums prev ds) := by
  induction ds generalizing prev k with
  | nil => rfl
  | cons d ds ih =>
    rw [runningSums_cons, List.forall_mem_cons] at h
    obtain ⟨hd, hds⟩ := h
    simp [prefixSums, Nat.not_le.mpr hd, ih hds, runningSums_cons]

/-! ### The values of the first blocks -/

section
variable (s : State) (v : Variant)

/-- The contents of the first `n` blocks: values, or deltas. -/
def blockContents (n : Nat) : List Nat := (List.range n).flatMap fun k => blockValuesAt s (blockOffset s v k)

theorem blockContents_succ (n : Nat) :
    blockContents s v (n + 1) = blockContents s v n ++ blockValuesAt s (blockOffset s v n) := by
  simp [blockContents, List.range_succ]

theorem decodedValues_eq (n : Nat) :
    decodedValues s v n = firstValues s v ++
      if v.delta then runningSums ((firstValues s v).headD 0) (blockContents s v n) else blockContents s v n := rfl

@[simp] theorem decodedValues_zero : decodedValues s v 0 = firstValues s v := by simp [decodedValues]

/-- What the contents of block `n` add to the values before it. -/
def blockResults (n : Nat) : List Nat :=
  if v.delta then
    runningSums ((firstValues s v).headD 0 + (blockContents s v n).sum) (blockValuesAt s (blockOffset s v n))
  else blockValuesAt s (blockOffset s v n)

theorem decodedValues_succ (n : Nat) : decodedValues s v (n + 1) = decodedValues s v n ++ blockResults s v n := by
  rw [decodedValues_eq, decodedValues_eq, blockContents_succ, blockResults, List.append_assoc]
  cases v.delta with
  | false => rfl
  | true => simp [runningSums_append]

theorem blockResults_length (n : Nat) :
    (blockResults s v n).length = (blockAt s (blockOffset s v n)).count := by
  rw [blockResults]
  split <;> simp [blockValuesAt]

theorem takesFirst_plain (hd : v.delta = false) : takesFirst s v = false := by simp [takesFirst, hd]

theorem firstValues_of_takesFirst (h : takesFirst s v = true) :
    firstValues s v = [(varintAt s (countBytes s v)).1] := if_pos h

theorem firstValues_plain (hd : v.delta = false) : firstValues s v = [] := by
  simp [firstValues, takesFirst_plain s v hd]

/-- A delta stream's sums go on from the last value delivered. -/
theorem getLastD_decodedValues {n : Nat} (hd : v.delta = true) (hfirst : takesFirst s v = true) :
    (decodedValues s v n).getLastD 0 = (firstValues s v).headD 0 + (blockContents s v n).sum := by
  rw [decodedValues_eq, if_pos hd, firstValues_of_takesFirst s v hfirst]
  exact getLastD_runningSums _ _

/-- The values so far and the contents of block `n` give the values after it. -/
theorem produce_decodedValues {n : Nat} (hfirst : v.delta = true → takesFirst s v = true)
    (hlt : ∀ y ∈ decodedValues s v (n + 1), y < 2 ^ v.width) :
    produce v (decodedValues s v n) (blockValuesAt s (blockOffset s v n)) = .ok (decodedValues s v (n + 1)) := by
  rw [decodedValues_succ] at hlt ⊢
  have hresults : blockOutput v (decodedValues s v n) (blockValuesAt s (blockOffset s v n))
      = .ok (blockResults s v n) := by
    rw [blockOutput]
    rw [blockResults] at hlt ⊢
    split
    · next hd =>
      rw [if_pos hd] at hlt
      rw [getLastD_decodedValues s v hd (hfirst hd)]
      exact prefixSums_of_lt fun y hy => hlt y (List.mem_append_right _ hy)
    · rfl
  rw [produce, hresults]
  rfl

/-! ### Where the blocks stand -/

theorem blockOffset_succ (n : Nat) :
    blockOffset s v (n + 1) = blockOffset s v n + (blockAt s (blockOffset s v n)).size := rfl

theorem SourceBlock.size_pos (b : SourceBlock) : 1 ≤ b.size := by
  have : 1 ≤ b.headerBytes := by rw [SourceBlock.headerBytes]; split <;> omega
  rw [SourceBlock.size]; omega

theorem le_blockOffset (n : Nat) : n ≤ blockOffset s v n := by
  induction n with
  | zero => omega
  | succ n ih =>
    have := SourceBlock.size_pos (blockAt s (blockOffset s v n))
    rw [blockOffset_succ]; omega

theorem blockAt_count_of_full {off : Nat} (h : (blockAt s off).short = false) : (blockAt s off).count = 128 := by
  have hh : ¬ 128 ≤ (s.mem.read (s.regs.src.toNat + off)).toNat := by simpa [blockAt] using h
  simp [blockAt, hh]

theorem blockValuesAt_length (off : Nat) : (blockValuesAt s off).length = (blockAt s off).count := by
  simp [blockValuesAt]

/-- Every full block delivers 128 values. -/
theorem decodedValues_length {n : Nat} (hfull : ∀ k < n, (blockAt s (blockOffset s v k)).short = false) :
    (decodedValues s v n).length = valuesBefore s v n := by
  induction n with
  | zero => simp [valuesBefore]
  | succ n ih =>
    rw [decodedValues_succ, List.length_append, ih fun k hk => hfull k (by omega), blockResults_length,
      blockAt_count_of_full s (hfull n (by omega)), valuesBefore, valuesBefore]
    omega

end

/-! ### Turning to a block -/

section
variable {s : State} {v : Variant} {n : Nat}

/-- A decoder that turns to a block has turned to the one before it. -/
theorem TurnsToBlock.pred (h : TurnsToBlock s v (n + 1)) : TurnsToBlock s v n := by
  obtain ⟨⟨hprefix, hsound⟩, hfull, hlt, hwant, hleft⟩ := h
  have hstep : blockOffset s v n < blockOffset s v (n + 1) := by
    have := SourceBlock.size_pos (blockAt s (blockOffset s v n))
    rw [blockOffset_succ]; omega
  refine ⟨⟨hprefix, fun k hk => ?_⟩, fun k hk => hfull k (by omega), fun y hy => hlt y ?_, ?_,
    hleft.imp id fun hl => by omega⟩
  · obtain ⟨hblock, hk', -, hshape⟩ := hsound k (by omega)
    exact ⟨hblock, hk', fun hs => by simp [hfull k (by omega)] at hs, hshape⟩
  · rw [decodedValues_succ]
    exact List.mem_append_left _ hy
  · rw [valuesBefore] at hwant ⊢; omega

/-- A delta decoder that turns to a block has read the first value. -/
theorem TurnsToBlock.takesFirst (h : TurnsToBlock s v n) (hd : v.delta = true) : takesFirst s v = true := by
  obtain ⟨-, -, -, hwant, hleft⟩ := h
  have hpos : 0 < wantedValues s v := by omega
  have hsource : v.wide = true ∨ 0 < s.regs.srclen.toNat := hleft.imp id fun hl => by omega
  simpa [Machine.takesFirst, hd, hpos] using hsource

theorem TurnsToBlock.length (h : TurnsToBlock s v n) : (decodedValues s v n).length = valuesBefore s v n := by
  obtain ⟨-, hfull, -⟩ := h
  exact decodedValues_length s v hfull

theorem TurnsToBlock.wants (h : TurnsToBlock s v n) : ¬ wantedValues s v ≤ (decodedValues s v n).length := by
  obtain ⟨-, -, -, hwant, -⟩ := id h
  rw [h.length]; omega

/-- Between two blocks that a decoder turns to stands a full one, which it parses. -/
theorem TurnsToBlock.parse (h : TurnsToBlock s v (n + 1)) :
    parseBlock s v (blockOffset s v n) =
      .ok ⟨blockValuesAt s (blockOffset s v n), false, blockOffset s v (n + 1)⟩ := by
  obtain ⟨⟨-, hsound⟩, hfull, -⟩ := h
  obtain ⟨hblock, -⟩ := hsound n (by omega)
  rw [parseBlock_sound s v _ hblock, hfull n (by omega)]
  rfl

theorem TurnsToBlock.blockLength (h : TurnsToBlock s v (n + 1)) :
    (blockValuesAt s (blockOffset s v n)).length = 128 := by
  obtain ⟨-, hfull, -⟩ := h
  rw [blockValuesAt_length, blockAt_count_of_full s (hfull n (by omega))]

/-- All of that block is wanted. -/
theorem TurnsToBlock.produce (h : TurnsToBlock s v (n + 1)) :
    produce v (decodedValues s v n)
      ((blockValuesAt s (blockOffset s v n)).take (wantedValues s v - (decodedValues s v n).length)) =
      .ok (decodedValues s v (n + 1)) := by
  obtain ⟨-, -, hlt, hwant, -⟩ := id h
  have hroom : 128 ≤ wantedValues s v - (decodedValues s v n).length := by
    rw [h.pred.length]
    rw [valuesBefore] at hwant ⊢
    omega
  rw [List.take_of_length_le (by rw [h.blockLength]; exact hroom)]
  exact produce_decodedValues s v h.takesFirst hlt

/-! ### The 32-bit decoders (43_bp128.md R188, R189) -/

/-- A 32-bit decoder that wants more and has source left parses the block it turns to. -/
theorem decodeBlocks32_parses (hw : v.wide = false) (h : TurnsToBlock s v n) (fuel : Nat) :
    decodeBlocks32 s v (wantedValues s v) (fuel + 1) (blockOffset s v n) (decodedValues s v n) = (do
      let blk ← parseBlock s v (blockOffset s v n)
      let out ← produce v (decodedValues s v n) (blk.values.take (wantedValues s v - (decodedValues s v n).length))
      if blk.short then return (out, blk.next)
      decodeBlocks32 s v (wantedValues s v) fuel blk.next out) := by
  obtain ⟨-, -, -, -, hleft⟩ := id h
  have hgo : ¬ (wantedValues s v ≤ (decodedValues s v n).length ∨ s.regs.srclen.toNat ≤ blockOffset s v n) := by
    have := h.wants
    have : blockOffset s v n < s.regs.srclen.toNat := by simpa [hw] using hleft
    omega
  simp [decodeBlocks32, hgo]

/-- From the first block to block `n`, each full one takes a round. -/
theorem decodeBlocks32_reaches (hw : v.wide = false) (h : TurnsToBlock s v n) (fuel : Nat) :
    decodeBlocks32 s v (wantedValues s v) (fuel + n) (blocksStart s v) (firstValues s v) =
      decodeBlocks32 s v (wantedValues s v) fuel (blockOffset s v n) (decodedValues s v n) := by
  induction n generalizing fuel with
  | zero => rw [decodedValues_zero]; rfl
  | succ n ih =>
    rw [show fuel + (n + 1) = fuel + 1 + n by omega, ih h.pred, decodeBlocks32_parses hw h.pred, h.parse]
    simp [h.produce]

/-! ### The 64-bit decoders (43_bp128.md R190, R191) -/

/-- The values that the declared count still owes before block `n`. -/
abbrev owedBefore (s : State) (v : Variant) (n : Nat) : Nat := (varintAt s 0).1 - valuesBefore s v n

/-- A 64-bit decoder that wants more parses the block it turns to, and checks its shape. -/
theorem decodeBlocks64_parses (h : TurnsToBlock s v n) (fuel : Nat) :
    decodeBlocks64 s v (wantedValues s v) (fuel + 1) (blockOffset s v n) (owedBefore s v n) (decodedValues s v n) =
      (do
        let blk ← parseBlock s v (blockOffset s v n)
        raiseIf (blk.short && blk.values.length != owedBefore s v n) .badCount (blockOffset s v n + 1)
        raiseIf (!blk.short && decide (owedBefore s v n < Config.blockLen)) .badCount (blockOffset s v n)
        let out ← produce v (decodedValues s v n)
          (blk.values.take (wantedValues s v - (decodedValues s v n).length))
        decodeBlocks64 s v (wantedValues s v) fuel blk.next (owedBefore s v n - blk.values.length) out) := by
  rw [decodeBlocks64, if_neg h.wants]

/-- From the first block to block `n`, each full one takes a round and 128 of the values owed. -/
theorem decodeBlocks64_reaches (hw : v.wide = true) (h : TurnsToBlock s v n) (fuel : Nat) :
    decodeBlocks64 s v (wantedValues s v) (fuel + n) (blocksStart s v) (owedBefore s v 0) (firstValues s v) =
      decodeBlocks64 s v (wantedValues s v) fuel (blockOffset s v n) (owedBefore s v n) (decodedValues s v n) := by
  induction n generalizing fuel with
  | zero => rw [decodedValues_zero]; rfl
  | succ n ih =>
    obtain ⟨⟨-, hsound⟩, hfull, -⟩ := id h
    obtain ⟨-, -, -, hshape⟩ := hsound n (by omega)
    have howed : ¬ owedBefore s v n < Config.blockLen := by
      have := hshape hw
      rw [ShapeOwed, hfull n (by omega), if_neg (by simp)] at this
      rw [Config.blockLen, owedBefore]; omega
    have hnext : owedBefore s v n - 128 = owedBefore s v (n + 1) := by
      rw [owedBefore, owedBefore, valuesBefore, valuesBefore]; omega
    rw [show fuel + (n + 1) = fuel + 1 + n by omega, ih h.pred, decodeBlocks64_parses h.pred, h.parse]
    simp [h.produce, howed, h.blockLength, hnext]

/-! ### Whole streams -/

theorem takesFirst_iff : takesFirst s v = true ↔
    v.delta = true ∧ 0 < wantedValues s v ∧ (v.wide = true ∨ 0 < s.regs.srclen.toNat) := by
  simp [takesFirst, and_assoc]

theorem wantedValues_narrow (hw : v.wide = false) : wantedValues s v = s.regs.cnt.toNat := by
  simp [wantedValues, hw]

theorem wantedValues_wide (hw : v.wide = true) :
    wantedValues s v = min (varintAt s 0).1 s.regs.cnt.toNat := if_pos hw

/-- A 32-bit delta decoder starts with the first value. -/
theorem decodeStream_narrow_delta (hw : v.wide = false) (h : takesFirst s v = true) :
    decodeStream s v = (do
      let first ← sourceVarint s (countBytes s v)
      checkFirst v first.1
      decodeBlocks32 s v (wantedValues s v) s.regs.srclen.toNat first.2 [first.1]) := by
  obtain ⟨hd, hwant, hleft⟩ := takesFirst_iff.mp h
  rw [wantedValues_narrow hw] at hwant ⊢
  have hgo : ¬ (s.regs.cnt.toNat = 0 ∨ s.regs.srclen.toNat = 0) := by
    have : 0 < s.regs.srclen.toNat := by simpa [hw] using hleft
    omega
  simp [decodeStream, hw, decodeStream32, hd, hgo, countBytes]

/-- A 64-bit delta decoder that has read a count goes on to the first value. -/
theorem decodeStream_wide_delta (hw : v.wide = true) (h : takesFirst s v = true) (hcount : VarintSound s 0) :
    decodeStream s v = (do
      let first ← sourceVarint s (countBytes s v)
      checkFirst v first.1
      decodeBlocks64 s v (wantedValues s v) (s.regs.srclen.toNat + 1) (countBytes s v + first.2)
        ((varintAt s 0).1 - 1) [first.1]) := by
  obtain ⟨hd, hwant, -⟩ := takesFirst_iff.mp h
  rw [wantedValues_wide hw] at hwant ⊢
  have hgo : ¬ ((varintAt s 0).1 = 0 ∨ s.regs.cnt.toNat = 0) := by omega
  simp [decodeStream, hw, decodeStream64, hd, hgo, countBytes, sourceVarint_sound s 0 hcount]

/-- The varint that the decoder turns to is how it ends, when that cannot be read. -/
theorem decodeStream_varintError {off : Nat} {e : Stop} (h : TurnsToVarint s v off)
    (he : sourceVarint s off = .error e) : decodeStream s v = .error e := by
  rcases h with ⟨hw, rfl⟩ | ⟨hfirst, rfl, hcount⟩
  · simp [decodeStream, hw, decodeStream64, he]
  · cases hw : v.wide with
    | false => rw [decodeStream_narrow_delta hw hfirst, he]; rfl
    | true => rw [decodeStream_wide_delta hw hfirst (hcount hw), he]; rfl

/-- The first value of a delta stream is read, and fits the element. -/
theorem sourceVarint_first (h : PrefixSound s v) (hfirst : takesFirst s v = true) :
    sourceVarint s (countBytes s v) = .ok (varintAt s (countBytes s v)) ∧
      checkFirst v (varintAt s (countBytes s v)).1 = .ok () := by
  obtain ⟨-, hprefix⟩ := h
  obtain ⟨hsound, hfits⟩ := hprefix hfirst
  rw [firstValues_of_takesFirst s v hfirst] at hfits
  have hfit := hfits _ (List.mem_singleton_self _)
  exact ⟨sourceVarint_sound s _ hsound, by simp [checkFirst, Nat.not_le.mpr hfit]⟩

/-- The prefixes read, a 32-bit decoder comes to the first block. -/
theorem decodeStream_narrow (hw : v.wide = false) (h : PrefixSound s v)
    (hdelta : v.delta = true → takesFirst s v = true) :
    decodeStream s v =
      decodeBlocks32 s v (wantedValues s v) s.regs.srclen.toNat (blocksStart s v) (firstValues s v) := by
  cases hd : v.delta with
  | false =>
    simp [decodeStream, hw, decodeStream32, hd, blocksStart, takesFirst_plain s v hd, firstValues_plain s v hd,
      countBytes, wantedValues_narrow hw]
  | true =>
    have hfirst := hdelta hd
    obtain ⟨hread, hfits⟩ := sourceVarint_first h hfirst
    have hstart : blocksStart s v = (varintAt s (countBytes s v)).2 := by
      simp [blocksStart, hfirst, countBytes, hw]
    rw [decodeStream_narrow_delta hw hfirst, hread, hstart, firstValues_of_takesFirst s v hfirst]
    simp [hfits]

/-- The prefixes read, a 64-bit decoder comes to the first block. -/
theorem decodeStream_wide (hw : v.wide = true) (h : PrefixSound s v)
    (hdelta : v.delta = true → takesFirst s v = true) :
    decodeStream s v =
      decodeBlocks64 s v (wantedValues s v) (s.regs.srclen.toNat + 1) (blocksStart s v) (owedBefore s v 0)
        (firstValues s v) := by
  obtain ⟨hcount, -⟩ := id h
  cases hd : v.delta with
  | false =>
    simp [decodeStream, hw, decodeStream64, hd, blocksStart, takesFirst_plain s v hd, firstValues_plain s v hd,
      countBytes, wantedValues_wide hw, sourceVarint_sound s 0 (hcount hw), owedBefore, valuesBefore]
  | true =>
    have hfirst := hdelta hd
    obtain ⟨hread, hfits⟩ := sourceVarint_first h hfirst
    rw [decodeStream_wide_delta hw hfirst (hcount hw), hread]
    simp [hfits, blocksStart, hfirst, firstValues_of_takesFirst s v hfirst, owedBefore, valuesBefore]

/-- The blocks before block `n` end inside the source. -/
theorem TurnsToBlock.le_srclen (h : TurnsToBlock s v n) : n ≤ s.regs.srclen.toNat := by
  obtain ⟨⟨-, hsound⟩, -⟩ := h
  cases n with
  | zero => omega
  | succ n =>
    obtain ⟨⟨-, hend, -⟩, -⟩ := hsound n (by omega)
    have := le_blockOffset s v (n + 1)
    rw [blockOffset_succ] at this
    omega

/-- The block that the decoder turns to is how it ends, when that cannot be parsed. -/
theorem decodeStream_blockError {e : Stop} (h : TurnsToBlock s v n)
    (he : parseBlock s v (blockOffset s v n) = .error e) : decodeStream s v = .error e := by
  obtain ⟨⟨hprefix, -⟩, -, -, -, hleft⟩ := id h
  cases hw : v.wide with
  | false =>
    have hfuel : s.regs.srclen.toNat = s.regs.srclen.toNat - n - 1 + 1 + n := by
      have := le_blockOffset s v n
      have : blockOffset s v n < s.regs.srclen.toNat := by simpa [hw] using hleft
      omega
    rw [decodeStream_narrow hw hprefix h.takesFirst, hfuel, decodeBlocks32_reaches hw h,
      decodeBlocks32_parses hw h, he]
    rfl
  | true =>
    have hfuel : s.regs.srclen.toNat + 1 = s.regs.srclen.toNat - n + 1 + n := by
      have := h.le_srclen
      omega
    rw [decodeStream_wide hw hprefix h.takesFirst, hfuel, decodeBlocks64_reaches hw h, decodeBlocks64_parses h, he]
    rfl

/-! ### The first unreadable byte of a varint or a block -/

theorem sourceVarint_unreadable_first {off : Nat} (hl : off + 1 ≤ s.regs.srclen.toNat)
    (hu : canRead s.platform (s.regs.src.toNat + off) = false) :
    sourceVarint s off = .error (.raise .memFault (s.regs.src.toNat + off)) := by
  have hin : ¬ s.regs.srclen.toNat < off + 1 := by omega
  simp [sourceVarint, tvGetAt, hin, portRead_unreadable hu]

theorem sourceVarint_unreadable {off k : Nat} (hl : off + (varintAt s off).2 ≤ s.regs.srclen.toNat) (h1 : 1 ≤ k)
    (hk : k < (varintAt s off).2) (hr : Reads s (s.regs.src.toNat + off) k)
    (hu : canRead s.platform (s.regs.src.toNat + off + k) = false) :
    sourceVarint s off = .error (.raise .memFault (s.regs.src.toNat + off + k)) := by
  have hin : ¬ s.regs.srclen.toNat < off + 1 := by omega
  have hend : ¬ s.regs.srclen.toNat < off + (varintAt s off).2 := by omega
  simp [sourceVarint, tvGetAt, hin, portRead_of_reads (hr.mono (le_refl _) (by omega)), tvAnnounced_eq, hend,
    readBytes_unreadable hk hr hu]

theorem parseBlock_unreadable_header {off : Nat} (hl : off + 1 ≤ s.regs.srclen.toNat)
    (hu : canRead s.platform (s.regs.src.toNat + off) = false) :
    parseBlock s v off = .error (.raise .memFault (s.regs.src.toNat + off)) := by
  have hin : ¬ s.regs.srclen.toNat < off + 1 := by omega
  simp [parseBlock, hin, portRead_unreadable hu]

theorem parseBlock_unreadable_count {off : Nat} (hs : (blockAt s off).short = true)
    (hw : (blockAt s off).width ≤ v.width) (hl : off + 2 ≤ s.regs.srclen.toNat)
    (hr : Reads s (s.regs.src.toNat + off) 1) (hu : canRead s.platform (s.regs.src.toNat + off + 1) = false) :
    parseBlock s v off = .error (.raise .memFault (s.regs.src.toNat + off + 1)) := by
  have hh : 128 ≤ (s.mem.read (s.regs.src.toNat + off)).toNat := by simpa [blockAt] using hs
  rw [parseBlock_header s v off (by omega) hr]
  simp [Nat.not_lt.mpr hw, blockCount, hh, Nat.not_lt.mpr hl, portRead_unreadable hu]

theorem parseBlock_unreadable_payload {off k : Nat} (hh : HeaderSound s v off)
    (hl : off + (blockAt s off).size ≤ s.regs.srclen.toNat) (h1 : (blockAt s off).headerBytes ≤ k)
    (hk : k < (blockAt s off).size) (hr : Reads s (s.regs.src.toNat + off) k)
    (hu : canRead s.platform (s.regs.src.toNat + off + k) = false) :
    parseBlock s v off = .error (.raise .memFault (s.regs.src.toNat + off + k)) := by
  obtain ⟨hw, -, -, hread⟩ := id hh
  have hheader : 1 ≤ (blockAt s off).headerBytes := by rw [SourceBlock.headerBytes]; split <;> omega
  rw [SourceBlock.size] at hl hk
  rw [parseBlock_header s v off (by omega) (hread.mono (le_refl _) (by omega)), blockCount_sound s v off hh]
  have hend : ¬ s.regs.srclen.toNat < off + (blockAt s off).headerBytes
      + ceilDiv ((blockAt s off).count * (blockAt s off).width) 8 := by omega
  have hstop : s.regs.src.toNat + off + k
      = s.regs.src.toNat + (off + (blockAt s off).headerBytes) + (k - (blockAt s off).headerBytes) := by omega
  rw [hstop] at hu ⊢
  have hpayload := readBytes_unreadable (n := ceilDiv ((blockAt s off).count * (blockAt s off).width) 8)
    (by omega) (hr.mono (by omega) (by omega)) hu
  simp [Nat.not_lt.mpr hw, hend, hpayload]

end

end Sys2Proof.Machine
end

section
/-! PROOF. What the Elias decodes answer of bits in memory (44_elias.md R221, R222, R225 to R227): the value of a
code word that stands there, and the `MEM_FAULT` of the first bit they examine whose byte may not be read. -/

namespace Sys2Proof.Machine

/-! ### The shape of a code word -/

/-- A number is its top bit and the bits below it. -/
theorem two_pow_add_low {x : Nat} (h : x ≠ 0) : 2 ^ (bitwidth x - 1) + x % 2 ^ (bitwidth x - 1) = x := by
  have hpos := bitwidth_pos h
  have hlow := two_pow_bitwidth_le h
  have hhigh : x < 2 ^ (bitwidth x - 1) + 2 ^ (bitwidth x - 1) := by
    have := lt_two_pow_bitwidth x
    rwa [show bitwidth x = bitwidth x - 1 + 1 by omega, Nat.pow_succ, Nat.mul_two] at this
  rw [Nat.mod_eq_sub_mod hlow, Nat.mod_eq_of_lt (by omega)]
  omega

/-- Zeros, a one, and the low bits (R221). -/
theorem gammaCode_eq {x : Nat} (h : x ≠ 0) :
    gammaCode x = List.replicate (bitwidth x - 1) false ++ true :: bits x (bitwidth x - 1) := by
  have hpos := bitwidth_pos h
  have htop : x.testBit (bitwidth x - 1) = true := by
    rw [bitwidth_eq_log2 h, Nat.add_sub_cancel, Nat.testBit_log2 h]
  rw [gammaCode, ← htop, ← bits]
  congr 2
  omega

theorem gammaCode_length {x : Nat} (h : x ≠ 0) : (gammaCode x).length = 2 * (bitwidth x - 1) + 1 := by
  rw [gammaCode_eq h]
  simp
  omega

theorem deltaCode_length (x : Nat) :
    (deltaCode x).length = (gammaCode (bitwidth x)).length + (bitwidth x - 1) := by
  simp [deltaCode]

/-! ### Zero runs (R226) -/

section
variable {s : State} {base stop limit pos z k : Nat}

theorem ZerosAt.tail {m : Memory} (h : ZerosAt m base pos (z + 1)) : ZerosAt m base (pos + 1) z := by
  intro k hk
  have := h (k + 1) (by omega)
  rwa [show pos + (k + 1) = pos + 1 + k by omega] at this

/-- The zero run goes past a zero. -/
theorem zeroRun_zero (hp : pos < stop) (hr : ReadsBits s base pos 1) (h : bitAt s.mem base pos = false) :
    zeroRun s base stop (limit + 1) pos = (do
      let z ← zeroRun s base stop limit (pos + 1)
      return z.map (· + 1)) := by
  simp [zeroRun, Nat.not_le.mpr hp, portBit_of_reads s base pos hr, h]

theorem zeroRun_eq_some (hz : z < limit) (hp : pos + z < stop) (hr : ReadsBits s base pos (z + 1))
    (h : ZerosAt s.mem base pos z) (h1 : bitAt s.mem base (pos + z) = true) :
    zeroRun s base stop limit pos = .ok (some z) := by
  induction z generalizing pos limit with
  | zero =>
    obtain ⟨limit, rfl⟩ : ∃ l, limit = l + 1 := ⟨limit - 1, by omega⟩
    rw [Nat.add_zero] at hp h1
    simp [zeroRun, Nat.not_le.mpr hp, portBit_of_reads s base pos hr, h1]
  | succ z ih =>
    obtain ⟨limit, rfl⟩ : ∃ l, limit = l + 1 := ⟨limit - 1, by omega⟩
    have hrest : zeroRun s base stop limit (pos + 1) = .ok (some z) :=
      ih (Nat.lt_of_succ_lt_succ hz) (by omega) (hr.mono (by omega) (by omega)) h.tail
        (by rwa [show pos + 1 + z = pos + (z + 1) by omega])
    rw [zeroRun_zero (by omega) (hr.mono (le_refl _) (by omega)) (h 0 (by omega)), hrest]
    rfl

theorem zeroRun_unreadable (hk : k < limit) (hp : pos + k < stop) (hr : ReadsBits s base pos k)
    (h : ZerosAt s.mem base pos k) (hu : canRead s.platform (base + (pos + k) / 8) = false) :
    zeroRun s base stop limit pos = .error (.raise .memFault (base + (pos + k) / 8)) := by
  induction k generalizing pos limit with
  | zero =>
    obtain ⟨limit, rfl⟩ : ∃ l, limit = l + 1 := ⟨limit - 1, by omega⟩
    rw [Nat.add_zero] at hp hu ⊢
    simp [zeroRun, Nat.not_le.mpr hp, portBit_unreadable hu]
  | succ k ih =>
    obtain ⟨limit, rfl⟩ : ∃ l, limit = l + 1 := ⟨limit - 1, by omega⟩
    rw [zeroRun_zero (by omega) (hr.mono (le_refl _) (by omega)) (h 0 (by omega))]
    rw [show pos + (k + 1) = pos + 1 + k by omega] at hp hu ⊢
    exact bind_error (ih (Nat.lt_of_succ_lt_succ hk) hp (hr.mono (by omega) (by omega)) h.tail hu)

end

/-! ### Gamma code words (R226) -/

section
variable {s : State} {base stop wmax pos z k x : Nat}

/-- After `z` zeros and a one that fits, the decode reads `z` more bits. -/
theorem gammaDecode_of_run (hz : z < wmax) (hp : pos + 2 * z + 1 ≤ stop) (hr : ReadsBits s base pos (z + 1))
    (h : ZerosAt s.mem base pos z) (h1 : bitAt s.mem base (pos + z) = true) :
    gammaDecode s base stop wmax pos = (do
      let low ← portBits s base (pos + z + 1) z
      return some (2 ^ z + val low, pos + 2 * z + 1)) := by
  have hfits : ¬ stop < pos + 2 * z + 1 := by omega
  rw [gammaDecode, zeroRun_eq_some hz (by omega) hr h h1, attempt_ok_bind]
  exact if_neg hfits

/-- The bits of a Gamma code word in memory: its zeros, its one, its low bits. -/
theorem bits_of_gammaCode {m : Memory} (hx : x ≠ 0)
    (h : bitsAt m base pos (gammaCode x).length = gammaCode x) :
    ZerosAt m base pos (bitwidth x - 1) ∧ bitAt m base (pos + (bitwidth x - 1)) = true ∧
      bitsAt m base (pos + (bitwidth x - 1) + 1) (bitwidth x - 1) = bits x (bitwidth x - 1) := by
  rw [gammaCode_length hx, gammaCode_eq hx,
    show 2 * (bitwidth x - 1) + 1 = bitwidth x - 1 + (bitwidth x - 1 + 1) by omega, bitsAt_append, bitsAt_succ] at h
  obtain ⟨hzeros, hrest⟩ := List.append_inj h (by simp)
  obtain ⟨hone, hlow⟩ := List.cons_eq_cons.mp hrest
  refine ⟨fun k hk => ?_, hone, hlow⟩
  have := congrArg (fun l => l.getD k false) hzeros
  simpa [bitsAt, hk] using this

/-- A Gamma code word below `2^wmax` that may be read is decoded. -/
theorem gammaDecode_word (hx : x ≠ 0) (hw : x < 2 ^ wmax) (hp : pos + (gammaCode x).length ≤ stop)
    (hr : ReadsBits s base pos (gammaCode x).length)
    (h : bitsAt s.mem base pos (gammaCode x).length = gammaCode x) :
    gammaDecode s base stop wmax pos = .ok (some (x, pos + (gammaCode x).length)) := by
  obtain ⟨hzeros, hone, hlow⟩ := bits_of_gammaCode hx h
  have hpos := bitwidth_pos hx
  have hwidth := (bitwidth_le_iff x wmax).mpr hw
  rw [gammaCode_length hx] at hp hr ⊢
  rw [gammaDecode_of_run (by omega) (by omega) (hr.mono (le_refl _) (by omega)) hzeros hone,
    portBits_of_reads s base _ _ (hr.mono (by omega) (by omega)), hlow]
  simp [val_bits, two_pow_add_low hx, Nat.add_assoc]

theorem gammaDecode_unreadable (he : GammaExamines s.mem base pos stop wmax k) (hr : ReadsBits s base pos k)
    (hu : canRead s.platform (base + (pos + k) / 8) = false) :
    gammaDecode s base stop wmax pos = .error (.raise .memFault (base + (pos + k) / 8)) := by
  rcases he with ⟨hk, hzeros⟩ | ⟨z, hz, hzeros, hone, hzk, hk, hp⟩
  · exact bind_error (zeroRun_unreadable (by omega) (by omega) hr hzeros hu)
  · rw [gammaDecode_of_run hz hp (hr.mono (le_refl _) (by omega)) hzeros hone]
    rw [show pos + k = pos + z + 1 + (k - z - 1) by omega] at hu ⊢
    exact bind_error (portBits_unreadable (by omega) (hr.mono (by omega) (by omega)) hu)

end

/-! ### Delta code words (R227) -/

section
variable {s : State} {base stop wmax pos k x : Nat}

/-- After the Gamma code word of a legal width, the decode reads the bits below the top one. -/
theorem deltaDecode_of_gamma {q : Nat} (h : gammaDecode s base stop 64 pos = .ok (some (x, q)))
    (hw : x - 1 < wmax) (hp : q + (x - 1) ≤ stop) :
    deltaDecode s base stop wmax pos = (do
      let low ← portBits s base q (x - 1)
      return some (2 ^ (x - 1) + val low, q + (x - 1))) := by
  simp [deltaDecode, h, Nat.not_le.mpr hw, Nat.not_lt.mpr hp]

/-- A Delta code word below `2^wmax` that may be read is decoded. -/
theorem deltaDecode_word (hx : x ≠ 0) (hw : x < 2 ^ wmax) (h64 : wmax ≤ 64)
    (hp : pos + (deltaCode x).length ≤ stop) (hr : ReadsBits s base pos (deltaCode x).length)
    (h : bitsAt s.mem base pos (deltaCode x).length = deltaCode x) :
    deltaDecode s base stop wmax pos = .ok (some (x, pos + (deltaCode x).length)) := by
  have hpos := bitwidth_pos hx
  have hwidth := (bitwidth_le_iff x wmax).mpr hw
  rw [deltaCode_length] at hp hr ⊢
  rw [deltaCode_length, bitsAt_append, deltaCode] at h
  obtain ⟨hgamma, hlow⟩ := List.append_inj h (by simp)
  have hw64 : bitwidth x < 2 ^ 64 := lt_of_le_of_lt (hwidth.trans h64) (by norm_num)
  have hread := gammaDecode_word (stop := stop) (by omega) hw64 (by omega) (hr.mono (le_refl _) (by omega)) hgamma
  rw [deltaDecode_of_gamma hread (by omega) (by omega),
    portBits_of_reads s base _ _ (hr.mono (by omega) (by omega)), hlow]
  simp [val_bits, two_pow_add_low hx, Nat.add_assoc]

end

/-! ### Either code -/

section
variable {s : State} {c : Code} {base stop wmax pos k x : Nat}

/-- A code word below `2^wmax` that may be read is decoded. -/
theorem codeDecode_word (hx : x ≠ 0) (hw : x < 2 ^ wmax) (h64 : wmax ≤ 64)
    (hp : pos + (c.word x).length ≤ stop) (hr : ReadsBits s base pos (c.word x).length)
    (h : bitsAt s.mem base pos (c.word x).length = c.word x) :
    c.decode s base stop wmax pos = .ok (some (x, pos + (c.word x).length)) := by
  cases c with
  | gamma => exact gammaDecode_word hx hw hp hr h
  | delta => exact deltaDecode_word hx hw h64 hp hr h

/-- The first bit that a decode examines and may not read is how it ends. -/
theorem codeDecode_unreadable (he : CodeExamines c s.mem base pos stop wmax k) (hr : ReadsBits s base pos k)
    (hu : canRead s.platform (base + (pos + k) / 8) = false) :
    c.decode s base stop wmax pos = .error (.raise .memFault (base + (pos + k) / 8)) := by
  cases c with
  | gamma => exact gammaDecode_unreadable he hr hu
  | delta =>
    rcases he with he | ⟨x, ⟨hx, hx64, hfit, hbits⟩, hw, hp, hlo, hhi⟩
    · exact bind_error (gammaDecode_unreadable he hr hu)
    · have hread := gammaDecode_word (by omega) hx64 hfit (hr.mono (le_refl _) (by omega)) hbits
      refine (deltaDecode_of_gamma hread hw hp).trans ?_
      rw [show pos + k = pos + (gammaCode x).length + (k - (gammaCode x).length) by omega] at hu ⊢
      exact bind_error (portBits_unreadable (by omega) (hr.mono (by omega) (by omega)) hu)

theorem codeWord_length_pos (hx : x ≠ 0) : 0 < (c.word x).length := by
  cases c with
  | gamma => simp [Code.word, gammaCode_length hx]
  | delta =>
    have := bitwidth_pos hx
    simp [Code.word, deltaCode_length, gammaCode_length (show bitwidth x ≠ 0 by omega)]

/-- An array decode delivers the values whose code words stand there, and goes on behind them (R247). -/
theorem decodeCodes_words {vs : List Nat} (n : Nat) (hvs : ∀ x ∈ vs, x ≠ 0 ∧ x < 2 ^ wmax) (h64 : wmax ≤ 64)
    (hp : pos + (vs.flatMap c.word).length ≤ stop) (hr : ReadsBits s base pos (vs.flatMap c.word).length)
    (h : bitsAt s.mem base pos (vs.flatMap c.word).length = vs.flatMap c.word) :
    decodeCodes s c base stop wmax (vs.length + n) pos = (do
      let r ← decodeCodes s c base stop wmax n (pos + (vs.flatMap c.word).length)
      return (vs ++ r.1, r.2)) := by
  induction vs generalizing pos with
  | nil => cases hrest : decodeCodes s c base stop wmax n pos <;> simp [hrest]
  | cons x vs ih =>
    obtain ⟨⟨hx, hw⟩, hrest⟩ := List.forall_mem_cons.mp hvs
    rw [List.flatMap_cons, List.length_append] at hp hr h ⊢
    rw [bitsAt_append] at h
    obtain ⟨hword, hwords⟩ := List.append_inj h (by simp)
    have hstart : ¬ stop ≤ pos := by have := codeWord_length_pos (c := c) hx; omega
    have hdecode := codeDecode_word (stop := stop) hx hw h64 (by omega) (hr.mono (le_refl _) (by omega)) hword
    have htail := ih hrest (by omega) (hr.mono (by omega) (by omega)) hwords
    rw [List.length_cons, show vs.length + 1 + n = vs.length + n + 1 by omega, decodeCodes, if_neg hstart, hdecode]
    simp [htail, Nat.add_assoc]

/-- Behind code words, the bit that a decode examines and may not read is how the array decode ends. -/
theorem decodeCodes_unreadable {vs : List Nat} {n : Nat} (hvs : ∀ x ∈ vs, x ≠ 0 ∧ x < 2 ^ wmax)
    (h64 : wmax ≤ 64) (hn : vs.length < n) (hp : pos + (vs.flatMap c.word).length < stop)
    (h : bitsAt s.mem base pos (vs.flatMap c.word).length = vs.flatMap c.word)
    (he : CodeExamines c s.mem base (pos + (vs.flatMap c.word).length) stop wmax k)
    (hr : ReadsBits s base pos ((vs.flatMap c.word).length + k))
    (hu : canRead s.platform (base + (pos + (vs.flatMap c.word).length + k) / 8) = false) :
    decodeCodes s c base stop wmax n pos =
      .error (.raise .memFault (base + (pos + (vs.flatMap c.word).length + k) / 8)) := by
  obtain ⟨n, rfl⟩ : ∃ m, n = vs.length + (m + 1) := ⟨n - vs.length - 1, by omega⟩
  rw [decodeCodes_words (n + 1) hvs h64 (by omega) (hr.mono (le_refl _) (by omega)) h, decodeCodes,
    if_neg (by omega), codeDecode_unreadable he (hr.mono (by omega) (by omega)) hu]
  rfl

end

end Sys2Proof.Machine
end

section
/-! PROOF. The first byte that a command needs and may not read is its `MEM_FAULT` (20_memory.md R64,
60_exceptions.md R305 3d): for each family of commands, which byte that is. -/

namespace Sys2Proof.Machine

/-! ### Arrays and digit runs -/

/-- An array reader reads its source extent, whole, as soon as the extents are admitted. -/
theorem runsAfterChecks_arrayReader {i : Instr} {s : State} (hi : i ∈ arrayReaders) (h : ReachesExtents i s) :
    ∃ (esz : Nat) (g : List Nat → Attempt State),
      sourceExtent i s = (s.regs.src.toNat, esz * s.regs.cnt.toNat) ∧
      RunsAfterChecks i s (readArray s esz s.regs.src.toNat s.regs.cnt.toNat >>= g) := by
  obtain ⟨-, hcount, -⟩ := h
  cases i with
  | gvEnc => exact ⟨8, _, rfl, execGvEnc_of_count (hcount (by simp))⟩
  | gvSize => exact ⟨8, _, rfl, .of_source rfl (execGvSize_of_count (hcount (by simp)))⟩
  | bpEnc32 | bpEncd32 | egEnc32 | edEnc32 => exact ⟨4, _, rfl, rfl⟩
  | bpEnc64 | bpEncd64 | egEnc64 | edEnc64 => exact ⟨8, _, rfl, rfl⟩
  | bpSize32 | bpSized32 | bpBenef32 | bpBenefd32 | bpSorted32 => exact ⟨4, _, rfl, .of_source rfl rfl⟩
  | bpSize64 | bpSized64 | bpBenef64 | bpBenefd64 | bpSorted64 => exact ⟨8, _, rfl, .of_source rfl rfl⟩
  | _ => simp [arrayReaders] at hi

section
variable {i : Instr} {s : State} {k : Nat}

theorem arrayReader_unreadable (hi : i ∈ arrayReaders) (hf : s.faulted = false) (h : ReachesExtents i s)
    (ha : ExtentsAdmitted (sourceExtent i s) (destExtent i s)) (hk : k < (sourceExtent i s).2)
    (hr : Reads s (sourceExtent i s).1 k) (hu : canRead s.platform ((sourceExtent i s).1 + k) = false) :
    Faults i s .memFault ((sourceExtent i s).1 + k) := by
  obtain ⟨esz, g, hsource, hruns⟩ := runsAfterChecks_arrayReader hi h
  refine hruns.faults hf h.1 ha (bind_error ?_)
  rw [hsource] at hk hr hu ⊢
  exact readArray_unreadable hk hr hu

theorem accStr_unreadable (hf : s.faulted = false)
    (ha : ExtentsAdmitted (sourceExtent .accStr s) (destExtent .accStr s)) (hk : k < s.regs.cnt.toNat)
    (hr : Reads s s.regs.src.toNat k) (hu : canRead s.platform (s.regs.src.toNat + k) = false)
    (hd : ∀ j < k, 48 ≤ (s.mem.read (s.regs.src.toNat + j)).toNat ∧
      (s.mem.read (s.regs.src.toNat + j)).toNat ≤ 57) :
    Faults .accStr s .memFault (s.regs.src.toNat + k) :=
  RunsAfterChecks.faults (.of_source rfl rfl) hf (by decide) ha (bind_error (digitRun_unreadable hk hr hu hd))

end

/-! ### Groups (42_group_varint.md R152, R153) -/

/-- The field count of the group at `SRC`. -/
abbrev groupCount (s : State) : Nat := (s.mem.read s.regs.src.toNat).toNat

/-- Where its field `k` stands, from `SRC`. -/
abbrev fieldOffset (s : State) (k : Nat) : Nat := groupOffset s.mem s.regs.src.toNat (groupCount s) k

/-- How many bytes its field `k` takes. -/
abbrev fieldWidth (s : State) (k : Nat) : Nat := groupWidth s.mem s.regs.src.toNat k

section
variable {s : State} {k j : Nat}

/-- With a legal count byte, `GV.DEC` goes on to the bitmap, the fields and the output. -/
theorem runsAfterChecks_gvDec (hl : 1 ≤ s.regs.srclen.toNat) (hr : Reads s s.regs.src.toNat 1)
    (hc : 1 ≤ groupCount s ∧ groupCount s ≤ 64) :
    RunsAfterChecks .gvDec s (do
      let ws ← gvReadWidths s (groupCount s)
      let out ← gvReadFields s (gvOffset ws 0) (ws.take (min (groupCount s) s.regs.cnt.toNat))
      let t ← writeOutput s (arrayBytes 8 out)
      return t.withResults (word (min (groupCount s) s.regs.cnt.toNat)) (word (gvOffset ws (groupCount s)))) := by
  refine congrArg (command .gvDec s) (bind_congr_ok rfl fun _ _ => ?_)
  rw [decide_eq_false (Nat.not_lt.mpr hl), raiseIf_false, attempt_ok_bind, portRead_of_reads hr, attempt_ok_bind]
  exact if_neg (by simp [gvBadCount_of_range hc])

/-- With a legal count byte and a field to get, `GV.GETF` goes on to the bitmap and the field. -/
theorem runsAfterChecks_gvGetf (hl : 1 ≤ s.regs.srclen.toNat) (hr : Reads s s.regs.src.toNat 1)
    (hc : 1 ≤ groupCount s ∧ groupCount s ≤ 64) (harg : s.regs.arg.toNat < groupCount s) :
    RunsAfterChecks .gvGetf s (do
      let ws ← gvReadWidths s (groupCount s)
      let x ← gvReadField s (gvOffset ws s.regs.arg.toNat) (ws.getD s.regs.arg.toNat 0)
      return s.withResults (word (ws.getD s.regs.arg.toNat 0)) (word x)) := by
  refine .of_source rfl (congrArg (command .gvGetf s) (bind_congr_ok rfl fun _ _ => ?_))
  rw [decide_eq_false (Nat.not_lt.mpr hl), raiseIf_false, attempt_ok_bind, portRead_of_reads hr, attempt_ok_bind]
  exact if_neg (by simp [gvBadCount_of_range hc, harg])

theorem group_unreadable_count {i : Instr} (hi : i ∈ [Instr.gvDec, .gvGetf]) (hf : s.faulted = false)
    (ha : ExtentsAdmitted (s.regs.src.toNat, s.regs.srclen.toNat) (destExtent i s)) (hl : 1 ≤ s.regs.srclen.toNat)
    (hu : canRead s.platform s.regs.src.toNat = false) : Faults i s .memFault s.regs.src.toNat := by
  have hread {g : Byte → Attempt State} :
      (raiseIf (decide (s.regs.srclen.toNat < 1)) .srcUnderrun 1 >>= fun _ => portRead s s.regs.src.toNat >>= g) =
        .error (.raise .memFault s.regs.src.toNat) := by
    rw [decide_eq_false (Nat.not_lt.mpr hl), raiseIf_false, attempt_ok_bind]
    exact bind_error (portRead_unreadable hu)
  simp only [List.mem_cons, List.not_mem_nil, or_false] at hi
  rcases hi with rfl | rfl
  · exact RunsAfterChecks.faults rfl hf (by decide) ha hread
  · exact RunsAfterChecks.faults (.of_source rfl rfl) hf (by decide) ha hread

theorem gvReadWidths_of_bitmap (hl : 1 + ceilDiv (groupCount s) 4 ≤ s.regs.srclen.toNat)
    (hr : Reads s s.regs.src.toNat (1 + ceilDiv (groupCount s) 4)) :
    gvReadWidths s (groupCount s) = .ok (groupWidths s.mem s.regs.src.toNat (groupCount s)) :=
  gvReadWidths_of_reads hl (hr.mono (by omega) (by omega))

section
variable (hf : s.faulted = false) (hc : 1 ≤ groupCount s ∧ groupCount s ≤ 64)
  (hl : 1 + ceilDiv (groupCount s) 4 ≤ s.regs.srclen.toNat)
include hf hc hl

theorem group_unreadable_bitmap {i : Instr} (hi : i ∈ [Instr.gvDec, .gvGetf])
    (ha : ExtentsAdmitted (s.regs.src.toNat, s.regs.srclen.toNat) (destExtent i s))
    (harg : i = .gvGetf → s.regs.arg.toNat < groupCount s) (h1 : 1 ≤ k) (hk : k < 1 + ceilDiv (groupCount s) 4)
    (hr : Reads s s.regs.src.toNat k) (hu : canRead s.platform (s.regs.src.toNat + k) = false) :
    Faults i s .memFault (s.regs.src.toNat + k) := by
  have hcount : Reads s s.regs.src.toNat 1 := hr.mono (le_refl _) (by omega)
  have hwidths : gvReadWidths s (groupCount s) = .error (.raise .memFault (s.regs.src.toNat + k)) := by
    rw [show s.regs.src.toNat + k = s.regs.src.toNat + 1 + (k - 1) by omega] at hu ⊢
    exact gvReadWidths_unreadable hl (by omega) (hr.mono (by omega) (by omega)) hu
  simp only [List.mem_cons, List.not_mem_nil, or_false] at hi
  rcases hi with rfl | rfl
  · exact (runsAfterChecks_gvDec (by omega) hcount hc).faults hf (by decide) ha (bind_error hwidths)
  · exact (runsAfterChecks_gvGetf (by omega) hcount hc (harg rfl)).faults hf (by decide) ha (bind_error hwidths)

variable (hr : Reads s s.regs.src.toNat (1 + ceilDiv (groupCount s) 4))
include hr

/-- `GV.DEC` reads the wanted fields in order. -/
theorem gvDec_unreadable_field (ha : ExtentsAdmitted (s.regs.src.toNat, s.regs.srclen.toNat) (destExtent .gvDec s))
    (hk : k < groupCount s) (hwanted : k < s.regs.cnt.toNat) (hj : j < fieldWidth s k)
    (hfits : ∀ l ≤ k, fieldOffset s l + fieldWidth s l ≤ s.regs.srclen.toNat)
    (hbefore : ∀ l < k, Reads s (s.regs.src.toNat + fieldOffset s l) (fieldWidth s l))
    (hread : Reads s (s.regs.src.toNat + fieldOffset s k) j)
    (hu : canRead s.platform (s.regs.src.toNat + fieldOffset s k + j) = false) :
    Faults .gvDec s .memFault (s.regs.src.toNat + fieldOffset s k + j) := by
  refine (runsAfterChecks_gvDec (by omega) (hr.mono (le_refl _) (by omega)) hc).faults hf (by decide) ha ?_
  rw [gvReadWidths_of_bitmap hl hr, attempt_ok_bind, groupWidths_take _ _ _ (Nat.min_le_left _ _),
    gvOffset_groupWidths _ _ _ (Nat.zero_le _)]
  have hfield : ∀ l ≤ k,
      gvReadField s (fieldOffset s 0
        + ((groupWidths s.mem s.regs.src.toNat (min (groupCount s) s.regs.cnt.toNat)).take l).sum)
        ((groupWidths s.mem s.regs.src.toNat (min (groupCount s) s.regs.cnt.toNat)).getD l 0) =
      gvReadField s (fieldOffset s l) (fieldWidth s l) := by
    intro l hlk
    rw [groupWidths_take _ _ _ (by omega), groupWidths_getD _ _ _ (by omega)]
    rfl
  refine bind_error (gvReadFields_error (k := k) (by rw [groupWidths_length]; omega) (fun l hlk => ?_) ?_)
  · rw [hfield l (by omega)]
    exact ⟨_, gvReadField_of_reads (hfits l (by omega)) (hbefore l hlk)⟩
  · rw [hfield k (le_refl _)]
    exact gvReadField_unreadable (hfits k (le_refl _)) hj hread hu

/-- `GV.GETF` reads the one field that `ARG` names. -/
theorem gvGetf_unreadable_field (ha : ExtentsAdmitted (s.regs.src.toNat, s.regs.srclen.toNat) (destExtent .gvGetf s))
    (harg : s.regs.arg.toNat = k) (hk : k < groupCount s) (hj : j < fieldWidth s k)
    (hfits : fieldOffset s k + fieldWidth s k ≤ s.regs.srclen.toNat)
    (hread : Reads s (s.regs.src.toNat + fieldOffset s k) j)
    (hu : canRead s.platform (s.regs.src.toNat + fieldOffset s k + j) = false) :
    Faults .gvGetf s .memFault (s.regs.src.toNat + fieldOffset s k + j) := by
  subst harg
  refine (runsAfterChecks_gvGetf (by omega) (hr.mono (le_refl _) (by omega)) hc hk).faults hf (by decide) ha ?_
  rw [gvReadWidths_of_bitmap hl hr, attempt_ok_bind, gvOffset_groupWidths _ _ _ (by omega),
    groupWidths_getD _ _ _ hk]
  exact bind_error (gvReadField_unreadable hfits hj hread hu)

end

end

/-! ### BP128 decoders (43_bp128.md R178, R208) -/

/-- The four decoders are the common form (R208). -/
theorem exec_bpDecoder {i : Instr} {v : Variant} (hi : (i, v) ∈ bpDecoders) (s : State) :
    exec i s = bpDecode i v s ∧ i.WellFormed := by
  fin_cases hi <;> exact ⟨rfl, by decide⟩

/-- A decoder whose extents are admitted ends as the decode of its stream does. -/
theorem bpDecoder_faults {i : Instr} {v : Variant} {s : State} {code : FaultCode} {info : Nat}
    (hi : (i, v) ∈ bpDecoders) (hf : s.faulted = false)
    (ha : ExtentsAdmitted (s.regs.src.toNat, s.regs.srclen.toNat) (s.regs.dst.toNat, s.regs.dstcap.toNat))
    (he : decodeStream s v = .error (.raise code info)) : Faults i s code info := by
  obtain ⟨hexec, hw⟩ := exec_bpDecoder hi s
  refine faults_of_raise hf hw ?_
  rw [hexec, bpDecode, checkExtents_eq_checkBoth, checkBoth_of_admitted ha, he]
  rfl

/-! ### Bit readers (44_elias.md R225 to R227, R247) -/

/-- `EG.GET` and `ED.GET` read from the bit reader's buffer. -/
theorem codeGet_unreadable {i : Instr} {c : Code} {s : State} {k : Nat}
    (hi : (i, c) ∈ [(Instr.egGet, Code.gamma), (.edGet, .delta)]) (hf : s.faulted = false)
    (ha : InSpace s.regs.brBase.toNat (ceilDiv s.regs.brEnd.toNat 8))
    (he : CodeExamines c s.mem s.regs.brBase.toNat s.regs.brPos.toNat s.regs.brEnd.toNat 64 k)
    (hr : ReadsBits s s.regs.brBase.toNat s.regs.brPos.toNat k)
    (hu : canRead s.platform (s.regs.brBase.toNat + (s.regs.brPos.toNat + k) / 8) = false) :
    Faults i s .memFault (s.regs.brBase.toNat + (s.regs.brPos.toNat + k) / 8) := by
  have hexec : exec i s = codeGet i c s ∧ i.WellFormed := by fin_cases hi <;> exact ⟨rfl, by decide⟩
  refine faults_of_raise hf hexec.2 ?_
  rw [hexec.1, codeGet, checkReader, checkRange_of_inSpace ha, attempt_ok_bind, codeDecode_unreadable he hr hu]
  rfl

/-- The array decoders read the code words at `SRC` one after the other. -/
theorem codeDecode_faults {i : Instr} {c : Code} {wide : Bool} {s : State} {code : FaultCode} {info : Nat}
    (hi : (i, c, wide) ∈ eliasDecoders) (hf : s.faulted = false)
    (ha : ExtentsAdmitted (s.regs.src.toNat, ceilDiv s.regs.bitlen.toNat 8)
      (s.regs.dst.toNat, s.regs.dstcap.toNat))
    (he : decodeCodes s c s.regs.src.toNat s.regs.bitlen.toNat (8 * elementBytes wide) s.regs.cnt.toNat 0 =
      .error (.raise code info)) : Faults i s code info := by
  have hexec : exec i s = codeDecode i c wide s ∧ i.WellFormed := by fin_cases hi <;> exact ⟨rfl, by decide⟩
  refine faults_of_raise hf hexec.2 ?_
  rw [hexec.1, codeDecode]
  dsimp only
  rw [checkExtents_eq_checkBoth, checkBoth_of_admitted ha, attempt_ok_bind, he]
  rfl

/-- Behind the code words at the start of a stream, the bit that the decode examines and may not read is how it
ends. -/
theorem decodeCodes_unreadable_start {c : Code} {wide : Bool} {s : State} {base stop n k : Nat} {vs : List Nat}
    (hvs : ∀ x ∈ vs, 1 ≤ x ∧ x < 2 ^ (8 * elementBytes wide)) (hn : vs.length < n)
    (hstop : (vs.flatMap c.word).length < stop)
    (hbits : bitsAt s.mem base 0 (vs.flatMap c.word).length = vs.flatMap c.word)
    (he : CodeExamines c s.mem base (vs.flatMap c.word).length stop (8 * elementBytes wide) k)
    (hr : ReadsBits s base 0 ((vs.flatMap c.word).length + k))
    (hu : canRead s.platform (base + ((vs.flatMap c.word).length + k) / 8) = false) :
    decodeCodes s c base stop (8 * elementBytes wide) n 0 =
      .error (.raise .memFault (base + ((vs.flatMap c.word).length + k) / 8)) := by
  have h64 : 8 * elementBytes wide ≤ 64 := by cases wide <;> decide
  have hvs' : ∀ x ∈ vs, x ≠ 0 ∧ x < 2 ^ (8 * elementBytes wide) := fun x hx => by
    obtain ⟨h1, hlt⟩ := hvs x hx
    exact ⟨by omega, hlt⟩
  rw [← Nat.zero_add (vs.flatMap c.word).length] at hstop he hu ⊢
  exact decodeCodes_unreadable hvs' h64 hn hstop hbits he hr hu

/-! ### The bit writer (44_elias.md R224) -/

/-- A bit-writer command appends its bits and writes a result. -/
theorem exec_bitWriter {i : Instr} {s : State} {t : List Bool} (h : appendedBits i s = some t) :
    i.WellFormed ∧ ∃ w, exec i s = command i s (bwAppend s t >>= fun u => .ok (u.withRes w)) := by
  cases i with
  | bwWrite imm =>
    have himm : imm.toNat ≤ 64 := by
      by_contra hbig
      simp [appendedBits, hbig] at h
    rw [appendedBits, if_pos himm, Option.some.injEq] at h
    subst h
    exact ⟨⟨Nat.zero_le _, himm⟩, _, rfl⟩
  | egPut | edPut =>
    have harg : s.regs.arg.toNat ≠ 0 := fun h0 => by simp [appendedBits, h0] at h
    rw [appendedBits, if_neg harg, Option.some.injEq] at h
    subst h
    exact ⟨by decide, _, codePut_of_nonzero _ _ harg⟩
  | _ => simp [appendedBits] at h

/-- Bits that fit, behind a partly filled byte, need that byte. -/
theorem bwAppend_unreadable {s : State} {t : List Bool} (ht : t ≠ [])
    (ha : InSpace s.regs.bwBase.toNat s.regs.bwCap.toNat)
    (hcap : ceilDiv (s.regs.bwPos.toNat + t.length) 8 ≤ s.regs.bwCap.toNat)
    (hpos : s.regs.bwPos.toNat + t.length < 2 ^ 64) (hpart : s.regs.bwPos.toNat % 8 ≠ 0)
    (hu : canRead s.platform (s.regs.bwBase.toNat + s.regs.bwPos.toNat / 8) = false) :
    bwAppend s t = .error (.raise .memFault (s.regs.bwBase.toNat + s.regs.bwPos.toNat / 8)) := by
  have hlen : t.length ≠ 0 := by simpa using ht
  have hhead : writerHead s (s.regs.bwBase.toNat + s.regs.bwPos.toNat / 8) (s.regs.bwPos.toNat % 8) =
      .error (.raise .memFault (s.regs.bwBase.toNat + s.regs.bwPos.toNat / 8)) := by
    rw [writerHead, if_neg hpart]
    exact bind_error (portRead_unreadable hu)
  have hfits : (decide (s.regs.bwCap.toNat < ceilDiv (s.regs.bwPos.toNat + t.length) 8) ||
      decide (2 ^ 64 ≤ s.regs.bwPos.toNat + t.length)) = false := by
    rw [decide_eq_false (Nat.not_lt.mpr hcap), decide_eq_false (Nat.not_le.mpr hpos)]; rfl
  rw [bwAppend, checkRange_of_inSpace ha, attempt_ok_bind]
  dsimp only
  rw [if_neg hlen, hfits, raiseIf_false, attempt_ok_bind, hhead]
  rfl

/-! ### The statement -/

section
variable {s : State}

/-- The clause on a wanted field, for both group commands. -/
theorem group_unreadable_field {i : Instr} {k j : Nat} (hi : i ∈ [Instr.gvDec, .gvGetf]) (hf : s.faulted = false)
    (ha : ExtentsAdmitted (s.regs.src.toNat, s.regs.srclen.toNat) (destExtent i s))
    (hc : 1 ≤ groupCount s ∧ groupCount s ≤ 64) (hl : 1 + ceilDiv (groupCount s) 4 ≤ s.regs.srclen.toNat)
    (hk : k < groupCount s) (hj : j < fieldWidth s k)
    (hwanted : if i = .gvGetf then k = s.regs.arg.toNat else k < s.regs.cnt.toNat)
    (hfits : fieldOffset s k + fieldWidth s k ≤ s.regs.srclen.toNat)
    (hr : Reads s s.regs.src.toNat (1 + ceilDiv (groupCount s) 4))
    (hbefore : i = .gvDec → ∀ l < k, fieldOffset s l + fieldWidth s l ≤ s.regs.srclen.toNat ∧
      Reads s (s.regs.src.toNat + fieldOffset s l) (fieldWidth s l))
    (hread : Reads s (s.regs.src.toNat + fieldOffset s k) j)
    (hu : canRead s.platform (s.regs.src.toNat + fieldOffset s k + j) = false) :
    Faults i s .memFault (s.regs.src.toNat + fieldOffset s k + j) := by
  simp only [List.mem_cons, List.not_mem_nil, or_false] at hi
  rcases hi with rfl | rfl
  · refine gvDec_unreadable_field hf hc hl hr ha hk (by simpa using hwanted) hj (fun l hlk => ?_)
      (fun l hlk => (hbefore rfl l hlk).2) hread hu
    rcases Nat.lt_or_eq_of_le hlk with hlk | rfl
    · exact (hbefore rfl l hlk).1
    · exact hfits
  · exact gvGetf_unreadable_field hf hc hl hr ha hwanted.symm hk hj hfits hread hu

/-- The clause on the bit writer. -/
theorem bitWriter_unreadable {i : Instr} {t : List Bool} (hf : s.faulted = false) (h : appendedBits i s = some t)
    (he : bwAppend s t = .error (.raise .memFault (s.regs.bwBase.toNat + s.regs.bwPos.toNat / 8))) :
    Faults i s .memFault (s.regs.bwBase.toNat + s.regs.bwPos.toNat / 8) := by
  obtain ⟨hw, w, hexec⟩ := exec_bitWriter h
  exact faults_of_raise hf hw (by rw [hexec, he]; rfl)

end

/-- Settles O23, family by family. -/
theorem firstUnreadableByteFaults : Obligations.FirstUnreadableByteFaults := by
  refine ⟨fun i s k hf h ha hk hr hu hi => ?_, fun s hf => ⟨fun i hi ha => ⟨?_, ?_⟩, ?_, ?_, ?_, ?_⟩⟩
  · rcases hi with hi | ⟨rfl, hd⟩
    · exact arrayReader_unreadable hi hf h ha hk hr hu
    · exact accStr_unreadable hf ha hk hr hu hd
  · exact fun hl hu => group_unreadable_count hi hf ha hl hu
  · intro hc1 hc64 hl harg
    exact ⟨fun k h1 hk hr hu => group_unreadable_bitmap hf ⟨hc1, hc64⟩ hl hi ha harg h1 hk hr hu,
      fun k hk j hj hwanted hfits hr hbefore hread hu =>
        group_unreadable_field hi hf ha ⟨hc1, hc64⟩ hl hk hj hwanted hfits hr hbefore hread hu⟩
  · intro p hp ha
    refine ⟨fun off ht hl hu => ?_, fun off ht hl k h1 hk hr hu => ?_, fun n ht => ⟨fun hl hu => ?_,
      fun hs hw hl hr hu => ?_, fun hh hl k h1 hk hr hu => ?_⟩⟩ <;> refine bpDecoder_faults hp hf ha ?_
    · exact decodeStream_varintError ht (sourceVarint_unreadable_first hl hu)
    · exact decodeStream_varintError ht (sourceVarint_unreadable hl h1 hk hr hu)
    · exact decodeStream_blockError ht (parseBlock_unreadable_header hl hu)
    · exact decodeStream_blockError ht (parseBlock_unreadable_count hs hw hl hr hu)
    · exact decodeStream_blockError ht (parseBlock_unreadable_payload hh hl h1 hk hr hu)
  · exact fun p hp k ha he hr hu => codeGet_unreadable hp hf ha he hr hu
  · intro p hp vs k _ _ _ ha hvs hn hstop hbits he hr hu
    exact codeDecode_faults hp hf ha (decodeCodes_unreadable_start (wide := p.2.2) hvs hn hstop hbits he hr hu)
  · exact fun i t h ht ha hcap hpos hpart hu =>
      bitWriter_unreadable hf h (bwAppend_unreadable ht ha hcap hpos hpart hu)

end Sys2Proof.Machine
end

section
/-! PROOF. Decoding and encoding agree (30_encoding.md R90 to R95): each row of the opcode map gives mnemonics of
its own `OPC`, a word with no reserved bit set is the sum of its fields, so what decodes is the command word of what
it decodes to. -/

namespace Sys2Proof.Laws.DecodeInvertsEncode

/-- The per-instruction laws together: the command word of a well-formed instruction decodes to it. -/
theorem decode_encode (i : Instr) : Statement i := by
  cases i
  exacts [sysNop, sysClrf, sysReset, fwPut _, fwGet _, wsel, tvPut, tvGet, tvLen, gvEnc, gvDec, gvGetf, gvSize,
    bpEnc32, bpEncd32, bpEnc64, bpEncd64, bpDec32, bpDecd32, bpDec64, bpDecd64, bpSize32, bpSized32, bpSize64,
    bpSized64, bpMaxb32, bpMaxbd32, bpMaxb64, bpMaxbd64, bpBenef32, bpBenefd32, bpBenef64, bpBenefd64, bpSorted32,
    bpSorted64, bwWrite _, brRead _, brMore _, egPut, egGet, egBits, egEnc32, egEnc64, egDec32, egDec64, edPut,
    edGet, edBits, edEnc32, edEnc64, edDec32, edDec64, accClr _, accDigit _, accStr, accClass]

end Sys2Proof.Laws.DecodeInvertsEncode

namespace Sys2Proof

/-! ### The fields of a word -/

theorem Word.toNat_field (w : Word) (lo n : Nat) : (w.field lo n).toNat = w.toNat / 2 ^ lo % 2 ^ n := by
  simp [Word.field, Nat.shiftRight_eq_div_pow]

/-- A word with no reserved bit set is the sum of its fields, each at the weight of 30_encoding.md R94. -/
theorem Word.eq_sum_of_fields {w : Word} (hupper : w.field 32 32 = 0) (hlow : w.field 10 6 = 0)
    (hhigh : w.field 24 8 = 0) :
    w = BitVec.ofNat 64 ((w.field 0 8).toNat + 256 * (w.getLsbD 8).toNat + 512 * (w.getLsbD 9).toNat
      + 65536 * (w.field 16 8).toNat) := by
  simp only [← BitVec.toNat_inj, Word.toNat_field, BitVec.ofNat_eq_ofNat, BitVec.toNat_ofNat] at hupper hlow hhigh
  apply BitVec.eq_of_toNat_eq
  simp only [Word.toNat_field, BitVec.getLsbD, Nat.toNat_testBit, BitVec.toNat_ofNat]
  omega

/-! ### The rows of the opcode map -/

/-- The fields that the row does not use are 0 (30_encoding.md R91). -/
def OpcodeRow.Admits (row : OpcodeRow) (esz dlt : Bool) (imm : BitVec 8) : Prop :=
  (esz = true → row.usesEsz = true) ∧ (dlt = true → row.usesDlt = true) ∧ (imm ≠ 0 → row.usesImm = true)

/-- Every mnemonic of the row has this `OPC`, and the `ESZ`, `DLT` and `IMM` that select it. -/
def OpcodeRow.Spells (row : OpcodeRow) (opc : Nat) : Prop :=
  ∀ esz dlt imm, row.Admits esz dlt imm →
    (row.mnemonic esz dlt imm).opcode = (opc, esz, dlt) ∧ (row.mnemonic esz dlt imm).imm = imm

@[simp] theorem OpcodeRow.spells_plain (i : Instr) (opc : Nat) :
    (plain i).Spells opc ↔ i.opcode = (opc, false, false) ∧ i.imm = 0 := by
  simp [Spells, Admits, plain]

@[simp] theorem OpcodeRow.spells_withImm (c : BitVec 8 → Instr) (opc : Nat) :
    (withImm c).Spells opc ↔ ∀ imm, (c imm).opcode = (opc, false, false) ∧ (c imm).imm = imm := by
  simp [Spells, Admits, withImm]

@[simp] theorem OpcodeRow.spells_bySize (narrow wide : Instr) (opc : Nat) :
    (bySize narrow wide).Spells opc ↔
      (narrow.opcode = (opc, false, false) ∧ narrow.imm = 0) ∧ wide.opcode = (opc, true, false) ∧ wide.imm = 0 := by
  simp [Spells, Admits, bySize]

@[simp] theorem OpcodeRow.spells_bySizeAndDelta (narrow narrowDelta wide wideDelta : Instr) (opc : Nat) :
    (bySizeAndDelta narrow narrowDelta wide wideDelta).Spells opc ↔
      ((narrow.opcode = (opc, false, false) ∧ narrow.imm = 0) ∧
        narrowDelta.opcode = (opc, false, true) ∧ narrowDelta.imm = 0) ∧
      (wide.opcode = (opc, true, false) ∧ wide.imm = 0) ∧
        wideDelta.opcode = (opc, true, true) ∧ wideDelta.imm = 0 := by
  simp [Spells, Admits, bySizeAndDelta]

/-- The opcode map that decodes agrees with the `OPC` column that encodes, row by row. -/
theorem opcodeRow_spells {opc : BitVec 8} {row : OpcodeRow} (h : opcodeRow opc = some row) :
    row.Spells opc.toNat := by
  unfold opcodeRow at h
  split at h
  case h_37 => cases h
  all_goals
    next hopc =>
      cases h
      simp [hopc, Instr.opcode, Instr.imm]

/-! ### What decodes -/

/-- What `decode` looks at when it answers an instruction (30_encoding.md R92). -/
theorem fields_of_decode {w : Word} {i : Instr} (h : decode w = .ok i) :
    (w.field 32 32 = 0 ∧ w.field 10 6 = 0 ∧ w.field 24 8 = 0) ∧ i.WellFormed ∧
    ∃ row, opcodeRow (w.field 0 8) = some row ∧ row.Admits (w.getLsbD 8) (w.getLsbD 9) (w.field 16 8) ∧
      row.mnemonic (w.getLsbD 8) (w.getLsbD 9) (w.field 16 8) = i := by
  unfold decode at h
  split at h
  · cases h
  next hupper =>
  split at h
  · cases h
  next hreserved =>
  obtain ⟨hlow, hhigh⟩ := not_or.mp hreserved
  refine ⟨⟨not_not.mp hupper, not_not.mp hlow, not_not.mp hhigh⟩, ?_⟩
  split at h
  · cases h
  next row hrow =>
  simp only at h
  split at h
  · cases h
  next hunused =>
  split at h
  next hw =>
    obtain rfl := Except.ok.inj h
    exact ⟨hw, row, hrow, by simpa [OpcodeRow.Admits, and_assoc] using hunused, rfl⟩
  · cases h

/-- The fields of a word that decodes are its instruction's. -/
theorem opcode_of_decode {w : Word} {i : Instr} (h : decode w = .ok i) :
    i.opcode = ((w.field 0 8).toNat, w.getLsbD 8, w.getLsbD 9) ∧ i.imm = w.field 16 8 := by
  obtain ⟨-, -, row, hrow, hadmits, rfl⟩ := fields_of_decode h
  exact opcodeRow_spells hrow _ _ _ hadmits

/-- What decodes is the command word of the instruction it decodes to. -/
theorem encode_of_decode {w : Word} {i : Instr} (h : decode w = .ok i) : encode i = w := by
  obtain ⟨⟨hupper, hlow, hhigh⟩, -, -⟩ := fields_of_decode h
  obtain ⟨hopcode, himm⟩ := opcode_of_decode h
  rw [encode, hopcode, himm]
  exact (Word.eq_sum_of_fields hupper hlow hhigh).symm

/-- Settles O2: the fields of a word that decodes spell its instruction, and the laws per instruction decode its
command word. -/
theorem decodeReadsExactlyTheCommandWords : Obligations.DecodeReadsExactlyTheCommandWords := by
  intro w i
  constructor
  · intro h
    obtain ⟨-, hw, -⟩ := fields_of_decode h
    exact ⟨hw, encode_of_decode h⟩
  · rintro ⟨hw, rfl⟩
    exact Laws.DecodeInvertsEncode.decode_encode i hw

end Sys2Proof

namespace Sys2Proof.Machine

/-! ### The write of an illegal word -/

theorem runCommandWord_of_error {w : Word} {e : Illegal} (s : State) (hd : decode w = .error e)
    (hf : s.faulted = false) : runCommandWord w s = .next (s.takeFault .illegalCmd w.toNat w) := by
  simp [runCommandWord, hd, hf]

/-- Settles O4: a word that no instruction encodes to does not decode, and the write to `CMD` takes the fault. -/
theorem illegalWordsFault : Obligations.IllegalWordsFault := by
  intro s rest w hf hp hno
  rw [step_of_pending hp, perform_commandWrite]
  cases hd : decode w with
  | ok i =>
    obtain ⟨hw, he⟩ := (decodeReadsExactlyTheCommandWords w i).mp hd
    exact absurd he (hno i hw)
  | error e => rw [runCommandWord_of_error { s with pending := rest } hd hf, takeFault_eq]

/-! ### The opcode map as printed -/

/-- Each printed row has the `OPC`, `ESZ` and `DLT` of its mnemonic. -/
theorem opcode_of_mem_opcodeMap : ∀ row ∈ opcodeMap, ∀ imm,
    (row.2.2.2 imm).opcode.1 = row.1 ∧ (row.2.2.2 imm).opcode.2.1.toNat = row.2.1 ∧
      (row.2.2.2 imm).opcode.2.2.toNat = row.2.2.1 := by
  simp [opcodeMap, Instr.opcode]

/-- The word of R94 for a printed row is the command word of its mnemonic. -/
theorem encode_of_mem_opcodeMap {row : Nat × Nat × Nat × (BitVec 8 → Instr)} (h : row ∈ opcodeMap)
    (imm : BitVec 8) : encode (row.2.2.2 imm) =
      BitVec.ofNat 64 (row.1 + 256 * row.2.1 + 512 * row.2.2.1 + 65536 * (row.2.2.2 imm).imm.toNat) := by
  obtain ⟨hopc, hesz, hdlt⟩ := opcode_of_mem_opcodeMap row h imm
  rw [encode, hopc, hesz, hdlt]

/-- The constructors stand in the order of R94, so an instruction's row is the one at its own place. -/
theorem exists_mem_opcodeMap (i : Instr) : ∃ row ∈ opcodeMap, i = row.2.2.2 i.imm := by
  have hplace : ∃ row, opcodeMap[i.ctorIdx]? = some row ∧ i = row.2.2.2 i.imm := by
    cases i <;> exact ⟨_, rfl, rfl⟩
  obtain ⟨row, hget, hi⟩ := hplace
  exact ⟨row, List.mem_of_getElem? hget, hi⟩

/-- The low byte of a word that decodes is a printed `OPC`. -/
theorem exists_opc_of_decode {w : Word} {i : Instr} (h : decode w = .ok i) :
    ∃ row ∈ opcodeMap, row.1 = w.toNat % 256 := by
  obtain ⟨row, hmem, hi⟩ := exists_mem_opcodeMap i
  obtain ⟨hopc, -⟩ := opcode_of_mem_opcodeMap row hmem i.imm
  rw [← hi, (opcode_of_decode h).1] at hopc
  exact ⟨row, hmem, by simpa [Word.toNat_field] using hopc.symm⟩

/-- Settles O1, by O2 and the agreement of the printed map with `encode`. -/
theorem opcodeMapDecodes : Obligations.OpcodeMapDecodes := by
  refine ⟨fun row hmem imm hw => ?_, exists_mem_opcodeMap, fun w hno => ?_, by decide, by decide, by decide,
    by decide, by decide, by decide⟩
  · rw [← encode_of_mem_opcodeMap hmem]
    exact Laws.DecodeInvertsEncode.decode_encode _ hw
  · cases hd : decode w with
    | ok i =>
      obtain ⟨row, hmem, hopc⟩ := exists_opc_of_decode hd
      exact absurd hopc (hno row hmem)
    | error e => exact ⟨e, rfl⟩

end Sys2Proof.Machine
end

section
/-! PROOF. The width functions (40_fixed_width_wsel.md R111, R112), the printed width-selector table (R117, R118),
and the fixed-width store and load (R114, R115). -/

namespace Sys2Proof.Machine

/-! ### The width functions -/

/-- The selection rule of R111: the byte counts that hold `x` are those from `W(x)` on. -/
theorem byteWidth_le_iff (x k : Nat) : byteWidth x ≤ k ↔ 1 ≤ k ∧ x < 2 ^ (8 * k) := by
  rw [byteWidth, max_le_iff, ceilDiv_le_iff _ _ _ (by decide), bitwidth_le_iff, Nat.mul_comm k 8]

theorem one_le_byteWidth (x : Nat) : 1 ≤ byteWidth x := le_max_left _ _

theorem lt_two_pow_byteWidth (x : Nat) : x < 2 ^ (8 * byteWidth x) :=
  ((byteWidth_le_iff x _).mp le_rfl).2

theorem byteWidth_le_eight {x : Nat} (h : x < 2 ^ 64) : byteWidth x ≤ 8 :=
  (byteWidth_le_iff x 8).mpr ⟨by decide, h⟩

theorem byteWidth_mono {x y : Nat} (h : x ≤ y) : byteWidth x ≤ byteWidth y :=
  (byteWidth_le_iff x _).mpr ⟨one_le_byteWidth y, h.trans_lt (lt_two_pow_byteWidth y)⟩

/-- What R112's clamp can answer, by the widths it snaps up. -/
theorem snap_cases (w : Nat) :
    (w ≤ 1 ∧ snap w = 1) ∨ (1 < w ∧ w ≤ 2 ∧ snap w = 2) ∨ (2 < w ∧ w ≤ 4 ∧ snap w = 4) ∨
      (4 < w ∧ snap w = 8) := by
  unfold snap
  split_ifs <;> omega

theorem snap_mem (w : Nat) : snap w ∈ [1, 2, 4, 8] := by
  obtain ⟨-, h⟩ | ⟨-, -, h⟩ | ⟨-, -, h⟩ | ⟨-, h⟩ := snap_cases w <;> simp [h]

theorem snap_mono {w v : Nat} (h : w ≤ v) : snap w ≤ snap v := by
  have hw := snap_cases w
  have hv := snap_cases v
  omega

/-- Snapping goes up to the next legal width: those that hold `w` bytes are those from `snap w` on. -/
theorem snap_le_iff {w k : Nat} (hw : w ≤ 8) (hk : k ∈ [1, 2, 4, 8]) : snap w ≤ k ↔ w ≤ k := by
  have hcases := snap_cases w
  simp only [List.mem_cons, List.not_mem_nil, or_false] at hk
  omega

/-- The 2-bit code of a legal width leads back to it. -/
theorem widthOfCode_widthCode : ∀ w ∈ [1, 2, 4, 8], widthCode w < 4 ∧ widthOfCode (widthCode w) = w := by
  decide

/-- The snapped widths that hold `x` are those from `S(x)` on (R112). -/
theorem snappedWidth_le_iff {x k : Nat} (hx : x < 2 ^ 64) (hk : k ∈ [1, 2, 4, 8]) :
    snappedWidth x ≤ k ↔ 1 ≤ k ∧ x < 2 ^ (8 * k) := by
  rw [snappedWidth, snap_le_iff (byteWidth_le_eight hx) hk, byteWidth_le_iff]

/-- Settles O29, by the `↔` of each width. -/
theorem widthsAreTheLeastThatHold : Obligations.WidthsAreTheLeastThatHold := by
  intro x hx
  have hmem : snappedWidth x ∈ [1, 2, 4, 8] := snap_mem _
  have hpos : ∀ k ∈ [1, 2, 4, 8], 1 ≤ k := by decide
  refine ⟨⟨one_le_byteWidth x, byteWidth_le_eight hx, lt_two_pow_byteWidth x, ?_⟩, ⟨hmem, ?_, ?_⟩,
    widthOfCode_widthCode _ hmem, ?_⟩
  · exact fun k hk hlt => (byteWidth_le_iff x k).mpr ⟨hk, hlt⟩
  · exact ((snappedWidth_le_iff hx hmem).mp le_rfl).2
  · exact fun k hk hlt => (snappedWidth_le_iff hx hk).mpr ⟨hpos k hk, hlt⟩
  · exact fun y hxy => ⟨byteWidth_mono hxy, snap_mono (byteWidth_mono hxy)⟩

/-! ### The width-selector table -/

/-- The row of R118 for values of `b` significant bits, from the definitions of its columns (R116: all of them
depend on the value through `b` alone). -/
def widthRowOfBits (b : Nat) : WidthRow :=
  let w := max 1 (ceilDiv b 8)
  ⟨w, snap w, widthCode (snap w), if b ≤ 7 then 1 else if b ≤ 56 then ceilDiv b 7 else 9, b⟩

theorem widthRowOfBits_bitwidth (x : Nat) : widthRowOfBits (bitwidth x) =
    ⟨byteWidth x, snappedWidth x, widthCode (snappedWidth x), tvLength x, bitwidth x⟩ := rfl

/-- The printed table, row by row. -/
theorem widthTable_getD : ∀ b ≤ 64, widthTable.getD (64 - b) ⟨0, 0, 0, 0, 0⟩ = widthRowOfBits b := by
  decide

/-- The row that `WSEL` looks up holds the widths of its operand. -/
theorem widthRow_eq (x : Word) : widthRow x =
    ⟨byteWidth x.toNat, snappedWidth x.toNat, widthCode (snappedWidth x.toNat), tvLength x.toNat,
      bitwidth x.toNat⟩ :=
  (widthTable_getD _ (bitwidth_word x)).trans (widthRowOfBits_bitwidth _)

/-- Settles O30: the looked-up row is the one the definitions give. -/
theorem wselReadsTheWidths : Obligations.WselReadsTheWidths := by
  intro s hf
  have hrun : exec .wsel s =
      .next (s.withResults (word (widthRow s.regs.arg).packed) (word (clz64 s.regs.arg))) :=
    command_completes .wsel s _ _ hf (by decide) rfl
  rw [hrun, widthRow_eq]
  rfl

/-! ### Commands past their extent checks -/

theorem extentsAdmitted_source {source : Nat × Nat} (h : InSpace source.1 source.2) :
    ExtentsAdmitted source (0, 0) := ⟨h, by simp [InSpace], .inr (.inl rfl)⟩

theorem extentsAdmitted_dest {dest : Nat × Nat} (h : InSpace dest.1 dest.2) :
    ExtentsAdmitted (0, 0) dest := ⟨by simp [InSpace], h, .inl rfl⟩

/-- The capacity check of R305 3f comes before the write phase. -/
theorem writeOutput_overrun {s : State} {out : List Byte} (h : s.regs.dstcap.toNat < out.length) :
    writeOutput s out = .error (.raise .dstOverrun out.length) := by
  simp [writeOutput, h]

section
variable {i : Instr} {s : State} {body : Attempt State} {out : List Byte} {f : State → Attempt State}

/-- A command whose extents are admitted answers what the rest of its body does. -/
theorem RunsAfterChecks.completes {t : State} (h : RunsAfterChecks i s body) (hf : s.faulted = false)
    (hw : i.WellFormed) (ha : ExtentsAdmitted (sourceExtent i s) (destExtent i s)) (hb : body = .ok t) :
    exec i s = .next t := by
  rw [h, checkBoth_of_admitted ha]
  exact command_completes i s t _ hf hw hb

/-- A command that has nothing left to do but its output stores it, where it fits. -/
theorem RunsAfterChecks.stores {r : Regs} (h : RunsAfterChecks i s (writeOutput s out >>= f)) (hr : Ready s)
    (hw : i.WellFormed) (ha : ExtentsAdmitted (sourceExtent i s) (destExtent i s))
    (hcap : out.length ≤ s.regs.dstcap.toNat)
    (hf : ∀ m, f { s with mem := m } = .ok { s with regs := r, mem := m }) :
    StoresOutput i s r s.regs.dst.toNat out :=
  command_output i s r out f hr hw hcap hf (by rw [h, checkBoth_of_admitted ha]; rfl)

/-- The same command, where the output does not fit. -/
theorem RunsAfterChecks.overruns (h : RunsAfterChecks i s (writeOutput s out >>= f)) (hf : s.faulted = false)
    (hw : i.WellFormed) (ha : ExtentsAdmitted (sourceExtent i s) (destExtent i s))
    (hcap : s.regs.dstcap.toNat < out.length) : Faults i s .dstOverrun out.length :=
  h.faults hf hw ha (bind_error (writeOutput_overrun hcap))

end

/-! ### The fixed-width store -/

@[simp] theorem fieldBytes_length (v w : Nat) : (fieldBytes v w).length = w := by simp [fieldBytes]

theorem runsAfterChecks_fwPut (imm : BitVec 8) (s : State) : RunsAfterChecks (.fwPut imm) s (do
    let t ← writeOutput s (fieldBytes s.regs.arg.toNat imm.toNat)
    return t.withRes (word imm.toNat)) := by
  rw [← le_eq_fieldBytes]
  exact .of_dest rfl rfl

theorem fwPut_stores {imm : BitVec 8} {s : State} (hw : (Instr.fwPut imm).WellFormed) (hr : Ready s)
    (ha : InSpace s.regs.dst.toNat s.regs.dstcap.toNat) (hcap : imm.toNat ≤ s.regs.dstcap.toNat) :
    StoresOutput (.fwPut imm) s { s.regs with res := word imm.toNat } s.regs.dst.toNat
      (fieldBytes s.regs.arg.toNat imm.toNat) :=
  (runsAfterChecks_fwPut imm s).stores hr hw (extentsAdmitted_dest ha) (by simpa using hcap) fun _ => rfl

theorem fwPut_overruns {imm : BitVec 8} {s : State} (hw : (Instr.fwPut imm).WellFormed) (hr : Ready s)
    (ha : InSpace s.regs.dst.toNat s.regs.dstcap.toNat) (hcap : s.regs.dstcap.toNat < imm.toNat) :
    Faults (.fwPut imm) s .dstOverrun imm.toNat := by
  simpa using (runsAfterChecks_fwPut imm s).overruns hr.1 hw (extentsAdmitted_dest ha) (by simpa using hcap)

theorem reachesExtents_fwPut {imm : BitVec 8} (s : State) (hw : (Instr.fwPut imm).WellFormed) :
    ReachesExtents (.fwPut imm) s := ⟨hw, by simp, by simp⟩

/-- Settles O27: past its checks the store is one write phase of the field's bytes. -/
theorem fwPutStoresTheField : Obligations.FwPutStoresTheField := by
  intro imm s hw hr
  obtain ⟨-, wraps, -⟩ := extentFaultsComeFirst (.fwPut imm) s hr.1 (reachesExtents_fwPut s hw)
  refine ⟨fun ha hcap hwr => ?_, wraps (by simp [sourceExtent]),
    fun ha hcap => fwPut_overruns hw hr ha hcap, fun k hk ha hcap hwr hc => ?_⟩
  · obtain ⟨completes, -⟩ := fwPut_stores hw hr ha hcap
    exact completes (by simpa using hwr)
  · obtain ⟨-, losesOutput⟩ := fwPut_stores hw hr ha hcap
    simpa using losesOutput k (by simpa using hk) hwr hc

/-! ### The fixed-width load -/

theorem numberAt_lt (m : Memory) (a n : Nat) : numberAt m a n < 2 ^ (8 * n) := by
  simpa [numberAt] using unle_lt (bytesAt m a n)

theorem runsAfterChecks_fwGet (imm : BitVec 8) (s : State) : RunsAfterChecks (.fwGet imm) s (do
    raiseIf (s.regs.srclen.toNat < imm.toNat) .srcUnderrun imm.toNat
    let v ← readNumber s s.regs.src.toNat imm.toNat
    return s.withResults (word v) (word imm.toNat)) := .of_source rfl rfl

/-- A source that is long enough is read at once. -/
theorem runsAfterChecks_fwGet_of_le {imm : BitVec 8} {s : State} (h : imm.toNat ≤ s.regs.srclen.toNat) :
    RunsAfterChecks (.fwGet imm) s (do
      let v ← readNumber s s.regs.src.toNat imm.toNat
      return s.withResults (word v) (word imm.toNat)) := by
  have hlen : decide (s.regs.srclen.toNat < imm.toNat) = false := decide_eq_false (by omega)
  simpa [hlen] using runsAfterChecks_fwGet imm s

theorem reachesExtents_fwGet {imm : BitVec 8} (s : State) (hw : (Instr.fwGet imm).WellFormed) :
    ReachesExtents (.fwGet imm) s := ⟨hw, by simp, by simp⟩

/-- Settles O28: past its checks the load is one read of the field. -/
theorem fwGetLoadsTheField : Obligations.FwGetLoadsTheField := by
  intro imm s hw hf
  obtain ⟨wraps, -, -⟩ := extentFaultsComeFirst (.fwGet imm) s hf (reachesExtents_fwGet s hw)
  refine ⟨fun ha hlen hr => ⟨?_, numberAt_lt _ _ _⟩, wraps, fun ha hlen => ?_, fun k hk ha hlen hr hc => ?_⟩
  · refine (runsAfterChecks_fwGet_of_le hlen).completes hf hw (extentsAdmitted_source ha) ?_
    rw [readNumber_of_reads s _ _ hr]
    rfl
  · exact (runsAfterChecks_fwGet imm s).faults hf hw (extentsAdmitted_source ha) (by simp [hlen])
  · exact (runsAfterChecks_fwGet_of_le hlen).faults hf hw (extentsAdmitted_source ha)
      (bind_error (readNumber_unreadable hk hr hc))

end Sys2Proof.Machine
end

section
/-! PROOF. The tagged varint (41_tagged_varint.md): its lengths (R130), the round trip of encoding and decoding (R131,
R132, R137), and its store, load and length query (R134 to R136). -/

namespace Sys2Proof.Machine

/-! ### Lengths -/

/-- `b` bits take `ceil(b / 7)` bytes, but never 0, and more than 56 bits take 9 (R130). -/
theorem tvLength_le_iff {v k : Nat} (h1 : 1 ≤ k) (h8 : k ≤ 8) : tvLength v ≤ k ↔ v < 2 ^ (7 * k) := by
  have hceil := ceilDiv_le_iff (bitwidth v) 7 k (by decide)
  rw [← bitwidth_le_iff, tvLength]
  split_ifs <;> omega

theorem one_le_tvLength (v : Nat) : 1 ≤ tvLength v := by
  have hceil := lt_ceilDiv_iff (bitwidth v) 7 0 (by decide)
  rw [tvLength]
  split_ifs <;> omega

theorem tvLength_le_nine (v : Nat) : tvLength v ≤ 9 := by
  have hceil := ceilDiv_le_iff (bitwidth v) 7 8 (by decide)
  rw [tvLength]
  split_ifs <;> omega

theorem tvLength_mono {v w : Nat} (h : v ≤ w) : tvLength v ≤ tvLength w := by
  by_cases h8 : tvLength w ≤ 8
  · have hw : w < 2 ^ (7 * tvLength w) := (tvLength_le_iff (one_le_tvLength w) h8).mp le_rfl
    exact (tvLength_le_iff (one_le_tvLength w) h8).mpr (h.trans_lt hw)
  · exact (tvLength_le_nine v).trans (by omega)

/-- The two forms of a varint: `z` leading zeros in a first byte that also holds value bits, or a first byte 0. -/
theorem tvLength_cases (v : Nat) : (∃ z ≤ 7, tvLength v = z + 1) ∨ tvLength v = 9 := by
  have h1 := one_le_tvLength v
  have h9 := tvLength_le_nine v
  by_cases h : tvLength v = 9
  · exact .inr h
  · exact .inl ⟨tvLength v - 1, by omega, by omega⟩

/-- The thresholds that R130 lists. -/
theorem tvLength_eq_thresholds (v : Nat) : tvLength v =
    if v < 2 ^ 7 then 1 else if v < 2 ^ 14 then 2 else if v < 2 ^ 21 then 3 else if v < 2 ^ 28 then 4
    else if v < 2 ^ 35 then 5 else if v < 2 ^ 42 then 6 else if v < 2 ^ 49 then 7
    else if v < 2 ^ 56 then 8 else 9 := by
  simp only [← bitwidth_le_iff, -Nat.reducePow, tvLength, ceilDiv]
  split_ifs <;> omega

/-- Settles O33: the length's thresholds, written to `RES`. -/
theorem tvLenFollowsTheThresholds : Obligations.TvLenFollowsTheThresholds := by
  intro s hf
  have hrun : exec .tvLen s = .next (s.withRes (word (tvLength s.regs.arg.toNat))) :=
    command_completes .tvLen s _ _ hf (by decide) rfl
  rw [hrun, tvLength_eq_thresholds]
  simp only [apply_ite word]
  rfl

/-! ### The bytes of a varint -/

/-- The first byte of a varint with `p` value bits in it: a 1 bit above the low `p` bits of the value (R131). -/
def tvFirst (v p : Nat) : Byte := BitVec.ofNat 8 (2 ^ p + v % 2 ^ p)

theorem tvEncode_of_nine {v : Nat} (h : tvLength v = 9) : tvEncode v = 0 :: le v 8 := if_pos h

theorem tvEncode_of_zeros {v z : Nat} (hz : z ≤ 7) (h : tvLength v = z + 1) :
    tvEncode v = tvFirst v (7 - z) :: le (v / 2 ^ (7 - z)) z := by
  have hne : z + 1 ≠ 9 := by omega
  simp [tvEncode, h, hne, tvFirst]

/-- Encoding and length agree (R137). -/
@[simp] theorem tvEncode_length (v : Nat) : (tvEncode v).length = tvLength v := by
  obtain ⟨z, hz, h⟩ | h := tvLength_cases v
  · simp [tvEncode_of_zeros hz h, h]
  · simp [tvEncode_of_nine h, h]

theorem tvFirst_toNat (v : Nat) {p : Nat} (hp : p ≤ 7) : (tvFirst v p).toNat = 2 ^ p + v % 2 ^ p := by
  have hlow : v % 2 ^ p < 2 ^ p := Nat.mod_lt _ (Nat.two_pow_pos p)
  have hpow : 2 ^ p ≤ 2 ^ 7 := Nat.pow_le_pow_right (by decide) hp
  rw [tvFirst, BitVec.toNat_ofNat, Nat.mod_eq_of_lt (by omega)]

/-- The marker bit of the first byte is its top bit, so the zeros above it say how many bytes follow. -/
theorem clz8_tvFirst (v : Nat) {p : Nat} (hp : p ≤ 7) : clz8 (tvFirst v p) = 7 - p := by
  have hlow : v % 2 ^ p < 2 ^ p := Nat.mod_lt _ (Nat.two_pow_pos p)
  have hwidth : bitwidth (tvFirst v p).toNat = p + 1 :=
    bitwidth_eq_of_range (by rw [tvFirst_toNat v hp]; omega) (by rw [tvFirst_toNat v hp, Nat.pow_succ]; omega)
  rw [clz8, hwidth]
  omega

/-! ### Decoding an encoded value -/

/-- A first byte of an encoding announces its length (R130). -/
theorem tvAnnounced_tvEncode (v : Nat) (t : List Byte) :
    tvAnnounced ((tvEncode v ++ t).getD 0 0) = tvLength v := by
  obtain ⟨z, hz, h⟩ | h := tvLength_cases v
  · have hclz : clz8 (tvFirst v (7 - z)) = z := by rw [clz8_tvFirst v (by omega)]; omega
    simp [tvEncode_of_zeros hz h, tvAnnounced, hclz, h]
  · rw [tvEncode_of_nine h, h]
    rfl

/-- Decoding an encoding gives the value back, whatever bytes follow (R137). -/
theorem tvValue_tvEncode {v : Nat} (hv : v < 2 ^ 64) (t : List Byte) : tvValue (tvEncode v ++ t) = v := by
  obtain ⟨z, hz, h⟩ | h := tvLength_cases v
  · have hclz : clz8 (tvFirst v (7 - z)) = z := by rw [clz8_tvFirst v (by omega)]; omega
    have hne : z ≠ 8 := by omega
    have hlow : (tvFirst v (7 - z)).toNat % 2 ^ (7 - z) = v % 2 ^ (7 - z) := by
      rw [tvFirst_toNat v (by omega), Nat.add_mod_left, Nat.mod_mod]
    have hhigh : v / 2 ^ (7 - z) < 2 ^ (8 * z) := by
      rw [Nat.div_lt_iff_lt_mul (Nat.two_pow_pos _), ← Nat.pow_add, show 8 * z + (7 - z) = 7 * (z + 1) by omega]
      exact (tvLength_le_iff (by omega) (by omega)).mp h.le
    rw [tvEncode_of_zeros hz h, List.cons_append, tvValue, hclz, if_neg hne, List.take_left' (le_length _ _),
      unle_le, hlow, Nat.mod_eq_of_lt hhigh, Nat.mod_add_div]
  · have hzero : clz8 0 = 8 := rfl
    rw [tvEncode_of_nine h, List.cons_append, tvValue, hzero, if_pos rfl, List.take_left' (le_length _ _), unle_le,
      Nat.mod_eq_of_lt hv]

/-- Where memory holds the encoding of a value, that value's varint stands. -/
theorem varintAt_of_bytesAt {s : State} {off v : Nat} (hv : v < 2 ^ 64)
    (h : bytesAt s.mem (s.regs.src.toNat + off) (tvLength v) = tvEncode v) :
    varintAt s off = (v, tvLength v) := by
  have hfirst : s.mem.read (s.regs.src.toNat + off) = (tvEncode v ++ []).getD 0 0 := by
    rw [List.append_nil, ← h, ← Nat.sub_add_cancel (one_le_tvLength v), bytesAt_succ]
    rfl
  have hlen : (varintAt s off).2 = tvLength v := by
    rw [← tvAnnounced_eq, hfirst, tvAnnounced_tvEncode]
  have hval : (varintAt s off).1 = v := by
    rw [← tvValue_bytesAt, hlen, h, ← List.append_nil (tvEncode v), tvValue_tvEncode hv]
  exact Prod.ext hval hlen

/-! ### The store -/

theorem runsAfterChecks_tvPut (s : State) : RunsAfterChecks .tvPut s (do
    let t ← writeOutput s (tvEncode s.regs.arg.toNat)
    return t.withRes (word (tvEncode s.regs.arg.toNat).length)) := .of_dest rfl rfl

/-- Settles O31: past its checks the store is one write phase of the varint. -/
theorem tvPutStoresTheVarint : Obligations.TvPutStoresTheVarint := by
  intro s hr
  have hw : Instr.WellFormed .tvPut := by decide
  obtain ⟨-, wraps, -⟩ := extentFaultsComeFirst .tvPut s hr.1 ⟨hw, by simp, by simp⟩
  have stores (ha hcap) := (runsAfterChecks_tvPut s).stores
    (r := { s.regs with res := word (tvEncode s.regs.arg.toNat).length }) hr hw (extentsAdmitted_dest ha) hcap
    fun _ => rfl
  exact ⟨fun ha hcap hwr => (stores ha hcap).1 hwr, wraps (by simp [sourceExtent]),
    fun ha hcap => (runsAfterChecks_tvPut s).overruns hr.1 hw (extentsAdmitted_dest ha) hcap,
    fun k hk ha hcap hwr hc => (stores ha hcap).2 k hk hwr hc⟩

/-! ### The load -/

theorem runsAfterChecks_tvGet (s : State) : RunsAfterChecks .tvGet s (do
    let r ← sourceVarint s 0
    return s.withResults (word r.1) (word r.2)) := .of_source rfl rfl

section
variable {s : State}

/-- A varint that ends inside the source and may be read is the answer. -/
theorem tvGet_completes (hf : s.faulted = false) (ha : InSpace s.regs.src.toNat s.regs.srclen.toNat)
    (h : VarintSound s 0) :
    exec .tvGet s = .next (s.withResults (word (varintAt s 0).1) (word (varintAt s 0).2)) := by
  refine (runsAfterChecks_tvGet s).completes hf (by decide) (extentsAdmitted_source ha) ?_
  rw [sourceVarint_sound s 0 h]
  rfl

/-- How reading the varint ends early is how the load does. -/
theorem tvGet_faults {code : FaultCode} {info : Nat} (hf : s.faulted = false)
    (ha : InSpace s.regs.src.toNat s.regs.srclen.toNat) (h : sourceVarint s 0 = .error (.raise code info)) :
    Faults .tvGet s code info :=
  (runsAfterChecks_tvGet s).faults hf (by decide) (extentsAdmitted_source ha) (bind_error h)

end

theorem varintAt_zero_length (s : State) :
    0 + (varintAt s 0).2 = 8 - bitwidth (s.mem.read s.regs.src.toNat).toNat + 1 := Nat.zero_add _

/-- Settles O32: past its check the load is one read of the varint at `SRC`. -/
theorem tvGetReadsAnyVarint : Obligations.TvGetReadsAnyVarint := by
  intro s hf
  obtain ⟨wraps, -, -⟩ := extentFaultsComeFirst .tvGet s hf ⟨by decide, by simp, by simp⟩
  have hlen := varintAt_zero_length s
  refine ⟨fun ha hl hr => tvGet_completes hf ha ⟨hlen.trans_le hl, hr⟩, wraps, fun hl => ?_,
    fun ha h1 hl hr => ?_, fun ha h1 hu => ?_, fun k h1 hk ha hl hr hu => ?_⟩
  · exact tvGet_faults hf (by have := s.regs.src.isLt; omega) (sourceVarint_empty s 0 (by omega))
  · rw [← hlen] at hl ⊢
    exact tvGet_faults hf ha (sourceVarint_cut s 0 h1 hr hl)
  · exact tvGet_faults hf ha (sourceVarint_unreadable_first h1 hu)
  · exact tvGet_faults hf ha (sourceVarint_unreadable (hlen.trans_le hl) h1 hk hr hu)

/-! ### The load after the store -/

/-- A command that leaves the block unfaulted has completed. -/
theorem command_next_unfaulted {i : Instr} {s t : State} {body : Attempt State} (h : command i s body = .next t)
    (hs : s.faulted = false) (ht : t.faulted = false) : body = .ok t := by
  obtain ⟨hf, -⟩ | ⟨-, -, hok⟩ | ⟨-, code, info, rfl, -⟩ | ⟨-, x, base, len, rfl, -⟩ := command_next i s t body h
  · exact absurd (hf.symm.trans hs) (by decide)
  · exact hok
  · exact absurd ((takeFault_faulted s code info _).symm.trans ht) (by decide)
  · exact absurd ((takeFault_faulted s .memFault x _).symm.trans ht) (by decide)

/-- What a completed `TV.PUT` has done. -/
theorem tvPut_completed {s t : State} (h : exec .tvPut s = .next t) (hs : s.faulted = false)
    (ht : t.faulted = false) :
    t = { s with
      regs := { s.regs with res := word (tvLength s.regs.arg.toNat) }
      mem := s.mem.writeBytes s.regs.dst.toNat (tvEncode s.regs.arg.toNat) } := by
  rw [runsAfterChecks_tvPut s] at h
  obtain ⟨-, -, hbody⟩ := (attempt_bind_ok _ _ _).mp (command_next_unfaulted h hs ht)
  obtain ⟨m, hm, hres⟩ := (attempt_bind_ok _ _ _).mp hbody
  obtain ⟨-, rfl⟩ := writeOutput_ok s _ m hm
  rw [tvEncode_length] at hres
  exact (Except.ok.inj hres).symm

/-- A stored byte sequence is read back whole. -/
theorem bytesAt_writeBytes (m : Memory) (a : Nat) (out : List Byte) (hm : m.wf) :
    bytesAt (m.writeBytes a out) a out.length = out := by
  refine List.ext_getElem (by simp) fun k hk hout => ?_
  have hread := Memory.read_writeBytes_inside m a (a + k) out hm ⟨by omega, by omega⟩
  rw [Nat.add_sub_cancel_left, List.getD_eq_getElem _ _ hout] at hread
  simpa [bytesAt] using hread

/-- `TV.GET` answers the value whose encoding stands at `SRC`. -/
theorem tvGet_of_encoded {s : State} {v : Nat} (hf : s.faulted = false) (hv : v < 2 ^ 64)
    (ha : InSpace s.regs.src.toNat s.regs.srclen.toNat) (hl : tvLength v ≤ s.regs.srclen.toNat)
    (hr : Reads s s.regs.src.toNat (tvLength v)) (h : bytesAt s.mem s.regs.src.toNat (tvLength v) = tvEncode v) :
    exec .tvGet s = .next (s.withResults (word v) (word (tvLength v))) := by
  have hvarint : varintAt s 0 = (v, tvLength v) := varintAt_of_bytesAt hv h
  have hsound : VarintSound s 0 := by
    rw [VarintSound, hvarint, Nat.zero_add]
    exact ⟨hl, hr⟩
  rw [tvGet_completes hf ha hsound, hvarint]

/-- Settles O34: the laws of the encoding, and the load of the bytes that the store left. -/
theorem taggedVarintsRoundTrip : Obligations.TaggedVarintsRoundTrip := by
  refine ⟨fun v hv t => ⟨tvEncode_length v, one_le_tvLength v, tvLength_le_nine v, tvValue_tvEncode hv t,
    tvAnnounced_tvEncode v t, fun _ => tvLength_mono⟩, ?_⟩
  intro s t n hs hput ht hn ha hr u
  obtain rfl := tvPut_completed hput hs.1 ht
  have hres : (word (tvLength s.regs.arg.toNat)).toNat = tvLength s.regs.arg.toNat :=
    Nat.mod_eq_of_lt (by have := tvLength_le_nine s.regs.arg.toNat; omega)
  have harg : word s.regs.arg.toNat = s.regs.arg := by simp [word]
  have hbytes := bytesAt_writeBytes s.mem s.regs.dst.toNat (tvEncode s.regs.arg.toNat) hs.2
  rw [tvEncode_length] at hbytes
  simp only [hres] at hn hr
  refine (tvGet_of_encoded (s := u) ht s.regs.arg.isLt ha hn hr hbytes).trans ?_
  rw [harg]
  rfl

end Sys2Proof.Machine
end

section
/-! PROOF. The group varint (42_group_varint.md): what `gv_encode` spells (R147), what a group in memory says (R148),
that the two agree (R155), and the four commands (R150 to R154). -/

namespace Sys2Proof.Machine

/-! ### The bytes of a group (R147) -/

theorem snappedWidth_mem (v : Nat) : snappedWidth v ∈ [1, 2, 4, 8] := snap_mem _

/-- A value is read back from a field of its snapped width (R112). -/
theorem unle_le_snappedWidth {v : Nat} (hv : v < 2 ^ 64) : unle (le v (snappedWidth v)) = v := by
  obtain ⟨-, hfits⟩ := (snappedWidth_le_iff hv (snappedWidth_mem v)).mp le_rfl
  rw [unle_le, Nat.mod_eq_of_lt hfits]

/-- The fields of a group, packed back-to-back. -/
def gvFields (vs : List Nat) : List Byte := vs.flatMap fun v => le v (snappedWidth v)

@[simp] theorem gvFields_cons (v : Nat) (vs : List Nat) :
    gvFields (v :: vs) = le v (snappedWidth v) ++ gvFields vs := rfl

@[simp] theorem gvFields_length (vs : List Nat) : (gvFields vs).length = (vs.map snappedWidth).sum := by
  simp [gvFields, List.length_flatMap]

theorem gvEncode_eq (vs : List Nat) : gvEncode vs = BitVec.ofNat 8 vs.length :: (gvBitmap vs ++ gvFields vs) := rfl

@[simp] theorem gvBitmap_length (vs : List Nat) : (gvBitmap vs).length = ceilDiv vs.length 4 := by simp [gvBitmap]

/-- The encoder's output has the size that `gv_size` predicts (R155). -/
theorem gvEncode_length (vs : List Nat) : (gvEncode vs).length = gvSize vs := by
  simp only [gvEncode_eq, gvSize, List.length_cons, List.length_append, gvBitmap_length, gvFields_length]
  omega

/-- The four codes of a bitmap byte are read back from their bits (R146). -/
theorem gvBitmapByte_code {codes : List Nat} (h : ∀ j, codes.getD j 0 < 4) {r : Nat} (hr : r < 4) :
    (gvBitmapByte codes).toNat / 2 ^ (2 * r) % 4 = codes.getD r 0 := by
  have h0 := h 0
  have h1 := h 1
  have h2 := h 2
  have h3 := h 3
  have hbyte : (gvBitmapByte codes).toNat =
      codes.getD 0 0 + 4 * codes.getD 1 0 + 16 * codes.getD 2 0 + 64 * codes.getD 3 0 := by
    rw [gvBitmapByte, BitVec.toNat_ofNat]
    exact Nat.mod_eq_of_lt (by omega)
  rw [hbyte]
  interval_cases r <;> omega

/-- The codes of the fields from field `k` on. -/
def fieldCodes (vs : List Nat) (k : Nat) : List Nat := (vs.drop k).map fun v => widthCode (snappedWidth v)

/-- Where there is no field the code is that of the value 0 (R146). -/
theorem fieldCodes_getD (vs : List Nat) (k j : Nat) :
    (fieldCodes vs k).getD j 0 = widthCode (snappedWidth (vs.getD (k + j) 0)) := by
  simp only [fieldCodes, List.getD_eq_getElem?_getD, List.getElem?_map, List.getElem?_drop]
  exact Option.getD_map (fun v => widthCode (snappedWidth v)) 0 _

theorem fieldCodes_lt_four (vs : List Nat) (k j : Nat) : (fieldCodes vs k).getD j 0 < 4 := by
  rw [fieldCodes_getD]
  exact (widthOfCode_widthCode _ (snappedWidth_mem _)).1

theorem gvBitmap_getD {vs : List Nat} {j : Nat} (h : j < ceilDiv vs.length 4) :
    (gvBitmap vs).getD j 0 = gvBitmapByte (fieldCodes vs (4 * j)) := by
  simp [gvBitmap, h, fieldCodes]

/-- The bitmap announces the snapped widths of the values (R146). -/
theorem gvWidths_gvBitmap (vs : List Nat) : gvWidths (gvBitmap vs) vs.length = vs.map snappedWidth := by
  refine List.ext_getElem (by simp [gvWidths]) fun i _ hi => ?_
  have hlen : i < vs.length := by simpa using hi
  have hbyte : i / 4 < ceilDiv vs.length 4 := by rw [lt_ceilDiv_iff _ _ _ (by decide)]; omega
  have hcode : ((gvBitmap vs).getD (i / 4) 0).toNat / 2 ^ (2 * (i % 4)) % 4 = widthCode (snappedWidth vs[i]) := by
    rw [gvBitmap_getD hbyte, gvBitmapByte_code (fieldCodes_lt_four vs _) (Nat.mod_lt _ (by decide)),
      fieldCodes_getD, Nat.div_add_mod, List.getD_eq_getElem _ _ hlen]
  simp only [gvWidths, List.getElem_map, List.getElem_range, hcode]
  exact (widthOfCode_widthCode _ (snappedWidth_mem _)).2

/-! ### A group in memory (R148) -/

/-- Those bytes stand in memory from `a` on. -/
abbrev HoldsBytes (m : Memory) (a : Nat) (out : List Byte) : Prop := bytesAt m a out.length = out

theorem holdsBytes_cons {m : Memory} {a : Nat} {b : Byte} {out : List Byte} :
    HoldsBytes m a (b :: out) ↔ m.read a = b ∧ HoldsBytes m (a + 1) out := by
  rw [HoldsBytes, List.length_cons, bytesAt_succ, List.cons.injEq]

theorem holdsBytes_append {m : Memory} {a : Nat} {out rest : List Byte} :
    HoldsBytes m a (out ++ rest) ↔ HoldsBytes m a out ∧ HoldsBytes m (a + out.length) rest := by
  rw [HoldsBytes, List.length_append, bytesAt_append]
  exact ⟨fun h => List.append_inj h (by simp), fun ⟨hout, hrest⟩ => by rw [hout, hrest]⟩

section
variable (m : Memory) (a c : Nat)

theorem groupOffset_succ (k : Nat) : groupOffset m a c (k + 1) = groupOffset m a c k + groupWidth m a k := by
  simp [groupOffset, List.range_succ, Nat.add_assoc]

theorem groupOffset_mono : Monotone (groupOffset m a c) :=
  monotone_nat_of_le_succ fun k => by rw [groupOffset_succ]; omega

/-- The first `n` fields of the group at `a`. -/
def groupValues (n : Nat) : List Nat :=
  (List.range n).map fun k => numberAt m (a + groupOffset m a c k) (groupWidth m a k)

@[simp] theorem groupValues_length (n : Nat) : (groupValues m a c n).length = n := by simp [groupValues]

end

/-- The fields of a group are read back where the widths before them lead. -/
theorem numberAt_gvFields {m : Memory} {b : Nat} {vs : List Nat} (hv : ∀ v ∈ vs, v < 2 ^ 64)
    (h : HoldsBytes m b (gvFields vs)) {i : Nat} (hi : i < vs.length) :
    numberAt m (b + ((vs.map snappedWidth).take i).sum) (snappedWidth (vs.getD i 0)) = vs.getD i 0 := by
  induction vs generalizing b i with
  | nil => simp at hi
  | cons v vs ih =>
    obtain ⟨hfield, hrest⟩ := holdsBytes_append.mp h
    rw [le_length] at hrest
    cases i with
    | zero =>
      rw [HoldsBytes, le_length] at hfield
      simp [numberAt, hfield, unle_le_snappedWidth (hv v (by simp))]
    | succ i =>
      simpa [Nat.add_assoc] using ih (fun x hx => hv x (by simp [hx])) hrest (by simpa using hi)

section
variable {m : Memory} {a : Nat} {vs : List Nat} (h : HoldsBytes m a (gvEncode vs))
include h

/-- The bitmap in memory announces the snapped widths of the encoded values. -/
theorem groupWidths_gvEncode : groupWidths m a vs.length = vs.map snappedWidth := by
  obtain ⟨-, hbody⟩ := holdsBytes_cons.mp h
  obtain ⟨hbitmap, -⟩ := holdsBytes_append.mp hbody
  rw [HoldsBytes, gvBitmap_length] at hbitmap
  rw [← gvWidths_bytesAt, hbitmap, gvWidths_gvBitmap]

theorem groupWidth_gvEncode {i : Nat} (hi : i < vs.length) : groupWidth m a i = snappedWidth (vs.getD i 0) := by
  rw [← groupWidths_getD m a vs.length hi, groupWidths_gvEncode h]
  simp [hi]

theorem groupOffset_gvEncode {i : Nat} (hi : i ≤ vs.length) :
    groupOffset m a vs.length i = 1 + ceilDiv vs.length 4 + ((vs.map snappedWidth).take i).sum := by
  rw [← gvOffset_groupWidths _ _ _ hi, groupWidths_gvEncode h, gvOffset, List.length_map]

/-- The size that the bitmap announces is that of the encoding (R155). -/
theorem groupOffset_gvEncode_length : groupOffset m a vs.length vs.length = (gvEncode vs).length := by
  rw [groupOffset_gvEncode h le_rfl, gvEncode_length, gvSize, List.take_of_length_le (by simp)]

/-- Every field of an encoded group is the value it was made from (R155). -/
theorem numberAt_gvEncode (hv : ∀ v ∈ vs, v < 2 ^ 64) {i : Nat} (hi : i < vs.length) :
    numberAt m (a + groupOffset m a vs.length i) (groupWidth m a i) = vs.getD i 0 := by
  obtain ⟨-, hbody⟩ := holdsBytes_cons.mp h
  obtain ⟨-, hfields⟩ := holdsBytes_append.mp hbody
  have hread := numberAt_gvFields hv hfields hi
  rw [gvBitmap_length] at hread
  rw [groupWidth_gvEncode h hi, groupOffset_gvEncode h hi.le, ← Nat.add_assoc, ← Nat.add_assoc]
  exact hread

theorem groupValues_gvEncode (hv : ∀ v ∈ vs, v < 2 ^ 64) : groupValues m a vs.length vs.length = vs := by
  refine List.ext_getElem (by simp) fun i hi hi' => ?_
  simp [groupValues, numberAt_gvEncode h hv hi', hi']

theorem count_gvEncode (hc : vs.length ≤ 64) : (m.read a).toNat = vs.length := by
  obtain ⟨hcount, -⟩ := holdsBytes_cons.mp h
  rw [hcount, BitVec.toNat_ofNat, Nat.mod_eq_of_lt (by omega)]

end

/-! ### Sizes and encoders (R151, R154) -/

section
variable {s : State} (hr : Reads s s.regs.src.toNat (8 * s.regs.cnt.toNat))
  (hc : 1 ≤ s.regs.cnt.toNat ∧ s.regs.cnt.toNat ≤ 64)
include hr hc

theorem runsAfterChecks_gvSize :
    RunsAfterChecks .gvSize s
      (.ok (s.withRes (word (gvSize (arrayAt s.mem s.regs.src.toNat 8 s.regs.cnt.toNat))))) := by
  refine .of_source rfl ((execGvSize_of_count hc).trans ?_)
  rw [readArray_of_reads _ _ _ _ hr]
  rfl

theorem runsAfterChecks_gvEnc :
    RunsAfterChecks .gvEnc s (do
      let t ← writeOutput s (gvEncode (arrayAt s.mem s.regs.src.toNat 8 s.regs.cnt.toNat))
      return t.withRes (word (gvEncode (arrayAt s.mem s.regs.src.toNat 8 s.regs.cnt.toNat)).length)) := by
  refine (execGvEnc_of_count hc).trans ?_
  rw [readArray_of_reads _ _ _ _ hr]
  rfl

end

/-- Settles O36: past their checks and the reading of the array, `GV.SIZE` is done and `GV.ENC` is one write phase. -/
theorem gvEncStoresTheGroup : Obligations.GvEncStoresTheGroup := by
  intro s hs c vs size h1 h64 hsrc hr
  have hlen : (gvEncode vs).length = size := by
    rw [gvEncode_length, gvSize, arrayAt_length]
  have hsize : gvSize vs = size := (gvEncode_length vs).symm.trans hlen
  refine ⟨hlen, ?_, fun hdst hapart hcap => ?_⟩
  · rw [(runsAfterChecks_gvSize hr ⟨h1, h64⟩).completes hs.1 (by decide) (extentsAdmitted_source hsrc) rfl, ← hsize]
    rfl
  · rw [← hlen] at hcap ⊢
    exact (runsAfterChecks_gvEnc hr ⟨h1, h64⟩).stores hs (by decide) ⟨hsrc, hdst, hapart⟩ hcap fun _ => rfl

/-! ### Decoders (R152, R153) -/

@[simp] theorem arrayBytes_length (esz : Nat) (vs : List Nat) : (arrayBytes esz vs).length = esz * vs.length := by
  simp [arrayBytes, List.length_flatMap, Nat.mul_comm]

/-- The bytes of an array, as the statements spell them. -/
theorem arrayBytes_eq_fieldBytes (esz : Nat) (vs : List Nat) :
    arrayBytes esz vs = vs.flatMap fun v => fieldBytes v esz := by
  simp only [arrayBytes, le_eq_fieldBytes]

section
variable {s : State}

/-- The fields are read one after the other, each where the widths before it lead. -/
theorem gvReadFields_of_fields {off : Nat} {ws : List Nat} {x : Nat → Nat}
    (h : ∀ k < ws.length, gvReadField s (off + (ws.take k).sum) (ws.getD k 0) = .ok (x k)) :
    gvReadFields s off ws = .ok ((List.range ws.length).map x) := by
  induction ws generalizing off x with
  | nil => rfl
  | cons w ws ih =>
    have hfirst : gvReadField s off w = .ok (x 0) := by simpa using h 0 (by simp)
    have hrest : gvReadFields s (off + w) ws = .ok ((List.range ws.length).map fun k => x (k + 1)) :=
      ih fun k hk => by simpa [Nat.add_assoc] using h (k + 1) (by simpa using hk)
    simp [gvReadFields, hfirst, hrest, List.range_succ_eq_map, Function.comp_def]

/-- The field `k` of the group at `SRC` ends inside `SRCLEN` and may be read. -/
abbrev FieldSound (s : State) (k : Nat) : Prop :=
  fieldOffset s k + fieldWidth s k ≤ s.regs.srclen.toNat ∧
    Reads s (s.regs.src.toNat + fieldOffset s k) (fieldWidth s k)

theorem gvReadFields_of_group {n : Nat} (h : ∀ k < n, FieldSound s k) :
    gvReadFields s (fieldOffset s 0) (groupWidths s.mem s.regs.src.toNat n) =
      .ok (groupValues s.mem s.regs.src.toNat (groupCount s) n) := by
  rw [gvReadFields_of_fields (x := fun k => numberAt s.mem (s.regs.src.toNat + fieldOffset s k) (fieldWidth s k)),
    groupWidths_length]
  · rfl
  · intro k hk
    rw [groupWidths_length] at hk
    obtain ⟨hfits, hread⟩ := h k hk
    rw [groupWidths_take _ _ _ hk.le, groupWidths_getD _ _ _ hk]
    exact gvReadField_of_reads hfits hread

section
variable (hc : 1 ≤ groupCount s ∧ groupCount s ≤ 64) (hl : 1 + ceilDiv (groupCount s) 4 ≤ s.regs.srclen.toNat)
  (hr : Reads s s.regs.src.toNat (1 + ceilDiv (groupCount s) 4))
include hc hl hr

/-- A group whose wanted fields can be read is decoded into them. -/
theorem gvDec_stores (hs : Ready s)
    (ha : ExtentsAdmitted (s.regs.src.toNat, s.regs.srclen.toNat) (s.regs.dst.toNat, s.regs.dstcap.toNat))
    (hfields : ∀ k < min (groupCount s) s.regs.cnt.toNat, FieldSound s k)
    (hcap : 8 * min (groupCount s) s.regs.cnt.toNat ≤ s.regs.dstcap.toNat) :
    StoresOutput .gvDec s
      { s.regs with
        res := word (min (groupCount s) s.regs.cnt.toNat), res2 := word (fieldOffset s (groupCount s)) }
      s.regs.dst.toNat
      (arrayBytes 8 (groupValues s.mem s.regs.src.toNat (groupCount s) (min (groupCount s) s.regs.cnt.toNat))) := by
  have hrun := runsAfterChecks_gvDec (by omega) (hr.mono (le_refl _) (by omega)) hc
  rw [gvReadWidths_of_bitmap hl hr, attempt_ok_bind, groupWidths_take _ _ _ (Nat.min_le_left _ _),
    gvOffset_groupWidths _ _ _ (Nat.zero_le _), gvOffset_groupWidths _ _ _ le_rfl,
    gvReadFields_of_group hfields, attempt_ok_bind] at hrun
  exact hrun.stores hs (by decide) ha (by simpa using hcap) fun _ => rfl

/-- The one field that `ARG` names has to be readable, no other. -/
theorem gvGetf_completes (hf : s.faulted = false) (ha : InSpace s.regs.src.toNat s.regs.srclen.toNat)
    (hi : s.regs.arg.toNat < groupCount s) (hfield : FieldSound s s.regs.arg.toNat) :
    exec .gvGetf s = .next (s.withResults (word (fieldWidth s s.regs.arg.toNat))
      (word (numberAt s.mem (s.regs.src.toNat + fieldOffset s s.regs.arg.toNat)
        (fieldWidth s s.regs.arg.toNat)))) := by
  refine (runsAfterChecks_gvGetf (by omega) (hr.mono (le_refl _) (by omega)) hc hi).completes hf (by decide)
    (extentsAdmitted_source ha) ?_
  obtain ⟨hfits, hread⟩ := hfield
  rw [gvReadWidths_of_bitmap hl hr, attempt_ok_bind, gvOffset_groupWidths _ _ _ hi.le, groupWidths_getD _ _ _ hi,
    gvReadField_of_reads hfits hread]
  rfl

end

end

/-- Settles O37: past its checks, its bitmap and its fields, the decoder is one write phase. -/
theorem gvDecReadsTheFields : Obligations.GvDecReadsTheFields := by
  intro s hs a len c m offset width h1 h64 hsrc hdst hapart hl hr hfields hcap
  have hstores := gvDec_stores ⟨h1, h64⟩ hl hr hs ⟨hsrc, hdst, hapart⟩ hfields hcap
  rw [arrayBytes_eq_fieldBytes, groupValues, List.flatMap_map] at hstores
  exact hstores

/-- Settles O38: past its check and the bitmap, the random access is one read of the field. -/
theorem gvGetfReadsOneField : Obligations.GvGetfReadsOneField := by
  intro s hf a len c i offset width hi h64 hsrc hl hr hfits hread
  exact gvGetf_completes ⟨Nat.one_le_of_lt hi, h64⟩ hl hr hf hsrc hi ⟨hfits, hread⟩

/-! ### Decoding what was encoded (R155) -/

/-- The fields of a readable encoding can all be read. -/
theorem fieldSound_gvEncode {s : State} {vs : List Nat} {k : Nat} (h64 : vs.length ≤ 64)
    (h : HoldsBytes s.mem s.regs.src.toNat (gvEncode vs)) (hl : (gvEncode vs).length ≤ s.regs.srclen.toNat)
    (hr : Reads s s.regs.src.toNat (gvEncode vs).length) (hk : k < vs.length) : FieldSound s k := by
  have hcount : groupCount s = vs.length := count_gvEncode h h64
  have hend : fieldOffset s k + fieldWidth s k ≤ (gvEncode vs).length := by
    rw [fieldOffset, hcount, ← groupOffset_succ, ← groupOffset_gvEncode_length h]
    exact groupOffset_mono _ _ _ hk
  exact ⟨hend.trans hl, hr.mono (by omega) (by omega)⟩

/-- Settles O39: the encoding's fields are the values, at the widths that its bitmap announces. -/
theorem groupsRoundTrip : Obligations.GroupsRoundTrip := by
  intro s vs hs h1 h64 hv group a h hl hsrc hr
  have hcount : groupCount s = vs.length := count_gvEncode h h64
  have hrange : 1 ≤ groupCount s ∧ groupCount s ≤ 64 := by omega
  have hhead : 1 + ceilDiv (groupCount s) 4 ≤ group.length := by
    rw [hcount, gvEncode_length, gvSize]
    omega
  have hbitmap : Reads s a (1 + ceilDiv (groupCount s) 4) := hr.mono le_rfl (by omega)
  have hfield {k : Nat} (hk : k < vs.length) : FieldSound s k := fieldSound_gvEncode h64 h hl hr hk
  refine ⟨fun hcnt hdst hapart hcap hwr => ?_, fun hi => ?_⟩
  · have hmin : min (groupCount s) s.regs.cnt.toNat = vs.length := by omega
    obtain ⟨completes, -⟩ := gvDec_stores hrange (hhead.trans hl) hbitmap hs ⟨hsrc, hdst, hapart⟩
      (fun k hk => hfield (by omega)) (by omega)
    rw [hmin, fieldOffset, hcount, groupOffset_gvEncode_length h, groupValues_gvEncode h hv] at completes
    rw [← arrayBytes_eq_fieldBytes]
    exact completes (by simpa using hwr)
  · have hrun := gvGetf_completes hrange (hhead.trans hl) hbitmap hs.1 hsrc (by omega) (hfield hi)
    rw [fieldOffset, hcount, numberAt_gvEncode h hv hi, fieldWidth, groupWidth_gvEncode h hi] at hrun
    exact hrun

/-! ### Counts out of range (R150) -/

theorem gvBadCount_of_not_range {c : Nat} (h : c = 0 ∨ 64 < c) : gvBadCount c = true := by
  rw [gvBadCount, Bool.or_eq_true, decide_eq_true_eq, decide_eq_true_eq]
  exact h

section
variable {s : State} (hl : 1 ≤ s.regs.srclen.toNat) (hr : Reads s s.regs.src.toNat 1)
include hl hr

/-- Both decoders begin with the count byte. -/
theorem readCount_of_reads (g : Byte → Attempt State) :
    (raiseIf (decide (s.regs.srclen.toNat < 1)) .srcUnderrun 1 >>= fun _ => portRead s s.regs.src.toNat >>= g) =
      g (s.mem.read s.regs.src.toNat) := by
  rw [decide_eq_false (Nat.not_lt.mpr hl), raiseIf_false, attempt_ok_bind, portRead_of_reads hr, attempt_ok_bind]

/-- `GV.DEC` answers 0 for a count byte out of range. -/
theorem runsAfterChecks_gvDec_badCount (h : groupCount s = 0 ∨ 64 < groupCount s) :
    RunsAfterChecks .gvDec s (.ok (s.withResults 0 0)) :=
  congrArg (command .gvDec s) (bind_congr_ok rfl fun _ _ =>
    (readCount_of_reads hl hr _).trans (if_pos (gvBadCount_of_not_range h)))

/-- So does `GV.GETF`, and for a field that the group does not have. -/
theorem runsAfterChecks_gvGetf_noField
    (h : groupCount s = 0 ∨ 64 < groupCount s ∨ groupCount s ≤ s.regs.arg.toNat) :
    RunsAfterChecks .gvGetf s (.ok (s.withResults 0 0)) := by
  refine .of_source rfl (congrArg (command .gvGetf s) (bind_congr_ok rfl fun _ _ =>
    (readCount_of_reads hl hr _).trans (if_pos ?_)))
  rw [Bool.or_eq_true, decide_eq_true_eq]
  exact (or_assoc.mpr h).imp_left gvBadCount_of_not_range

end

section
variable {s : State} (h : s.regs.cnt.toNat = 0 ∨ 64 < s.regs.cnt.toNat)
include h

theorem execGvEnc_of_badCount : execGvEnc s = command .gvEnc s (.ok (s.withRes 0)) :=
  congrArg (command .gvEnc s) (if_pos (gvBadCount_of_not_range h))

theorem execGvSize_of_badCount : execGvSize s = command .gvSize s (.ok (s.withRes 0)) :=
  congrArg (command .gvSize s) (if_pos (gvBadCount_of_not_range h))

end

/-- Settles O35: each command stops at its count check. -/
theorem groupCountSentinels : Obligations.GroupCountSentinels := by
  intro s hf
  refine ⟨fun h => ?_, fun hsrc hl hr => ⟨fun h hdst hapart => ?_, fun h => ?_⟩⟩
  · have hcnt : s.regs.cnt.toNat = 0 ∨ 64 < s.regs.cnt.toNat := h.imp_left fun h0 => by rw [h0]; rfl
    exact ⟨(execGvEnc_of_badCount hcnt).trans (command_completes .gvEnc s _ _ hf (by decide) rfl),
      (execGvSize_of_badCount hcnt).trans (command_completes .gvSize s _ _ hf (by decide) rfl)⟩
  · exact (runsAfterChecks_gvDec_badCount hl hr h).completes hf (by decide) ⟨hsrc, hdst, hapart⟩ rfl
  · exact (runsAfterChecks_gvGetf_noField hl hr h).completes hf (by decide) (extentsAdmitted_source hsrc) rfl

end Sys2Proof.Machine
end

section
/-! PROOF. BP128 payloads and blocks (43_bp128.md R166 to R171): unpacking reads back what packing spells, the split
into blocks by index, and the sizes of blocks and streams against the bound of R182. -/

namespace Sys2Proof.Machine

/-! ### Packing (R168, R169) -/

/-- The `m` fields of `b` bits that a number holds, the least significant first (R169). -/
def bitFields (n m b : Nat) : List Nat := (List.range m).map fun i => n / 2 ^ (i * b) % 2 ^ b

@[simp] theorem bitFields_length (n m b : Nat) : (bitFields n m b).length = m := by simp [bitFields]

theorem unpack_eq_bitFields (p : List Byte) (m b : Nat) : unpack p m b = bitFields (unle p) m b := rfl

/-- The fields below bit `m * b` do not depend on the bits from there on. -/
theorem bitFields_mod (n m b : Nat) : bitFields (n % 2 ^ (m * b)) m b = bitFields n m b := by
  refine List.map_congr_left fun i hi => ?_
  have hfits : i * b + b ≤ m * b := by
    rw [← Nat.succ_mul]
    exact Nat.mul_le_mul_right b (List.mem_range.mp hi)
  have hsplit : 2 ^ (m * b) = 2 ^ (i * b) * (2 ^ b * 2 ^ (m * b - (i * b + b))) := by
    rw [← Nat.pow_add, ← Nat.pow_add]
    congr 1
    omega
  rw [hsplit, Nat.mod_mul_right_div_self, Nat.mod_mul_right_mod]

theorem packedNumber_lt {x : List Nat} {b : Nat} (h : ∀ v ∈ x, v < 2 ^ b) :
    packedNumber b x < 2 ^ (x.length * b) := by
  induction x with
  | nil => simp [packedNumber]
  | cons v x ih =>
    rw [List.forall_mem_cons] at h
    obtain ⟨hv, hx⟩ := h
    rw [packedNumber, List.length_cons, Nat.succ_mul, Nat.pow_add, Nat.mul_comm _ (2 ^ b)]
    calc v + 2 ^ b * packedNumber b x < 2 ^ b * (packedNumber b x + 1) := by rw [Nat.mul_succ]; omega
      _ ≤ 2 ^ b * 2 ^ (x.length * b) := Nat.mul_le_mul_left _ (ih hx)

/-- Values that fit their fields are read back from the packed number. -/
theorem bitFields_packedNumber {x : List Nat} {b : Nat} (h : ∀ v ∈ x, v < 2 ^ b) :
    bitFields (packedNumber b x) x.length b = x := by
  induction x with
  | nil => rfl
  | cons v x ih =>
    rw [List.forall_mem_cons] at h
    obtain ⟨hv, hx⟩ := h
    have hhead : packedNumber b (v :: x) % 2 ^ b = v := by
      rw [packedNumber, Nat.add_mul_mod_self_left, Nat.mod_eq_of_lt hv]
    have htail : packedNumber b (v :: x) / 2 ^ b = packedNumber b x := by
      rw [packedNumber, Nat.add_mul_div_left _ _ (Nat.two_pow_pos b), Nat.div_eq_of_lt hv, Nat.zero_add]
    have hfield (i : Nat) : packedNumber b (v :: x) / 2 ^ ((i + 1) * b) = packedNumber b x / 2 ^ (i * b) := by
      rw [← htail, Nat.div_div_eq_div_mul, ← Nat.pow_add, Nat.succ_mul, Nat.add_comm]
    conv_rhs => rw [← ih hx]
    simp [bitFields, List.range_succ_eq_map, hhead, hfield, Function.comp_def]

@[simp] theorem pack_length (x : List Nat) (b : Nat) : (pack x b).length = ceilDiv (x.length * b) 8 := by simp [pack]

theorem le_eight_mul_ceilDiv (a : Nat) : a ≤ 8 * ceilDiv a 8 := by
  rw [Nat.mul_comm]
  exact (ceilDiv_le_iff a 8 _ (by decide)).mp le_rfl

/-- The bytes of a payload spell the packed number. -/
theorem unle_pack {x : List Nat} {b : Nat} (h : ∀ v ∈ x, v < 2 ^ b) : unle (pack x b) = packedNumber b x := by
  rw [pack, unle_le]
  exact Nat.mod_eq_of_lt ((packedNumber_lt h).trans_le
    (Nat.pow_le_pow_right (by decide) (le_eight_mul_ceilDiv _)))

theorem unpack_pack {x : List Nat} {b : Nat} (h : ∀ v ∈ x, v < 2 ^ b) : unpack (pack x b) x.length b = x := by
  rw [unpack_eq_bitFields, unle_pack h, bitFields_packedNumber h]

/-- Settles O40: the fields of the packed number are the values, and no field reaches into the padding. -/
theorem unpackInvertsPack : Obligations.UnpackInvertsPack := by
  refine fun x b h => ⟨pack_length x b, unpack_pack h, fun p hp => ?_⟩
  rw [unpack_eq_bitFields, ← bitFields_mod, hp]
  exact unpack_pack h

/-! ### Block widths (R166) -/

/-- The fold's bounds are those of its start and of every value. -/
theorem foldl_max_le_iff (x : List Nat) (a c : Nat) : x.foldl max a ≤ c ↔ a ≤ c ∧ ∀ v ∈ x, v ≤ c := by
  induction x generalizing a with
  | nil => simp
  | cons v x ih => simp [ih, and_assoc]

/-- A block's width is the least that holds each of its values (R166). -/
theorem blockWidth_le_iff (x : List Nat) (k : Nat) : blockWidth x ≤ k ↔ ∀ v ∈ x, v < 2 ^ k := by
  have hpos := Nat.two_pow_pos k
  rw [blockWidth, bitwidth_le_iff, Nat.lt_iff_le_pred hpos, foldl_max_le_iff]
  simp [Nat.lt_iff_le_pred hpos]

theorem lt_two_pow_blockWidth {x : List Nat} : ∀ v ∈ x, v < 2 ^ blockWidth x := (blockWidth_le_iff x _).mp le_rfl

/-- The widest of several blocks is as wide as all of their values together (R176). -/
theorem foldl_max_blockWidth (bs : List (List Nat)) : (bs.map blockWidth).foldl max 0 = blockWidth bs.flatten := by
  refine eq_of_forall_ge_iff fun k => ?_
  rw [foldl_max_le_iff, blockWidth_le_iff]
  simp only [Nat.zero_le, true_and, List.forall_mem_map, blockWidth_le_iff, List.forall_mem_flatten]

/-! ### The split into blocks (R170) -/

/-- Block `k` of a value list: its 128 values, or those that are left. -/
def valueBlock (e : List Nat) (k : Nat) : List Nat := (e.drop (128 * k)).take 128

theorem valueBlock_length (e : List Nat) (k : Nat) : (valueBlock e k).length = min 128 (e.length - 128 * k) := by
  simp [valueBlock]

theorem mem_of_mem_valueBlock {e : List Nat} {k x : Nat} (h : x ∈ valueBlock e k) : x ∈ e :=
  List.mem_of_mem_drop (List.mem_of_mem_take h)

/-- How many blocks a list of `k` values takes. -/
theorem ceilDiv_blockLen (k : Nat) : ceilDiv k 128 = k / 128 + if k % 128 = 0 then 0 else 1 := by
  unfold ceilDiv
  split <;> omega

/-- The blocks are those whose first value is there. -/
theorem lt_ceilDiv_blockLen (n k : Nat) : k < ceilDiv n 128 ↔ 128 * k < n := by
  rw [lt_ceilDiv_iff _ _ _ (by decide), Nat.mul_comm]

theorem splitBlocks_eq (e : List Nat) :
    splitBlocks e = (List.range (ceilDiv e.length 128)).map (valueBlock e) := by
  rw [splitBlocks, ceilDiv_blockLen, Config.blockLen]
  split
  · simp [valueBlock]
  · have hstart : e.length - e.length % 128 = 128 * (e.length / 128) := by omega
    have hlast : valueBlock e (e.length / 128) = e.drop (e.length - e.length % 128) := by
      rw [valueBlock, hstart, List.take_of_length_le (by rw [List.length_drop]; omega)]
    rw [List.range_succ, List.map_append, List.map_singleton, hlast]
    rfl

theorem flatMap_valueBlock (e : List Nat) (k : Nat) :
    (List.range k).flatMap (valueBlock e) = e.take (128 * k) := by
  induction k with
  | zero => simp
  | succ k ih =>
    rw [List.range_succ, List.flatMap_append, ih, List.flatMap_singleton, valueBlock, ← List.take_add,
      Nat.mul_succ]

/-- The blocks hold the values, in order. -/
theorem flatten_splitBlocks (e : List Nat) : (splitBlocks e).flatten = e := by
  rw [splitBlocks_eq, ← List.flatMap_def, flatMap_valueBlock, List.take_of_length_le]
  have := (ceilDiv_le_iff e.length 128 _ (by decide)).mp le_rfl
  omega

/-! ### Sizes (R182, R183) -/

/-- Bytes of an encoded block (R183). -/
def encodedSize (m b : Nat) : Nat := if m = 128 then 1 + 16 * b else 2 + ceilDiv (m * b) 8

theorem encodeBlock_length (x : List Nat) : (encodeBlock x).length = encodedSize x.length (blockWidth x) := by
  rw [encodeBlock, encodedSize, Config.blockLen]
  split
  · next h => simp only [List.length_cons, pack_length, h, ceilDiv]; omega
  · simp only [List.length_cons, pack_length]; omega

theorem encodeBlocks_length (e : List Nat) :
    (encodeBlocks e).length = ((splitBlocks e).map fun x => encodedSize x.length (blockWidth x)).sum := by
  simp [encodeBlocks, List.length_flatMap, encodeBlock_length]

/-- The prefixes of a stream; without any value there is no first one (R173, R175). -/
theorem streamHead_eq (v : Variant) (vs : List Nat) :
    streamHead v vs = (if v.wide then tvEncode vs.length else [])
      ++ if v.delta && !vs.isEmpty then tvEncode (vs.getD 0 0) else [] := by
  unfold streamHead
  cases v.delta <;> cases vs <;> rfl

theorem streamHead_length (v : Variant) (vs : List Nat) :
    (streamHead v vs).length = (if v.wide then tvLength vs.length else 0)
      + if v.delta && !vs.isEmpty then tvLength (vs.getD 0 0) else 0 := by
  rw [streamHead_eq, List.length_append, apply_ite List.length, apply_ite List.length, tvEncode_length, tvEncode_length]
  rfl

/-- The length of a stream is the sum of the parts that R183 lists. -/
theorem bpStream_length (v : Variant) (vs : List Nat) : (bpStream v vs).length = sizeByParts v vs := by
  rw [bpStream, List.length_append, streamHead_length, encodeBlocks_length]
  rfl

theorem deltas_length (vs : List Nat) : (deltas vs).length = vs.length - 1 := by
  induction vs with
  | nil => rfl
  | cons x vs ih => cases vs with
    | nil => rfl
    | cons y rest => rw [deltas, List.length_cons, ih]; simp

/-- The values that go into blocks, by number (R176). -/
theorem blockValues_length (v : Variant) (vs : List Nat) :
    (blockValues v vs).length = if v.delta then vs.length - 1 else vs.length := by
  rw [blockValues]
  split
  · exact deltas_length vs
  · rfl

theorem deltas_lt {vs : List Nat} {c : Nat} (h : ∀ x ∈ vs, x < c) : ∀ d ∈ deltas vs, d < c := by
  induction vs with
  | nil => simp [deltas]
  | cons x vs ih => cases vs with
    | nil => simp [deltas]
    | cons y rest =>
      rw [List.forall_mem_cons] at h
      obtain ⟨-, hrest⟩ := h
      have hy := hrest y (by simp)
      rw [deltas, List.forall_mem_cons]
      exact ⟨by omega, ih hrest⟩

theorem blockValues_lt {v : Variant} {vs : List Nat} {c : Nat} (h : ∀ x ∈ vs, x < c) :
    ∀ x ∈ blockValues v vs, x < c := by
  rw [blockValues]
  split
  · exact deltas_lt h
  · exact h

/-- A block of legal values is no longer than its raw form and its header. -/
theorem encodedSize_le {m b esz : Nat} (h : b ≤ 8 * esz) :
    encodedSize m b ≤ if m = 128 then 1 + 128 * esz else 2 + m * esz := by
  rw [encodedSize]
  split
  · omega
  · have hbits : ceilDiv (m * b) 8 ≤ m * esz := by
      rw [ceilDiv_le_iff _ _ _ (by decide), Nat.mul_assoc, Nat.mul_comm esz]
      exact Nat.mul_le_mul_left m h
    omega

theorem encodedSize_valueBlock_le {e : List Nat} {esz : Nat} (h : ∀ x ∈ e, x < 2 ^ (8 * esz)) (k : Nat) :
    encodedSize (valueBlock e k).length (blockWidth (valueBlock e k)) ≤
      if (valueBlock e k).length = 128 then 1 + 128 * esz else 2 + (valueBlock e k).length * esz :=
  encodedSize_le ((blockWidth_le_iff _ _).mpr fun x hx => h x (mem_of_mem_valueBlock hx))

/-- Full blocks first, and at most one partial block behind them. -/
theorem encodeBlocks_length_le {e : List Nat} {esz : Nat} (h : ∀ x ∈ e, x < 2 ^ (8 * esz)) :
    (encodeBlocks e).length ≤ sourceBound e.length esz := by
  have hfull : ((List.range (e.length / 128)).map fun k =>
      encodedSize (valueBlock e k).length (blockWidth (valueBlock e k))).sum ≤ e.length / 128 * (1 + 128 * esz) := by
    refine (List.sum_le_card_nsmul _ (1 + 128 * esz) (List.forall_mem_map.mpr fun k hk => ?_)).trans (by simp)
    have hlen : (valueBlock e k).length = 128 := by
      have := List.mem_range.mp hk
      rw [valueBlock_length]
      omega
    simpa [hlen] using encodedSize_valueBlock_le h k
  rw [encodeBlocks_length, splitBlocks_eq, List.map_map, ceilDiv_blockLen, sourceBound, Config.blockLen]
  by_cases hrest : e.length % 128 = 0
  · simpa [hrest, Function.comp_def] using hfull
  · have hlen : (valueBlock e (e.length / 128)).length = e.length % 128 := by
      rw [valueBlock_length]
      omega
    have hlast := encodedSize_valueBlock_le h (e.length / 128)
    rw [hlen, if_neg (by omega)] at hlast
    rw [if_neg hrest, if_pos (Nat.pos_of_ne_zero hrest), List.range_succ, List.map_append, List.sum_append]
    simpa [hlen, Function.comp_def] using Nat.add_le_add hfull hlast

/-- One value more never takes less room: at worst a partial block of 127 becomes a full one (R182). -/
theorem sourceBound_succ {n esz : Nat} (h : 1 ≤ esz) : sourceBound n esz ≤ sourceBound (n + 1) esz := by
  rw [sourceBound, sourceBound, Config.blockLen]
  by_cases hend : (n + 1) % 128 = 0
  · have hquot : (n + 1) / 128 = n / 128 + 1 := by omega
    have hmod : n % 128 = 127 := by omega
    rw [hend, hquot, hmod, Nat.add_mul (n / 128), if_pos (by decide), if_neg (by decide)]
    omega
  · have hquot : (n + 1) / 128 = n / 128 := by omega
    have hmod : (n + 1) % 128 = n % 128 + 1 := by omega
    rw [hquot, hmod, if_pos (Nat.succ_pos _), Nat.add_mul (n % 128)]
    split <;> omega

theorem Variant.esz_pos (v : Variant) : 1 ≤ v.esz := by
  rw [Variant.esz, elementBytes]
  split <;> omega

theorem Variant.width_narrow {v : Variant} (h : v.wide = false) : v.width = 32 := by
  simp [Variant.width, Variant.esz, elementBytes, h]

/-- A first value takes at most 5 bytes in a 32-bit stream, 9 in a 64-bit one (R182). -/
theorem tvLength_le_of_value {v : Variant} {x : Nat} (h : x < 2 ^ v.width) :
    tvLength x ≤ if v.wide then 9 else 5 := by
  split
  · exact tvLength_le_nine x
  · next hw =>
    rw [Variant.width_narrow (by simpa using hw)] at h
    exact (tvLength_le_iff (by decide) (by decide)).mpr (h.trans (by decide))

/-- The allowance by its parts: a count in a 64-bit stream, a first value in a delta stream (R182). -/
theorem prefixAllowance_eq (v : Variant) :
    prefixAllowance v = (if v.wide then 9 else 0) + if v.delta then (if v.wide then 9 else 5) else 0 := by
  rw [prefixAllowance]
  cases v.wide <;> cases v.delta <;> rfl

/-- The prefixes take no more than the allowance. -/
theorem streamHead_length_le {v : Variant} {vs : List Nat} (h : ∀ x ∈ vs, x < 2 ^ v.width) :
    (streamHead v vs).length ≤ prefixAllowance v := by
  have hcount := tvLength_le_nine vs.length
  have hfirst : tvLength (vs.getD 0 0) ≤ if v.wide then 9 else 5 := by
    refine tvLength_le_of_value ?_
    cases vs with
    | nil => exact Nat.two_pow_pos _
    | cons x vs => exact h x (by simp)
  rw [streamHead_length, prefixAllowance_eq]
  refine Nat.add_le_add (by split <;> omega) ?_
  cases v.delta with
  | false => simp
  | true => exact (ite_le_sup _ _ _).trans (by simpa using hfirst)

/-- Settles O46: prefixes within their allowance, blocks within the bound of their values' number. -/
theorem streamsFitTheReportedBound : Obligations.StreamsFitTheReportedBound := by
  intro v vs hv _
  have hblocks := encodeBlocks_length_le (e := blockValues v vs) (esz := v.esz) (blockValues_lt hv)
  have hbound : sourceBound (blockValues v vs).length v.esz ≤ sourceBound vs.length v.esz := by
    refine monotone_nat_of_le_succ (f := (sourceBound · v.esz)) (fun n => sourceBound_succ v.esz_pos) ?_
    rw [blockValues_length]
    split <;> omega
  rw [bpStream, List.length_append, maxBytes, Nat.add_comm]
  exact Nat.add_le_add (hblocks.trans hbound) (streamHead_length_le hv)

end Sys2Proof.Machine
end

section
/-! PROOF. The BP128 commands over an array: the encoders (43_bp128.md R176, R207), the size, benefit and
sortedness queries (R192 to R195, R200 to R205), and the buffer bounds (R196 to R199). -/

namespace Sys2Proof.Machine

/-! ### Arrays that do not decrease (R204, R207) -/

theorem nonDecreasing_cons_cons (x y : Nat) (rest : List Nat) :
    NonDecreasing (x :: y :: rest) ↔ x ≤ y ∧ NonDecreasing (y :: rest) := by
  constructor
  · exact fun h => ⟨h 0 (by simp), fun i hi => h (i + 1) (by simpa using hi)⟩
  · rintro ⟨hxy, hrest⟩ i hi
    cases i with
    | zero => exact hxy
    | succ i => exact hrest i (by simpa using hi)

theorem nonDecreasing_of_length_le_one {vs : List Nat} (h : vs.length ≤ 1) : NonDecreasing vs :=
  fun i hi => absurd hi (by omega)

theorem firstDecrease_eq_none_iff (i : Nat) (vs : List Nat) : firstDecrease i vs = none ↔ NonDecreasing vs := by
  induction vs generalizing i with
  | nil => exact iff_of_true rfl (nonDecreasing_of_length_le_one (by simp))
  | cons x vs ih => cases vs with
    | nil => exact iff_of_true rfl (nonDecreasing_of_length_le_one (by simp))
    | cons y rest =>
      rw [nonDecreasing_cons_cons, firstDecrease, ← ih (i + 1)]
      split
      · next h => simp [Nat.not_le.mpr h]
      · next h => simp [Nat.not_lt.mp h]

theorem checkMonotone_of_nonDecreasing {v : Variant} {vs : List Nat} (h : v.delta = true → NonDecreasing vs) :
    checkMonotone v vs = .ok () := by
  rw [checkMonotone]
  split
  · next hd => rw [(firstDecrease_eq_none_iff 1 vs).mpr (h hd)]
  · rfl

/-! ### Encoders -/

/-- The encoders are the common form (R207), with an array and an output buffer for extents. -/
theorem exec_bpEncoder {i : Instr} {v : Variant} (hi : (i, v) ∈ bpEncoders) (s : State) :
    exec i s = bpEncode i v s ∧ i.WellFormed ∧
      sourceExtent i s = (s.regs.src.toNat, v.esz * s.regs.cnt.toNat) ∧
      destExtent i s = (s.regs.dst.toNat, s.regs.dstcap.toNat) := by
  fin_cases hi <;> exact ⟨rfl, by decide, rfl, rfl⟩

section
variable {i : Instr} {v : Variant} {s : State}

/-- Past its checks and the reading of a legal array, an encoder is one write phase of the stream. -/
theorem runsAfterChecks_bpEncoder (hi : (i, v) ∈ bpEncoders)
    (hr : Reads s s.regs.src.toNat (v.esz * s.regs.cnt.toNat))
    (hm : v.delta = true → NonDecreasing (arrayAt s.mem s.regs.src.toNat v.esz s.regs.cnt.toNat)) :
    let vs := arrayAt s.mem s.regs.src.toNat v.esz s.regs.cnt.toNat
    RunsAfterChecks i s (do
      let t ← writeOutput s (bpStream v vs)
      return (t.withBpMeta v vs).withRes (word (bpStream v vs).length)) := by
  obtain ⟨hexec, -, hsource, hdest⟩ := exec_bpEncoder hi s
  rw [RunsAfterChecks, hexec, bpEncode, hsource, hdest, readArray_of_reads _ _ _ _ hr, attempt_ok_bind,
    checkMonotone_of_nonDecreasing hm]
  rfl

end

/-- Settles O41: the write phase of the stream, and the metadata by number and width of the block values. -/
theorem bpEncStoresTheStream : Obligations.BpEncStoresTheStream := by
  intro p hp s hs v n vs out k ha hr hm hcap
  obtain ⟨-, hw, hsource, hdest⟩ := exec_bpEncoder (i := p.1) (v := v) hp s
  have hvalues : (blockValues v vs).length = k := by rw [blockValues_length, arrayAt_length]
  have hwidest : ((splitBlocks (blockValues v vs)).map blockWidth).foldl max 0 = blockWidth (blockValues v vs) := by
    rw [foldl_max_blockWidth, flatten_splitBlocks]
  refine (runsAfterChecks_bpEncoder hp hr hm).stores hs hw (by rw [hsource, hdest]; exact ha) hcap fun m => ?_
  rw [State.withBpMeta, hwidest, hvalues, arrayAt_length]
  rfl

/-! ### Queries -/

section
variable {i : Instr} {v : Variant} {s : State} {answer : List Nat → Word}

/-- A query over a legal array answers, and changes `RES` alone. -/
theorem bpQuery_completes (he : exec i s = bpQuery i v s answer) (hw : i.WellFormed) (hf : s.faulted = false)
    (ha : InSpace s.regs.src.toNat (v.esz * s.regs.cnt.toNat))
    (hr : Reads s s.regs.src.toNat (v.esz * s.regs.cnt.toNat))
    (hm : v.delta = true → NonDecreasing (arrayAt s.mem s.regs.src.toNat v.esz s.regs.cnt.toNat)) :
    exec i s = .next (s.withRes (answer (arrayAt s.mem s.regs.src.toNat v.esz s.regs.cnt.toNat))) := by
  rw [he]
  refine command_completes i s _ _ hf hw ?_
  rw [checkRange_of_inSpace ha, attempt_ok_bind, readArray_of_reads _ _ _ _ hr, attempt_ok_bind,
    checkMonotone_of_nonDecreasing hm]
  rfl

end

theorem exec_bpSizer {i : Instr} {v : Variant} (hi : (i, v) ∈ bpSizers) (s : State) :
    exec i s = bpQuery i v s (sizeAnswer v) ∧ i.WellFormed := by
  fin_cases hi <;> exact ⟨rfl, by decide⟩

theorem exec_bpBenef {i : Instr} {v : Variant} (hi : (i, v) ∈ bpBenefs) (s : State) :
    exec i s = bpQuery i v s (benefAnswer v) ∧ i.WellFormed := by
  fin_cases hi <;> exact ⟨rfl, by decide⟩

/-- The sortedness queries look for a decrease and do not fault on one (R204, R205). -/
theorem exec_bpSorter {i : Instr} {esz : Nat} (hi : (i, esz) ∈ bpSorters) (s : State) :
    ∃ v : Variant, v.esz = esz ∧ v.delta = false ∧ exec i s = bpQuery i v s sortedAnswer ∧ i.WellFormed := by
  fin_cases hi
  · exact ⟨⟨false, false⟩, rfl, rfl, rfl, by decide⟩
  · exact ⟨⟨true, false⟩, rfl, rfl, rfl, by decide⟩

theorem benefAnswer_eq (v : Variant) (vs : List Nat) :
    benefAnswer v vs = if sizeByParts v vs < v.esz * vs.length then 1 else 0 := by
  rw [benefAnswer, bpSize, bpStream_length]

theorem sortedAnswer_eq (vs : List Nat) : sortedAnswer vs = if NonDecreasing vs then 1 else 0 := by
  simp only [sortedAnswer, Option.isNone_iff_eq_none, firstDecrease_eq_none_iff]

/-- Settles O44: each query answers its function of the array. -/
theorem bpQueriesAnswer : Obligations.BpQueriesAnswer := by
  refine fun s hf => ⟨fun p hp ha hr hm => ⟨bpStream_length _ _, ?_⟩, fun p hp ha hr hm => ?_,
    fun p hp ha hr => ?_⟩
  · obtain ⟨hexec, hw⟩ := exec_bpSizer (i := p.1) (v := p.2) hp s
    rw [bpQuery_completes hexec hw hf ha hr hm, sizeAnswer, bpSize, bpStream_length]
    rfl
  · obtain ⟨hexec, hw⟩ := exec_bpBenef (i := p.1) (v := p.2) hp s
    rw [bpQuery_completes hexec hw hf ha hr hm, benefAnswer_eq, arrayAt_length]
    rfl
  · obtain ⟨v, hesz, hplain, hexec, hw⟩ := exec_bpSorter (i := p.1) (esz := p.2) hp s
    rw [← hesz] at ha hr ⊢
    rw [bpQuery_completes hexec hw hf ha hr (by simp [hplain]), sortedAnswer_eq]
    rfl

/-! ### Buffer bounds -/

theorem exec_bpBound {i : Instr} {v : Variant} {s : State} (hi : (i, v) ∈ bpBounds) (hf : s.faulted = false) :
    exec i s = .next (s.withResults (saturated (maxBytes v s.regs.cnt.toNat))
      (saturated (sourceBound s.regs.cnt.toNat v.esz))) := by
  fin_cases hi <;> exact command_completes _ s _ _ hf (by decide) rfl

/-- Settles O45: the bound of each variant, with its element size and its allowance. -/
theorem bpMaxbReturnsTheBounds : Obligations.BpMaxbReturnsTheBounds := by
  intro s hf p hp
  have bounds {i : Instr} {v : Variant} (hi : (i, v) ∈ bpBounds) := exec_bpBound hi hf
  fin_cases hp
  · exact bounds (i := .bpMaxb32) (v := ⟨false, false⟩) (by decide)
  · exact bounds (i := .bpMaxbd32) (v := ⟨false, true⟩) (by decide)
  · exact bounds (i := .bpMaxb64) (v := ⟨true, false⟩) (by decide)
  · exact bounds (i := .bpMaxbd64) (v := ⟨true, true⟩) (by decide)

end Sys2Proof.Machine
end

section
/-! PROOF. The BP128 decoders (43_bp128.md R178 to R181, R188 to R191, R208): what a decoder does with the block it
turns to, sound or defective, where a sum overflows, and what it delivers of a source whose first blocks are sound. -/

namespace Sys2Proof.Machine

/-! ### Sums that do not fit the element (R181) -/

/-- The first sum that does not fit is how the summing ends, at its index. -/
theorem prefixSums_overflow {width prev k j : Nat} {ds : List Nat} (hj : j < ds.length)
    (hover : 2 ^ width ≤ (runningSums prev ds).getD j 0)
    (hbefore : ∀ i < j, (runningSums prev ds).getD i 0 < 2 ^ width) :
    prefixSums width prev k ds = .error (.raise .deltaOverflow (k + j)) := by
  induction ds generalizing prev k j with
  | nil => simp at hj
  | cons d ds ih =>
    rw [runningSums_cons] at hover hbefore
    cases j with
    | zero => simp [prefixSums, show 2 ^ width ≤ prev + d from hover]
    | succ j =>
      have hfits : prev + d < 2 ^ width := hbefore 0 (by omega)
      have hrest := ih (k := k + 1) (Nat.lt_of_succ_lt_succ hj) hover fun i hi => hbefore (i + 1) (by omega)
      simp [prefixSums, Nat.not_le.mpr hfits, hrest, Nat.add_assoc, Nat.add_comm 1]

theorem runningSums_take (prev m : Nat) (ds : List Nat) :
    runningSums prev (ds.take m) = (runningSums prev ds).take m := by
  induction ds generalizing prev m with
  | nil => simp [runningSums]
  | cons d ds ih =>
    cases m with
    | zero => simp [runningSums]
    | succ m => simp [runningSums_cons, ih]

/-! ### Coming to a block -/

section
variable {s : State} {v : Variant} {n : Nat}

/-- The decoder turns to each of the blocks that it parses. -/
theorem BlocksSound.turnsToBlock (h : BlocksSound s v (n + 1)) (hlt : ∀ y ∈ decodedValues s v n, y < 2 ^ v.width) :
    TurnsToBlock s v n := by
  obtain ⟨hprefix, hsound⟩ := h
  have hfull : ∀ k < n, (blockAt s (blockOffset s v k)).short = false := fun k hk => by
    obtain ⟨-, -, hlast, -⟩ := hsound k (by omega)
    exact Bool.eq_false_iff.mpr fun hs => by have := hlast hs; omega
  obtain ⟨⟨-, hend, -⟩, hwant, -⟩ := hsound n (by omega)
  have hsize := SourceBlock.size_pos (blockAt s (blockOffset s v n))
  refine ⟨⟨hprefix, fun k hk => ?_⟩, hfull, hlt, hwant, .inr (by omega)⟩
  obtain ⟨hblock, hk', -, hshape⟩ := hsound k (by omega)
  exact ⟨hblock, hk', fun hs => absurd hs (by simp [hfull k hk]), hshape⟩

/-- Fewer sound blocks, all of them full ones. -/
theorem BlocksSound.pred (h : BlocksSound s v (n + 1)) : BlocksSound s v n := by
  obtain ⟨hprefix, hsound⟩ := h
  refine ⟨hprefix, fun k hk => ?_⟩
  obtain ⟨hblock, hwant, hlast, hshape⟩ := hsound k (by omega)
  exact ⟨hblock, hwant, fun hs => by have := hlast hs; omega, hshape⟩

/-- A 32-bit decoder that turns to a sound block delivers what is wanted of it, and ends or goes on. -/
theorem decodeStream_narrow_block (hw : v.wide = false) (h : TurnsToBlock s v n)
    (hb : BlockSound s v (blockOffset s v n)) :
    ∃ fuel, decodeStream s v = (do
      let out ← produce v (decodedValues s v n)
        ((blockValuesAt s (blockOffset s v n)).take (wantedValues s v - (decodedValues s v n).length))
      if (blockAt s (blockOffset s v n)).short then return (out, blockOffset s v (n + 1))
      decodeBlocks32 s v (wantedValues s v) fuel (blockOffset s v (n + 1)) out) := by
  obtain ⟨⟨hprefix, -⟩, -, -, -, hleft⟩ := id h
  have hfuel : s.regs.srclen.toNat = s.regs.srclen.toNat - n - 1 + 1 + n := by
    have := le_blockOffset s v n
    have : blockOffset s v n < s.regs.srclen.toNat := by simpa [hw] using hleft
    omega
  refine ⟨s.regs.srclen.toNat - n - 1, ?_⟩
  rw [decodeStream_narrow hw hprefix h.takesFirst, hfuel, decodeBlocks32_reaches hw h, decodeBlocks32_parses hw h,
    parseBlock_sound s v _ hb, ← hfuel]
  rfl

/-- A 64-bit decoder that turns to a sound block checks its shape, delivers what is wanted of it, and goes on. -/
theorem decodeStream_wide_block (hw : v.wide = true) (h : TurnsToBlock s v n)
    (hb : BlockSound s v (blockOffset s v n)) :
    ∃ fuel owed, decodeStream s v = (do
      raiseIf ((blockAt s (blockOffset s v n)).short
        && (blockAt s (blockOffset s v n)).count != owedBefore s v n) .badCount (blockOffset s v n + 1)
      raiseIf (!(blockAt s (blockOffset s v n)).short && decide (owedBefore s v n < 128)) .badCount
        (blockOffset s v n)
      let out ← produce v (decodedValues s v n)
        ((blockValuesAt s (blockOffset s v n)).take (wantedValues s v - (decodedValues s v n).length))
      decodeBlocks64 s v (wantedValues s v) fuel (blockOffset s v (n + 1)) owed out) := by
  obtain ⟨⟨hprefix, -⟩, -⟩ := id h
  have hfuel : s.regs.srclen.toNat + 1 = s.regs.srclen.toNat - n + 1 + n := by
    have := h.le_srclen
    omega
  refine ⟨s.regs.srclen.toNat - n, owedBefore s v n - (blockValuesAt s (blockOffset s v n)).length, ?_⟩
  rw [decodeStream_wide hw hprefix h.takesFirst, hfuel, decodeBlocks64_reaches hw h, decodeBlocks64_parses h,
    parseBlock_sound s v _ hb, ← blockValuesAt_length]
  rfl

/-- The shape that a 64-bit stream leaves for a block passes its two checks. -/
theorem shape_checks {b : SourceBlock} (h : ShapeOwed s v n b) :
    (b.short && b.count != owedBefore s v n) = false ∧ (!b.short && decide (owedBefore s v n < 128)) = false := by
  rw [ShapeOwed] at h
  rw [owedBefore]
  cases hs : b.short with
  | false =>
    rw [hs, if_neg (by decide)] at h
    have : ¬ (varintAt s 0).1 - valuesBefore s v n < 128 := by omega
    simpa using this
  | true =>
    rw [hs, if_pos rfl] at h
    have : b.count = (varintAt s 0).1 - valuesBefore s v n := by omega
    simpa using this

/-! ### Defects of a block and of the sums -/

/-- A partial block must hold exactly the values that are owed. -/
theorem decodeStream_badPartial (hw : v.wide = true) (h : TurnsToBlock s v n)
    (hb : BlockSound s v (blockOffset s v n)) (hs : (blockAt s (blockOffset s v n)).short = true)
    (hc : (blockAt s (blockOffset s v n)).count ≠ owedBefore s v n) :
    decodeStream s v = .error (.raise .badCount (blockOffset s v n + 1)) := by
  obtain ⟨fuel, owed, hrun⟩ := decodeStream_wide_block hw h hb
  have hcheck : (true && (blockAt s (blockOffset s v n)).count != owedBefore s v n) = true := by simpa using hc
  rw [hrun, hs, hcheck]
  rfl

/-- A full block needs 128 values owed. -/
theorem decodeStream_badFull (hw : v.wide = true) (h : TurnsToBlock s v n)
    (hb : BlockSound s v (blockOffset s v n)) (hs : (blockAt s (blockOffset s v n)).short = false)
    (hc : owedBefore s v n < 128) :
    decodeStream s v = .error (.raise .badCount (blockOffset s v n)) := by
  obtain ⟨fuel, owed, hrun⟩ := decodeStream_wide_block hw h hb
  rw [hrun, hs, decide_eq_true hc]
  rfl

/-- The delivery of a sound block that a decoder parses is how it ends, when a sum overflows. -/
theorem decodeStream_produceError {e : Stop} (h : TurnsToBlock s v n) (hb : BlockSound s v (blockOffset s v n))
    (hshape : v.wide = true → ShapeOwed s v n (blockAt s (blockOffset s v n)))
    (he : produce v (decodedValues s v n)
      ((blockValuesAt s (blockOffset s v n)).take (wantedValues s v - (decodedValues s v n).length)) = .error e) :
    decodeStream s v = .error e := by
  cases hw : v.wide with
  | false =>
    obtain ⟨fuel, hrun⟩ := decodeStream_narrow_block hw h hb
    rw [hrun, he]
    rfl
  | true =>
    obtain ⟨fuel, owed, hrun⟩ := decodeStream_wide_block hw h hb
    obtain ⟨hpartial, hfull⟩ := shape_checks (hshape hw)
    rw [hrun, hpartial, hfull, he]
    rfl

/-- What is wanted of block `n`, behind all the values before it. -/
theorem decodedValues_take (h : TurnsToBlock s v n) :
    (decodedValues s v (n + 1)).take (wantedValues s v) = decodedValues s v n
      ++ (blockResults s v n).take (wantedValues s v - (decodedValues s v n).length) := by
  rw [decodedValues_succ, List.take_append, List.take_of_length_le (Nat.le_of_not_le h.wants)]

/-- The wanted values of a block are delivered, where they fit the element. -/
theorem produce_wanted (h : TurnsToBlock s v n)
    (hlt : ∀ y ∈ (decodedValues s v (n + 1)).take (wantedValues s v), y < 2 ^ v.width) :
    produce v (decodedValues s v n)
        ((blockValuesAt s (blockOffset s v n)).take (wantedValues s v - (decodedValues s v n).length)) =
      .ok ((decodedValues s v (n + 1)).take (wantedValues s v)) := by
  rw [decodedValues_take h] at hlt ⊢
  have hresults : blockOutput v (decodedValues s v n)
      ((blockValuesAt s (blockOffset s v n)).take (wantedValues s v - (decodedValues s v n).length)) =
      .ok ((blockResults s v n).take (wantedValues s v - (decodedValues s v n).length)) := by
    rw [blockOutput]
    rw [blockResults] at hlt ⊢
    split
    · next hd =>
      rw [if_pos hd, ← runningSums_take] at hlt
      rw [getLastD_decodedValues s v hd (h.takesFirst hd), ← runningSums_take]
      exact prefixSums_of_lt fun y hy => hlt y (List.mem_append_right _ hy)
    · rfl
  rw [produce, hresults]
  rfl

/-- The first wanted value of a block that does not fit the element is the fault. -/
theorem produce_overflow (h : TurnsToBlock s v n) (hd : v.delta = true) {j : Nat} (hj : j < wantedValues s v)
    (hlow : (decodedValues s v n).length ≤ j) (hhigh : j < (decodedValues s v (n + 1)).length)
    (hover : 2 ^ v.width ≤ (decodedValues s v (n + 1)).getD j 0)
    (hbefore : ∀ k < j, (decodedValues s v (n + 1)).getD k 0 < 2 ^ v.width) :
    produce v (decodedValues s v n)
        ((blockValuesAt s (blockOffset s v n)).take (wantedValues s v - (decodedValues s v n).length)) =
      .error (.raise .deltaOverflow j) := by
  obtain ⟨i, rfl⟩ := Nat.exists_eq_add_of_le hlow
  rw [decodedValues_succ, List.length_append, blockResults_length, ← blockValuesAt_length] at hhigh
  have hget {k : Nat} (hk : k ≤ i) :
      (decodedValues s v (n + 1)).getD ((decodedValues s v n).length + k) 0 =
        (runningSums ((decodedValues s v n).getLastD 0)
          ((blockValuesAt s (blockOffset s v n)).take (wantedValues s v - (decodedValues s v n).length))).getD k 0 := by
    rw [decodedValues_succ, List.getD_append_right _ _ _ _ (by omega), Nat.add_sub_cancel_left, blockResults, if_pos hd,
      getLastD_decodedValues s v hd (h.takesFirst hd), runningSums_take, List.getD_eq_getElem?_getD,
      List.getD_eq_getElem?_getD, List.getElem?_take_of_lt (by omega)]
  have hsums := prefixSums_overflow (width := v.width) (k := (decodedValues s v n).length) (j := i)
    (prev := (decodedValues s v n).getLastD 0)
    (ds := (blockValuesAt s (blockOffset s v n)).take (wantedValues s v - (decodedValues s v n).length))
    (by rw [List.length_take]; omega) (by rwa [← hget le_rfl])
    fun k hk => by rw [← hget (by omega)]; exact hbefore _ (by omega)
  rw [produce, blockOutput, if_pos hd, hsums]
  rfl

theorem decodedValues_getD_of_lt {j : Nat} (h : j < (decodedValues s v n).length) :
    (decodedValues s v (n + 1)).getD j 0 = (decodedValues s v n).getD j 0 := by
  rw [decodedValues_succ, List.getD_append _ _ _ _ h]

/-- The first wanted sum that does not fit the element, in whichever of the sound blocks, is the fault. -/
theorem decodeStream_overflow (h : BlocksSound s v n) (hd : v.delta = true) {j : Nat} (hj : j < wantedValues s v)
    (hlen : j < (decodedValues s v n).length) (hover : 2 ^ v.width ≤ (decodedValues s v n).getD j 0)
    (hbefore : ∀ k < j, (decodedValues s v n).getD k 0 < 2 ^ v.width) :
    decodeStream s v = .error (.raise .deltaOverflow j) := by
  induction n with
  | zero =>
    obtain ⟨⟨-, hprefix⟩, -⟩ := h
    have hfits : ∀ x ∈ firstValues s v, x < 2 ^ v.width := fun x hx => by
      have hfirst : takesFirst s v = true := by
        by_contra hno
        simp [firstValues, hno] at hx
      obtain ⟨-, hfits⟩ := hprefix hfirst
      exact hfits x hx
    rw [decodedValues_zero] at hlen hover
    rw [List.getD_eq_getElem _ _ hlen] at hover
    exact absurd (hfits _ (List.getElem_mem hlen)) (Nat.not_lt.mpr hover)
  | succ n ih =>
    by_cases hlow : j < (decodedValues s v n).length
    · rw [decodedValues_getD_of_lt hlow] at hover
      refine ih h.pred hlow hover fun k hk => ?_
      rw [← decodedValues_getD_of_lt (by omega)]
      exact hbefore k hk
    · have hturns : TurnsToBlock s v n := h.turnsToBlock fun y hy => by
        obtain ⟨k, hk, rfl⟩ := List.mem_iff_getElem.mp hy
        have := hbefore k (by omega)
        rwa [decodedValues_getD_of_lt hk, List.getD_eq_getElem _ _ hk] at this
      obtain ⟨-, hsound⟩ := h
      obtain ⟨hblock, -, -, hshape⟩ := hsound n (by omega)
      exact decodeStream_produceError hturns hblock hshape
        (produce_overflow hturns hd hj (Nat.le_of_not_lt hlow) hlen hover hbefore)

/-- A first value that does not fit the element is the fault, at index 0 (R181). -/
theorem decodeStream_firstOverflow (h : takesFirst s v = true) (hcount : v.wide = true → VarintSound s 0)
    (hfirst : VarintSound s (countBytes s v)) (hover : 2 ^ v.width ≤ (varintAt s (countBytes s v)).1) :
    decodeStream s v = .error (.raise .deltaOverflow 0) := by
  have hcheck : checkFirst v (varintAt s (countBytes s v)).1 = .error (.raise .deltaOverflow 0) := by
    rw [checkFirst, decide_eq_true hover]
    rfl
  cases hw : v.wide with
  | false =>
    rw [decodeStream_narrow_delta hw h, sourceVarint_sound s _ hfirst, attempt_ok_bind, hcheck]
    rfl
  | true =>
    rw [decodeStream_wide_delta hw h (hcount hw), sourceVarint_sound s _ hfirst, attempt_ok_bind, hcheck]
    rfl

end

/-- Settles O43: each defect of the prefixes, of the block that the decoder turns to, or of the sums. -/
theorem defectiveStreamsFault : Obligations.DefectiveStreamsFault := by
  intro p hp s hf v a len ha
  have faults {code info} (he : decodeStream s v = .error (.raise code info)) : Faults p.1 s code info :=
    bpDecoder_faults hp hf ha he
  refine ⟨fun off h => ⟨fun hl => ?_, fun hl hr hcut => ?_⟩, fun h hcount hfirst hover => ?_, fun n h => ?_,
    fun n j h hd hj hlen hover hbefore => ?_⟩
  · exact faults (decodeStream_varintError h (sourceVarint_empty s off hl))
  · exact faults (decodeStream_varintError h (sourceVarint_cut s off hl hr hcut))
  · exact faults (decodeStream_firstOverflow h hcount hfirst hover)
  · intro off b owed
    have blockFaults {code info} (he : parseBlock s v off = .error (.raise code info)) : Faults p.1 s code info :=
      faults (decodeStream_blockError h he)
    exact ⟨fun hl => blockFaults (parseBlock_empty s v off hl),
      fun hl hr hw => blockFaults (parseBlock_badWidth s v off hl hr hw),
      fun hl hr hw hs hcut => blockFaults (parseBlock_cutHeader s v off hl hr hw hs hcut),
      fun hl hr hw hs hc => blockFaults (parseBlock_badCount s v off hl hr hw hs hc),
      fun hh hcut => blockFaults (parseBlock_cutPayload s v off hh hcut),
      fun hb hw => ⟨fun hs hc => faults (decodeStream_badPartial hw h hb hs hc),
        fun hs hc => faults (decodeStream_badFull hw h hb hs hc)⟩⟩
  · exact faults (decodeStream_overflow h hd hj hlen hover hbefore)

end Sys2Proof.Machine
end

section
/-! PROOF. What the BP128 decoders deliver of a source whose prefixes and first blocks are sound (43_bp128.md R179,
R180, R188 to R191), and the round trip (R206): the stream that an encoder spells is such a source. -/

namespace Sys2Proof.Machine

/-! ### Sources with sound blocks -/

section
variable {s : State} {v : Variant} {n : Nat}

/-- The decoder ends behind the first `n` blocks: it has what is wanted, or a 32-bit stream has come to a partial
block or to the end of the source (R179). -/
abbrev StopsAfter (s : State) (v : Variant) (n : Nat) : Prop :=
  wantedValues s v ≤ (decodedValues s v n).length ∨
    (v.wide = false ∧ ((∃ k < n, (blockAt s (blockOffset s v k)).short = true) ∨
      blockOffset s v n = s.regs.srclen.toNat))

theorem decodeBlocks32_stops {cap off : Nat} {out : List Nat}
    (h : cap ≤ out.length ∨ s.regs.srclen.toNat ≤ off) (fuel : Nat) :
    decodeBlocks32 s v cap fuel off out = .ok (out, off) := by
  cases fuel with
  | zero => rfl
  | succ fuel => rw [decodeBlocks32, if_pos (by simpa using h)]

theorem decodeBlocks64_stops {cap : Nat} {out : List Nat} (h : cap ≤ out.length) (fuel off owed : Nat) :
    decodeBlocks64 s v cap fuel off owed out = .ok (out, off) := by
  cases fuel <;> exact if_pos h

/-- A delta decoder that reads no first value delivers nothing: nothing is wanted, or a 32-bit source is empty. -/
theorem decodeStream_nothing (hd : v.delta = true) (hfirst : takesFirst s v = false) (hprefix : PrefixSound s v) :
    decodeStream s v = .ok ([], countBytes s v) := by
  obtain ⟨hcount, -⟩ := hprefix
  have hnot : ¬ (0 < wantedValues s v ∧ (v.wide = true ∨ 0 < s.regs.srclen.toNat)) := fun h =>
    Bool.eq_false_iff.mp hfirst (takesFirst_iff.mpr ⟨hd, h⟩)
  cases hw : v.wide with
  | false =>
    rw [wantedValues_narrow hw, hw] at hnot
    have hempty : s.regs.cnt.toNat = 0 ∨ s.regs.srclen.toNat = 0 := by
      simp only [Bool.false_eq_true, false_or] at hnot
      omega
    simp [decodeStream, hw, decodeStream32, hd, hempty, countBytes]
  | true =>
    rw [wantedValues_wide hw, hw] at hnot
    have hempty : (varintAt s 0).1 = 0 ∨ s.regs.cnt.toNat = 0 := by
      simp only [true_or, and_true] at hnot
      omega
    simp [decodeStream, hw, decodeStream64, hd, hempty, countBytes, sourceVarint_sound s 0 (hcount hw)]

theorem firstValues_of_not_takesFirst (h : takesFirst s v = false) : firstValues s v = [] := by
  simp [firstValues, h]

theorem blocksStart_of_not_takesFirst (h : takesFirst s v = false) : blocksStart s v = countBytes s v := by
  simp [blocksStart, h]

/-- A first value is read only where one is wanted. -/
theorem firstValues_length_le : (firstValues s v).length ≤ wantedValues s v := by
  cases h : takesFirst s v with
  | false => simp [firstValues_of_not_takesFirst h]
  | true =>
    obtain ⟨-, hwant, -⟩ := takesFirst_iff.mp h
    simpa [firstValues_of_takesFirst s v h, Nat.succ_le_iff] using hwant

/-- A decoder that parses no block delivers the first value alone, if there is one. -/
theorem decodeStream_of_no_block (hprefix : PrefixSound s v) (hstop : StopsAfter s v 0) :
    decodeStream s v = .ok (firstValues s v, blocksStart s v) := by
  rw [StopsAfter, decodedValues_zero] at hstop
  by_cases hfirst : v.delta = true ∧ takesFirst s v = false
  · obtain ⟨hd, hfirst⟩ := hfirst
    rw [decodeStream_nothing hd hfirst hprefix, firstValues_of_not_takesFirst hfirst,
      blocksStart_of_not_takesFirst hfirst]
  · have hdelta : v.delta = true → takesFirst s v = true := fun hd => by simpa [hd] using hfirst
    cases hw : v.wide with
    | false =>
      rw [decodeStream_narrow hw hprefix hdelta]
      refine decodeBlocks32_stops (hstop.imp_right fun ⟨_, h⟩ => ?_) _
      obtain ⟨k, hk, -⟩ | hend := h
      · omega
      · exact hend.ge
    | true =>
      rw [decodeStream_wide hw hprefix hdelta]
      exact decodeBlocks64_stops (hstop.resolve_right fun ⟨h, _⟩ => by simp [hw] at h) _ _ _

/-- The values before a block that the decoder parses are all wanted. -/
theorem decodedValues_pred_length_le (h : BlocksSound s v (n + 1)) :
    (decodedValues s v n).length ≤ wantedValues s v := by
  obtain ⟨-, hsound⟩ := h
  obtain ⟨-, hwant, -⟩ := hsound n (by omega)
  rw [decodedValues_length s v fun k hk => ?_]
  · omega
  · obtain ⟨-, -, hlast, -⟩ := hsound k (by omega)
    exact Bool.eq_false_iff.mpr fun hs => by have := hlast hs; omega

/-- Past the last block of a 32-bit stream the decoder ends. -/
theorem decodeBlocks32_ends {fuel : Nat} (hlast : (blockAt s (blockOffset s v n)).short = false)
    (h : BlocksSound s v (n + 1)) (hstop : StopsAfter s v (n + 1)) :
    decodeBlocks32 s v (wantedValues s v) fuel (blockOffset s v (n + 1))
        ((decodedValues s v (n + 1)).take (wantedValues s v)) =
      .ok ((decodedValues s v (n + 1)).take (wantedValues s v), blockOffset s v (n + 1)) := by
  obtain ⟨-, hsound⟩ := h
  refine decodeBlocks32_stops ?_ fuel
  obtain hgot | ⟨-, ⟨k, hk, hs⟩ | hend⟩ := hstop
  · exact .inl (by rw [List.length_take]; omega)
  · obtain ⟨-, -, hk', -⟩ := hsound k hk
    obtain rfl : k = n := by have := hk' hs; omega
    simp [hlast] at hs
  · exact .inr hend.ge

/-- Of any source with sound prefixes and blocks the decoder delivers the first values wanted, where they fit the
element (R179, R180). -/
theorem decodeStream_sound (h : BlocksSound s v n)
    (hlt : ∀ y ∈ (decodedValues s v n).take (wantedValues s v), y < 2 ^ v.width) (hstop : StopsAfter s v n) :
    decodeStream s v = .ok ((decodedValues s v n).take (wantedValues s v), blockOffset s v n) := by
  cases n with
  | zero =>
    obtain ⟨hprefix, -⟩ := h
    rw [decodedValues_zero, List.take_of_length_le firstValues_length_le]
    exact decodeStream_of_no_block hprefix hstop
  | succ n =>
    have hturns : TurnsToBlock s v n := h.turnsToBlock fun y hy => hlt y (by
      rw [decodedValues_succ, List.take_append, List.take_of_length_le (decodedValues_pred_length_le h)]
      exact List.mem_append_left _ hy)
    have hproduce := produce_wanted hturns hlt
    obtain ⟨-, hsound⟩ := id h
    obtain ⟨hblock, -, -, hshape⟩ := hsound n (by omega)
    cases hw : v.wide with
    | false =>
      obtain ⟨fuel, hrun⟩ := decodeStream_narrow_block hw hturns hblock
      rw [hrun, hproduce, attempt_ok_bind]
      split
      · rfl
      · next hs => exact decodeBlocks32_ends (by simpa using hs) h hstop
    | true =>
      obtain ⟨fuel, owed, hrun⟩ := decodeStream_wide_block hw hturns hblock
      obtain ⟨hpartial, hfull⟩ := shape_checks (hshape hw)
      have hgot : wantedValues s v ≤ (decodedValues s v (n + 1)).length :=
        hstop.resolve_right fun ⟨h, _⟩ => by simp [hw] at h
      rw [hrun, hpartial, hfull, hproduce]
      exact decodeBlocks64_stops (by rw [List.length_take]; omega) _ _ _

end

/-! ### The decoders' output -/

section
variable {i : Instr} {v : Variant} {s : State} {r : List Nat × Nat}

theorem bpDecoder_extents (hi : (i, v) ∈ bpDecoders) :
    sourceExtent i s = (s.regs.src.toNat, s.regs.srclen.toNat) ∧
      destExtent i s = (s.regs.dst.toNat, s.regs.dstcap.toNat) := by
  fin_cases hi <;> exact ⟨rfl, rfl⟩

/-- Past its checks and the decode, a decoder is one write phase of the values. -/
theorem runsAfterChecks_bpDecoder (hi : (i, v) ∈ bpDecoders) (hr : decodeStream s v = .ok r) :
    RunsAfterChecks i s (do
      let t ← writeOutput s (arrayBytes v.esz r.1)
      return t.withResults (word r.1.length) (word r.2)) := by
  obtain ⟨hexec, -⟩ := exec_bpDecoder hi s
  obtain ⟨hsource, hdest⟩ := bpDecoder_extents (s := s) hi
  rw [RunsAfterChecks, hexec, bpDecode, hr, hsource, hdest]
  rfl

/-- What a decoder that got `r` does with it: it stores it, or it does not fit. -/
theorem bpDecoder_ends (hi : (i, v) ∈ bpDecoders) (hs : Ready s)
    (ha : ExtentsAdmitted (s.regs.src.toNat, s.regs.srclen.toNat) (s.regs.dst.toNat, s.regs.dstcap.toNat))
    (hr : decodeStream s v = .ok r) :
    (v.esz * r.1.length ≤ s.regs.dstcap.toNat →
      StoresOutput i s { s.regs with res := word r.1.length, res2 := word r.2 } s.regs.dst.toNat
        (r.1.flatMap fun x => fieldBytes x v.esz)) ∧
    (s.regs.dstcap.toNat < v.esz * r.1.length → Faults i s .dstOverrun (v.esz * r.1.length)) := by
  obtain ⟨-, hw⟩ := exec_bpDecoder hi s
  obtain ⟨hsource, hdest⟩ := bpDecoder_extents (s := s) hi
  have hrun := runsAfterChecks_bpDecoder hi hr
  rw [← hsource, ← hdest] at ha
  rw [← arrayBytes_eq_fieldBytes, ← arrayBytes_length]
  exact ⟨fun hcap => hrun.stores hs hw ha hcap fun _ => rfl, fun hcap => hrun.overruns hs.1 hw ha hcap⟩

end

end Sys2Proof.Machine
end

section
/-! PROOF. The round trip of BP128 (43_bp128.md R206): the stream that an encoder spells is a source whose prefixes and
blocks are all sound, and its values are the array's. -/

namespace Sys2Proof.Machine

/-! ### An encoded block in memory (R167, R178) -/

/-- The header of an encoded block: its width, and the count of a partial block behind it. -/
def blockHeader (x : List Nat) : List Byte :=
  if x.length = 128 then [BitVec.ofNat 8 (blockWidth x)]
  else [BitVec.ofNat 8 (128 + blockWidth x), BitVec.ofNat 8 x.length]

theorem encodeBlock_eq (x : List Nat) : encodeBlock x = blockHeader x ++ pack x (blockWidth x) := by
  rw [encodeBlock, blockHeader, Config.blockLen]
  split <;> rfl

section
variable {s : State} {off : Nat} {x : List Nat} (hlen : x.length ≤ 128) (hx : ∀ y ∈ x, y < 2 ^ 64)
  (h : HoldsBytes s.mem (s.regs.src.toNat + off) (encodeBlock x))
include hlen hx h

/-- The header that stands there describes the block. -/
theorem blockAt_encodeBlock : blockAt s off = ⟨decide (x.length ≠ 128), blockWidth x, x.length⟩ := by
  have hwidth : blockWidth x ≤ 64 := (blockWidth_le_iff x 64).mpr hx
  rw [encodeBlock_eq, blockHeader] at h
  by_cases hfull : x.length = 128
  · rw [if_pos hfull] at h
    obtain ⟨hhead, -⟩ := holdsBytes_cons.mp h
    have hbyte : (s.mem.read (s.regs.src.toNat + off)).toNat = blockWidth x := by
      rw [hhead, BitVec.toNat_ofNat, Nat.mod_eq_of_lt (by omega)]
    have hplain : ¬ 128 ≤ blockWidth x := by omega
    simp [blockAt, hbyte, hplain, hfull, Nat.mod_eq_of_lt (Nat.lt_of_not_le hplain)]
  · rw [if_neg hfull] at h
    obtain ⟨hhead, hrest⟩ := holdsBytes_cons.mp h
    obtain ⟨hcount, -⟩ := holdsBytes_cons.mp hrest
    have hbyte : (s.mem.read (s.regs.src.toNat + off)).toNat = 128 + blockWidth x := by
      rw [hhead, BitVec.toNat_ofNat, Nat.mod_eq_of_lt (by omega)]
    have hbyte' : (s.mem.read (s.regs.src.toNat + off + 1)).toNat = x.length := by
      rw [hcount, BitVec.toNat_ofNat, Nat.mod_eq_of_lt (by omega)]
    simp [blockAt, hbyte, hbyte', hfull, Nat.mod_eq_of_lt (show blockWidth x < 128 by omega)]

theorem headerBytes_encodeBlock : (blockAt s off).headerBytes = (blockHeader x).length := by
  rw [blockAt_encodeBlock hlen hx h, blockHeader, SourceBlock.headerBytes]
  by_cases hfull : x.length = 128 <;> simp [hfull]

theorem size_encodeBlock : (blockAt s off).size = (encodeBlock x).length := by
  rw [SourceBlock.size, headerBytes_encodeBlock hlen hx h, blockAt_encodeBlock hlen hx h, encodeBlock_eq,
    List.length_append, pack_length]

/-- The fields of its payload are the values that were packed. -/
theorem blockValuesAt_encodeBlock : blockValuesAt s off = x := by
  have hfields : blockValuesAt s off = bitFields
      (numberAt s.mem (s.regs.src.toNat + off + (blockAt s off).headerBytes)
        (ceilDiv ((blockAt s off).count * (blockAt s off).width) 8))
      (blockAt s off).count (blockAt s off).width := rfl
  rw [hfields, headerBytes_encodeBlock hlen hx h, blockAt_encodeBlock hlen hx h, numberAt]
  rw [encodeBlock_eq] at h
  obtain ⟨-, hpayload⟩ := holdsBytes_append.mp h
  rw [HoldsBytes, pack_length] at hpayload
  rw [hpayload]
  exact unpack_pack lt_two_pow_blockWidth

end

theorem valueBlock_length_le (e : List Nat) (k : Nat) : (valueBlock e k).length ≤ 128 := by
  rw [valueBlock_length]
  omega

/-! ### Encoded blocks one after the other (R170) -/

/-- The bytes of the first `k` blocks of a value list. -/
def firstBlocks (e : List Nat) (k : Nat) : List Byte := (List.range k).flatMap fun j => encodeBlock (valueBlock e j)

theorem firstBlocks_succ (e : List Nat) (k : Nat) :
    firstBlocks e (k + 1) = firstBlocks e k ++ encodeBlock (valueBlock e k) := by
  simp [firstBlocks, List.range_succ]

theorem encodeBlocks_eq (e : List Nat) : encodeBlocks e = firstBlocks e (ceilDiv e.length 128) := by
  rw [encodeBlocks, splitBlocks_eq, List.flatMap_map]
  rfl

theorem firstBlocks_length_mono (e : List Nat) : Monotone fun k => (firstBlocks e k).length :=
  monotone_nat_of_le_succ fun k => by rw [firstBlocks_succ, List.length_append]; omega

/-- Each block of a sequence of blocks stands behind those before it. -/
theorem holdsBytes_firstBlocks {m : Memory} {a k n : Nat} {e : List Nat} (h : HoldsBytes m a (firstBlocks e n))
    (hk : k < n) : HoldsBytes m (a + (firstBlocks e k).length) (encodeBlock (valueBlock e k)) := by
  induction n with
  | zero => omega
  | succ n ih =>
    rw [firstBlocks_succ] at h
    obtain ⟨hfirst, hlast⟩ := holdsBytes_append.mp h
    obtain hk | rfl := Nat.lt_succ_iff_lt_or_eq.mp hk
    · exact ih hfirst hk
    · exact hlast

/-! ### An encoded stream in memory -/

/-- The running sums of the deltas are the values again (R172, R181). -/
theorem runningSums_deltas {x : Nat} {rest : List Nat} (h : NonDecreasing (x :: rest)) :
    runningSums x (deltas (x :: rest)) = rest := by
  induction rest generalizing x with
  | nil => rfl
  | cons y rest ih =>
    obtain ⟨hxy, hrest⟩ := (nonDecreasing_cons_cons x y rest).mp h
    rw [deltas, runningSums_cons, Nat.add_sub_cancel' hxy, ih hrest]

/-- The source is the stream of the array, whole and no more, it may be read, and all of its values are asked for. -/
structure HoldsStream (s : State) (v : Variant) (vs : List Nat) : Prop where
  /-- the values fit the element -/
  fits : ∀ x ∈ vs, x < 2 ^ v.width
  /-- those of a delta stream do not decrease -/
  sorted : v.delta = true → NonDecreasing vs
  /-- `CNT` -/
  count : s.regs.cnt.toNat = vs.length
  /-- `SRCLEN` -/
  len : s.regs.srclen.toNat = (bpStream v vs).length
  /-- the bytes at `SRC` -/
  bytes : HoldsBytes s.mem s.regs.src.toNat (bpStream v vs)
  /-- they may be read -/
  reads : Reads s s.regs.src.toNat s.regs.srclen.toNat

theorem Variant.width_le (v : Variant) : v.width ≤ 64 := by
  rw [Variant.width, Variant.esz, elementBytes]
  split <;> omega

/-- The values in blocks are those behind the first value. -/
theorem blockValues_length_add (v : Variant) (vs : List Nat) :
    (if v.delta && !vs.isEmpty then 1 else 0) + (blockValues v vs).length = vs.length := by
  rw [blockValues_length]
  cases v.delta with
  | false => simp
  | true =>
    cases vs with
    | nil => rfl
    | cons x vs => simp [Nat.add_comm]

namespace HoldsStream

variable {s : State} {v : Variant} {vs : List Nat} (h : HoldsStream s v vs)
include h

theorem length_lt : vs.length < 2 ^ 64 := h.count ▸ s.regs.cnt.isLt

theorem value_lt {x : Nat} (hx : x ∈ vs) : x < 2 ^ 64 :=
  (h.fits x hx).trans_le (Nat.pow_le_pow_right (by decide) v.width_le)

theorem head : HoldsBytes s.mem s.regs.src.toNat (streamHead v vs) := (holdsBytes_append.mp h.bytes).1

theorem blocks : HoldsBytes s.mem (s.regs.src.toNat + (streamHead v vs).length) (encodeBlocks (blockValues v vs)) :=
  (holdsBytes_append.mp h.bytes).2

/-- The prefixes and the blocks make up the source. -/
theorem srclen_eq : s.regs.srclen.toNat = (streamHead v vs).length + (encodeBlocks (blockValues v vs)).length := by
  rw [h.len, bpStream, List.length_append]

/-- A 64-bit stream starts with the number of its values. -/
theorem varintAt_count (hw : v.wide = true) : varintAt s 0 = (vs.length, tvLength vs.length) := by
  have hhead := h.head
  rw [streamHead_eq, if_pos hw] at hhead
  obtain ⟨hcount, -⟩ := holdsBytes_append.mp hhead
  rw [HoldsBytes, tvEncode_length] at hcount
  exact varintAt_of_bytesAt h.length_lt hcount

theorem countBytes_eq : countBytes s v = if v.wide then tvLength vs.length else 0 := by
  rw [countBytes]
  split
  · next hw => rw [h.varintAt_count hw]
  · rfl

theorem wantedValues_eq : wantedValues s v = vs.length := by
  cases hw : v.wide with
  | false => rw [wantedValues_narrow hw, h.count]
  | true => rw [wantedValues_wide hw, h.varintAt_count hw, h.count, Nat.min_self]

/-- There is a first value to read exactly where the stream has one. -/
theorem takesFirst_eq : takesFirst s v = (v.delta && !vs.isEmpty) := by
  rw [Bool.eq_iff_iff, takesFirst_iff, h.wantedValues_eq, Bool.and_eq_true]
  refine and_congr_right fun hd => ?_
  cases vs with
  | nil => simp
  | cons x vs =>
    have hsource : 0 < s.regs.srclen.toNat := by
      have := one_le_tvLength x
      rw [h.srclen_eq, streamHead_length, hd]
      simp only [List.isEmpty_cons, Bool.not_false, Bool.and_self, if_true, List.getD_cons_zero]
      omega
    simp [hsource]

/-- A delta stream goes on with its first value. -/
theorem varintAt_first (hfirst : takesFirst s v = true) :
    varintAt s (countBytes s v) = (vs.getD 0 0, tvLength (vs.getD 0 0)) := by
  have hne := hfirst
  rw [h.takesFirst_eq] at hne
  have hhead := h.head
  rw [streamHead_eq, if_pos hne] at hhead
  obtain ⟨-, hfirst⟩ := holdsBytes_append.mp hhead
  rw [apply_ite List.length, tvEncode_length, List.length_nil, ← h.countBytes_eq, HoldsBytes,
    tvEncode_length] at hfirst
  refine varintAt_of_bytesAt ?_ hfirst
  cases vs with
  | nil => simp
  | cons x vs => exact h.value_lt (by simp)

theorem firstValues_eq : firstValues s v = if v.delta && !vs.isEmpty then [vs.getD 0 0] else [] := by
  rw [firstValues, ← h.takesFirst_eq]
  split
  · next hfirst => rw [h.varintAt_first hfirst]
  · rfl

theorem blocksStart_eq : blocksStart s v = (streamHead v vs).length := by
  rw [blocksStart, streamHead_length, ← h.takesFirst_eq, h.countBytes_eq]
  congr 1
  split
  · next hfirst => rw [← h.countBytes_eq, h.varintAt_first hfirst]
  · rfl

/-- The first value, where there is one, and the values in blocks are all of the array. -/
theorem firstValues_length_add : (firstValues s v).length + (blockValues v vs).length = vs.length := by
  rw [h.firstValues_eq, apply_ite List.length]
  exact blockValues_length_add v vs

/-- The prefixes lie inside the source and may be read. -/
theorem prefixSound : PrefixSound s v := by
  have hhead : (streamHead v vs).length ≤ s.regs.srclen.toNat := by rw [h.srclen_eq]; omega
  rw [streamHead_length, ← h.countBytes_eq, ← h.takesFirst_eq] at hhead
  refine ⟨fun hw => ?_, fun hfirst => ⟨?_, ?_⟩⟩
  · have hcount : (varintAt s 0).2 = countBytes s v := by rw [countBytes, if_pos hw]
    exact ⟨by omega, h.reads.mono (by omega) (by omega)⟩
  · have hvarint : (varintAt s (countBytes s v)).2 = tvLength (vs.getD 0 0) := by rw [h.varintAt_first hfirst]
    rw [if_pos hfirst] at hhead
    exact ⟨by omega, h.reads.mono (by omega) (by omega)⟩
  · rw [firstValues_of_takesFirst s v hfirst, List.forall_mem_singleton, h.varintAt_first hfirst]
    cases vs with
    | nil => exact Nat.two_pow_pos _
    | cons x vs => exact h.fits x (by simp)

/-- Wherever block `k` would stand behind the prefixes and the blocks before it, there it is. -/
theorem holds_block {k off : Nat} (hk : 128 * k < (blockValues v vs).length)
    (hoff : off = (streamHead v vs).length + (firstBlocks (blockValues v vs) k).length) :
    HoldsBytes s.mem (s.regs.src.toNat + off) (encodeBlock (valueBlock (blockValues v vs) k)) := by
  have hblocks := h.blocks
  rw [encodeBlocks_eq] at hblocks
  rw [hoff, ← Nat.add_assoc]
  exact holdsBytes_firstBlocks hblocks ((lt_ceilDiv_blockLen _ _).mpr hk)

theorem valueBlock_lt (k : Nat) : ∀ y ∈ valueBlock (blockValues v vs) k, y < 2 ^ 64 := fun _ hy =>
  blockValues_lt (fun _ hx => h.value_lt hx) _ (mem_of_mem_valueBlock hy)

theorem blockOffset_eq {k : Nat} (hk : k ≤ ceilDiv (blockValues v vs).length 128) :
    blockOffset s v k = (streamHead v vs).length + (firstBlocks (blockValues v vs) k).length := by
  induction k with
  | zero => exact h.blocksStart_eq
  | succ k ih =>
    have hin := (lt_ceilDiv_blockLen _ k).mp hk
    have hoff := ih (by omega)
    rw [blockOffset_succ, size_encodeBlock (valueBlock_length_le _ k) (h.valueBlock_lt k)
      (h.holds_block hin hoff), hoff, firstBlocks_succ, List.length_append, Nat.add_assoc]

section
variable {k : Nat} (hk : 128 * k < (blockValues v vs).length)
include hk

theorem holds_blockOffset :
    HoldsBytes s.mem (s.regs.src.toNat + blockOffset s v k) (encodeBlock (valueBlock (blockValues v vs) k)) :=
  h.holds_block hk (h.blockOffset_eq ((lt_ceilDiv_blockLen _ _).mpr hk).le)

theorem blockAt_eq : blockAt s (blockOffset s v k) =
    ⟨decide ((valueBlock (blockValues v vs) k).length ≠ 128), blockWidth (valueBlock (blockValues v vs) k),
      (valueBlock (blockValues v vs) k).length⟩ :=
  blockAt_encodeBlock (valueBlock_length_le _ k) (h.valueBlock_lt k) (h.holds_blockOffset hk)

theorem blockValuesAt_eq : blockValuesAt s (blockOffset s v k) = valueBlock (blockValues v vs) k :=
  blockValuesAt_encodeBlock (valueBlock_length_le _ k) (h.valueBlock_lt k) (h.holds_blockOffset hk)

/-- Every block lies inside the source and may be read. -/
theorem blockSound : BlockSound s v (blockOffset s v k) := by
  have hend : blockOffset s v k + (blockAt s (blockOffset s v k)).size ≤ s.regs.srclen.toNat := by
    rw [← blockOffset_succ, h.blockOffset_eq ((lt_ceilDiv_blockLen _ _).mpr hk), h.srclen_eq, encodeBlocks_eq]
    exact Nat.add_le_add_left (firstBlocks_length_mono _ ((lt_ceilDiv_blockLen _ _).mpr hk)) _
  have hheader : (blockAt s (blockOffset s v k)).headerBytes ≤ (blockAt s (blockOffset s v k)).size :=
    Nat.le_add_right _ _
  refine ⟨⟨?_, ?_, by omega, h.reads.mono (by omega) (by omega)⟩, hend, h.reads.mono (by omega) (by omega)⟩
  · rw [h.blockAt_eq hk]
    exact (blockWidth_le_iff _ _).mpr fun y hy => blockValues_lt h.fits y (mem_of_mem_valueBlock hy)
  · rw [h.blockAt_eq hk, valueBlock_length]
    simp only [decide_eq_true_eq]
    omega

/-- A partial block holds the values that are left, a full one no more. -/
theorem shapeOwed (hw : v.wide = true) : ShapeOwed s v k (blockAt s (blockOffset s v k)) := by
  have hsum := h.firstValues_length_add
  rw [ShapeOwed, h.varintAt_count hw, h.blockAt_eq hk, valueBlock_length, valuesBefore]
  simp only [decide_eq_true_eq]
  split <;> omega

end

/-- The decoder may take all the blocks of the stream. -/
theorem blocksSound : BlocksSound s v (ceilDiv (blockValues v vs).length 128) := by
  refine ⟨h.prefixSound, fun k hk => ?_⟩
  have hin := (lt_ceilDiv_blockLen _ k).mp hk
  refine ⟨h.blockSound hin, ?_, fun hs => ?_, h.shapeOwed hin⟩
  · have hsum := h.firstValues_length_add
    rw [h.wantedValues_eq, valuesBefore]
    omega
  · rw [h.blockAt_eq hin, valueBlock_length, decide_eq_true_eq] at hs
    have hlast := lt_ceilDiv_blockLen (blockValues v vs).length (k + 1)
    omega

theorem blockContents_eq : blockContents s v (ceilDiv (blockValues v vs).length 128) = blockValues v vs := by
  have hblocks : blockContents s v (ceilDiv (blockValues v vs).length 128) =
      (List.range (ceilDiv (blockValues v vs).length 128)).flatMap (valueBlock (blockValues v vs)) :=
    List.flatMap_congr fun k hk => h.blockValuesAt_eq ((lt_ceilDiv_blockLen _ k).mp (List.mem_range.mp hk))
  rw [hblocks, List.flatMap_def, ← splitBlocks_eq, flatten_splitBlocks]

/-- The blocks and the prefixes stand for the values of the array. -/
theorem decodedValues_eq : decodedValues s v (ceilDiv (blockValues v vs).length 128) = vs := by
  rw [Machine.decodedValues_eq, h.blockContents_eq, h.firstValues_eq, blockValues]
  cases hd : v.delta with
  | false => rfl
  | true =>
    cases vs with
    | nil => rfl
    | cons x rest => exact congrArg (x :: ·) (runningSums_deltas (h.sorted hd))

/-- The last block ends where the source does. -/
theorem blockOffset_last :
    blockOffset s v (ceilDiv (blockValues v vs).length 128) = s.regs.srclen.toNat := by
  rw [h.blockOffset_eq le_rfl, h.srclen_eq, encodeBlocks_eq]

/-- Decoding the stream of an array gives the array back (R206). -/
theorem decodeStream_eq : decodeStream s v = .ok (vs, s.regs.srclen.toNat) := by
  have htake : vs.take (wantedValues s v) = vs := by rw [h.wantedValues_eq, List.take_length]
  have hrun := decodeStream_sound h.blocksSound
    (by rw [h.decodedValues_eq, htake]; exact h.fits)
    (.inl (by rw [h.decodedValues_eq, h.wantedValues_eq]))
  rwa [h.decodedValues_eq, htake, h.blockOffset_last] at hrun

end HoldsStream

/-- Settles O42: what the decoder gets of a stream, or of any source with sound blocks, is what it stores. -/
theorem bpDecReturnsTheEncodedValues : Obligations.BpDecReturnsTheEncodedValues := by
  intro p hp s hs v a len dest cap ha
  refine ⟨fun vs hv hm hcnt hlen hbytes hr hcap => ?_, fun n h => ?_⟩
  · have hstream : HoldsStream s v vs := ⟨hv, hm, hcnt, hlen, by rw [HoldsBytes, ← hlen]; exact hbytes, hr⟩
    obtain ⟨stores, -⟩ := bpDecoder_ends hp hs ha hstream.decodeStream_eq
    exact stores hcap
  · intro got used out hlt hstop
    exact bpDecoder_ends hp hs ha (decodeStream_sound h hlt hstop)

end Sys2Proof.Machine
end

section
/-! PROOF. Elias code words as bit strings (44_elias.md R221 to R223, R248): their lengths, and that none begins
another. -/

namespace Sys2Proof.Machine

/-! ### Lengths (R223) -/

theorem gammaCode_length_log2 {x : Nat} (h : x ≠ 0) : (gammaCode x).length = 2 * Nat.log2 x + 1 := by
  rw [gammaCode_length h, bitwidth_eq_log2 h, Nat.add_sub_cancel]

theorem deltaCode_length_log2 {x : Nat} (h : x ≠ 0) :
    (deltaCode x).length = 2 * Nat.log2 (Nat.log2 x + 1) + 1 + Nat.log2 x := by
  rw [deltaCode_length, bitwidth_eq_log2 h, gammaCode_length_log2 (Nat.succ_ne_zero _), Nat.add_sub_cancel]

/-- The length that the block computes is that of the code word. -/
theorem Code.length_eq (c : Code) {x : Nat} (h : x ≠ 0) : c.length x = (c.word x).length := by
  have hpos := bitwidth_pos h
  cases c with
  | gamma =>
    show gammaBits x = (gammaCode x).length
    rw [gammaBits, gammaCode_length h]
    omega
  | delta =>
    show deltaBits x = (deltaCode x).length
    have hpos2 := bitwidth_pos hpos.ne'
    rw [deltaBits, gammaBits, deltaCode_length, gammaCode_length hpos.ne']
    omega

/-! ### No code word begins another (R248) -/

/-- A run of zeros that a one ends is told from any longer or shorter one. -/
theorem eq_of_zerosThenOne_prefix {a b : Nat} {u v : List Bool}
    (h : List.replicate a false ++ true :: u <+: List.replicate b false ++ true :: v) : a = b ∧ u <+: v := by
  induction a generalizing b with
  | zero => cases b with
    | zero => simpa using h
    | succ b => simp [List.replicate_succ] at h
  | succ a ih => cases b with
    | zero => simp [List.replicate_succ] at h
    | succ b =>
      obtain ⟨rfl, huv⟩ := ih (by simpa [List.replicate_succ] using h)
      exact ⟨rfl, huv⟩

/-- Bit strings of one length that begin two strings of which one begins the other are the same. -/
theorem bits_append_prefix {m n a b : Nat} {u v : List Bool} (hab : a = b) (h : bits m a ++ u <+: bits n b ++ v) :
    bits m a = bits n b ∧ u <+: v := by
  obtain ⟨w, hw⟩ := h
  rw [List.append_assoc] at hw
  obtain ⟨hbits, huv⟩ := List.append_inj hw (by simpa using hab)
  exact ⟨hbits, w, huv⟩

section
variable {m n : Nat} (hm : m ≠ 0) (hn : n ≠ 0)
include hm hn

/-- A value is its width and the bits below its top one. -/
theorem eq_of_low_bits_eq (hwidth : bitwidth m = bitwidth n)
    (hlow : bits m (bitwidth m - 1) = bits n (bitwidth n - 1)) : m = n := by
  have hmod : m % 2 ^ (bitwidth m - 1) = n % 2 ^ (bitwidth n - 1) := by
    simpa only [val_bits] using congrArg val hlow
  calc m = 2 ^ (bitwidth m - 1) + m % 2 ^ (bitwidth m - 1) := (two_pow_add_low hm).symm
    _ = 2 ^ (bitwidth n - 1) + n % 2 ^ (bitwidth n - 1) := by rw [hmod, hwidth]
    _ = n := two_pow_add_low hn

/-- Where one string that starts with a Gamma code word begins another, the code words are the same. -/
theorem gammaCode_append_prefix {u v : List Bool} (h : gammaCode m ++ u <+: gammaCode n ++ v) :
    m = n ∧ u <+: v := by
  rw [gammaCode_eq hm, gammaCode_eq hn, List.append_assoc, List.append_assoc] at h
  obtain ⟨hwidth, hrest⟩ := eq_of_zerosThenOne_prefix h
  obtain ⟨hlow, huv⟩ := bits_append_prefix hwidth hrest
  have hm0 := bitwidth_pos hm
  have hn0 := bitwidth_pos hn
  exact ⟨eq_of_low_bits_eq hm hn (by omega) hlow, huv⟩

theorem gammaCode_prefixFree (h : gammaCode m <+: gammaCode n) : m = n :=
  (gammaCode_append_prefix hm hn (u := []) (v := []) (by simpa using h)).1

theorem deltaCode_prefixFree (h : deltaCode m <+: deltaCode n) : m = n := by
  have hm0 := bitwidth_pos hm
  have hn0 := bitwidth_pos hn
  obtain ⟨hwidth, hrest⟩ := gammaCode_append_prefix (by omega) (by omega) h
  obtain ⟨hlow, -⟩ := bits_append_prefix (u := []) (v := []) (congrArg (· - 1) hwidth) (by simpa using hrest)
  exact eq_of_low_bits_eq hm hn hwidth hlow

end

/-- Settles O47: the zero run tells the width, the width ends the word. -/
theorem codesArePrefixFree : Obligations.CodesArePrefixFree := by
  refine ⟨fun n hn => ⟨gammaCode_length_log2 (by omega), deltaCode_length_log2 (by omega)⟩, ?_⟩
  intro c m n hm hn h
  cases c with
  | gamma => exact gammaCode_prefixFree (by omega) (by omega) h
  | delta => exact deltaCode_prefixFree (by omega) (by omega) h

end Sys2Proof.Machine
end

section
/-! PROOF. The Elias decodes where no code word stands (44_elias.md R226, R227), and the array decoders, which stop
there, at the end of the stream, or with all they were asked for (R247). -/

namespace Sys2Proof.Machine

/-- The writer of `MALF`, as the statements spell it. -/
theorem Regs.withMalf_eq (r : Regs) (b : Bool) : r.withMalf b = { r with status := malfStatus r.status b } := by
  cases b <;> rfl

/-! ### Where no code word stands (R226, R227) -/

section
variable {s : State} {c : Code} {base stop wmax limit pos n x : Nat}

/-- Zeros up to the limit or the end are no zero run. -/
theorem zeroRun_eq_none (hr : ReadsBits s base pos (min limit (stop - pos)))
    (h : ZerosAt s.mem base pos (min limit (stop - pos))) : zeroRun s base stop limit pos = .ok none := by
  induction limit generalizing pos with
  | zero => rfl
  | succ limit ih =>
    by_cases hp : pos < stop
    · have hmin : min (limit + 1) (stop - pos) = min limit (stop - (pos + 1)) + 1 := by omega
      rw [hmin] at hr h
      rw [zeroRun_zero hp (hr.mono (le_refl _) (by omega)) (h 0 (by omega)),
        ih (hr.mono (by omega) (by omega)) h.tail]
      rfl
    · simp [zeroRun, Nat.not_lt.mp hp]

theorem gammaDecode_fails (h : GammaFails s.mem base pos stop wmax n) (hr : ReadsBits s base pos n) :
    gammaDecode s base stop wmax pos = .ok none := by
  rcases h with ⟨rfl, hzeros⟩ | ⟨z, hz, rfl, hzeros, hone, hp, hend⟩
  · rw [gammaDecode, zeroRun_eq_none hr hzeros]
    rfl
  · rw [gammaDecode, zeroRun_eq_some hz hp hr hzeros hone, attempt_ok_bind]
    exact if_pos hend

/-- The Gamma code word that stands at a position is decoded; in a Delta code word it is the length part. -/
theorem gammaDecode_of_gammaAt (h : GammaAt s.mem base pos stop x)
    (hr : ReadsBits s base pos (gammaCode x).length) :
    gammaDecode s base stop 64 pos = .ok (some (x, pos + (gammaCode x).length)) := by
  obtain ⟨hx, hx64, hfit, hbits⟩ := h
  exact gammaDecode_word (by omega) hx64 hfit hr hbits

/-- A decode where no code word stands fails, having examined the bits that show it. -/
theorem codeDecode_fails (h : CodeFails c s.mem base pos stop wmax n) (hr : ReadsBits s base pos n) :
    c.decode s base stop wmax pos = .ok none := by
  cases c with
  | gamma => exact gammaDecode_fails h hr
  | delta =>
    show deltaDecode s base stop wmax pos = .ok none
    rcases h with h | ⟨x, hx, rfl, hwide | hend⟩
    · rw [deltaDecode, gammaDecode_fails h hr]
      rfl
    · rw [deltaDecode, gammaDecode_of_gammaAt hx hr, attempt_ok_bind]
      exact if_pos hwide
    · rw [deltaDecode, gammaDecode_of_gammaAt hx hr, attempt_ok_bind]
      dsimp only
      rw [if_pos hend, ite_self]
      rfl

end

/-! ### The array decoders (R247) -/

section
variable {i : Instr} {c : Code} {wide : Bool} {s : State} {vs : List Nat} {malf : Bool}

theorem exec_eliasDecoder (hi : (i, c, wide) ∈ eliasDecoders) (s : State) :
    exec i s = codeDecode i c wide s ∧ i.WellFormed ∧
      sourceExtent i s = (s.regs.src.toNat, ceilDiv s.regs.bitlen.toNat 8) ∧
      destExtent i s = (s.regs.dst.toNat, s.regs.dstcap.toNat) := by
  fin_cases hi <;> exact ⟨rfl, by decide, rfl, rfl⟩

/-- The decode loop ends where it has all it was asked for, or at the end of the stream. -/
theorem decodeCodes_done {base stop wmax pos n : Nat} (h : n = 0 ∨ pos = stop) :
    decodeCodes s c base stop wmax n pos = .ok ([], pos, false) := by
  cases n with
  | zero => rfl
  | succ n => rw [decodeCodes, if_pos (by omega)]

/-- The decode loop ends where it turns to a code word and none stands there. -/
theorem decodeCodes_fails {base stop wmax pos n seen : Nat} (hn : 0 < n) (hp : pos < stop)
    (h : CodeFails c s.mem base pos stop wmax seen) (hr : ReadsBits s base pos seen) :
    decodeCodes s c base stop wmax n pos = .ok ([], pos, true) := by
  obtain ⟨n, rfl⟩ : ∃ m, n = m + 1 := ⟨n - 1, by omega⟩
  rw [decodeCodes, if_neg (by omega), codeDecode_fails h hr]
  rfl

/-- A stream that starts with the code words of `vs` decodes to `vs`, where the loop stops behind them. -/
theorem decodeCodes_of_words {base stop wmax cnt seen : Nat} (h64 : wmax ≤ 64)
    (hvs : ∀ x ∈ vs, 1 ≤ x ∧ x < 2 ^ wmax) (hcnt : vs.length ≤ cnt) (hstop : (vs.flatMap c.word).length ≤ stop)
    (hbits : bitsAt s.mem base 0 (vs.flatMap c.word).length = vs.flatMap c.word)
    (hend : if malf then vs.length < cnt ∧ (vs.flatMap c.word).length < stop ∧
        CodeFails c s.mem base (vs.flatMap c.word).length stop wmax seen
      else (vs.length = cnt ∨ (vs.flatMap c.word).length = stop) ∧ seen = 0)
    (hr : ReadsBits s base 0 ((vs.flatMap c.word).length + seen)) :
    decodeCodes s c base stop wmax cnt 0 = .ok (vs, (vs.flatMap c.word).length, malf) := by
  obtain ⟨n, rfl⟩ : ∃ n, cnt = vs.length + n := ⟨cnt - vs.length, by omega⟩
  have hvs' : ∀ x ∈ vs, x ≠ 0 ∧ x < 2 ^ wmax := fun x hx => by
    obtain ⟨h1, hlt⟩ := hvs x hx
    exact ⟨by omega, hlt⟩
  have hlast : decodeCodes s c base stop wmax n (vs.flatMap c.word).length =
      .ok ([], (vs.flatMap c.word).length, malf) := by
    cases malf with
    | false =>
      obtain ⟨hdone, -⟩ := hend
      exact decodeCodes_done (by omega)
    | true =>
      obtain ⟨hmore, hbefore, hfails⟩ := hend
      exact decodeCodes_fails (by omega) hbefore hfails (hr.mono (Nat.zero_le _) (by omega))
  rw [decodeCodes_words n hvs' h64 (by omega) (hr.mono (le_refl _) (by omega)) hbits, Nat.zero_add, hlast]
  simp

/-- Past its checks and the decode, an array decoder is one write phase of the values. -/
theorem runsAfterChecks_eliasDecoder {r : List Nat × Nat × Bool} (hi : (i, c, wide) ∈ eliasDecoders)
    (hd : decodeCodes s c s.regs.src.toNat s.regs.bitlen.toNat (8 * elementBytes wide) s.regs.cnt.toNat 0 = .ok r) :
    RunsAfterChecks i s (do
      let t ← writeOutput s (arrayBytes (elementBytes wide) r.1)
      return (t.withResults (word r.1.length) (word r.2.1)).withMalf r.2.2) := by
  obtain ⟨hexec, -, hsource, hdest⟩ := exec_eliasDecoder hi s
  rw [RunsAfterChecks, hexec, codeDecode, hsource, hdest]
  dsimp only
  rw [hd]
  rfl

end

/-- Settles O55: the loop delivers the values whose code words stand there, and the command stores them. -/
theorem eliasDecReturnsTheEncodedValues : Obligations.EliasDecReturnsTheEncodedValues := by
  intro p hp s vs malf seen hs esz code a cnt stop hvs hcnt hstop hbits hend ha hr
  have h64 : 8 * elementBytes p.2.2 ≤ 64 := by cases p.2.2 <;> decide
  obtain ⟨-, hw, hsource, hdest⟩ := exec_eliasDecoder (i := p.1) (c := p.2.1) (wide := p.2.2) hp s
  have hrun := runsAfterChecks_eliasDecoder (i := p.1) (c := p.2.1) (wide := p.2.2) hp
    (decodeCodes_of_words h64 hvs hcnt hstop hbits hend hr)
  rw [← hsource, ← hdest] at ha
  simp only [← arrayBytes_eq_fieldBytes, ← arrayBytes_length]
  exact ⟨fun hcap => hrun.stores hs hw ha hcap fun m => by rw [State.withMalf, Regs.withMalf_eq]; rfl,
    fun hcap => hrun.overruns hs.1 hw ha hcap⟩

end Sys2Proof.Machine
end

section
/-! PROOF. The commands of the bit reader (44_elias.md R229, R230, R232, R239) and the code lengths (R233, R240). -/

namespace Sys2Proof.Machine

/-! ### Queries (R230, R233, R240) -/

/-- Settles O50: the query compares two numbers. -/
theorem brMoreComparesThePosition : Obligations.BrMoreComparesThePosition := by
  intro imm s hf
  have hw : (Instr.brMore imm).WellFormed := ⟨Nat.zero_le _, Nat.lt_succ_iff.mp imm.isLt⟩
  refine (command_completes (.brMore imm) s _ _ hf hw rfl).trans ?_
  simp [State.withRes, brHas]

theorem codeBits_completes {i : Instr} {c : Code} {s : State} (hf : s.faulted = false) (hw : i.WellFormed) :
    codeBits i c s = .next { s with regs := { s.regs with
      res := if s.regs.arg = 0 then 0 else BitVec.ofNat 64 (c.word s.regs.arg.toNat).length } } := by
  refine (command_completes i s _ _ hf hw rfl).trans ?_
  by_cases harg : s.regs.arg = 0
  · simp [State.withRes, harg]
  · have harg' : s.regs.arg.toNat ≠ 0 := fun h => harg (BitVec.eq_of_toNat_eq h)
    rw [if_neg harg, if_neg harg', c.length_eq harg']
    rfl

/-- Settles O53: the length is that of the code word. -/
theorem codeBitsAnswersTheLength : Obligations.CodeBitsAnswersTheLength := fun _ hf =>
  ⟨codeBits_completes (c := .gamma) hf (by decide), codeBits_completes (c := .delta) hf (by decide)⟩

/-! ### Single bits (R229) -/

section
variable {s : State} {imm : BitVec 8}

theorem runsAfterChecks_brRead_of_le (h : s.regs.brPos.toNat + imm.toNat ≤ s.regs.brEnd.toNat) :
    RunsAfterChecks (.brRead imm) s (do
      let t ← portBits s s.regs.brBase.toNat s.regs.brPos.toNat imm.toNat
      return ((s.withRes (word (val t))).withBrPos (word (s.regs.brPos.toNat + imm.toNat))).withMalf false) := by
  refine .of_source rfl ?_
  show execBrRead imm s = _
  rw [execBrRead, if_pos (by simpa [brHas] using h)]
  rfl

theorem runsAfterChecks_brRead_of_lt (h : s.regs.brEnd.toNat < s.regs.brPos.toNat + imm.toNat) :
    RunsAfterChecks (.brRead imm) s (.ok ((s.withRes 0).withMalf true)) := by
  refine .of_source rfl ?_
  show execBrRead imm s = _
  rw [execBrRead, if_neg (by simpa [brHas] using h)]
  rfl

end

/-- Settles O49: past the check of its buffer the command reads all the bits, or none of them. -/
theorem brReadReturnsTheBits : Obligations.BrReadReturnsTheBits := by
  intro imm s hw hf base p n
  obtain ⟨wraps, -⟩ := extentFaultsComeFirst (.brRead imm) s hf ⟨hw, by simp, by simp⟩
  refine ⟨wraps, fun ha hfit hr => ?_, fun ha hshort => ?_, fun k hk ha hfit hr hu => ?_⟩
  · refine (runsAfterChecks_brRead_of_le hfit).completes hf hw (extentsAdmitted_source ha) ?_
    rw [portBits_of_reads s _ _ _ hr, attempt_ok_bind, State.withMalf, Regs.withMalf_eq]
    rfl
  · refine (runsAfterChecks_brRead_of_lt hshort).completes hf hw (extentsAdmitted_source ha) ?_
    rw [State.withMalf, Regs.withMalf_eq]
    rfl
  · exact (runsAfterChecks_brRead_of_le hfit).faults hf hw (extentsAdmitted_source ha)
      (bind_error (portBits_unreadable hk hr hu))

/-! ### Single code words (R232, R239) -/

section
variable {s : State} {i : Instr} {c : Code}

/-- The commands that read one code word are the common form, each with its code. -/
theorem exec_codeReader (hi : (i, c) ∈ [(Instr.egGet, Code.gamma), (.edGet, .delta)]) (s : State) :
    exec i s = codeGet i c s ∧ i.WellFormed := by
  fin_cases hi <;> exact ⟨rfl, by decide⟩

section
variable (hi : (i, c) ∈ [(Instr.egGet, Code.gamma), (.edGet, .delta)]) (hf : s.faulted = false)
  (ha : InSpace s.regs.brBase.toNat (ceilDiv s.regs.brEnd.toNat 8))
include hi hf ha

/-- A decoded code word is delivered, and the position moves past it. -/
theorem codeReader_delivers {x len : Nat}
    (hd : c.decode s s.regs.brBase.toNat s.regs.brEnd.toNat 64 s.regs.brPos.toNat =
      .ok (some (x, s.regs.brPos.toNat + len))) :
    exec i s = .next { s with regs := { s.regs with
      res := word x, res2 := word len, brPos := word (s.regs.brPos.toNat + len)
      status := malfStatus s.regs.status false } } := by
  obtain ⟨hexec, hw⟩ := exec_codeReader hi s
  rw [hexec]
  refine command_completes i s _ _ hf hw ?_
  rw [checkReader, checkRange_of_inSpace ha, attempt_ok_bind, hd, attempt_ok_bind]
  simp only [State.withMalf, Regs.withMalf_eq, Nat.add_sub_cancel_left]
  rfl

/-- Where no code word stands the results are 0 and the position stays. -/
theorem codeReader_fails {n : Nat}
    (h : CodeFails c s.mem s.regs.brBase.toNat s.regs.brPos.toNat s.regs.brEnd.toNat 64 n)
    (hr : ReadsBits s s.regs.brBase.toNat s.regs.brPos.toNat n) :
    exec i s = .next { s with regs := { s.regs with
      res := 0, res2 := 0, status := malfStatus s.regs.status true } } := by
  obtain ⟨hexec, hw⟩ := exec_codeReader hi s
  rw [hexec]
  refine command_completes i s _ _ hf hw ?_
  rw [checkReader, checkRange_of_inSpace ha, attempt_ok_bind, codeDecode_fails h hr, attempt_ok_bind]
  simp only [State.withMalf, Regs.withMalf_eq]
  rfl

end

end

/-- Settles O51: the decode answers the value of the code word that stands there. -/
theorem codeGetDecodesTheCodeWord : Obligations.CodeGetDecodesTheCodeWord := by
  intro p hp s n hf code base pos hn hn64 ha hfit hbits hr
  exact codeReader_delivers hp hf ha (codeDecode_word (by omega) hn64 le_rfl hfit hr hbits)

/-- Settles O52: each clause is a way that no code word stands at the position. -/
theorem codeGetFailsWithoutMoving : Obligations.CodeGetFailsWithoutMoving := by
  intro s hf base pos stop failed ha
  have gamma {n} (h : GammaFails s.mem base pos stop 64 n) (hr : ReadsBits s base pos n) :
      exec .egGet s = .next failed ∧ exec .edGet s = .next failed :=
    ⟨codeReader_fails (c := .gamma) (by simp) hf ha h hr, codeReader_fails (c := .delta) (by simp) hf ha (.inl h) hr⟩
  have delta {n x} (h : GammaAt s.mem base pos stop x) (hn : n = (gammaCode x).length)
      (hbad : 64 ≤ x - 1 ∨ stop < pos + n + (x - 1)) (hr : ReadsBits s base pos n) : exec .edGet s = .next failed :=
    codeReader_fails (c := .delta) (by simp) hf ha (.inr ⟨x, h, hn, hbad⟩) hr
  refine ⟨fun hzeros hr => gamma (.inl ⟨rfl, hzeros⟩) hr,
    fun z hz hzeros hone hp hend hr => gamma (.inr ⟨z, hz, rfl, hzeros, hone, hp, hend⟩) hr,
    fun n hn hn64 hfit hbits hr => delta ⟨by omega, hn64, hfit, hbits⟩ rfl (.inl (by omega)) hr,
    fun n hn hn64 hfit hend hbits hr => delta ⟨hn, by omega, hfit, hbits⟩ rfl (.inr hend) hr⟩

end Sys2Proof.Machine
end

section
/-! PROOF. Bit strings stored as bytes (20_memory.md R63), and the commands that store them: the Elias array
encoders (44_elias.md R246) and the bit writer (R224, R228, R231, R238). -/

namespace Sys2Proof.Machine

/-! ### The bytes of a bit string (R63) -/

/-- The bits of the number that a bit string spells are its own. -/
theorem testBit_val (t : List Bool) {k : Nat} (hk : k < t.length) : (val t).testBit (t.length - 1 - k) = t[k] := by
  have h := bits_getElem (val t) t.length k (by simpa using hk)
  simp only [bits_val t t.length rfl] at h
  exact h.symm

theorem getLsbD_byteOfBits (t : List Bool) {k : Nat} (hk : k < 8) :
    (byteOfBits t).getLsbD (7 - k) = t.getD k false := by
  have hbit := testBit_val ((List.range 8).map fun k => t.getD k false) (k := k) (by simpa using hk)
  rw [byteOfBits, BitVec.getLsbD_ofNat, decide_eq_true (by omega), Bool.true_and]
  simpa using hbit

theorem bytesOfBits_getD (t : List Bool) {k : Nat} (hk : k < ceilDiv t.length 8) :
    (bytesOfBits t).getD k 0 = byteOfBits (t.drop (8 * k)) := by
  simp [bytesOfBits, hk]

/-- A bit is in its byte. -/
theorem bitAt_add (m : Memory) (base q j : Nat) : bitAt m base (8 * q + j) = bitAt m (base + q) j := by
  rw [bitAt, bitAt, Nat.mul_add_div (by decide), Nat.mul_add_mod, Nat.add_assoc]

theorem bitsAt_add (m : Memory) (base q p n : Nat) : bitsAt m base (8 * q + p) n = bitsAt m (base + q) p n := by
  simp [bitsAt, ← bitAt_add, Nat.add_assoc]

theorem bitAt_congr {m m' : Memory} {base p : Nat} (h : m'.read (base + p / 8) = m.read (base + p / 8)) :
    bitAt m' base p = bitAt m base p := by
  rw [bitAt, bitAt, h]

/-- The bits of a stored bit string: its own, then zeros up to the end of its last byte. -/
theorem bitAt_of_stored {s u : State} {a j : Nat} {l : List Bool} (h : Stored s u a (bytesOfBits l))
    (hj : j < 8 * ceilDiv l.length 8) : bitAt u.mem a j = l.getD j false := by
  have hbyte : j / 8 < ceilDiv l.length 8 := by omega
  have hread : u.mem.read (a + j / 8) = byteOfBits (l.drop (8 * (j / 8))) := by
    rw [h, bytesOfBits_length, if_pos (by omega), Nat.add_sub_cancel_left, bytesOfBits_getD l hbyte]
  rw [bitAt, hread, getLsbD_byteOfBits _ (Nat.mod_lt _ (by decide))]
  simp only [List.getD_eq_getElem?_getD, List.getElem?_drop, Nat.div_add_mod]

theorem bitsAt_of_stored {s u : State} {a : Nat} {l : List Bool} (h : Stored s u a (bytesOfBits l)) :
    bitsAt u.mem a 0 l.length = l := by
  refine List.ext_getElem (by simp) fun k hk hl => ?_
  have hbit := bitAt_of_stored h (j := k) (by have := le_eight_mul_ceilDiv l.length; omega)
  rw [List.getD_eq_getElem _ _ hl] at hbit
  simpa [bitsAt] using hbit

theorem padding_of_stored {s u : State} {a j : Nat} {l : List Bool} (h : Stored s u a (bytesOfBits l))
    (hl : l.length ≤ j) (hj : j < 8 * ceilDiv l.length 8) : bitAt u.mem a j = false := by
  rw [bitAt_of_stored h hj, List.getD_eq_default _ _ hl]

theorem read_outside_of_stored {s u : State} {a x : Nat} {l : List Bool} (h : Stored s u a (bytesOfBits l))
    (hx : ¬ (a ≤ x ∧ x < a + ceilDiv l.length 8)) : u.mem.read x = s.mem.read x := by
  rw [h, bytesOfBits_length, if_neg hx]

/-- The capacity check of the commands that store bits lets through what fits. -/
theorem overruns_eq_false {cap need n : Nat} (hcap : need ≤ cap) (hn : n < 2 ^ 64) :
    (decide (cap < need) || decide (2 ^ 64 ≤ n)) = false := by
  rw [decide_eq_false (Nat.not_lt.mpr hcap), decide_eq_false (Nat.not_le.mpr hn)]; rfl

/-! ### The array encoders (R246) -/

theorem firstZero_eq_none {k : Nat} {vs : List Nat} (h : ∀ x ∈ vs, x ≠ 0) : firstZero k vs = none := by
  induction vs generalizing k with
  | nil => rfl
  | cons x vs ih =>
    obtain ⟨hx, hvs⟩ := List.forall_mem_cons.mp h
    rw [firstZero, if_neg hx, ih hvs]

theorem checkNonzero_of_nonzero {vs : List Nat} (h : ∀ x ∈ vs, x ≠ 0) : checkNonzero vs = .ok () := by
  rw [checkNonzero, firstZero_eq_none h]

section
variable {i : Instr} {c : Code} {wide : Bool} {s : State}

theorem exec_eliasEncoder (hi : (i, c, wide) ∈ eliasEncoders) (s : State) :
    exec i s = codeEncode i c wide s ∧ i.WellFormed := by
  fin_cases hi <;> exact ⟨rfl, by decide⟩

/-- The registers after an array of `n` values was stored as `bitCount` bits. -/
def eliasRecord (r : Regs) (n bitCount : Nat) : Regs :=
  { r with
    res := word (ceilDiv bitCount 8)
    metaCount := word n
    metaBits := word bitCount
    metaBytes := word (ceilDiv bitCount 8) }

/-- An encoder stores the code words of the array. -/
theorem eliasEncoder_stores (hi : (i, c, wide) ∈ eliasEncoders) (hs : Ready s)
    (ha : ExtentsAdmitted (s.regs.src.toNat, elementBytes wide * s.regs.cnt.toNat)
      (s.regs.dst.toNat, s.regs.dstcap.toNat))
    (hr : Reads s s.regs.src.toNat (elementBytes wide * s.regs.cnt.toNat))
    (hnonzero : ∀ x ∈ arrayAt s.mem s.regs.src.toNat (elementBytes wide) s.regs.cnt.toNat, x ≠ 0) :
    let t := codeStream c (arrayAt s.mem s.regs.src.toNat (elementBytes wide) s.regs.cnt.toNat)
    t.length < 2 ^ 64 → ceilDiv t.length 8 ≤ s.regs.dstcap.toNat →
    StoresOutput i s (eliasRecord s.regs s.regs.cnt.toNat t.length) s.regs.dst.toNat (bytesOfBits t) := by
  intro t hlen hcap
  obtain ⟨hexec, hw⟩ := exec_eliasEncoder hi s
  refine command_storesOutput i s _ _ _
    (fun u => .ok ((u.withEliasMeta s.regs.cnt.toNat t.length (ceilDiv t.length 8)).withRes
      (word (ceilDiv t.length 8)))) hs hw (fun _ => rfl) ?_
  rw [hexec, codeEncode]
  dsimp only
  rw [checkExtents_eq_checkBoth, checkBoth_of_admitted ha, attempt_ok_bind, readArray_of_reads _ _ _ _ hr,
    attempt_ok_bind, checkNonzero_of_nonzero hnonzero, attempt_ok_bind, arrayAt_length, overruns_eq_false hcap hlen]
  rfl

end

/-- Settles O54: the encoder's one write phase is that of the code words, zero-padded. -/
theorem eliasEncStoresTheCodeWords : Obligations.EliasEncStoresTheCodeWords := by
  intro p hp s hs esz n vs code size a ha hr hnonzero hlen hcap
  obtain ⟨completes, losesOutput⟩ :=
    eliasEncoder_stores (i := p.1) (c := p.2.1) (wide := p.2.2) hp hs ha hr hnonzero hlen hcap
  rw [bytesOfBits_length] at completes losesOutput
  refine ⟨fun hwr => ?_, losesOutput⟩
  obtain ⟨u, hexec, hregs, hstored, helse⟩ := completes hwr
  exact ⟨u, hexec, helse, hregs, bitsAt_of_stored hstored, fun j => padding_of_stored hstored,
    fun x => read_outside_of_stored hstored⟩

/-! ### The bit writer (R224) -/

section
variable {i : Instr} {s : State} {t : List Bool}

/-- The result that a bit-writer command writes behind its append is the number of its bits. -/
theorem exec_bitWriter_length (h : appendedBits i s = some t) :
    exec i s = command i s (bwAppend s t >>= fun u => .ok (u.withRes (word t.length))) := by
  cases i with
  | bwWrite imm =>
    have himm : imm.toNat ≤ 64 := by
      by_contra hbig
      simp [appendedBits, hbig] at h
    rw [appendedBits, if_pos himm, Option.some.injEq] at h
    subst h
    rw [bits_length]
    rfl
  | egPut | edPut =>
    have harg : s.regs.arg.toNat ≠ 0 := fun h0 => by simp [appendedBits, h0] at h
    rw [appendedBits, if_neg harg, Option.some.injEq] at h
    subst h
    refine (codePut_of_nonzero _ _ harg).trans ?_
    rw [Code.length_eq _ harg]
    rfl
  | _ => simp [appendedBits] at h

/-- The bits of the partly filled byte that stand before the position. -/
theorem writerHead_of_reads {a r : Nat} (h8 : r ≤ 8) (hr : r ≠ 0 → Reads s a 1) :
    writerHead s a r = .ok (bitsAt s.mem a 0 r) := by
  by_cases h : r = 0
  · subst h; rfl
  · rw [writerHead, if_neg h, portRead_of_reads (hr h)]
    refine congrArg Except.ok (List.ext_getElem (by simp [h8]) fun k hk hk' => ?_)
    have hk8 : k < 8 := by simp at hk; omega
    rw [List.getElem_take, bits_getElem]
    simp [bitsAt, bitAt, BitVec.getLsbD, Nat.div_eq_of_lt hk8, Nat.mod_eq_of_lt hk8]

/-- An empty append does nothing. -/
theorem bwAppend_nil (ha : InSpace s.regs.bwBase.toNat s.regs.bwCap.toNat) : bwAppend s [] = .ok s := by
  rw [bwAppend, checkRange_of_inSpace ha]
  rfl

/-- The bits before the position in its byte, and the appended ones. -/
def writerBits (s : State) (t : List Bool) : List Bool :=
  bitsAt s.mem (s.regs.bwBase.toNat + s.regs.bwPos.toNat / 8) 0 (s.regs.bwPos.toNat % 8) ++ t

theorem writerBits_length : (writerBits s t).length = s.regs.bwPos.toNat % 8 + t.length := by simp [writerBits]

theorem ceilDiv_writerBits : ceilDiv (writerBits s t).length 8 =
    ceilDiv (s.regs.bwPos.toNat + t.length) 8 - s.regs.bwPos.toNat / 8 := by
  rw [writerBits_length, ceilDiv_eight, ceilDiv_eight]
  omega

/-- An append that fits is one write phase. -/
theorem bwAppend_of_fits (ht : t ≠ []) (ha : InSpace s.regs.bwBase.toNat s.regs.bwCap.toNat)
    (hcap : ceilDiv (s.regs.bwPos.toNat + t.length) 8 ≤ s.regs.bwCap.toNat)
    (hpos : s.regs.bwPos.toNat + t.length < 2 ^ 64)
    (hr : s.regs.bwPos.toNat % 8 ≠ 0 → Reads s (s.regs.bwBase.toNat + s.regs.bwPos.toNat / 8) 1) :
    bwAppend s t = (do
      let u ← writePhase s (s.regs.bwBase.toNat + s.regs.bwPos.toNat / 8) (bytesOfBits (writerBits s t))
      return u.withBwPos (word (s.regs.bwPos.toNat + t.length))) := by
  have hlen : t.length ≠ 0 := by simpa using ht
  rw [bwAppend, checkRange_of_inSpace ha, attempt_ok_bind]
  dsimp only
  rw [if_neg hlen, overruns_eq_false hcap hpos, raiseIf_false, attempt_ok_bind,
    writerHead_of_reads (Nat.mod_lt _ (by decide)).le hr]
  rfl

/-- What a bit-writer command whose bits fit stores. -/
theorem bitWriter_stores (hs : Ready s) (h : appendedBits i s = some t) (ht : t ≠ [])
    (ha : InSpace s.regs.bwBase.toNat s.regs.bwCap.toNat)
    (hcap : ceilDiv (s.regs.bwPos.toNat + t.length) 8 ≤ s.regs.bwCap.toNat)
    (hpos : s.regs.bwPos.toNat + t.length < 2 ^ 64)
    (hr : s.regs.bwPos.toNat % 8 ≠ 0 → Reads s (s.regs.bwBase.toNat + s.regs.bwPos.toNat / 8) 1) :
    StoresOutput i s { s.regs with res := word t.length, bwPos := word (s.regs.bwPos.toNat + t.length) }
      (s.regs.bwBase.toNat + s.regs.bwPos.toNat / 8) (bytesOfBits (writerBits s t)) := by
  obtain ⟨hw, -⟩ := exec_bitWriter h
  refine command_storesOutput i s _ _ _
    (fun u => .ok ((u.withBwPos (word (s.regs.bwPos.toNat + t.length))).withRes (word t.length)))
    hs hw (fun _ => rfl) ?_
  rw [exec_bitWriter_length h, bwAppend_of_fits ht ha hcap hpos hr, bind_assoc]
  rfl

section
variable {u : State}
  (h : Stored s u (s.regs.bwBase.toNat + s.regs.bwPos.toNat / 8) (bytesOfBits (writerBits s t)))
include h

/-- The byte at the position holds the bits it held, and the appended ones follow. -/
theorem writerBits_of_stored :
    bitsAt u.mem (s.regs.bwBase.toNat + s.regs.bwPos.toNat / 8) 0 (s.regs.bwPos.toNat % 8) =
      bitsAt s.mem (s.regs.bwBase.toNat + s.regs.bwPos.toNat / 8) 0 (s.regs.bwPos.toNat % 8) ∧
    bitsAt u.mem s.regs.bwBase.toNat s.regs.bwPos.toNat t.length = t := by
  have hall := bitsAt_of_stored h
  rw [writerBits_length, bitsAt_append, writerBits, Nat.zero_add,
    ← bitsAt_add _ _ _ (s.regs.bwPos.toNat % 8), Nat.div_add_mod] at hall
  exact List.append_inj hall (by simp)

theorem bitAt_before_append {j : Nat} (hj : j < s.regs.bwPos.toNat) :
    bitAt u.mem s.regs.bwBase.toNat j = bitAt s.mem s.regs.bwBase.toNat j := by
  by_cases hbyte : j / 8 < s.regs.bwPos.toNat / 8
  · exact bitAt_congr (read_outside_of_stored h (by omega))
  · obtain ⟨hhead, -⟩ := writerBits_of_stored h
    have hj' : j % 8 < s.regs.bwPos.toNat % 8 := by omega
    have hbit := congrArg (fun l => l.getD (j % 8) false) hhead
    rw [← Nat.div_add_mod j 8, show j / 8 = s.regs.bwPos.toNat / 8 by omega, bitAt_add, bitAt_add]
    simpa [bitsAt, hj'] using hbit

theorem bitAt_behind_append {j : Nat} (hj : s.regs.bwPos.toNat + t.length ≤ j)
    (hend : j < 8 * ceilDiv (s.regs.bwPos.toNat + t.length) 8) : bitAt u.mem s.regs.bwBase.toNat j = false := by
  obtain ⟨k, rfl⟩ : ∃ k, j = 8 * (s.regs.bwPos.toNat / 8) + k := ⟨j - 8 * (s.regs.bwPos.toNat / 8), by omega⟩
  rw [bitAt_add]
  refine padding_of_stored h ?_ ?_
  · rw [writerBits_length]; omega
  · rw [ceilDiv_writerBits]; omega

theorem read_outside_append {x : Nat} (hx : ¬ (s.regs.bwBase.toNat + s.regs.bwPos.toNat / 8 ≤ x ∧
      x < s.regs.bwBase.toNat + ceilDiv (s.regs.bwPos.toNat + t.length) 8)) : u.mem.read x = s.mem.read x :=
  read_outside_of_stored h (by rw [ceilDiv_writerBits]; omega)

end

end

/-- Settles O48: an append of no bits changes no memory; one that fits stores the bits before the position in its
byte again, and its own behind them. -/
theorem bitWriterAppends : Obligations.BitWriterAppends := by
  intro i s t hs h base p k need ha hfits
  by_cases ht : t = []
  · subst ht
    obtain ⟨hw, -⟩ := exec_bitWriter h
    have hexec : exec i s = .next (s.withRes (word 0)) := by
      rw [exec_bitWriter_length h, bwAppend_nil ha]
      exact command_completes i s _ _ hs.1 hw rfl
    refine ⟨fun _ => ⟨_, hexec, ⟨rfl, rfl, rfl, rfl⟩, ?_, fun _ => rfl, rfl, fun _ _ => rfl,
      fun h => absurd rfl h, fun _ _ => rfl⟩, fun _ _ h => absurd rfl h⟩
    simp [State.withRes, word, k, p]
  · obtain ⟨hcap, hpos, hr⟩ := hfits ht
    obtain ⟨completes, losesOutput⟩ := bitWriter_stores hs h ht ha hcap hpos hr
    rw [bytesOfBits_length, ceilDiv_writerBits] at completes losesOutput
    refine ⟨fun hwr => ?_, fun j hj _ hwr hc => losesOutput j hj hwr hc⟩
    obtain ⟨u, hexec, hregs, hstored, helse⟩ := completes (hwr ht)
    obtain ⟨-, happended⟩ := writerBits_of_stored hstored
    exact ⟨u, hexec, helse, hregs, fun h => absurd h ht, happended, fun j => bitAt_before_append hstored,
      fun _ j => bitAt_behind_append hstored, fun x => read_outside_append hstored⟩

end Sys2Proof.Machine
end

section
/-! PROOF. Every step keeps the accumulator within the limit of its mode and sign (45_acc128.md R271, R278). -/

namespace Sys2Proof.Machine

/-! ### The limit of mode and sign (R271) -/

/-- `AccInRange` as a condition on the registers alone. -/
abbrev AccFits (r : Regs) : Prop := r.acc.toNat ≤ r.accLimit

theorem accInRange_iff (s : State) : AccInRange s ↔ AccFits s.regs := Iff.rfl

section
variable {r r' : Regs}

/-- The limit depends on the mode and the sign alone. -/
theorem Regs.accLimit_congr (hn : r'.neg = r.neg) (hm : r'.mode = r.mode) : r'.accLimit = r.accLimit := by
  rw [Regs.accLimit, Regs.accLimit, hn, hm]

theorem AccFits.of_kept (h : AccFits r) (ha : r'.acc = r.acc) (hn : r'.neg = r.neg) (hm : r'.mode = r.mode) :
    AccFits r' := by
  rwa [AccFits, ha, Regs.accLimit_congr hn hm]

theorem AccFits.of_zero (h : r.acc = 0) : AccFits r := by
  simp [AccFits, h]

theorem AccFits.withMalf (h : AccFits r) (b : Bool) : AccFits (r.withMalf b) :=
  h.of_kept rfl (Regs.withMalf_neg r b) (Regs.withMalf_mode r b)

theorem AccFits.withFault (h : AccFits r) (c : BitVec 8) : AccFits (r.withFault c) :=
  h.of_kept rfl (Regs.withFault_neg r c) (Regs.withFault_mode r c)

/-- `ACC`, `NEG` and `MODE` are no registers the host writes. -/
theorem AccFits.windowWrite (h : AccFits r) (offset : Nat) (v : Word) : AccFits (windowWrite r offset v) := by
  have hacc : (Machine.windowWrite r offset v).acc = r.acc := by
    unfold Machine.windowWrite
    split <;> rfl
  exact h.of_kept hacc (by simp [Regs.neg]) (by simp [Regs.mode])

end

section
variable {i : Instr} {s t : State}

/-- The commands that run digit steps keep the magnitude within the limit they found. -/
theorem exec_accSteps_le (hi : IsAccStep i) (h : exec i s = .next t) (ha : AccFits s.regs) :
    t.regs.acc.toNat ≤ s.regs.accLimit := by
  rcases exec_next i s t h with ⟨rfl, -⟩ | ⟨rfl, -⟩ | ⟨-, rfl⟩ | ⟨-, code, info, rfl⟩ |
    ⟨-, x, base, len, -, -, -, -, -, rfl⟩ | ⟨-, r, a, out, hr, -, rfl⟩
  · simp [IsAccStep] at hi
  · simp [IsAccStep] at hi
  · exact ha
  · exact ha
  · exact ha
  · rcases hi with ⟨imm, rfl⟩ | rfl <;> obtain ⟨-, hle⟩ := hr <;> exact hle ha

/-- A change that runs no digit steps clears the magnitude or leaves it, with the mode and the sign. -/
theorem RegsChange.accFits {r r' : Regs} (c : RegsChange i r r') (h : AccFits r)
    (hsteps : IsAccStep i → r'.acc.toNat ≤ r.accLimit) : AccFits r' := by
  cases c with
  | reset => exact .of_zero rfl
  | clearFault => exact h.withFault 0
  | raise _ _ code => exact h.withFault code.number
  | bitReader _ b => exact h.withMalf b
  | eliasDecoder _ b => exact h.withMalf b
  | accClear => exact .of_zero rfl
  | accSteps hi b =>
    exact (hsteps hi).trans_eq (Regs.accLimit_congr (Regs.withOvf_neg r b) (Regs.withOvf_mode r b)).symm
  | _ => exact h

theorem exec_accFits (ha : AccFits s.regs) (h : exec i s = .next t) : AccFits t.regs :=
  (exec_regs h).accFits ha fun hi => exec_accSteps_le hi h ha

theorem runCommandWord_accFits {w : Word} (ha : AccFits s.regs) (h : runCommandWord w s = .next t) :
    AccFits t.regs := by
  rcases runCommandWord_next h with ⟨i, -, hx⟩ | ⟨-, rfl⟩ | ⟨-, rfl⟩
  · exact exec_accFits ha hx
  · exact ha
  · exact ha.withFault _

theorem perform_accFits {a : HostAction} (ha : AccFits s.regs) (h : perform a s = .next t) : AccFits t.regs := by
  rcases perform_next h with ⟨v, rfl⟩ | ⟨offset, v, rfl⟩ | rfl | ⟨x, b, -, -, rfl⟩ | ⟨w, -, hw⟩
  · exact ha
  · exact ha.windowWrite offset v
  · exact .of_zero rfl
  · exact ha
  · exact runCommandWord_accFits ha hw

end

/-- Settles O20: an idle step changes nothing, and each host action keeps the magnitude within the limit. -/
theorem stepKeepsAccumulatorInRange : Obligations.StepKeepsAccumulatorInRange := by
  intro s t h he
  rw [accInRange_iff] at h ⊢
  rcases step_next he with ⟨-, rfl⟩ | ⟨a, rest, -, hp⟩
  · exact h
  · exact perform_accFits (s := { s with pending := rest }) h hp

end Sys2Proof.Machine
end

section
/-! PROOF. The accumulator's commands (45_acc128.md): clearing (R272), the digit step and the fields of `STATUS` it
looks at as numbers (R273, R274), the classification (R276, R277). -/

namespace Sys2Proof.Machine

/-! ### Starting a number (R272) -/

/-- Writing three fields, the first with 0, is clearing the bits of all three and setting the other two: the mask of
the third cuts nothing out of the second's value. -/
theorem writeFields_eq_mask (w a b c x y : Word) (hx : x &&& ~~~c = x) :
    ((((w &&& ~~~a) ||| 0) &&& ~~~b ||| x) &&& ~~~c) ||| y = (w &&& ~~~(a ||| b ||| c)) ||| (x ||| y) := by
  apply BitVec.eq_of_getLsbD_eq
  intro k hk
  have hbit := congrArg (·.getLsbD k) hx
  simp only [BitVec.getLsbD_and, BitVec.getLsbD_or, BitVec.getLsbD_not, hk, decide_true, Bool.true_and] at hbit ⊢
  cases hc : c.getLsbD k with
  | false => simp [Bool.and_assoc, Bool.or_assoc]
  | true =>
    have hclear : x.getLsbD k = false := by simpa [hc] using hbit
    simp [hclear]

/-- The values that `ACC.CLR` writes to `NEG` and `MODE`, as one word. -/
theorem clearWord_eq (imm : BitVec 8) :
    ((BitVec.ofBool (imm.getLsbD 2)).setWidth 64 <<< 1 ||| (imm.extractLsb' 0 2).setWidth 64 <<< 4 : Word) =
      BitVec.ofNat 64 (2 * (imm.toNat / 4 % 2) + 16 * (imm.toNat % 4)) := by
  revert imm
  decide

theorem clearStatus_eq (w : Word) (imm : BitVec 8) (h : imm.toNat ≤ 7) :
    ((w.withField 0 1 (BitVec.ofBool false)).withField 1 1 (BitVec.ofBool (imm.getLsbD 2))).withField 4 2
        (imm.extractLsb' 0 2) =
      (w &&& ~~~0x33#64) ||| BitVec.ofNat 64 (2 * (imm.toNat / 4) + 16 * (imm.toNat % 4)) := by
  have hsign : imm.toNat / 4 = imm.toNat / 4 % 2 := by omega
  rw [hsign, ← clearWord_eq]
  refine writeFields_eq_mask w 1 2 0x30 _ _ ?_
  cases imm.getLsbD 2 <;> rfl

/-- Settles O56: the three fields that the command writes are the bits of `0x33`. -/
theorem accClrStartsANumber : Obligations.AccClrStartsANumber := by
  intro imm s hw hf
  refine (command_completes (.accClr imm) s _ _ hf hw rfl).trans ?_
  rw [← clearStatus_eq s.regs.status imm hw.2]
  rfl

/-! ### The fields of `STATUS` as numbers -/

section
variable (r : Regs)

theorem Regs.ovf_eq_decide : r.ovf = decide (r.status.toNat % 2 = 1) := by
  simp [Regs.ovf, BitVec.getLsbD, Nat.testBit_zero]

theorem Regs.neg_toNat : r.neg.toNat = r.status.toNat / 2 % 2 := by
  simp [Regs.neg, BitVec.getLsbD, Nat.toNat_testBit]

theorem Regs.mode_toNat : r.mode.toNat = r.status.toNat / 16 % 4 := by
  simp [Regs.mode, Word.field, Nat.shiftRight_eq_div_pow]

/-- The limits of 45_acc128.md R271 by the mode's number and the sign's. -/
def limitOf (mode neg : Nat) : Nat :=
  match mode with
  | 0 => 2 ^ 64 - 1
  | 1 => 2 ^ 63 - 1 + neg
  | 2 => 2 ^ 128 - 1
  | _ => 2 ^ 127 - 1 + neg

theorem accLimit_eq_limitOf (m : BitVec 2) (n : Bool) : accLimit (accMode m) n = limitOf m.toNat n.toNat := by
  revert m n
  decide

theorem Regs.accLimit_eq : r.accLimit = limitOf (r.status.toNat / 16 % 4) (r.status.toNat / 2 % 2) := by
  rw [Regs.accLimit, accLimit_eq_limitOf, r.mode_toNat, r.neg_toNat]

/-- Setting the flag is setting bit 0. -/
theorem Regs.withOvf_true : r.withOvf true = { r with status := r.status ||| 1#64 } := by
  have hstatus : r.status.withField 0 1 (BitVec.ofBool true) = r.status ||| 1#64 := by
    apply BitVec.eq_of_getLsbD_eq
    intro k hk
    rw [Word.getLsbD_withField]
    by_cases h0 : k = 0
    · subst h0; simp
    · rw [if_neg (by omega)]
      simp [BitVec.getLsbD_one, h0]
  rw [Regs.withOvf, hstatus]

end

/-! ### The digit step (R273) -/

/-- A digit on an unfaulted block is one digit step. -/
theorem exec_accDigit {d : BitVec 8} {s : State} (hf : s.faulted = false) (hw : (Instr.accDigit d).WellFormed) :
    exec (.accDigit d) s = .next (accStep s d.toNat) :=
  command_completes _ _ _ _ hf hw rfl

section
variable {s : State} {d : Nat}

theorem accStep_of_overflowed (h : s.regs.ovf = true) :
    accStep s d = { s with regs := { s.regs with accNdig := s.regs.accNdig + 1 } } := by
  simp only [accStep, h, if_true]

theorem accStep_of_exceeds (h : s.regs.ovf = false) (hx : s.regs.accLimit < s.regs.acc.toNat * 10 + d) :
    accStep s d = { s with regs := { s.regs with accNdig := s.regs.accNdig + 1 }.withOvf true } := by
  simp only [accStep, h, if_pos hx, Bool.false_eq_true, if_false]

theorem accStep_of_fits (h : s.regs.ovf = false) (hx : s.regs.acc.toNat * 10 + d ≤ s.regs.accLimit) :
    accStep s d = { s with regs := { s.regs with
      accNdig := s.regs.accNdig + 1, acc := BitVec.ofNat 128 (s.regs.acc.toNat * 10 + d) } } := by
  simp only [accStep, h, if_neg (not_lt.mpr hx), Bool.false_eq_true, if_false]

end

/-- Counting modulo `2^64`. -/
theorem word_add_one (w : Word) : w + 1 = BitVec.ofNat 64 ((w.toNat + 1) % 2 ^ 64) := by
  apply BitVec.eq_of_toNat_eq
  simp

/-- Settles O57, by the three ways a digit step can end. -/
theorem accDigitStepsExactly : Obligations.AccDigitStepsExactly := by
  intro imm s hw hf neg limit x counted
  have hlimit : s.regs.accLimit = limit := s.regs.accLimit_eq
  have hx : s.regs.acc.toNat * 10 + imm.toNat = x := by rw [Nat.mul_comm]
  have hovf := s.regs.ovf_eq_decide
  rw [exec_accDigit hf hw]
  by_cases hset : s.regs.status.toNat % 2 = 1
  · rw [if_pos hset, accStep_of_overflowed (by simpa [hset] using hovf), word_add_one]
  · have hclear : s.regs.ovf = false := by simpa [hset] using hovf
    rw [if_neg hset]
    by_cases hover : limit < x
    · rw [if_pos hover, accStep_of_exceeds hclear (by rwa [hlimit, hx]), Regs.withOvf_true, word_add_one]
    · rw [if_neg hover, accStep_of_fits hclear (by rw [hlimit, hx]; omega), word_add_one, hx]

/-! ### The classification (R276) -/

/-- The class of a magnitude and a sign is the first of the types that holds the number. -/
theorem classify_eq (m : Nat) (neg : Bool) :
    let number : Int := if neg then -(m : Int) else m
    classify m neg false =
      if -2 ^ 63 ≤ number ∧ number ≤ 2 ^ 63 - 1 then 1
      else if 0 ≤ number ∧ number ≤ 2 ^ 64 - 1 then 2
      else if 0 ≤ number then 4
      else if -2 ^ 127 ≤ number then 3
      else 0 := by
  cases neg with
  | false =>
    simp only [classify, Bool.false_eq_true, if_false]
    split_ifs <;> omega
  | true =>
    simp only [classify, Bool.false_eq_true, if_false, if_true]
    split_ifs <;> omega

/-- Settles O59. -/
theorem accClassPicksTheSmallestType : Obligations.AccClassPicksTheSmallestType := by
  intro s hf number
  refine (command_completes .accClass s _ _ hf (by decide) rfl).trans ?_
  cases hovf : s.regs.ovf with
  | true => rfl
  | false =>
    rw [classify_eq]
    simp only [State.withRes, word, apply_ite (BitVec.ofNat 64)]
    rfl

end Sys2Proof.Machine
end

section
/-! PROOF. Digit strings (45_acc128.md R275, R278): digits given one command each, and a run of them in memory. -/

namespace Sys2Proof.Machine

/-! ### Digit commands one after the other -/

theorem execAll_cons {i : Instr} {rest : List Instr} {s t : State} (h : exec i s = .next t) :
    execAll (i :: rest) s = execAll rest t := by
  rw [execAll, h]

theorem accStep_faulted (s : State) (d : Nat) : (accStep s d).faulted = s.faulted := by
  obtain ⟨b, -, hstep, -⟩ := accStep_regs s d
  rw [hstep]
  exact congrArg (· != 0) (Regs.withOvf_fault s.regs b)

/-- On an unfaulted block one `ACC.DIGIT` per digit is one digit step per digit. -/
theorem execAll_accDigits {s : State} {ds : List (BitVec 8)} (hf : s.faulted = false)
    (hw : ∀ d ∈ ds, (Instr.accDigit d).WellFormed) :
    execAll (ds.map .accDigit) s = .next ((ds.map BitVec.toNat).foldl accStep s) := by
  induction ds generalizing s with
  | nil => rfl
  | cons d ds ih =>
    obtain ⟨hd, hds⟩ := List.forall_mem_cons.mp hw
    rw [List.map_cons, execAll_cons (exec_accDigit hf hd), ih ((accStep_faulted s _).trans hf) hds]
    rfl

/-! ### The longest beginning within the limit (R278) -/

theorem decimalValue_append_digit (ds : List Nat) (d : Nat) :
    decimalValue (ds ++ [d]) = 10 * decimalValue ds + d := by
  simp [decimalValue]

/-- The first `j` digits spell a number within the limit, and no more of them do. -/
structure LongestPrefix (limit : Nat) (ds : List Nat) (j : Nat) : Prop where
  le_length : j ≤ ds.length
  fits : decimalValue (ds.take j) ≤ limit
  longest : ∀ k ≤ ds.length, decimalValue (ds.take k) ≤ limit → k ≤ j

section
variable {limit j d : Nat} {ds : List Nat}

theorem LongestPrefix.of_fits (h : decimalValue ds ≤ limit) : LongestPrefix limit ds ds.length :=
  ⟨le_refl _, by rwa [List.take_length], fun _ hk _ => hk⟩

theorem LongestPrefix.eq_length (h : LongestPrefix limit ds j) (hfits : decimalValue ds ≤ limit) :
    j = ds.length :=
  le_antisymm h.le_length (h.longest _ (le_refl _) (by rwa [List.take_length]))

/-- A digit that takes the number past the limit leaves the longest beginning. -/
theorem LongestPrefix.append_digit (h : LongestPrefix limit ds j) (hover : limit < decimalValue (ds ++ [d])) :
    LongestPrefix limit (ds ++ [d]) j := by
  have hlen : (ds ++ [d]).length = ds.length + 1 := by simp
  refine ⟨by have := h.le_length; omega, ?_, fun k hk hfits => ?_⟩
  · rw [List.take_append_of_le_length h.le_length]
    exact h.fits
  · by_cases hall : k = ds.length + 1
    · rw [hall, ← hlen, List.take_length] at hfits
      omega
    · have hle : k ≤ ds.length := by omega
      rw [List.take_append_of_le_length hle] at hfits
      exact h.longest k hle hfits

end

/-! ### What the digits accumulate (R278) -/

/-- The accumulator has taken in these digits since it was cleared: it holds their longest beginning within its
limit, and `OVF` says whether that is not all of them. -/
structure Accumulated (limit : Nat) (ds : List Nat) (r : Regs) : Prop where
  limit_eq : r.accLimit = limit
  ndig : r.accNdig = BitVec.ofNat 64 ds.length
  ovf : r.ovf = decide (limit < decimalValue ds)
  acc : ∃ j, LongestPrefix limit ds j ∧ r.acc.toNat = decimalValue (ds.take j)

section
variable {limit : Nat} {ds : List Nat} {s : State}

/-- With nothing past the limit yet, the magnitude is the whole number. -/
theorem Accumulated.acc_of_fits {r : Regs} (h : Accumulated limit ds r) (hfits : decimalValue ds ≤ limit) :
    r.acc.toNat = decimalValue ds := by
  obtain ⟨j, hj, hacc⟩ := h.acc
  rw [hacc, hj.eq_length hfits, List.take_length]

theorem Accumulated.ndig_succ {r : Regs} (h : Accumulated limit ds r) (d : Nat) :
    r.accNdig + 1 = BitVec.ofNat 64 (ds ++ [d]).length := by
  rw [h.ndig, List.length_append, List.length_singleton, BitVec.ofNat_add]
  rfl

/-- Digits past the limit leave the beginning that stands. -/
theorem Accumulated.acc_of_over {r : Regs} (h : Accumulated limit ds r) {d : Nat}
    (hover : limit < decimalValue (ds ++ [d])) :
    ∃ j, LongestPrefix limit (ds ++ [d]) j ∧ r.acc.toNat = decimalValue ((ds ++ [d]).take j) := by
  obtain ⟨j, hj, hacc⟩ := h.acc
  exact ⟨j, hj.append_digit hover, by rw [hacc, List.take_append_of_le_length hj.le_length]⟩

/-- One digit step takes in one digit, by the three ways it can end. -/
theorem Accumulated.step (h : Accumulated limit ds s.regs) (d : Nat) :
    Accumulated limit (ds ++ [d]) (accStep s d).regs := by
  have hvalue := decimalValue_append_digit ds d
  by_cases hbefore : limit < decimalValue ds
  · have hovf : s.regs.ovf = true := by simpa [hbefore] using h.ovf
    have hover : limit < decimalValue (ds ++ [d]) := by omega
    rw [accStep_of_overflowed hovf]
    exact ⟨h.limit_eq, h.ndig_succ d, hovf.trans (decide_eq_true hover).symm, h.acc_of_over hover⟩
  have hovf : s.regs.ovf = false := by simpa [hbefore] using h.ovf
  have hx : s.regs.acc.toNat * 10 + d = decimalValue (ds ++ [d]) := by
    rw [h.acc_of_fits (not_lt.mp hbefore), hvalue, Nat.mul_comm]
  by_cases hover : limit < decimalValue (ds ++ [d])
  · rw [accStep_of_exceeds hovf (by rwa [h.limit_eq, hx])]
    have hlimit := Regs.accLimit_congr (Regs.withOvf_neg s.regs true) (Regs.withOvf_mode s.regs true)
    exact ⟨hlimit.trans h.limit_eq, h.ndig_succ d, (Regs.withOvf_ovf s.regs true).trans (decide_eq_true hover).symm,
      h.acc_of_over hover⟩
  · have hfits := not_lt.mp hover
    have hlt : decimalValue (ds ++ [d]) < 2 ^ 128 := hfits.trans_lt (h.limit_eq ▸ accLimit_lt _ _)
    rw [accStep_of_fits hovf (by rwa [h.limit_eq, hx]), hx]
    refine ⟨h.limit_eq, h.ndig_succ d, hovf.trans (decide_eq_false hover).symm, _, .of_fits hfits, ?_⟩
    rw [List.take_length]
    exact Nat.mod_eq_of_lt hlt

theorem Accumulated.steps (h : Accumulated limit ds s.regs) (es : List Nat) :
    Accumulated limit (ds ++ es) (es.foldl accStep s).regs := by
  induction es generalizing ds s with
  | nil => simpa using h
  | cons d es ih =>
    rw [List.append_cons]
    exact ih (h.step d)

end

/-- `ACC.CLR` starts a number without digits. -/
theorem exec_accClr_accumulated {imm : BitVec 8} {s : State} (hf : s.faulted = false)
    (hw : (Instr.accClr imm).WellFormed) :
    ∃ t, exec (.accClr imm) s = .next t ∧ t.faulted = false ∧
      Accumulated (accLimit (accMode (imm.extractLsb' 0 2)) (imm.getLsbD 2)) [] t.regs := by
  have zero_fits (limit : Nat) : decimalValue [] ≤ limit := Nat.zero_le _
  refine ⟨_, command_completes (.accClr imm) s _ _ hf hw rfl, ?_, ⟨?_, rfl, ?_, 0, .of_fits (zero_fits _), rfl⟩⟩
  · exact (congrArg (· != 0) ((Regs.withMode_fault _ _).trans (by simp))).trans hf
  · exact congrArg₂ accLimit (congrArg accMode (Regs.withMode_mode _ _)) ((Regs.withMode_neg _ _).trans (by simp))
  · exact ((Regs.withMode_ovf _ _).trans (by simp)).trans (decide_eq_false (not_lt.mpr (zero_fits _))).symm

/-- Settles O60: clearing starts without digits, and each step takes in one. -/
theorem digitsAccumulateTheNumber : Obligations.DigitsAccumulateTheNumber := by
  intro s imm digits hf hclr hdigits limit value
  obtain ⟨t, hexec, htf, hstart⟩ := exec_accClr_accumulated hf hclr
  have hvalue (k : Nat) : decimalValue ((digits.map BitVec.toNat).take k) = value k := by rw [← List.map_take]
  have hlength : (digits.map BitVec.toNat).length = digits.length := List.length_map ..
  have hall : decimalValue (digits.map BitVec.toNat) = value digits.length := by
    rw [← hvalue, ← hlength, List.take_length]
  have htaken := hstart.steps (digits.map BitVec.toNat)
  rw [List.nil_append] at htaken
  obtain ⟨-, hndig, hovf, j, ⟨hle, hfits, hlongest⟩, hacc⟩ := htaken
  rw [hlength] at hndig hle
  rw [hall] at hovf
  rw [hvalue] at hacc hfits
  simp only [hlength, hvalue] at hlongest
  refine ⟨_, (execAll_cons hexec).trans (execAll_accDigits htf hdigits), hndig, hacc ▸ hfits, fun hin => ?_,
    fun hout => ?_⟩
  · have hj : j = digits.length := le_antisymm hle (hlongest _ (le_refl _) hin)
    exact ⟨hj ▸ hacc, hovf.trans (decide_eq_false (not_lt.mpr hin))⟩
  · exact ⟨hovf.trans (decide_eq_true hout), j, hle, hacc, hfits, hlongest⟩

/-! ### A run of digits in memory (R275) -/

/-- The byte of a digit character gives the digit as a legal immediate. -/
theorem accDigit_of_digitByte {b : Byte} (h : 0x30 ≤ b.toNat ∧ b.toNat ≤ 0x39) :
    (b - 0x30).toNat = b.toNat - 0x30 ∧ (Instr.accDigit (b - 0x30)).WellFormed := by
  have hdigit : (b - 0x30).toNat = b.toNat - 0x30 := by
    rw [BitVec.toNat_sub]
    change (2 ^ 8 - 48 + b.toNat) % 2 ^ 8 = b.toNat - 48
    omega
  exact ⟨hdigit, Nat.zero_le _, by show (b - 0x30).toNat ≤ 9; omega⟩

/-- The run ends at the first byte that is no digit, or with the last byte it may look at. -/
theorem digitRun_of_digits {s : State} {a n k : Nat} (hk : k ≤ n) (hr : Reads s a (min (k + 1) n))
    (hd : ∀ j < k, 48 ≤ (s.mem.read (a + j)).toNat ∧ (s.mem.read (a + j)).toNat ≤ 57)
    (hend : k < n → ¬ (48 ≤ (s.mem.read (a + k)).toNat ∧ (s.mem.read (a + k)).toNat ≤ 57)) :
    digitRun s a n = .ok ((bytesAt s.mem a k).map fun b => b.toNat - 0x30,
      if k < n then (s.mem.read (a + k)).toNat else 256) := by
  induction n generalizing a k with
  | zero =>
    obtain rfl : k = 0 := Nat.le_zero.mp hk
    rfl
  | succ n ih =>
    have hfirst : portRead s a = .ok (s.mem.read a) := portRead_of_reads (hr.mono (le_refl _) (by omega))
    cases k with
    | zero =>
      have hstop : (s.mem.read a).toNat < 0x30 ∨ 0x39 < (s.mem.read a).toNat := by
        have := hend (Nat.succ_pos n)
        rw [Nat.add_zero] at this
        omega
      simp [digitRun, hfirst, hstop, bytesAt]
    | succ k =>
      have hdigit : ¬ ((s.mem.read a).toNat < 0x30 ∨ 0x39 < (s.mem.read a).toNat) := by
        have := hd 0 (Nat.succ_pos k)
        rw [Nat.add_zero] at this
        omega
      have shift (j : Nat) : a + (j + 1) = a + 1 + j := by omega
      rw [shift k] at hend
      have hrest := ih (Nat.le_of_succ_le_succ hk) (hr.mono (by omega) (by omega))
        (fun j hj => shift j ▸ hd (j + 1) (Nat.succ_lt_succ hj)) (fun hlt => hend (Nat.succ_lt_succ hlt))
      simp [digitRun, hfirst, hdigit, hrest, bytesAt_succ, shift k]

/-- Settles O58: the command's run is the digits of the bytes, and its steps are the commands' steps. -/
theorem accStrRunsTheDigits : Obligations.AccStrRunsTheDigits := by
  intro s k hf a n isDigit
  have hw : Instr.accStr.WellFormed := by decide
  obtain ⟨wraps, -⟩ := extentFaultsComeFirst .accStr s hf ⟨hw, by simp, by simp⟩
  refine ⟨wraps, fun hk ha hr hd hu => accStr_unreadable hf (extentsAdmitted_source ha) hk hr hu hd,
    fun hk ha hr hd hend => ?_⟩
  have hdigits : ∀ b ∈ bytesAt s.mem a k, 0x30 ≤ b.toNat ∧ b.toNat ≤ 0x39 := by
    intro b hb
    obtain ⟨j, hj, rfl⟩ := List.mem_map.mp hb
    exact hd j (List.mem_range.mp hj)
  have hrun := digitRun_of_digits hk hr hd hend
  have hvalues : ((bytesAt s.mem a k).map (· - 0x30)).map BitVec.toNat =
      (bytesAt s.mem a k).map fun b => b.toNat - 0x30 := by
    rw [List.map_map]
    exact List.map_congr_left fun b hb => (accDigit_of_digitByte (hdigits b hb)).1
  have hcommands := execAll_accDigits (ds := (bytesAt s.mem a k).map (· - 0x30)) hf
    (List.forall_mem_map.mpr fun b hb => (accDigit_of_digitByte (hdigits b hb)).2)
  rw [List.map_map, hvalues] at hcommands
  refine ⟨_, hcommands, ?_⟩
  refine (RunsAfterChecks.of_source rfl rfl : RunsAfterChecks .accStr s _).completes hf hw
    (extentsAdmitted_source ha) ?_
  rw [hrun, attempt_ok_bind, attempt_pure, List.length_map, bytesAt_length]
  simp only [State.withResults, word, apply_ite (BitVec.ofNat 64)]
  rfl

end Sys2Proof.Machine
end

section
/-! PROOF. The system commands (46_system.md R290 to R292) and hardware reset (70_reset_and_hazards.md R340): what
each answers, in every state. -/

namespace Sys2Proof

/-- Writing 0 to a field is clearing its bits. -/
theorem Word.withField_zero (w : Word) (lo n : Nat) :
    w.withField lo n 0 = w &&& ~~~(((BitVec.allOnes n).setWidth 64) <<< lo) := by
  simp [Word.withField]

end Sys2Proof

namespace Sys2Proof.Machine

/-! ### Clearing the fault record (R291) -/

/-- `FAULT` is bits 15:8 of `STATUS` (10_state.md R25). -/
theorem Regs.withFault_zero (r : Regs) :
    r.withFault 0 = { r with status := r.status &&& ~~~0xFF00#64 } := by
  rw [Regs.withFault, Word.withField_zero]
  rfl

theorem State.clearFault_eq (s : State) :
    s.clearFault = { s with regs :=
      { s.regs with status := s.regs.status &&& ~~~0xFF00#64, faddr := 0, fcmd := 0 } } := by
  rw [State.clearFault, Regs.withFault_zero]

/-! ### What each command answers -/

/-- A faulted block ignores the command; on another it completes with the state as it was. -/
theorem exec_sysNop (s : State) : exec .sysNop s = .next s := by
  cases hf : s.faulted with
  | true => exact command_faulted .sysNop s (.ok s) hf
  | false => exact command_completes .sysNop s s (.ok s) hf (by decide) rfl

theorem exec_sysClrf (s : State) : exec .sysClrf s = .next s.clearFault := rfl

theorem exec_sysReset (s : State) : exec .sysReset s = .next s.resetRegisters := rfl

theorem perform_reset (s : State) : perform .reset s = .next s.resetRegisters := rfl

/-- The register map after reset, row by row: every register but `ID` reads 0 (10_state.md R21). -/
theorem registerMap_reset :
    ∀ p ∈ registerMap Regs.reset, p.2 = if p.1 = 0xE0 then 0x0000000742503132 else 0 := by
  decide

/-! ### The statements -/

/-- Settles O5, by `exec_sysNop`: ignored or completed, the command answers the same state. -/
theorem nopChangesNothing : Obligations.NopChangesNothing := exec_sysNop

/-- Settles O6: clearing the field `FAULT` is clearing bits 15:8 of `STATUS`. -/
theorem clearFaultClearsTheRecordAlone : Obligations.ClearFaultClearsTheRecordAlone := by
  intro s
  rw [exec_sysClrf, State.clearFault_eq]

/-- Settles O7: the command and the host action reset the registers alone, and each row of the register map then
reads its reset value. -/
theorem resetGivesEveryRegisterItsValue : Obligations.ResetGivesEveryRegisterItsValue := by
  refine ⟨exec_sysReset, fun s rest hp => ?_, registerMap_reset, rfl⟩
  rw [step_of_pending hp, perform_reset]
  rfl

end Sys2Proof.Machine
end

section
/-! PROOF. What a fault changes (60_exceptions.md R306, R307), and what a faulted block does (R308). -/

namespace Sys2Proof.Machine

/-! ### Which ends leave the block faulted -/

/-- A completing command leaves `FAULT` as it is (30_encoding.md R97). -/
theorem RegsMay.fault_eq {i : Instr} {r r' : Regs} (h : RegsMay i r r') : r'.fault = r.fault := by
  cases i with
  | brRead _ | egGet | edGet | egDec32 | egDec64 | edDec32 | edDec64 =>
    obtain ⟨b, h⟩ := h
    rw [h]
    exact Regs.withMalf_fault r b
  | accClr _ =>
    obtain ⟨neg, mode, rfl⟩ := h
    exact (Regs.withMode_fault _ mode).trans (by simp)
  | accDigit _ | accStr =>
    obtain ⟨⟨b, -, h⟩, -⟩ := h
    rw [h]
    exact Regs.withOvf_fault r b
  | sysNop => exact congrArg Regs.fault h
  | _ => rw [show r' = _ from h]; rfl

theorem State.clearFault_faulted (s : State) : s.clearFault.faulted = false := by
  have hzero : s.clearFault.regs.fault = 0 := Regs.withFault_fault s.regs 0
  rw [State.faulted, hzero, bne_self_eq_false]

theorem State.resetRegisters_faulted (s : State) : s.resetRegisters.faulted = false := by
  show (Regs.reset.fault != 0) = false
  decide

/-- A command that takes an unfaulted block to a faulted one has recorded a fault, or has lost the output of its
write phase (R306, 20_memory.md R82). -/
theorem exec_faulted_of_unfaulted {i : Instr} {s t : State} (hf : s.faulted = false) (h : exec i s = .next t)
    (ht : t.faulted = true) :
    (∃ code info, t = s.takeFault code info (encode i)) ∨
    ∃ x base len, OutputAt i s base len ∧ Within x (base, len) ∧ canWrite s.platform x = false ∧
      (∀ j, base ≤ j → j < x → canWrite s.platform j = true) ∧
      t = (s.takeFault .memFault x (encode i)).loseExtent base len := by
  rcases exec_next i s t h with ⟨-, rfl⟩ | ⟨-, rfl⟩ | ⟨hs, -⟩ | ⟨-, code, info, ht⟩ |
    ⟨-, x, base, len, hout, hlo, hhi, hx, hbelow, ht⟩ | ⟨-, r, a, out, hr, -, rfl⟩
  · simp [s.clearFault_faulted] at ht
  · simp [s.resetRegisters_faulted] at ht
  · simp [hf] at hs
  · exact .inl ⟨code, info, ht⟩
  · exact .inr ⟨x, base, len, hout, ⟨hlo, hhi⟩, hx, hbelow, ht⟩
  · have hsame : (r.fault != 0) = s.faulted := congrArg (· != 0) hr.fault_eq
    exact absurd (hsame.symm.trans ht) (by simp [hf])

/-- Settles O14: fault entry changes the registers alone, and a write-phase fault also its output. -/
theorem faultChangesOnlyTheRecord : Obligations.FaultChangesOnlyTheRecord := by
  refine ⟨fun s rest w e hf hp hd => ?_, fun i s t hs h ht => ?_⟩
  · rw [step_of_pending hp, perform_commandWrite, runCommandWord_of_error { s with pending := rest } hd hf,
      takeFault_eq]
  · obtain ⟨hf, hmem⟩ := hs
    rcases exec_faulted_of_unfaulted hf h ht with ⟨code, info, rfl⟩ |
      ⟨x, base, len, ⟨rfl, hlo, hhi, -⟩, hin, hx, hbelow, rfl⟩
    · exact ⟨code, info, rfl, rfl, rfl, rfl, .inl ⟨rfl, rfl⟩⟩
    · refine ⟨.memFault, x, rfl, rfl, rfl, rfl, .inr ⟨rfl, len, fun y ⟨hy, hylen⟩ => ?_, hin, hx, hbelow, ?_⟩⟩
      · exact ⟨hlo.trans hy, hylen.trans_le hhi⟩
      · exact ⟨_, h, rfl, stored_writeBytes s _ _ _ hmem rfl, rfl, rfl, rfl, rfl⟩

/-! ### The faulted block (R308) -/

/-- A faulted block ignores every command but `SYS.CLRF` and `SYS.RESET`. -/
theorem exec_of_faulted {i : Instr} {s : State} (hf : s.faulted = true) (hc : i ≠ .sysClrf)
    (hr : i ≠ .sysReset) : exec i s = .next s := by
  have hnot : s.faulted ≠ false := by simp [hf]
  rcases exec_does i s s.mem hc hr (AgreesFor.self i s) with ⟨-, h, -⟩ | ⟨h, -⟩ | ⟨h, -⟩ | ⟨h, -⟩ | ⟨h, -⟩
  · exact h
  all_goals exact absurd h hnot

/-- A faulted block ignores every value written to `CMD` but those two commands' words. -/
theorem runCommandWord_of_faulted {w : Word} {s : State} (hf : s.faulted = true) (hc : w ≠ encode .sysClrf)
    (hr : w ≠ encode .sysReset) : runCommandWord w s = .next s := by
  cases hd : decode w with
  | ok i =>
    rw [runCommandWord_of_decode s hd]
    have he := encode_of_decode hd
    exact exec_of_faulted hf (fun hi => hc (by rw [← he, hi])) (fun hi => hr (by rw [← he, hi]))
  | error e => simp [runCommandWord, hd, hf]

/-- The write of a well-formed command's word to `CMD` runs the command. -/
theorem runCommandWord_encode {i : Instr} (hw : i.WellFormed) (s : State) : runCommandWord (encode i) s = exec i s :=
  runCommandWord_of_decode s ((decodeReadsExactlyTheCommandWords _ i).mpr ⟨hw, rfl⟩)

theorem encode_sysClrf : encode .sysClrf = 1 := rfl

theorem encode_sysReset : encode .sysReset = 2 := rfl

/-- Settles O9: the two command words that a faulted block executes, and its register window as always. -/
theorem faultedBlockIgnoresCommands : Obligations.FaultedBlockIgnoresCommands := by
  intro s rest hf
  have hostWrites (offset : Nat) (v : Word) := hostWriteStoresOneRegister s rest offset 8 v
  refine ⟨fun w hp => ?_, hostReadReturnsTheRegister s rest, fun v => ?_, fun offset v => ?_⟩
  · rw [step_of_pending hp, perform_commandWrite]
    by_cases hc : w = 1
    · rw [if_pos hc, hc, ← encode_sysClrf, runCommandWord_encode (by decide), exec_sysClrf, State.clearFault_eq]
    by_cases hr : w = 2
    · rw [if_neg hc, if_pos hr, hr, ← encode_sysReset, runCommandWord_encode (by decide), exec_sysReset]
      rfl
    rw [if_neg hc, if_neg hr]
    exact runCommandWord_of_faulted (s := { s with pending := rest }) hf hc hr
  · obtain ⟨writable, -⟩ := hostWrites 0 v
    exact writable
  · obtain ⟨-, others, -⟩ := hostWrites offset v
    exact others

end Sys2Proof.Machine
end

section
/-! PROOF. One host action a step (60_exceptions.md R332, R333): what it leaves as it was besides the registers and
the memory, and the host's accesses to ordinary memory. -/

namespace Sys2Proof.Machine

/-! ### The model's lists and the platform -/

/-- The platform, and the actions still to come, as they were, and at most one reply more. -/
abbrev KeepsActions (s t : State) : Prop :=
  t.platform = s.platform ∧ t.pending = s.pending ∧ (t.replies = s.replies ∨ ∃ v, t.replies = v :: s.replies)

theorem KeepsActions.refl (s : State) : KeepsActions s s := ⟨rfl, rfl, .inl rfl⟩

theorem exec_keepsActions {i : Instr} {s t : State} (h : exec i s = .next t) : KeepsActions s t := by
  rcases exec_next i s t h with ⟨-, rfl⟩ | ⟨-, rfl⟩ | ⟨-, rfl⟩ | ⟨-, code, info, rfl⟩ |
    ⟨-, x, base, len, -, -, -, -, -, rfl⟩ | ⟨-, r, a, out, -, -, rfl⟩ <;> exact ⟨rfl, rfl, .inl rfl⟩

theorem perform_keepsActions {a : HostAction} {s t : State} (h : perform a s = .next t) : KeepsActions s t := by
  rcases perform_next h with ⟨v, rfl⟩ | ⟨offset, v, rfl⟩ | rfl | ⟨x, b, -, -, rfl⟩ | ⟨w, -, hw⟩
  · exact ⟨rfl, rfl, .inr ⟨v, rfl⟩⟩
  · exact .refl _
  · exact .refl _
  · exact .refl _
  · rcases runCommandWord_next hw with ⟨i, -, hx⟩ | ⟨-, rfl⟩ | ⟨-, rfl⟩
    · exact exec_keepsActions hx
    · exact .refl _
    · exact .refl _

/-- Settles O13: an idle step changes nothing, and a step takes its action off the list and performs it. -/
theorem stepPerformsOneAction : Obligations.StepPerformsOneAction := by
  refine ⟨fun s hp => by rw [step, hp], fun s t h => ?_⟩
  rcases step_next h with ⟨hp, rfl⟩ | ⟨a, rest, hp, ha⟩
  · exact ⟨rfl, by rw [hp]; rfl, .inl rfl⟩
  · rw [hp]
    exact perform_keepsActions ha

/-! ### Ordinary memory (20_memory.md R75) -/

theorem perform_writeMem {s : State} {a : Word} (b : Byte) (h : inWindow s.platform a.toNat = false) :
    perform (.writeMem a b) s = .next { s with mem := s.mem.write a.toNat b } := by
  rw [perform, if_neg (by simp [h])]

theorem perform_readMem {s : State} {a : Word} (h : inWindow s.platform a.toNat = false) :
    perform (.readMem a) s = .next (s.reply ((s.mem.read a.toNat).setWidth 64)) := by
  rw [perform, if_neg (by simp [h])]

/-- Settles O12: one byte stored in canonical memory, or read from it. -/
theorem hostMemoryIsOrdinary : Obligations.HostMemoryIsOrdinary := by
  intro s rest a b hmem hw
  refine ⟨fun hp => ?_, fun hp => ?_⟩
  · rw [step_of_pending hp, perform_writeMem (s := { s with pending := rest }) b hw]
    exact ⟨_, rfl, rfl, stored_writeBytes s _ _ [b] hmem rfl, rfl, rfl, rfl, rfl⟩
  · rw [step_of_pending hp, perform_readMem (s := { s with pending := rest }) hw, ← BitVec.ofNat_toNat]
    rfl

end Sys2Proof.Machine
end

section
/-! PROOF. Outputs that exceed the destination capacity (60_exceptions.md R305 3f, 20_memory.md R80), and input values
that an encoder rejects (R305 3a, 3e, 43_bp128.md R207, 44_elias.md R231, R246). -/

namespace Sys2Proof.Machine

/-! ### What a command comes to past the reading of its array -/

section
variable {i : Instr} {s : State}

/-- A command of a delta variant reads its array and looks for a decrease in it (43_bp128.md R193, R207). -/
theorem runsAfterChecks_deltaReader {esz : Nat} (hi : (i, esz) ∈ deltaReaders) :
    i.WellFormed ∧ ∃ (v : Variant) (g : List Nat → Attempt State), v.delta = true ∧
      RunsAfterChecks i s (readArray s esz s.regs.src.toNat s.regs.cnt.toNat >>= fun vs =>
        checkMonotone v vs >>= fun _ => g vs) := by
  fin_cases hi
  · exact ⟨by decide, ⟨false, true⟩, _, rfl, rfl⟩
  · exact ⟨by decide, ⟨true, true⟩, _, rfl, rfl⟩
  · exact ⟨by decide, ⟨false, true⟩, _, rfl, .of_source rfl rfl⟩
  · exact ⟨by decide, ⟨true, true⟩, _, rfl, .of_source rfl rfl⟩
  · exact ⟨by decide, ⟨false, true⟩, _, rfl, .of_source rfl rfl⟩
  · exact ⟨by decide, ⟨true, true⟩, _, rfl, .of_source rfl rfl⟩

/-- An Elias array encoder looks for a zero in its array, and then at the capacity (44_elias.md R246). -/
theorem runsAfterChecks_eliasEncoder {c : Code} {wide : Bool} (hi : (i, c, wide) ∈ eliasEncoders)
    (hr : Reads s s.regs.src.toNat (elementBytes wide * s.regs.cnt.toNat)) :
    let vs := arrayAt s.mem s.regs.src.toNat (elementBytes wide) s.regs.cnt.toNat
    let size := ceilDiv (codeStream c vs).length 8
    RunsAfterChecks i s (do
      checkNonzero vs
      raiseIf (s.regs.dstcap.toNat < size || 2 ^ 64 ≤ (codeStream c vs).length) .dstOverrun size
      let u ← writePhase s s.regs.dst.toNat (bytesOfBits (codeStream c vs))
      return (u.withEliasMeta vs.length (codeStream c vs).length size).withRes (word size)) := by
  intro vs size
  obtain ⟨hexec, -⟩ := exec_eliasEncoder hi s
  have hextents : sourceExtent i s = (s.regs.src.toNat, elementBytes wide * s.regs.cnt.toNat) ∧
      destExtent i s = (s.regs.dst.toNat, s.regs.dstcap.toNat) := by fin_cases hi <;> exact ⟨rfl, rfl⟩
  obtain ⟨hsource, hdest⟩ := hextents
  rw [RunsAfterChecks, hexec, codeEncode, hsource, hdest]
  dsimp only
  rw [readArray_of_reads _ _ _ _ hr, attempt_ok_bind]
  rfl

end

/-! ### Outputs that do not fit -/

section
variable {i : Instr} {s : State}

theorem eliasEncoder_overruns {c : Code} {wide : Bool} (hi : (i, c, wide) ∈ eliasEncoders) (hf : s.faulted = false)
    (ha : ExtentsAdmitted (sourceExtent i s) (destExtent i s))
    (hr : Reads s s.regs.src.toNat (elementBytes wide * s.regs.cnt.toNat))
    (hnonzero : ∀ x ∈ arrayAt s.mem s.regs.src.toNat (elementBytes wide) s.regs.cnt.toNat, x ≠ 0) :
    let t := codeStream c (arrayAt s.mem s.regs.src.toNat (elementBytes wide) s.regs.cnt.toNat)
    s.regs.dstcap.toNat < ceilDiv t.length 8 → Faults i s .dstOverrun (ceilDiv t.length 8) := by
  intro t hcap
  obtain ⟨-, hw⟩ := exec_eliasEncoder hi s
  refine RunsAfterChecks.faults (runsAfterChecks_eliasEncoder hi hr) hf hw ha ?_
  rw [checkNonzero_of_nonzero hnonzero, attempt_ok_bind, decide_eq_true hcap, Bool.true_or, raiseIf_true]
  rfl

/-- The capacity check of the bit writer comes before it reads the byte at its position (44_elias.md R224). -/
theorem bwAppend_overrun {t : List Bool} (ht : t ≠ []) (ha : InSpace s.regs.bwBase.toNat s.regs.bwCap.toNat)
    (hover : s.regs.bwCap.toNat < ceilDiv (s.regs.bwPos.toNat + t.length) 8 ∨
      2 ^ 64 ≤ s.regs.bwPos.toNat + t.length) :
    bwAppend s t = .error (.raise .dstOverrun (ceilDiv (s.regs.bwPos.toNat + t.length) 8)) := by
  have hlen : t.length ≠ 0 := by simpa using ht
  have hcheck : (decide (s.regs.bwCap.toNat < ceilDiv (s.regs.bwPos.toNat + t.length) 8) ||
      decide (2 ^ 64 ≤ s.regs.bwPos.toNat + t.length)) = true := by
    rwa [Bool.or_eq_true, decide_eq_true_eq, decide_eq_true_eq]
  rw [bwAppend, checkRange_of_inSpace ha, attempt_ok_bind]
  dsimp only
  rw [if_neg hlen, hcheck, raiseIf_true]
  rfl

end

/-- Settles O24: past the checks and the reading of a legal array, each encoder comes to its capacity check. -/
theorem oversizedOutputFaults : Obligations.OversizedOutputFaults := by
  intro s hf
  refine ⟨fun hreach ha hr hcap => ?_, fun p hp ha hr hm hcap => ?_, fun p hp ha hr hnonzero hcap => ?_,
    fun i t h ht ha hover => ?_⟩
  · obtain ⟨hw, hcount, -⟩ := hreach
    exact (runsAfterChecks_gvEnc hr (hcount (.inl rfl))).overruns hf hw ha hcap
  · obtain ⟨-, hw, -⟩ := exec_bpEncoder (i := p.1) (v := p.2) hp s
    exact (runsAfterChecks_bpEncoder hp hr hm).overruns hf hw ha hcap
  · exact eliasEncoder_overruns (i := p.1) (c := p.2.1) (wide := p.2.2) hp hf ha hr hnonzero hcap
  · obtain ⟨hw, w, hexec⟩ := exec_bitWriter h
    exact faults_of_raise hf hw (by rw [hexec, bwAppend_overrun ht ha hover]; rfl)

/-! ### Rejected input values -/

/-- The least index at which the values decrease, counted from `k + 1` for the second. -/
theorem firstDecrease_eq_some {k j : Nat} {vs : List Nat} (hj : j + 1 < vs.length)
    (hdec : vs.getD (j + 1) 0 < vs.getD j 0) (hbefore : ∀ l < j, vs.getD l 0 ≤ vs.getD (l + 1) 0) :
    firstDecrease (k + 1) vs = some (k + j + 1) := by
  induction j generalizing k vs with
  | zero =>
    obtain _ | ⟨x, _ | ⟨y, rest⟩⟩ := vs
    · simp at hj
    · simp at hj
    · exact if_pos hdec
  | succ j ih =>
    obtain _ | ⟨x, _ | ⟨y, rest⟩⟩ := vs
    · simp at hj
    · simp at hj
    · have hxy : x ≤ y := hbefore 0 (Nat.succ_pos j)
      rw [firstDecrease, if_neg (Nat.not_lt.mpr hxy),
        ih (by simpa using hj) hdec fun l hl => hbefore (l + 1) (Nat.succ_lt_succ hl)]
      congr 1
      omega

/-- The least index of a zero, counted from `k`. -/
theorem firstZero_eq_some {k j : Nat} {vs : List Nat} (hj : j < vs.length) (hzero : vs.getD j 0 = 0)
    (hbefore : ∀ l < j, vs.getD l 0 ≠ 0) : firstZero k vs = some (k + j) := by
  induction vs generalizing k j with
  | nil => simp at hj
  | cons x vs ih =>
    cases j with
    | zero => exact if_pos hzero
    | succ j =>
      have hx : x ≠ 0 := hbefore 0 (Nat.succ_pos j)
      rw [firstZero, if_neg hx,
        ih (by simpa using hj) hzero fun l hl => hbefore (l + 1) (Nat.succ_lt_succ hl)]
      congr 1
      omega

section
variable {i : Instr} {s : State} {j : Nat}

theorem deltaReader_nonmonotone {esz : Nat} (hi : (i, esz) ∈ deltaReaders) (hf : s.faulted = false)
    (ha : ExtentsAdmitted (sourceExtent i s) (destExtent i s))
    (hr : Reads s s.regs.src.toNat (esz * s.regs.cnt.toNat)) :
    let vs := arrayAt s.mem s.regs.src.toNat esz s.regs.cnt.toNat
    1 ≤ j → j < vs.length → vs.getD j 0 < vs.getD (j - 1) 0 →
    (∀ k < j, 1 ≤ k → vs.getD (k - 1) 0 ≤ vs.getD k 0) → Faults i s .nonmonotone j := by
  intro vs h1 hj hdec hbefore
  obtain ⟨j, rfl⟩ : ∃ l, j = l + 1 := ⟨j - 1, by omega⟩
  have hfirst : firstDecrease 1 vs = some (0 + j + 1) :=
    firstDecrease_eq_some hj hdec fun l hl => hbefore (l + 1) (Nat.succ_lt_succ hl) (Nat.succ_pos l)
  rw [Nat.zero_add] at hfirst
  obtain ⟨hw, v, g, hdelta, hrun⟩ := runsAfterChecks_deltaReader (s := s) hi
  refine hrun.faults hf hw ha ?_
  rw [readArray_of_reads _ _ _ _ hr, attempt_ok_bind, checkMonotone, if_pos hdelta, hfirst]
  rfl

theorem eliasEncoder_zeroInput {c : Code} {wide : Bool} (hi : (i, c, wide) ∈ eliasEncoders) (hf : s.faulted = false)
    (ha : ExtentsAdmitted (sourceExtent i s) (destExtent i s))
    (hr : Reads s s.regs.src.toNat (elementBytes wide * s.regs.cnt.toNat)) :
    let vs := arrayAt s.mem s.regs.src.toNat (elementBytes wide) s.regs.cnt.toNat
    j < vs.length → vs.getD j 0 = 0 → (∀ k < j, vs.getD k 0 ≠ 0) → Faults i s .zeroInput j := by
  intro vs hj hzero hbefore
  obtain ⟨-, hw⟩ := exec_eliasEncoder hi s
  have hfirst : firstZero 0 vs = some j := by rw [firstZero_eq_some hj hzero hbefore, Nat.zero_add]
  refine RunsAfterChecks.faults (runsAfterChecks_eliasEncoder hi hr) hf hw ha ?_
  rw [checkNonzero, hfirst]
  rfl

/-- `EG.PUT` and `ED.PUT` look at `ARG` before their buffer (44_elias.md R231, R238). -/
theorem codePut_of_zero (i : Instr) (c : Code) (h : s.regs.arg = 0) :
    codePut i c s = command i s (.error (.raise .zeroInput 0)) := by
  simp [codePut, h]

end

/-- Settles O25: the first value that the check of an array rejects, and a single value looked at alone. -/
theorem badInputValuesFault : Obligations.BadInputValuesFault := by
  intro s hf
  refine ⟨fun p hp j ha hr h1 hj hdec hbefore => ?_, fun p hp j ha hr hj hzero hbefore => ?_, fun h => ⟨?_, ?_⟩⟩
  · exact deltaReader_nonmonotone (i := p.1) (esz := p.2) hp hf ha hr h1 hj hdec hbefore
  · exact eliasEncoder_zeroInput (i := p.1) (c := p.2.1) (wide := p.2.2) hp hf ha hr hj hzero hbefore
  · exact faults_of_raise hf (by decide) (codePut_of_zero .egPut .gamma h)
  · exact faults_of_raise hf (by decide) (codePut_of_zero .edPut .delta h)

end Sys2Proof.Machine
end

section
/-! PROOF. What the decoders report of buffers that are too short (60_exceptions.md R305 3d, 3f): the source of a group
(42_group_varint.md R152, R153) or of a 64-bit BP128 stream (43_bp128.md R208), and the destination of decoded values. -/

namespace Sys2Proof.Machine

/-! ### Groups (R152, R153) -/

section
variable {s : State}

theorem gvReadWidths_underrun {c : Nat} (h : s.regs.srclen.toNat < 1 + ceilDiv c 4) :
    gvReadWidths s c = .error (.raise .srcUnderrun (1 + ceilDiv c 4)) := by
  simp [gvReadWidths, h]

theorem gvReadField_underrun {off w : Nat} (h : s.regs.srclen.toNat < off + w) :
    gvReadField s off w = .error (.raise .srcUnderrun (off + w)) := by
  simp [gvReadField, h]

/-- Behind sound fields, the first that is not is how the reading of a group's fields ends. -/
theorem gvReadFields_group_error {n k : Nat} {e : Stop} (hk : k < n) (hbefore : ∀ l < k, FieldSound s l)
    (he : gvReadField s (fieldOffset s k) (fieldWidth s k) = .error e) :
    gvReadFields s (fieldOffset s 0) (groupWidths s.mem s.regs.src.toNat n) = .error e := by
  have hfield : ∀ l ≤ k, gvReadField s (fieldOffset s 0 + ((groupWidths s.mem s.regs.src.toNat n).take l).sum)
      ((groupWidths s.mem s.regs.src.toNat n).getD l 0) = gvReadField s (fieldOffset s l) (fieldWidth s l) := by
    intro l hl
    rw [groupWidths_take _ _ _ (by omega), groupWidths_getD _ _ _ (by omega)]
    rfl
  refine gvReadFields_error (k := k) (by rwa [groupWidths_length]) (fun l hl => ?_) ((hfield k le_rfl).trans he)
  obtain ⟨hfits, hread⟩ := hbefore l hl
  exact ⟨_, (hfield l hl.le).trans (gvReadField_of_reads hfits hread)⟩

/-- A group without its count byte. -/
theorem group_underrun_count {i : Instr} (hi : i ∈ [Instr.gvDec, .gvGetf]) (hf : s.faulted = false)
    (ha : ExtentsAdmitted (s.regs.src.toNat, s.regs.srclen.toNat) (destExtent i s))
    (hl : s.regs.srclen.toNat = 0) : Faults i s .srcUnderrun 1 := by
  have hcheck {g : Unit → Attempt State} :
      (raiseIf (decide (s.regs.srclen.toNat < 1)) .srcUnderrun 1 >>= g) = .error (.raise .srcUnderrun 1) := by
    rw [hl]; rfl
  simp only [List.mem_cons, List.not_mem_nil, or_false] at hi
  rcases hi with rfl | rfl
  · exact RunsAfterChecks.faults rfl hf (by decide) ha hcheck
  · exact RunsAfterChecks.faults (.of_source rfl rfl) hf (by decide) ha hcheck

section
variable (hf : s.faulted = false) (hc : 1 ≤ groupCount s ∧ groupCount s ≤ 64)
include hf hc

/-- A group whose bitmap is cut short. -/
theorem group_underrun_bitmap {i : Instr} (hi : i ∈ [Instr.gvDec, .gvGetf])
    (ha : ExtentsAdmitted (s.regs.src.toNat, s.regs.srclen.toNat) (destExtent i s))
    (harg : i = .gvGetf → s.regs.arg.toNat < groupCount s) (h1 : 1 ≤ s.regs.srclen.toNat)
    (hr : Reads s s.regs.src.toNat 1) (hcut : s.regs.srclen.toNat < 1 + ceilDiv (groupCount s) 4) :
    Faults i s .srcUnderrun (1 + ceilDiv (groupCount s) 4) := by
  have hwidths := gvReadWidths_underrun hcut
  simp only [List.mem_cons, List.not_mem_nil, or_false] at hi
  rcases hi with rfl | rfl
  · exact (runsAfterChecks_gvDec h1 hr hc).faults hf (by decide) ha (bind_error hwidths)
  · exact (runsAfterChecks_gvGetf h1 hr hc (harg rfl)).faults hf (by decide) ha (bind_error hwidths)

variable (hl : 1 + ceilDiv (groupCount s) 4 ≤ s.regs.srclen.toNat)
  (hr : Reads s s.regs.src.toNat (1 + ceilDiv (groupCount s) 4))
include hl hr

/-- `GV.GETF` looks for the end of its one field. -/
theorem gvGetf_underrun_field (ha : InSpace s.regs.src.toNat s.regs.srclen.toNat)
    (hi : s.regs.arg.toNat < groupCount s)
    (hcut : s.regs.srclen.toNat < fieldOffset s s.regs.arg.toNat + fieldWidth s s.regs.arg.toNat) :
    Faults .gvGetf s .srcUnderrun (fieldOffset s s.regs.arg.toNat + fieldWidth s s.regs.arg.toNat) := by
  refine (runsAfterChecks_gvGetf (by omega) (hr.mono (le_refl _) (by omega)) hc hi).faults hf (by decide)
    (extentsAdmitted_source ha) ?_
  rw [gvReadWidths_of_bitmap hl hr, attempt_ok_bind, gvOffset_groupWidths _ _ _ hi.le, groupWidths_getD _ _ _ hi]
  exact bind_error (gvReadField_underrun hcut)

omit hf in
/-- Past its bitmap, `GV.DEC` goes on to the wanted fields and the output. -/
theorem runsAfterChecks_gvDec_fields : RunsAfterChecks .gvDec s (do
    let out ← gvReadFields s (fieldOffset s 0)
      (groupWidths s.mem s.regs.src.toNat (min (groupCount s) s.regs.cnt.toNat))
    let t ← writeOutput s (arrayBytes 8 out)
    return t.withResults (word (min (groupCount s) s.regs.cnt.toNat)) (word (fieldOffset s (groupCount s)))) := by
  have hrun := runsAfterChecks_gvDec (by omega) (hr.mono (le_refl _) (by omega)) hc
  rwa [gvReadWidths_of_bitmap hl hr, attempt_ok_bind, groupWidths_take _ _ _ (Nat.min_le_left _ _),
    gvOffset_groupWidths _ _ _ (Nat.zero_le _), gvOffset_groupWidths _ _ _ le_rfl] at hrun

variable (ha : ExtentsAdmitted (s.regs.src.toNat, s.regs.srclen.toNat) (s.regs.dst.toNat, s.regs.dstcap.toNat))
include ha

/-- `GV.DEC` looks for the end of each wanted field in turn. -/
theorem gvDec_underrun_field {k : Nat} (hk : k < min (groupCount s) s.regs.cnt.toNat)
    (hbefore : ∀ l < k, FieldSound s l) (hcut : s.regs.srclen.toNat < fieldOffset s k + fieldWidth s k) :
    Faults .gvDec s .srcUnderrun (fieldOffset s k + fieldWidth s k) :=
  (runsAfterChecks_gvDec_fields hc hl hr).faults hf (by decide) ha
    (bind_error (gvReadFields_group_error hk hbefore (gvReadField_underrun hcut)))

/-- The wanted fields take eight bytes each at the destination. -/
theorem gvDec_overruns (hfields : ∀ k < min (groupCount s) s.regs.cnt.toNat, FieldSound s k)
    (hcap : s.regs.dstcap.toNat < 8 * min (groupCount s) s.regs.cnt.toNat) :
    Faults .gvDec s .dstOverrun (8 * min (groupCount s) s.regs.cnt.toNat) := by
  have hrun := runsAfterChecks_gvDec_fields hc hl hr
  rw [gvReadFields_of_group hfields, attempt_ok_bind] at hrun
  have hsize : (arrayBytes 8 (groupValues s.mem s.regs.src.toNat (groupCount s)
      (min (groupCount s) s.regs.cnt.toNat))).length = 8 * min (groupCount s) s.regs.cnt.toNat := by simp
  rw [← hsize] at hcap ⊢
  exact hrun.overruns hf (by decide) ha hcap

end

end

/-! ### Decoded arrays -/

section
variable {i : Instr} {s : State} {vs : List Nat}

/-- An encoder's stream whose values do not fit the destination (43_bp128.md R208). -/
theorem bpDecoder_overruns {v : Variant} (hi : (i, v) ∈ bpDecoders) (hf : s.faulted = false)
    (h : HoldsStream s v vs)
    (ha : ExtentsAdmitted (s.regs.src.toNat, s.regs.srclen.toNat) (s.regs.dst.toNat, s.regs.dstcap.toNat))
    (hcap : s.regs.dstcap.toNat < v.esz * vs.length) : Faults i s .dstOverrun (v.esz * vs.length) := by
  obtain ⟨-, hw⟩ := exec_bpDecoder hi s
  obtain ⟨hsource, hdest⟩ := bpDecoder_extents (s := s) hi
  rw [← hsource, ← hdest] at ha
  rw [← arrayBytes_length] at hcap ⊢
  exact (runsAfterChecks_bpDecoder hi h.decodeStream_eq).overruns hf hw ha hcap

/-- The bytes of a stream hold its bits. -/
theorem Reads.readsBits {a n : Nat} (h : Reads s a (ceilDiv n 8)) : ReadsBits s a 0 n := by
  intro k hk
  rw [Nat.zero_add]
  exact h (k / 8) (Nat.add_lt_add_iff_left.mp (bit_byte_lt a k n hk))

/-- Code words, and no more, whose values do not fit the destination (44_elias.md R247). -/
theorem eliasDecoder_overruns {c : Code} {wide : Bool} (hi : (i, c, wide) ∈ eliasDecoders) (hf : s.faulted = false)
    (hvs : ∀ x ∈ vs, 1 ≤ x ∧ x < 2 ^ (8 * elementBytes wide)) (hcnt : vs.length ≤ s.regs.cnt.toNat)
    (hlen : s.regs.bitlen.toNat = (vs.flatMap c.word).length)
    (hbits : bitsAt s.mem s.regs.src.toNat 0 (vs.flatMap c.word).length = vs.flatMap c.word)
    (ha : ExtentsAdmitted (s.regs.src.toNat, ceilDiv (vs.flatMap c.word).length 8)
      (s.regs.dst.toNat, s.regs.dstcap.toNat))
    (hr : Reads s s.regs.src.toNat (ceilDiv (vs.flatMap c.word).length 8))
    (hcap : s.regs.dstcap.toNat < elementBytes wide * vs.length) :
    Faults i s .dstOverrun (elementBytes wide * vs.length) := by
  have h64 : 8 * elementBytes wide ≤ 64 := by cases wide <;> decide
  obtain ⟨-, hw, hsource, hdest⟩ := exec_eliasDecoder hi s
  have hdecode : decodeCodes s c s.regs.src.toNat s.regs.bitlen.toNat (8 * elementBytes wide) s.regs.cnt.toNat 0 =
      .ok (vs, (vs.flatMap c.word).length, false) :=
    decodeCodes_of_words (malf := false) (seen := 0) h64 hvs hcnt hlen.ge hbits ⟨.inr hlen.symm, rfl⟩ hr.readsBits
  rw [← hlen, ← hsource, ← hdest] at ha
  rw [← arrayBytes_length] at hcap ⊢
  exact (runsAfterChecks_eliasDecoder hi hdecode).overruns hf hw ha hcap

end

/-- Settles O26, decoder by decoder: each check of a length stands before the access that needs it. -/
theorem shortBuffersFaultTheDecoders : Obligations.ShortBuffersFaultTheDecoders := by
  intro s hf a len cap dest
  refine ⟨fun hsrc => ⟨fun hl => ⟨?_, fun ha => ?_⟩, fun h1 hr hc1 hc64 hcut => ⟨fun harg => ?_, fun ha => ?_⟩,
    fun hc1 hc64 hl hr => ⟨fun harg hcut => ?_, fun k hk ha hbefore hcut => ?_, fun ha hfits hcap => ?_⟩⟩,
    fun p hp hw hl ha => ?_, fun p hp vs hvs hm hcnt hlen hbytes ha hr hcap => ?_,
    fun p hp vs hvs hcnt hlen hbits ha hr hcap => ?_⟩
  · exact group_underrun_count (by simp) hf (extentsAdmitted_source hsrc) hl
  · exact group_underrun_count (by simp) hf ha hl
  · exact group_underrun_bitmap hf ⟨hc1, hc64⟩ (by simp) (extentsAdmitted_source hsrc) (fun _ => harg) h1 hr hcut
  · exact group_underrun_bitmap hf ⟨hc1, hc64⟩ (by simp) ha (by simp) h1 hr hcut
  · exact gvGetf_underrun_field hf ⟨hc1, hc64⟩ hl hr hsrc harg hcut
  · exact gvDec_underrun_field hf ⟨hc1, hc64⟩ hl hr ha hk hbefore hcut
  · exact gvDec_overruns hf ⟨hc1, hc64⟩ hl hr ha hfits hcap
  · have hempty : s.regs.srclen.toNat < 0 + 1 := Nat.lt_one_iff.mpr hl
    exact bpDecoder_faults hp hf ha (decodeStream_varintError (.inl ⟨hw, rfl⟩) (sourceVarint_empty s 0 hempty))
  · have hbytes' : HoldsBytes s.mem a (bpStream p.2 vs) := by rw [HoldsBytes, ← hlen]; exact hbytes
    exact bpDecoder_overruns hp hf ⟨hvs, hm, hcnt, hlen, hbytes', hr⟩ ha hcap
  · exact eliasDecoder_overruns (i := p.1) (c := p.2.1) (wide := p.2.2) hp hf hvs hcnt hlen hbits ha hr hcap

end Sys2Proof.Machine
end
